-- ==== Sys2Proof/Word.lean ====
section
/-! DEFINITION. The word types of the AACDEC block and their plainest arithmetic: bytes, 32-bit registers, the sample
type SAMPLE_T and complex subband samples. -/

namespace Sys2Proof

/-- One byte of the input space IN (20_memory.md R70). -/
abbrev Byte := BitVec 8

/-- A 32-bit host-visible register (10_state.md R24 to R27). -/
abbrev Word32 := BitVec 32

/-- SAMPLE_T, the numeric type of spectral coefficients and time samples, OPEN in 00_scope.md R12.
DESIGN CHOICE (unsafe, log 1): exact rational numbers, an instance of the exact arithmetic 93 U20 admits. -/
abbrev Sample := Rat

/-- A complex subband sample (46_sbr.md R360). -/
structure Cx where
  re : Sample
  im : Sample
  deriving DecidableEq, Repr, Inhabited

namespace Cx

def zero : Cx := ⟨0, 0⟩
def add (a b : Cx) : Cx := ⟨a.re + b.re, a.im + b.im⟩
def mul (a b : Cx) : Cx := ⟨a.re * b.re - a.im * b.im, a.re * b.im + a.im * b.re⟩
def smul (r : Sample) (a : Cx) : Cx := ⟨r * a.re, r * a.im⟩
/-- The squared magnitude. -/
def normSq (a : Cx) : Sample := a.re * a.re + a.im * a.im

end Cx

end Sys2Proof
end

