-- ==== Sys2Proof/Config.lean ====
section
/-! DEFINITION. What an implementation of AACDEC fixes: the table and numeric parameters of 00_scope.md R10 to R12 as plain
data (the structure Params, the ROM space of 20_memory.md R70), the record types the configuration functions speak about,
the configuration functions themselves (00_scope.md R11: opaque, no body) and the free values. -/

namespace Sys2Proof

/-- The closed list of error causes, 60_exceptions.md R450. -/
inductive Cause where
  | syncNotFound | reservedValue | sectionCount | bandRange | pulseInShort
  | huffCodeword | huffSf | sfRange | rvlc | inputTooSmall | pce
  | capability | channelConfig | outputTooSmall | latmUnsupported
  | alloc | quantRange | ltpLag | sbrParam
  | badState | illegalCmd
  deriving DecidableEq, Repr, Inhabited

/-- The capability set CAP, 00_scope.md R10, one flag per member. -/
structure Cap where
  main : Bool
  lc : Bool
  ltp : Bool
  ld : Bool
  er : Bool
  sbr : Bool
  ps : Bool
  psIpdopd : Bool
  hcr : Bool
  rvlc : Bool
  ssr : Bool
  cce : Bool
  mainPred : Bool
  deriving DecidableEq, Repr, Inhabited

/-- One entry of a codebook: code first-read bit first, and its value tuple (30_encoding.md R125). -/
structure Entry where
  code : List Bool
  value : List Int
  deriving DecidableEq, Repr, Inhabited

/-- A codebook parameter (30_encoding.md R125). -/
abbrev Book := List Entry

/-- One row of NUM_SWB and SWB_OFFSET (00_scope.md R11), for a rate index, a frame length and a window kind. -/
structure SwbRow where
  sfIndex : Nat
  frameLen : Nat
  short : Bool
  numSwb : Nat
  offsets : List Nat
  deriving DecidableEq, Repr, Inhabited

/-- Which window table: WL, WS or WLD (45_filterbank.md R333). -/
inductive WinKind where
  | long | short | lowDelay
  deriving DecidableEq, Repr, Inhabited

/-- One rising half of a window: kind, shape (false sine, true Kaiser-Bessel-derived), frame length, coefficients. -/
structure WinRow where
  kind : WinKind
  shape : Bool
  frameLen : Nat
  coef : List Sample
  deriving DecidableEq, Repr, Inhabited

/-- One row of TNS_MAX_BANDS, per rate and window kind (00_scope.md R12). -/
structure TnsRow where
  sfIndex : Nat
  short : Bool
  maxBands : Nat
  deriving DecidableEq, Repr, Inhabited

/-- STAGE_ORDER (44_noiseless.md R280, 90_conflicts.md C10). -/
inductive StageOrder where
  | source | standard
  deriving DecidableEq, Repr, Inhabited

/-- PULSE_STAGE (44_noiseless.md R288, 90_conflicts.md C6). -/
inductive PulseStage where
  | postDequant | preDequant
  deriving DecidableEq, Repr, Inhabited

/-- The six Config registers 0x00 to 0x05 (10_state.md R24); also the layout of CFGW and CFG_RESET. -/
structure CfgRegs where
  defObjectType : BitVec 8
  defSampleRate : Word32
  outputFormat : BitVec 3
  downMatrix : Bool
  oldAdtsFormat : Bool
  noImplicitSbrUpsample : Bool
  deriving DecidableEq, Repr, Inhabited

/-- The fields of an SBR header (46_sbr.md R351, R352). -/
structure SbrHeader where
  ampRes : Nat
  startFreq : Nat
  stopFreq : Nat
  xoverBand : Nat
  freqScale : Nat
  alterScale : Nat
  noiseBands : Nat
  limiterBands : Nat
  limiterGains : Nat
  interpolFreq : Nat
  smoothingMode : Nat
  deriving DecidableEq, Repr, Inhabited

/-- One HF patch: a run of low subbands copied upwards (46_sbr.md R351, R361). -/
structure Patch where
  start : Nat
  len : Nat
  deriving DecidableEq, Repr, Inhabited

/-- The frequency tables and patch map (46_sbr.md R351, R355, R361). -/
structure SbrTables where
  fMaster : List Nat
  fHigh : List Nat
  fLow : List Nat
  fNoise : List Nat
  fLim : List Nat
  kx : Nat
  m : Nat
  patches : List Patch
  deriving DecidableEq, Repr, Inhabited

/-- The part of an SBR grid whose widths no source gives (46_sbr.md R356): the borders after the first, the noise
borders after the first, one resolution flag per envelope (true: high), and the number of payload bits it took. -/
structure SbrGrid where
  envBorders : List Nat
  noiseBorders : List Nat
  highRes : List Bool
  consumed : Nat
  deriving DecidableEq, Repr, Inhabited

/-- The signalled levels of one channel: the frame's envelopes and noise floors, and the last ones of the frame before with
the band edges they were coded on (46_sbr.md R357, R362). -/
structure SbrLevels where
  env : List (List Int)
  noise : List (List Int)
  envPrev : List Int
  envPrevEdges : List Nat
  noisePrev : List Int
  noisePrevEdges : List Nat
  deriving DecidableEq, Repr, Inhabited

/-- What the gain computation of HF_ADJUST is given for one channel (46_sbr.md R362). own is the channel's levels; partner,
of a coupled pair, the other channel's, since level and balance stand in different channels. -/
structure SbrGainArgs where
  hdr : SbrHeader
  tables : SbrTables
  channel : Nat
  tE : List Nat
  tQ : List Nat
  highRes : List Bool
  own : SbrLevels
  partner : Option SbrLevels
  harmonics : List Bool
  harmonicsPrev : List Bool
  xhigh : List (List Cx)
  deriving DecidableEq, Repr, Inhabited

/-- Per slot and per high subband (from kx): gain, noise level and sinusoid level, before smoothing (46_sbr.md R362). -/
structure SbrGainOut where
  gain : List (List Sample)
  noise : List (List Sample)
  sine : List (List Sample)
  deriving DecidableEq, Repr, Inhabited

/-- The covariance of one low subband over a frame's slots (46_sbr.md R361): phi i j is the sum over the slots of the sample i
slots earlier times the conjugate of the one j slots earlier. -/
structure Covariance where
  phi01 : Cx
  phi02 : Cx
  phi11 : Sample
  phi12 : Cx
  phi22 : Sample
  deriving DecidableEq, Repr, Inhabited

/-- A PS mixing matrix before phase rotation: real (47_ps.md R389). -/
structure RealMix where
  h11 : Sample
  h12 : Sample
  h21 : Sample
  h22 : Sample
  deriving DecidableEq, Repr, Inhabited

/-- A PS mixing matrix (h11, h12, h21, h22), complex so that phase rotation fits (47_ps.md R387 to R389). -/
structure Mix where
  h11 : Cx
  h12 : Cx
  h21 : Cx
  h22 : Cx
  deriving DecidableEq, Repr, Inhabited

/-- The transient detector of one parameter band (47_ps.md R381, R385). -/
structure Transient where
  peakDecay : Sample
  smoothNrg : Sample
  smoothPeakDiff : Sample
  deriving DecidableEq, Repr, Inhabited

/-- What LATM_MUX_PARSE finds in the AudioMuxElement's bits after useSameStreamMux (41_parsers.md R186): the three conditions,
and where the embedded ASC begins, counted from the bit after that flag. -/
structure LatmMux where
  numPrograms : Nat
  numLayers : Nat
  uniformFraming : Bool
  ascOffset : Nat
  deriving DecidableEq, Repr, Inhabited

/-- The rest of LATM_MUX_PARSE (41_parsers.md R186): how many bits lie between the end of the embedded ASC and the payload,
and the payload length in bits. -/
structure LatmPayload where
  skip : Nat
  bits : Nat
  deriving DecidableEq, Repr, Inhabited

/-- The table and numeric parameters (00_scope.md R9 to R12). They are plain data held beside the state, in the ROM space
of 20_memory.md R70 (3), so that every statement is about every configuration; no step writes them. -/
structure Params where
  cap : Cap
  maxChannels : Nat
  maxElements : Nat
  nSeg : Nat
  escMaxN : Nat
  rngSeed1 : Word32
  rngSeed2 : Word32
  sfRangeCheckAll : Bool
  pulseStage : PulseStage
  stageOrder : StageOrder
  maxSfbLong : Nat
  maxSfbShort : Nat
  /-- LTP_LAG_MAX when it is not the default 2 * FRAME_LEN. -/
  ltpLagMax : Option Nat
  ltpHistLen : Nat
  ltpHistBase : Nat
  tnsMaxBands : List TnsRow
  syncWindowBytes : Nat
  rvlcEscVal : Int
  cfgReset : CfgRegs
  vcb11Lav : List Nat
  sampleRates : List Nat
  hcb : List Book
  sfcb : Book
  rvlcSf : Book
  rvlcEsc : Book
  swb : List SwbRow
  windows : List WinRow
  ltpCoef : List Sample
  sbrHcb : List Book
  sbrStartBits : List Nat
  sbrNoiseTab : List Cx
  sbrSmooth : List Sample
  sbrMaxBands : Nat
  sbrSlots : Nat
  sbrHistSlots : Nat
  sbrLowDelay : Nat
  psHcb : List Book
  /-- The parameter bands of each iid_mode and icc_mode (47_ps.md R383). -/
  psBands : List Nat
  psPhaseBands : List Nat
  /-- PS_MAP: the parameter band of each lane in the 20-band and in the 34-band configuration. -/
  psMap20 : List Nat
  psMap34 : List Nat
  /-- PS_MAP between resolutions: 10 to 20, 34 to 20, 10 to 34, 20 to 34; for each active band the decoded one. -/
  psResMap : List (List Nat)
  psAllpassGain : List Sample
  psAllpassLen : List Nat
  psSlope : Sample
  psBand0 : Nat
  psAllpassLimit : Nat
  psInputDelay : Nat
  psLongDelay : Nat
  psLongDelayBands : Nat
  psHybridDelay : Nat
  /-- The transient detector's alpha, smoothing factor and gamma (47_ps.md R385). -/
  psPeakAlpha : Sample
  psSmoothing : Sample
  psGamma : Sample
  /-- How far the power complementarity of a window may be off: the format's rounding (45_filterbank.md R333). -/
  windowTol : Sample
  /-- ERRCODE where it is not the default table of 60_exceptions.md R450: (cause, code) pairs, the first one counts. -/
  errCodes : List (Cause × Nat)
  deriving DecidableEq, Repr, Inhabited

namespace Config

/-! ## Tables whose contents no source gives (91 N14, N19, N32, N34, N36): opaque, no body -/

opaque hcbRom : List Book
opaque sfcbRom : Book
opaque rvlcSfRom : Book
opaque rvlcEscRom : Book
opaque swbRom : List SwbRow
opaque windowRom : List WinRow
opaque tnsMaxBandsRom : List TnsRow
opaque sbrHcbRom : List Book
opaque sbrStartBitsRom : List Nat
opaque sbrNoiseRom : List Cx
opaque sbrSmoothRom : List Sample
opaque psHcbRom : List Book
opaque psPhaseBandsRom : List Nat
opaque psMap20Rom : List Nat
opaque psMap34Rom : List Nat
opaque psResMapRom : List (List Nat)
opaque psAllpassGainRom : List Sample
opaque psPeakAlphaRom : Sample
opaque psSmoothingRom : Sample
opaque windowTolRom : Sample
/-- RNG_SEED1 and RNG_SEED2, OPEN (70_reset_and_hazards.md R492). -/
opaque rngSeed1 : Word32
opaque rngSeed2 : Word32

/-- CFG_RESET with the defaults of 10_state.md R24. -/
def cfgReset : CfgRegs where
  defObjectType := 2
  defSampleRate := 44100
  outputFormat := 1
  downMatrix := false
  oldAdtsFormat := false
  noImplicitSbrUpsample := false

/-- The capability set of 95_test_vectors.md's conventions: LC alone. -/
def lcOnly : Cap where
  main := false
  lc := true
  ltp := false
  ld := false
  er := false
  sbr := false
  ps := false
  psIpdopd := false
  hcr := false
  rvlc := false
  ssr := false
  cce := false
  mainPred := false

/-- The configuration State.reset carries: the defaults of 00_scope.md R9 and R12, the conventions of 95_test_vectors.md
where they fix a number, and the choices of log 3. No statement rests on it: each one is about every Params. -/
def params : Params where
  cap := lcOnly
  maxChannels := 2
  maxElements := 16
  nSeg := 4
  escMaxN := 12
  rngSeed1 := rngSeed1
  rngSeed2 := rngSeed2
  sfRangeCheckAll := false
  pulseStage := .postDequant
  stageOrder := .source
  maxSfbLong := 51
  maxSfbShort := 15
  ltpLagMax := none
  ltpHistLen := 4096
  ltpHistBase := 2048
  tnsMaxBands := tnsMaxBandsRom
  syncWindowBytes := 758
  rvlcEscVal := 7
  cfgReset := cfgReset
  vcb11Lav := [15, 31, 47, 63, 95, 127, 159, 191, 223, 255, 319, 383, 511, 767, 1023, 2047]
  sampleRates := [96000, 88200, 64000, 48000, 44100, 32000, 24000, 22050, 16000, 12000, 11025, 8000, 7350]
  hcb := hcbRom
  sfcb := sfcbRom
  rvlcSf := rvlcSfRom
  rvlcEsc := rvlcEscRom
  swb := swbRom
  windows := windowRom
  ltpCoef := [570829 / 1000000, 696616 / 1000000, 813004 / 1000000, 911304 / 1000000,
    984900 / 1000000, 1067894 / 1000000, 1194601 / 1000000, 1369533 / 1000000]
  sbrHcb := sbrHcbRom
  sbrStartBits := sbrStartBitsRom
  sbrNoiseTab := sbrNoiseRom
  sbrSmooth := sbrSmoothRom
  sbrMaxBands := 64
  sbrSlots := 16
  sbrHistSlots := 8
  sbrLowDelay := 0
  psHcb := psHcbRom
  -- Which mode selects which count is the AAC family's (PRESUMED, log 3: 47_ps.md R383 names only the three counts).
  psBands := [10, 20, 34, 10, 20, 34]
  psPhaseBands := psPhaseBandsRom
  psMap20 := psMap20Rom
  psMap34 := psMap34Rom
  psResMap := psResMapRom
  psAllpassGain := psAllpassGainRom
  psAllpassLen := [3, 4, 5]
  psSlope := 1 / 20
  psBand0 := 0
  psAllpassLimit := 32
  psInputDelay := 2
  psLongDelay := 14
  psLongDelayBands := 35
  psHybridDelay := 6
  psPeakAlpha := psPeakAlphaRom
  psSmoothing := psSmoothingRom
  psGamma := 3 / 2
  windowTol := windowTolRom
  errCodes := []

/-! ## Configuration functions (00_scope.md R11): opaque, no body. A required property of the spec is carried by the
type (a homomorphism maps zero to zero) or by the definition over the opaque function in Machine/. -/

/-- The magnitude law of DEQ for a magnitude of 1 or more (44_noiseless.md R289). -/
opaque deqMag : Nat → Int → Sample
/-- TNS_LPC's coefficients a[1..order] (44_noiseless.md R291): order, coef_res, coef_compress, indexes. -/
opaque tnsLpc : Nat → Bool → Bool → List Nat → List Sample
/-- MDCT_FWD of size M (44_noiseless.md R297). -/
opaque mdctFwd : (M : Nat) → (Fin M → Sample) → (Fin (M / 2) → Sample)
/-- IMDCT(M, X): total, IMDCT(M, 0) = 0 (45_filterbank.md R332). -/
opaque imdct : (M : Nat) → ZeroHom (Fin (M / 2) → Sample) (Fin M → Sample)
/-- The feedback bits of the two registers of RNG_STEP; the taps are in no source (44_noiseless.md R300). -/
opaque rngFeedback1 : Word32 → Bool
opaque rngFeedback2 : Word32 → Bool
/-- NOISE_SCALE(sum of squares, energy) (44_noiseless.md R304). -/
opaque noiseScale : Sample → Int → Sample
/-- IS_SCALE(position) (44_noiseless.md R312). -/
opaque isScale : Int → Sample
/-- The rounding of a sample to the 16-bit LTP history (44_noiseless.md R298); nothing is assumed of it, a sample beyond 16 bits
included (log 15). -/
opaque ltpRound : Sample → BitVec 16
/-- What LTP reads outside its history; the history layout is configuration (44_noiseless.md R297). -/
opaque ltpOutside : Int → Int
/-- The scaling of OUT_CONVERT per format, monotone (48_orchestrator.md R428). -/
opaque outScale : Nat → Rat →o Rat
/-- The number OUT_CONVERT gives for the codes 0, 6, 7 no legal Config holds (10_state.md R24). -/
opaque outIllegal : Nat → Sample → Sample
/-- DOWNMIX of five or six channel samples to two (48_orchestrator.md R428). -/
opaque downmix : List Sample → Sample × Sample
/-- LATM_MUX_PARSE (41_parsers.md R186): useSameStreamMux and the bits after it, up to the end of the buffer. -/
opaque latmMux : Bool → List Bool → LatmMux
/-- The rest of LATM_MUX_PARSE: useSameStreamMux, the same bits, and how many of them precede the end of the embedded ASC,
which the lookahead finds (41_parsers.md R187). -/
opaque latmPayload : Bool → List Bool → Nat → LatmPayload
/-- SBR_FREQ_TABLES, the master table (46_sbr.md R355): none is an invalid parameter combination. The model gives it the header
with amp_res and xover_band at 0, which the master table does not depend on. -/
opaque sbrMaster : SbrHeader → Nat → Option (List Nat)
/-- SBR_FREQ_TABLES, the derived tables (46_sbr.md R355), from the master table, the header with amp_res at 0, and the rate. -/
opaque sbrDerived : List Nat → SbrHeader → Nat → SbrTables
/-- The grid's borders from its frame class and the payload bits after it (46_sbr.md R356). -/
opaque sbrGrid : Nat → List Bool → SbrGrid
/-- QMF_A: one slot of the 32-band analysis filter on the last 320 input samples; linear, zero in zero out (46_sbr.md R360). -/
opaque qmfA : (Fin 320 → Sample) →+ (Fin 32 → Sample × Sample)
/-- QMF_S: one slot of the synthesis filter on (history, 64 subbands); true is the 32-band mode (46_sbr.md R363). -/
opaque qmfS : Bool → ((Fin 1280 → Sample) × (Fin 64 → Sample × Sample)) →+ ((Fin 1280 → Sample) × (Fin 64 → Sample))
/-- LPC2: the two prediction coefficients of a low subband from its covariance (46_sbr.md R361). -/
opaque lpc2 : Covariance → Cx × Cx
/-- The determinant up to which a covariance counts as too small (46_sbr.md R361). -/
opaque lpcDetMin : Sample
/-- CHIRP: mode, previous mode, previous factor (46_sbr.md R361). -/
opaque chirp : Nat → Nat → Sample → Sample
/-- The gain computation of SBR_ADJUST (46_sbr.md R362); of its sine levels the model uses those of the centre subbands of
flagged bands only (R358). -/
opaque sbrGain : SbrGainArgs → SbrGainOut
/-- The phase of an injected sinusoid from the phase index (46_sbr.md R362). -/
opaque sbrPhase : Nat → Cx
/-- HYB_A's filter: tap m of the 13 of a split QMF band (47_ps.md R384): 34-band flag, band, tap. -/
opaque hybTap : Bool → Nat → Nat → Sample
/-- HYB_A's DFT: order, output, tap (47_ps.md R384). -/
opaque hybKernel : Nat → Nat → Nat → Cx
/-- HYB_A's reduction of eight outputs to six by adding pairs (47_ps.md R384): which outputs stay alone and which are added, and
where each result goes; the rule names neither. -/
opaque hybOrder : Equiv.Perm (Fin 8)
opaque hybPlace : Equiv.Perm (Fin 6)
/-- PS_TRANSIENT: what is smoothed into smooth_peak_diff, from peak_decay and the power; and the attenuation where
smooth_peak_diff is 0 and the quotient has no value (47_ps.md R385). -/
opaque psPeakDiff : Sample → Sample → Sample
opaque psGainAtZero : Sample → Sample
/-- The phase rotation of all-pass stage m on a band (47_ps.md R386). -/
opaque psRotate : Nat → Nat → Cx
/-- PS_MIX_A and PS_MIX_B away from 0 dB and coherence 1 (47_ps.md R388). -/
opaque psMixA : Int → Int → RealMix
opaque psMixB : Int → Int → RealMix
/-- The rotation exp(j * smoothed angle) from the current and the two previous phase indexes (47_ps.md R389). -/
opaque psPhase : Int → Int → Int → Cx
/-- The legal index range of a PS parameter: which (0 IID, 1 ICC, 2 IPD, 3 OPD) and mode (47_ps.md R382). -/
opaque psIndexLo : Nat → Nat → Int
opaque psIndexHi : Nat → Nat → Int
/-- OUT_LAYOUT: the host bytes of one output sample; no rule depends on it (20_memory.md R74). -/
opaque outLayout : Nat → Sample → List Byte
/-- ERRMSG: the text of a code; no effect on state (60_exceptions.md R451). -/
opaque errMsg : Nat → String
/-- FB_TOL, QMF_TOL and QMF_DELAY (45_filterbank.md R341, 46_sbr.md R365). -/
opaque fbTol : Sample
opaque qmfTol : Sample
opaque qmfDelay : Nat

/-! ## Free values: positions the rules leave open (48_orchestrator.md R427) -/

/-- The position of a single element a PCE lists among its side elements. -/
opaque sideSinglePos : BitVec 4
/-- The position of an element beyond the fallback order center, left, right, back-left, back-right, LFE. -/
opaque fallbackPos : Nat → BitVec 4

end Config

end Sys2Proof
end

