-- ==== Sys2Proof/Syntax.lean ====
section
/-! DEFINITION. The instructions of AACDEC: one constructor for each row of spec/opcode_table.json, over its four
operation spaces (30_encoding.md R100): host commands, Bit Reader operations, VLC engine operations, syntax elements. -/

namespace Sys2Proof

/-- One operation of the block. Counts and positions are plain numbers; their encodable ranges are in WellFormed. -/
inductive Instr where
  -- CMD, host commands (30_encoding.md R101)
  | openHandle
  | getConfig
  | setConfig
  | init
  | init2
  | decode
  | postSeekReset
  | close
  | cmdReserved8
  | cmdReserved9
  | cmdReserved10
  | cmdReserved11
  | cmdReserved12
  | cmdReserved13
  | cmdReserved14
  | cmdReserved15
  -- BR_OP, the Bit Reader and the bit windows (30_encoding.md R102)
  | peek (n : Nat)
  | get (n : Nat)
  | get1
  | flush (n : Nat)
  | byteAlign
  | processedBits
  | rewind
  | resetTo (bitpos : Nat)
  | seek (bitpos : Nat)
  | wPeek (n w : Nat)
  | wConsume (n w : Nat)
  | wConcat (w v : Nat)
  | wReverse (w : Nat)
  | wLoad (n w : Nat)
  | brReserved14
  | brReserved15
  -- VLC_OP, the VLC engine (30_encoding.md R103, R104)
  | hcw0
  | hcw1
  | hcw2
  | hcw3
  | hcw4
  | hcw5
  | hcw6
  | hcw7
  | hcw8
  | hcw9
  | hcw10
  | hcw11
  | hcw12
  | hcw13
  | hcw14
  | hcw15
  | hcw16
  | hcw17
  | hcw18
  | hcw19
  | hcw20
  | hcw21
  | hcw22
  | hcw23
  | hcw24
  | hcw25
  | hcw26
  | hcw27
  | hcw28
  | hcw29
  | hcw30
  | hcw31
  | sfd
  | esc (i : Nat)
  | sgn (p : Nat)
  | rvlcSfd
  | rvlcEscd
  | npcm
  | vlcReserved7
  -- ID_SYN_ELE, the syntax elements (30_encoding.md R105)
  | sce
  | cpe
  | cce
  | lfe
  | dse
  | pce
  | fil
  | endMarker
  deriving DecidableEq, Repr, Inhabited

end Sys2Proof
end

