-- ==== Sys2Proof/WellFormed.lean ====
section
/-! DEFINITION. What a well-formed instruction is (the ranges of 30_encoding.md R102, R103) and what a well-formed
parameter set is (the required properties of 00_scope.md R10 to R12 and 30_encoding.md R125). -/

namespace Sys2Proof

/-- Every operand lies in the range its field can encode: counts are 6 bits (30_encoding.md R102), the index of ESC
and the selector of SGN are one bit (R103). Positions and window numbers are side operands of no fixed width. -/
def Instr.wellFormed : Instr → Bool
  | .peek n => n < 64
  | .get n => n < 64
  | .flush n => n < 64
  | .wPeek n _ => n < 64
  | .wConsume n _ => n < 64
  | .wLoad n _ => n < 64
  | .esc i => i < 2
  | .sgn p => p < 2
  | .openHandle | .getConfig | .setConfig | .init | .init2 | .decode => true
  | .postSeekReset | .close | .cmdReserved8 | .cmdReserved9 | .cmdReserved10 | .cmdReserved11 => true
  | .cmdReserved12 | .cmdReserved13 | .cmdReserved14 | .cmdReserved15 | .get1 | .byteAlign => true
  | .processedBits | .rewind | .resetTo _ | .seek _ | .wConcat _ _ | .wReverse _ => true
  | .brReserved14 | .brReserved15 | .hcw0 | .hcw1 | .hcw2 | .hcw3 => true
  | .hcw4 | .hcw5 | .hcw6 | .hcw7 | .hcw8 | .hcw9 => true
  | .hcw10 | .hcw11 | .hcw12 | .hcw13 | .hcw14 | .hcw15 => true
  | .hcw16 | .hcw17 | .hcw18 | .hcw19 | .hcw20 | .hcw21 => true
  | .hcw22 | .hcw23 | .hcw24 | .hcw25 | .hcw26 | .hcw27 => true
  | .hcw28 | .hcw29 | .hcw30 | .hcw31 | .sfd | .rvlcSfd => true
  | .rvlcEscd | .npcm | .vlcReserved7 | .sce | .cpe | .cce => true
  | .lfe | .dse | .pce | .fil | .endMarker => true

namespace Book

/-- The bit strings of a book, in order. -/
def codes (b : Book) : List (List Bool) := b.map (·.code)

/-- Length of the longest code, maxlen(book) (30_encoding.md R125). -/
def maxLen (b : Book) : Nat := b.foldr (fun e n => max e.code.length n) 0

/-- No entry's code begins another's (30_encoding.md R125 (a)). -/
abbrev prefixFree (b : Book) : Prop := b.codes.Pairwise (fun x y => ¬ x <+: y ∧ ¬ y <+: x)

/-- The Kraft sum scaled by 2 ^ k. -/
def kraft (b : Book) (k : Nat) : Nat := b.foldr (fun e n => 2 ^ (k - e.code.length) + n) 0

/-- The code lengths fill the code space exactly (30_encoding.md R125 (b)). -/
abbrev complete (b : Book) : Prop := b.kraft b.maxLen = 2 ^ b.maxLen

/-- Every infinite bit string begins with a code, and with one only: what CODEWORD needs (30_encoding.md R125 (a), (b)). -/
abbrev walkable (b : Book) : Prop := b.prefixFree ∧ b.complete

/-- Distinct entries have distinct values (30_encoding.md R125 (c), first half). -/
abbrev valuesDistinct (b : Book) : Prop := (b.map (·.value)).Nodup

/-- Every value of the value set occurs, and no other (30_encoding.md R125 (c), second half). -/
abbrev covers (b : Book) (values : List (List Int)) : Prop :=
  (∀ v ∈ values, v ∈ b.map (·.value)) ∧ ∀ e ∈ b, e.value ∈ values

/-- The completeness test of 42_huffman_spectral.md R230: (a), (b) and (c) of 30_encoding.md R125. -/
abbrev wellFormed (b : Book) (values : List (List Int)) : Prop :=
  b.walkable ∧ b.valuesDistinct ∧ b.covers values

end Book

/-! ## Value sets (30_encoding.md R125) -/

/-- The integers lo to hi. -/
def intRangeList (lo hi : Int) : List Int := (List.range (hi - lo + 1).toNat).map (fun i => lo + (i : Nat))

/-- All tuples of n integers of a list. -/
def tuplesOf (l : List Int) : Nat → List (List Int)
  | 0 => [[]]
  | n + 1 => l.flatMap (fun v => (tuplesOf l n).map (fun t => v :: t))

/-- The value set of spectral book t: 81 quads for 1 to 4, 81, 64 or 169 pairs for 5 to 10, 289 pairs for 11. -/
def spectralValues (t : Nat) : List (List Int) :=
  if t ≤ 2 then tuplesOf (intRangeList (-1) 1) 4
  else if t ≤ 4 then tuplesOf (intRangeList 0 2) 4
  else if t ≤ 6 then tuplesOf (intRangeList (-4) 4) 2
  else if t ≤ 8 then tuplesOf (intRangeList 0 7) 2
  else if t ≤ 10 then tuplesOf (intRangeList 0 12) 2
  else tuplesOf (intRangeList 0 16) 2

/-- The value set of SFCB: the indexes 0 to 120 of its 121 entries (00_scope.md R9). -/
def scaleFactorValues : List (List Int) := tuplesOf (intRangeList 0 120) 1

/-! ## Tables (00_scope.md R11, 93_implementation_defined.md U7: each with the properties its rule requires) -/

/-- Each number greater than the one before. -/
abbrev rising (l : List Nat) : Prop := l.Pairwise (· < ·)

/-- A row of SWB_OFFSET: num_swb bands, rising from 0 to the frame length, or an eighth of it for short windows
(44_noiseless.md R281), each a multiple of 4 wide (42_huffman_spectral.md R225). -/
abbrev SwbRow.ok (r : SwbRow) : Prop :=
  r.offsets.length = r.numSwb + 1 ∧ rising r.offsets ∧ r.offsets.headD 1 = 0 ∧ (∀ x ∈ r.offsets, x % 4 = 0) ∧
    r.offsets.getLastD 0 = (if r.short then r.frameLen / 8 else r.frameLen)

/-- The length of a rising half window (45_filterbank.md R333). -/
def WinRow.halfLen (r : WinRow) : Nat := if r.kind = .short then r.frameLen / 8 else r.frameLen

/-- A row of WL, WS or WLD: a whole rising half, power complementary within the format's rounding (45_filterbank.md R333; the
rule asks it of WL and WS). -/
abbrev WinRow.ok (tol : Sample) (r : WinRow) : Prop :=
  r.coef.length = r.halfLen ∧ (r.kind ≠ .lowDelay →
    ∀ n ∈ List.range r.halfLen,
      |r.coef.getD n 0 * r.coef.getD n 0 + r.coef.getD (r.halfLen - 1 - n) 0 * r.coef.getD (r.halfLen - 1 - n) 0 - 1| ≤ tol)

namespace Params

/-- The properties of 00_scope.md R10 and R12 that bound the numeric parameters: LC is a member of CAP, PS needs SBR
(47_ps.md), at least two channels, and ESC_MAX_N small enough for 16-bit tuple registers (42_huffman_spectral.md R221). -/
def numbersOk (p : Params) : Bool :=
  p.cap.lc && (!p.cap.ps || p.cap.sbr) && decide (2 ≤ p.maxChannels) && decide (p.escMaxN ≤ 12)

/-- The spectral books 1 to 11 and SFCB have their value sets (30_encoding.md R125, 42_huffman_spectral.md R230). -/
abbrev booksOk (p : Params) : Prop :=
  (∀ t ∈ [1, 2, 3, 4, 5, 6, 7, 8, 9, 10, 11], (p.hcb.getD t []).wellFormed (spectralValues t)) ∧
    p.sfcb.wellFormed scaleFactorValues

/-- The legitimate results of RVLC_SFD and RVLC_ESCD: differences, escapes, and differences extended by an escape. -/
def rvlcResults (p : Params) : List Int :=
  let esc := p.rvlcEsc.map (fun e => e.value.getD 0 0)
  p.rvlcSf.map (fun e => e.value.getD 0 0) ++ esc ++ esc.map (fun x => p.rvlcEscVal + x) ++ esc.map (fun x => - p.rvlcEscVal - x)

/-- The RVLC tables: prefix-free, not necessarily complete; differences up to the escape value, escapes not negative
(43_scalefactor_rvlc.md R263, R264). -/
abbrev rvlcCodesOk (p : Params) : Prop :=
  p.rvlcSf.prefixFree ∧ p.rvlcSf.valuesDistinct ∧
    (∀ e ∈ p.rvlcSf, e.value.length = 1 ∧ |e.value.getD 0 0| ≤ p.rvlcEscVal) ∧
    p.rvlcEsc.prefixFree ∧ p.rvlcEsc.valuesDistinct ∧ ∀ e ∈ p.rvlcEsc, e.value.length = 1 ∧ 0 ≤ e.value.getD 0 0

/-- The RVLC tables with their last required property: no legitimate result is the sentinel 99 (R263). -/
abbrev rvlcOk (p : Params) : Prop := p.rvlcCodesOk ∧ 99 ∉ p.rvlcResults

/-- The SBR and PS books, whose value sets no rule gives (46_sbr.md R357, 47_ps.md R382). -/
abbrev sbrBooksOk (p : Params) : Prop :=
  ∀ b ∈ p.sbrHcb ++ p.psHcb, b.walkable ∧ b.valuesDistinct ∧ ∀ e ∈ b, e.value.length = 1

/-- Band offsets and windows. -/
abbrev layoutOk (p : Params) : Prop :=
  (∀ r ∈ p.swb, r.ok) ∧ ∀ r ∈ p.windows, r.ok p.windowTol

/-- Every table has the properties its rule requires; a parameter set without them is refused. -/
abbrev tablesOk (p : Params) : Prop := p.booksOk ∧ p.rvlcOk ∧ p.sbrBooksOk ∧ p.layoutOk

/-- A legal parameter set: numbers and tables. -/
abbrev wellFormed (p : Params) : Prop := p.numbersOk = true ∧ p.tablesOk

/-- The capabilities the spec gives no meaning to are left out of CAP (00_scope.md R10). -/
def refusesUnmodelled (p : Params) : Bool :=
  !p.cap.hcr && !p.cap.ssr && !p.cap.cce && !p.cap.mainPred

end Params

end Sys2Proof
end

