-- ==== Sys2Proof/Decode.lean ====
section
/-! DEFINITION. The decoder of the four operation spaces, total on any word, and after it the encoder
(30_encoding.md R100 to R105, R130). -/

namespace Sys2Proof

/-- The four operation spaces of 30_encoding.md R100. -/
inductive Port where
  | cmd | bitReader | vlc | element
  deriving DecidableEq, Repr, Inhabited

/-- The operands of a Bit Reader operation that stand beside its 10-bit word: a bit position and two window numbers
(30_encoding.md R102 gives no field for them). -/
structure Side where
  bitpos : Nat
  w : Nat
  v : Nat
  deriving DecidableEq, Repr, Inhabited

/-- No side operand. -/
def Side.none : Side := ⟨0, 0, 0⟩

/-- A refusal of the decoder, by name: the word has more bits than its port carries. -/
inductive DecodeError where
  | wordTooWide (port : Port) (word : Nat)
  deriving DecidableEq, Repr, Inhabited

/-- A 4-bit host command code (30_encoding.md R101). -/
def decodeCmd : Nat → Option Instr
  | 0 => some .openHandle
  | 1 => some .getConfig
  | 2 => some .setConfig
  | 3 => some .init
  | 4 => some .init2
  | 5 => some .decode
  | 6 => some .postSeekReset
  | 7 => some .close
  | 8 => some .cmdReserved8
  | 9 => some .cmdReserved9
  | 10 => some .cmdReserved10
  | 11 => some .cmdReserved11
  | 12 => some .cmdReserved12
  | 13 => some .cmdReserved13
  | 14 => some .cmdReserved14
  | 15 => some .cmdReserved15
  | _ => none

/-- A 10-bit Bit Reader operation: code in bits 9 to 6, count n in bits 5 to 0 (30_encoding.md R102). -/
def decodeBitReader (word : Nat) (side : Side) : Option Instr :=
  let n := word % 64
  match word / 64 with
  | 0 => some (.peek n)
  | 1 => some (.get n)
  | 2 => some .get1
  | 3 => some (.flush n)
  | 4 => some .byteAlign
  | 5 => some .processedBits
  | 6 => some .rewind
  | 7 => some (.resetTo side.bitpos)
  | 8 => some (.seek side.bitpos)
  | 9 => some (.wPeek n side.w)
  | 10 => some (.wConsume n side.w)
  | 11 => some (.wConcat side.w side.v)
  | 12 => some (.wReverse side.w)
  | 13 => some (.wLoad n side.w)
  | 14 => some .brReserved14
  | 15 => some .brReserved15
  | _ => none

/-- The operation HCW cb for each codebook number (30_encoding.md R103, R104). -/
def decodeHcw : Nat → Option Instr
  | 0 => some .hcw0
  | 1 => some .hcw1
  | 2 => some .hcw2
  | 3 => some .hcw3
  | 4 => some .hcw4
  | 5 => some .hcw5
  | 6 => some .hcw6
  | 7 => some .hcw7
  | 8 => some .hcw8
  | 9 => some .hcw9
  | 10 => some .hcw10
  | 11 => some .hcw11
  | 12 => some .hcw12
  | 13 => some .hcw13
  | 14 => some .hcw14
  | 15 => some .hcw15
  | 16 => some .hcw16
  | 17 => some .hcw17
  | 18 => some .hcw18
  | 19 => some .hcw19
  | 20 => some .hcw20
  | 21 => some .hcw21
  | 22 => some .hcw22
  | 23 => some .hcw23
  | 24 => some .hcw24
  | 25 => some .hcw25
  | 26 => some .hcw26
  | 27 => some .hcw27
  | 28 => some .hcw28
  | 29 => some .hcw29
  | 30 => some .hcw30
  | 31 => some .hcw31
  | _ => none

/-- An 8-bit VLC operation: code in bits 7 to 5, cb in bits 4 to 0; ESC and SGN use bit 0 of cb and ignore the rest, the
others ignore all of it (30_encoding.md R103). -/
def decodeVlc (word : Nat) : Option Instr :=
  let cb := word % 32
  match word / 32 with
  | 0 => decodeHcw cb
  | 1 => some .sfd
  | 2 => some (.esc (cb % 2))
  | 3 => some (.sgn (cb % 2))
  | 4 => some .rvlcSfd
  | 5 => some .rvlcEscd
  | 6 => some .npcm
  | 7 => some .vlcReserved7
  | _ => none

/-- A 3-bit id_syn_ele (30_encoding.md R105). -/
def decodeElement : Nat → Option Instr
  | 0 => some .sce
  | 1 => some .cpe
  | 2 => some .cce
  | 3 => some .lfe
  | 4 => some .dse
  | 5 => some .pce
  | 6 => some .fil
  | 7 => some .endMarker
  | _ => none

/-- The decoder: total on every port, word and side operand; a word too wide for its port is refused by name. -/
def decodeWord (port : Port) (word : Nat) (side : Side) : Except DecodeError Instr :=
  let answer := match port with
    | .cmd => decodeCmd word
    | .bitReader => decodeBitReader word side
    | .vlc => decodeVlc word
    | .element => decodeElement word
  match answer with
  | some i => .ok i
  | none => .error (.wordTooWide port word)

/-- The port a table word of nbits bits belongs to: 3 bits an id_syn_ele, 4 a host command, 10 or 16 a Bit Reader
operation. A word given in one whole byte names no port: below 16 it is read as a host command, which is what the block
executes first (70_reset_and_hazards.md R490), else as a VLC operation (DESIGN CHOICE, log 5). -/
def tablePort (nbits w : Nat) : Port :=
  if nbits = 3 then .element
  else if nbits = 4 then .cmd
  else if nbits = 8 then (if w < 16 then .cmd else .vlc)
  else .bitReader

/-- The instruction the decoder reads from a row of spec/opcode_table.json whose bits are w; side operands are 0. -/
def decodeTableWord (nbits w : Nat) : Option Instr :=
  match decodeWord (tablePort nbits w) w Side.none with
  | .ok i => some i
  | .error _ => none

/-! ## The encoder -/

/-- An encoded operation: its port, its word and its side operands. -/
structure Encoded where
  port : Port
  word : Nat
  side : Side
  deriving DecidableEq, Repr, Inhabited

/-- A Bit Reader word from its code and count. -/
def brWord (code n : Nat) : Nat := code * 64 + n

/-- A VLC word from its code and cb field. -/
def vlcWord (code cb : Nat) : Nat := code * 32 + cb

/-- The encoding of an instruction (30_encoding.md R101 to R105); unused fields are 0. -/
def encode : Instr → Encoded
  | .openHandle => ⟨.cmd, 0, Side.none⟩
  | .getConfig => ⟨.cmd, 1, Side.none⟩
  | .setConfig => ⟨.cmd, 2, Side.none⟩
  | .init => ⟨.cmd, 3, Side.none⟩
  | .init2 => ⟨.cmd, 4, Side.none⟩
  | .decode => ⟨.cmd, 5, Side.none⟩
  | .postSeekReset => ⟨.cmd, 6, Side.none⟩
  | .close => ⟨.cmd, 7, Side.none⟩
  | .cmdReserved8 => ⟨.cmd, 8, Side.none⟩
  | .cmdReserved9 => ⟨.cmd, 9, Side.none⟩
  | .cmdReserved10 => ⟨.cmd, 10, Side.none⟩
  | .cmdReserved11 => ⟨.cmd, 11, Side.none⟩
  | .cmdReserved12 => ⟨.cmd, 12, Side.none⟩
  | .cmdReserved13 => ⟨.cmd, 13, Side.none⟩
  | .cmdReserved14 => ⟨.cmd, 14, Side.none⟩
  | .cmdReserved15 => ⟨.cmd, 15, Side.none⟩
  | .peek n => ⟨.bitReader, brWord 0 n, Side.none⟩
  | .get n => ⟨.bitReader, brWord 1 n, Side.none⟩
  | .get1 => ⟨.bitReader, brWord 2 0, Side.none⟩
  | .flush n => ⟨.bitReader, brWord 3 n, Side.none⟩
  | .byteAlign => ⟨.bitReader, brWord 4 0, Side.none⟩
  | .processedBits => ⟨.bitReader, brWord 5 0, Side.none⟩
  | .rewind => ⟨.bitReader, brWord 6 0, Side.none⟩
  | .resetTo b => ⟨.bitReader, brWord 7 0, ⟨b, 0, 0⟩⟩
  | .seek b => ⟨.bitReader, brWord 8 0, ⟨b, 0, 0⟩⟩
  | .wPeek n w => ⟨.bitReader, brWord 9 n, ⟨0, w, 0⟩⟩
  | .wConsume n w => ⟨.bitReader, brWord 10 n, ⟨0, w, 0⟩⟩
  | .wConcat w v => ⟨.bitReader, brWord 11 0, ⟨0, w, v⟩⟩
  | .wReverse w => ⟨.bitReader, brWord 12 0, ⟨0, w, 0⟩⟩
  | .wLoad n w => ⟨.bitReader, brWord 13 n, ⟨0, w, 0⟩⟩
  | .brReserved14 => ⟨.bitReader, brWord 14 0, Side.none⟩
  | .brReserved15 => ⟨.bitReader, brWord 15 0, Side.none⟩
  | .hcw0 => ⟨.vlc, vlcWord 0 0, Side.none⟩
  | .hcw1 => ⟨.vlc, vlcWord 0 1, Side.none⟩
  | .hcw2 => ⟨.vlc, vlcWord 0 2, Side.none⟩
  | .hcw3 => ⟨.vlc, vlcWord 0 3, Side.none⟩
  | .hcw4 => ⟨.vlc, vlcWord 0 4, Side.none⟩
  | .hcw5 => ⟨.vlc, vlcWord 0 5, Side.none⟩
  | .hcw6 => ⟨.vlc, vlcWord 0 6, Side.none⟩
  | .hcw7 => ⟨.vlc, vlcWord 0 7, Side.none⟩
  | .hcw8 => ⟨.vlc, vlcWord 0 8, Side.none⟩
  | .hcw9 => ⟨.vlc, vlcWord 0 9, Side.none⟩
  | .hcw10 => ⟨.vlc, vlcWord 0 10, Side.none⟩
  | .hcw11 => ⟨.vlc, vlcWord 0 11, Side.none⟩
  | .hcw12 => ⟨.vlc, vlcWord 0 12, Side.none⟩
  | .hcw13 => ⟨.vlc, vlcWord 0 13, Side.none⟩
  | .hcw14 => ⟨.vlc, vlcWord 0 14, Side.none⟩
  | .hcw15 => ⟨.vlc, vlcWord 0 15, Side.none⟩
  | .hcw16 => ⟨.vlc, vlcWord 0 16, Side.none⟩
  | .hcw17 => ⟨.vlc, vlcWord 0 17, Side.none⟩
  | .hcw18 => ⟨.vlc, vlcWord 0 18, Side.none⟩
  | .hcw19 => ⟨.vlc, vlcWord 0 19, Side.none⟩
  | .hcw20 => ⟨.vlc, vlcWord 0 20, Side.none⟩
  | .hcw21 => ⟨.vlc, vlcWord 0 21, Side.none⟩
  | .hcw22 => ⟨.vlc, vlcWord 0 22, Side.none⟩
  | .hcw23 => ⟨.vlc, vlcWord 0 23, Side.none⟩
  | .hcw24 => ⟨.vlc, vlcWord 0 24, Side.none⟩
  | .hcw25 => ⟨.vlc, vlcWord 0 25, Side.none⟩
  | .hcw26 => ⟨.vlc, vlcWord 0 26, Side.none⟩
  | .hcw27 => ⟨.vlc, vlcWord 0 27, Side.none⟩
  | .hcw28 => ⟨.vlc, vlcWord 0 28, Side.none⟩
  | .hcw29 => ⟨.vlc, vlcWord 0 29, Side.none⟩
  | .hcw30 => ⟨.vlc, vlcWord 0 30, Side.none⟩
  | .hcw31 => ⟨.vlc, vlcWord 0 31, Side.none⟩
  | .sfd => ⟨.vlc, vlcWord 1 0, Side.none⟩
  | .esc i => ⟨.vlc, vlcWord 2 i, Side.none⟩
  | .sgn p => ⟨.vlc, vlcWord 3 p, Side.none⟩
  | .rvlcSfd => ⟨.vlc, vlcWord 4 0, Side.none⟩
  | .rvlcEscd => ⟨.vlc, vlcWord 5 0, Side.none⟩
  | .npcm => ⟨.vlc, vlcWord 6 0, Side.none⟩
  | .vlcReserved7 => ⟨.vlc, vlcWord 7 0, Side.none⟩
  | .sce => ⟨.element, 0, Side.none⟩
  | .cpe => ⟨.element, 1, Side.none⟩
  | .cce => ⟨.element, 2, Side.none⟩
  | .lfe => ⟨.element, 3, Side.none⟩
  | .dse => ⟨.element, 4, Side.none⟩
  | .pce => ⟨.element, 5, Side.none⟩
  | .fil => ⟨.element, 6, Side.none⟩
  | .endMarker => ⟨.element, 7, Side.none⟩

/-- Decoding what the encoder writes. -/
def decodeEncoded (e : Encoded) : Except DecodeError Instr := decodeWord e.port e.word e.side

end Sys2Proof
end

