-- ==== Sys2Proof/Machine/State.lean ====
section
/-! DEFINITION. The state of AACDEC as plain data: everything 10_state.md, 46_sbr.md R351 and 47_ps.md R381 give the
machine, the two host memory spaces, the host's queue of operations, and the reasons a step can stop. -/

namespace Sys2Proof.Machine

/-! ## Memory spaces -/

/-- The input space IN: host memory as (address, byte) pairs, addresses strictly rising, no listed byte equal to what an
unlisted address reads as (20_memory.md R70). -/
abbrev Memory := List Host.Cell

/-- The output space OUT: (sample address, number) pairs in the same canonical form (20_memory.md R70, R74). -/
abbrev SampleMemory := List (Nat × Rat)

/-- What an address nothing has written reads as. DESIGN CHOICE (unsafe, log 4): zero in both spaces. -/
def Memory.unwritten : Byte := 0
def SampleMemory.unwritten : Rat := 0

/-! ## Orchestrator, ports, control and status registers -/

/-- ORCH (10_state.md R21). -/
inductive Orch where
  | unopened | opened | initialized | decoding | closed
  deriving DecidableEq, Repr, Inhabited

/-- The host's ports (10_state.md R27, 30_encoding.md R101): the input slice, the output buffer, the scalar argument, the
staged Config values CFGW, and the environment's answer to an allocation (93_implementation_defined.md U13). -/
structure HostPorts where
  inBase : Nat
  inLen : Nat
  outBase : Nat
  outCap : Nat
  arg0 : Word32
  cfgw : CfgRegs
  allocOk : Bool
  deriving DecidableEq, Repr, Inhabited

/-- StreamConfig (10_state.md R25). -/
structure StreamCfg where
  objectType : BitVec 6
  sfIndex : BitVec 4
  sampleRate : Word32
  channelConfig : BitVec 4
  sbrPresent : Bool
  psPresent : Bool
  frameLen : BitVec 11
  headerType : BitVec 2
  erFlags : BitVec 3
  upsample : Bool
  latm : Bool
  deriving DecidableEq, Repr, Inhabited

/-- FrameInfo (10_state.md R26). -/
structure FrameInfo where
  bytesConsumed : Word32
  samples : Word32
  channels : BitVec 8
  channelPos : List (BitVec 4)
  sampleRate : Word32
  objectType : BitVec 6
  headerType : BitVec 2
  sbr : BitVec 2
  ps : Bool
  error : BitVec 8
  deriving DecidableEq, Repr, Inhabited

/-! ## The Bit Reader, the bit windows and the VLC registers -/

/-- BC, the bit cursor over bytes base to base + len - 1 of IN (10_state.md R22); live is false while no cursor exists. -/
structure Cursor where
  live : Bool
  base : Nat
  len : Nat
  pos : Nat
  err : Bool
  deriving DecidableEq, Repr, Inhabited

/-- A bit window: its bits, first-read first, and its underflow flag (10_state.md R23, 40_bitreader.md R155). -/
structure Window where
  bits : List Bool
  under : Bool
  deriving DecidableEq, Repr, Inhabited

/-- Where a VLC operation takes its bits: the cursor, or a window (40_bitreader.md R162). -/
inductive BitSource where
  | main
  | window (w : Nat)
  deriving DecidableEq, Repr, Inhabited

/-- A bounded run of bits of the cursor's slice, from bit pos up to bit stop: the two RVLC runs (43_scalefactor_rvlc.md R262). It
is read through the cursor's bytes and never past their end (20_memory.md R78). -/
structure Run where
  pos : Nat
  stop : Nat
  deriving DecidableEq, Repr, Inhabited

/-- The VLC engine's working registers (10_state.md R32, exact integers by 42_huffman_spectral.md R221 and
43_scalefactor_rvlc.md R258), its bit sources, and ret: the value the last internal operation returned (the model's own
result port, log 7). -/
structure VlcRegs where
  q0 : Int
  q1 : Int
  q2 : Int
  q3 : Int
  escN : Nat
  sfacc : Int
  isPos : Int
  nrg : Int
  noisePcm : Bool
  rvlcErr : Bool
  cwLen : Nat
  source : BitSource
  sfRun : Run
  escRun : Run
  ret : Int
  deriving DecidableEq, Repr, Inhabited

/-- The bit-level engine: cursor, windows, registers. -/
structure Engine where
  bc : Cursor
  bw : List Window
  regs : VlcRegs
  deriving DecidableEq, Repr, Inhabited

/-! ## Per-frame state -/

/-- One section of a window group (44_noiseless.md R282): codebook, first band, end band. -/
structure Section where
  cb : Nat
  first : Nat
  stop : Nat
  deriving DecidableEq, Repr, Inhabited

/-- The ics_info fields (44_noiseless.md R281, R283), which a pair may share. -/
structure IcsInfo where
  windowSequence : BitVec 2
  windowShape : Bool
  maxSfb : Nat
  numWindows : Nat
  groupLens : List Nat
  numSwb : Nat
  swbOffset : List Nat
  sectSfbOffset : List (List Nat)
  deriving DecidableEq, Repr, Inhabited

/-- Pulse side info (44_noiseless.md R287). -/
structure Pulse where
  startSfb : Nat
  offsets : List Nat
  amps : List Nat
  deriving DecidableEq, Repr, Inhabited

/-- One TNS filter (44_noiseless.md R290). -/
structure TnsFilter where
  length : Nat
  order : Nat
  direction : Bool
  compress : Bool
  coef : List Nat
  deriving DecidableEq, Repr, Inhabited

/-- The TNS filters of one window. -/
structure TnsWindow where
  coefRes : Bool
  filters : List TnsFilter
  deriving DecidableEq, Repr, Inhabited

/-- LTP side info (44_noiseless.md R296). -/
structure Ltp where
  lag : Nat
  coef : Nat
  longUsed : List Bool
  deriving DecidableEq, Repr, Inhabited

/-- RVLC side information (43_scalefactor_rvlc.md R262). -/
structure RvlcSide where
  concealment : Bool
  revGlobalGain : Nat
  lengthSf : Nat
  dpcmNoiseNrg : Nat
  escapesPresent : Bool
  lengthEscapes : Nat
  dpcmNoiseLast : Nat
  deriving DecidableEq, Repr, Inhabited

/-- ICS[c], the channel stream (10_state.md R28). -/
structure Ics where
  globalGain : Nat
  info : IcsInfo
  sections : List (List Section)
  sfbCb : List (List Nat)
  scaleFactors : List (List Int)
  noiseUsed : Bool
  isUsed : Bool
  pulse : Option Pulse
  tns : Option (List TnsWindow)
  ltp : Option Ltp
  rvlc : Option RvlcSide
  msMaskPresent : Nat
  msUsed : List (List Bool)
  deriving DecidableEq, Repr, Inhabited

/-- The per-frame arrays of one channel: ICS, QSPEC, SPEC, TIME (10_state.md R28, R30, R31) and TIME2 (46_sbr.md R350),
absent (none or empty) outside their lifetime. -/
structure Chan where
  ics : Option Ics
  qspec : List Int
  spec : List Sample
  time : List Sample
  time2 : List Sample
  deriving DecidableEq, Repr, Inhabited

/-- EL, the current element (10_state.md R29). -/
structure Element where
  id : BitVec 3
  tag : BitVec 4
  channel : Nat
  paired : Bool
  commonWindow : Bool
  sbrData : Bool
  deriving DecidableEq, Repr, Inhabited

/-- One finished channel element of the frame: what 48_orchestrator.md R427 matches against the configuration. -/
structure ElemRec where
  id : BitVec 3
  tag : BitVec 4
  ps : Bool
  deriving DecidableEq, Repr, Inhabited

/-- ADTS, the header scratch record (10_state.md R38). -/
structure Adts where
  skipped : Nat
  id : Bool
  objectType : BitVec 6
  sfIndex : BitVec 4
  channelConfig : BitVec 4
  protectionAbsent : Bool
  frameLength : BitVec 13
  bufferFullness : BitVec 11
  rawBlocks : BitVec 2
  crc : Option (BitVec 16)
  deriving DecidableEq, Repr, Inhabited

/-- One entry of a PCE's front, side or back list (30_encoding.md R123). -/
structure PceElem where
  isCpe : Bool
  tag : Nat
  deriving DecidableEq, Repr, Inhabited

/-- A program config element (30_encoding.md R123, 41_parsers.md R181). -/
structure Pce where
  tag : Nat
  objectType : Nat
  sfIndex : Nat
  front : List PceElem
  side : List PceElem
  back : List PceElem
  lfe : List Nat
  assoc : List Nat
  cc : List PceElem
  monoMixdown : Option Nat
  stereoMixdown : Option Nat
  matrixMixdown : Option (Nat × Bool)
  comment : List Nat
  deriving DecidableEq, Repr, Inhabited

/-- ADIF scratch: what ADIF_HEADER reads (41_parsers.md R179). -/
structure Adif where
  copyrightId : List Nat
  bitstreamType : Bool
  bitrate : Nat
  bufferFullness : List Nat
  pces : List Pce
  deriving DecidableEq, Repr, Inhabited

/-- One channel's part of a parsed SBR payload (46_sbr.md R356 to R358). -/
structure SbrChanData where
  frameClass : Nat
  tE : List Nat
  tQ : List Nat
  highRes : List Bool
  invfModes : List Nat
  env : List (List Int)
  noise : List (List Int)
  harmonics : List Bool
  deriving DecidableEq, Repr, Inhabited

/-- A parsed PS payload (47_ps.md R382): the header after this frame, the borders, and the accumulated indexes. -/
structure PsData where
  enableIid : Bool
  iidMode : Nat
  enableIcc : Bool
  iccMode : Nat
  enableExt : Bool
  enableIpdopd : Bool
  frameClass : Bool
  borders : List Nat
  iid : List (List Int)
  icc : List (List Int)
  ipd : List (List Int)
  opd : List (List Int)
  deriving DecidableEq, Repr, Inhabited

/-- The result of SBR_PARSE, handed to SBR_PROCESS (46_sbr.md R350, R353); header and tables are SbrState's. -/
structure SbrPayload where
  coupling : Bool
  chans : List SbrChanData
  ps : Option PsData
  deriving DecidableEq, Repr, Inhabited

/-- The per-frame state of a DECODE beside the channels: H, the loop of RAW_DATA_BLOCK, the element records, the SBR
payload of the current element and what ran for FI.sbr and FI.ps. -/
structure Frame where
  hdrBytes : Nat
  inBlock : Bool
  el : Option Element
  chans : List Chan
  adts : Option Adts
  adif : Option Adif
  elems : List ElemRec
  sbr : Option SbrPayload
  sbrRan : Bool
  psRan : Bool
  deriving DecidableEq, Repr, Inhabited

/-! ## Long-lived state -/

/-- The PS header held between frames (47_ps.md R381, cfg). -/
structure PsCfg where
  enableIid : Bool
  iidMode : Nat
  enableIcc : Bool
  iccMode : Nat
  enableExt : Bool
  enableIpdopd : Bool
  numEnv : Nat
  border : List Nat
  use34 : Bool
  deriving DecidableEq, Repr, Inhabited

/-- PsState (47_ps.md R381). phaseMode is part of ipd_prev and opd_prev: the iid_mode whose bands they were coded on (R383). -/
structure PsState where
  hybIn : List (List Cx)
  apDelay : List (List (List Cx))
  apIndex : List Nat
  delayLine : List (List Cx)
  delayIndex : List Nat
  transient : List Transient
  iidPrev : List Int
  iccPrev : List Int
  ipdPrev : List Int
  opdPrev : List Int
  phaseMode : Nat
  hPrev : List Mix
  ipdHist : List (Int × Int)
  opdHist : List (Int × Int)
  cfg : PsCfg
  dataSeen : Bool
  deriving DecidableEq, Repr, Inhabited

/-- The per-channel fields of SbrState marked S in 46_sbr.md R351. envPrevEdges and noisePrevEdges are part of env_prev and
noise_prev: the band edges those values stand for, so that "the same band" is found after a change of resolution or of the
tables (R357). -/
structure SbrChan where
  qmfa : List Sample
  qmfs : List Sample
  xlowHist : List (List Cx)
  envPrev : List Int
  envPrevEdges : List Nat
  noisePrev : List Int
  noisePrevEdges : List Nat
  bwPrev : List Sample
  invfPrev : List Nat
  gainHist : List (List Sample)
  noiseHist : List (List Sample)
  noiseIndex : Nat
  harmIndex : Nat
  harmPrev : List Bool
  tEPrevEnd : Nat
  deriving DecidableEq, Repr, Inhabited

/-- SbrState (46_sbr.md R351); hdr is none while hdr_valid = 0, hdrPrev none is the value that differs from every header. -/
structure SbrState where
  hdr : Option SbrHeader
  hdrPrev : Option SbrHeader
  reset : Bool
  tables : SbrTables
  chans : List SbrChan
  frameClassPrev : Nat
  ps : Option PsState
  deriving DecidableEq, Repr, Inhabited

/-- DS, the DecoderState (10_state.md R34), with the stored PCE (48_orchestrator.md R421), the free SBR slots (R423) and
the previous LTP lag per channel (44_noiseless.md R296). -/
structure DecoderState where
  overlap : List (List Sample)
  windowShapePrev : List Bool
  ltpHist : List (List Int)
  ltpLagPrev : List Nat
  rng1 : Word32
  rng2 : Word32
  frame : Word32
  postSeek : Bool
  sbr : List (Option SbrState)
  sbrFree : Nat
  firstElementDone : Bool
  channelsSeen : Nat
  elementsSeen : Nat
  pce : Option Pce
  deriving DecidableEq, Repr, Inhabited

/-- Everything a parse, a VLC operation or an element may write. What is outside (Config, ORCH, IN, OUT, the result and
FrameInfo registers, the parameters) such an operation cannot write, by its type. -/
structure Work where
  eng : Engine
  frm : Frame
  ds : DecoderState
  sc : StreamCfg
  deriving DecidableEq, Repr, Inhabited

/-! ## The host's queue, and the state -/

/-- One operation presented to the block (30_encoding.md R100): a host command with its port values and the stores the
host made to IN before it (20_memory.md R80 (a)); an operation on the Bit Reader's or the VLC engine's internal port; one
pass of the raw_data_block loop, whose selector is read from the bitstream; or, for internal operations outside a command,
BC_CREATE over len bytes at base (40_bitreader.md R140; the model's own, log 8). -/
inductive Issue where
  | command (code : BitVec 4) (ports : HostPorts) (stores : List Host.Cell)
  | bitReader (word : Nat) (side : Side)
  | vlc (word : Nat) (source : BitSource)
  | element
  | create (base len : Nat)
  deriving DecidableEq, Repr, Inhabited

/-- The machine. par is the ROM space (20_memory.md R70 (3)); pending is the host's choice of the next operations, oldest
first; draws counts the free values used (the model's own field, log 6). -/
structure State where
  par : Params
  cmd : BitVec 4
  ports : HostPorts
  pending : List Issue
  inMem : Memory
  outMem : SampleMemory
  orch : Orch
  cfg : CfgRegs
  fi : FrameInfo
  res0 : Word32
  res1 : Word32
  res2 : Word32
  work : Work
  draws : Nat
  deriving DecidableEq, Repr, Inhabited

/-! ## How a step can stop -/

/-- Why the machine stops with a fault. -/
inductive Fault where
  /-- A read of BC, or an operation that needs it, while no cursor exists (10_state.md R37, 93_implementation_defined.md
  U2: "fault"). Raised by the Bit Reader, VLC and element operations. Safe: no command reaches it. -/
  | noCursor
  /-- A bit window numbered N_SEG or above (10_state.md R23: BW[0..N_SEG-1]). Raised by the window operations and by a VLC
  operation whose bit source is such a window. Safe: no such window exists. -/
  | noWindow
  deriving DecidableEq, Repr, Inhabited

/-- Why the model gives an instruction no meaning. -/
inductive Refusal where
  /-- Raised by an arm of exec whose instruction has no meaning yet, named by its mnemonic. Safe: nothing runs. -/
  | notModelled (mnemonic : String)
  deriving DecidableEq, Repr, Inhabited

/-! ## Free values: what the spec calls UNSPEC (00_scope.md R18), opaque functions of the draw counter -/

/-- The VLC working registers after OPEN and after frame abandonment (10_state.md R37, 60_exceptions.md R460). -/
opaque freeRegs : Nat → VlcRegs
/-- The block's state after CLOSE (48_orchestrator.md R409). -/
opaque freeDs : Nat → DecoderState
opaque freeSc : Nat → StreamCfg
opaque freeFi : Nat → FrameInfo
opaque freeCfg : Nat → CfgRegs
opaque freeRes : Nat → Word32
opaque freeWindowBits : Nat → Nat → Window

/-! ## Reset -/

def Run.empty : Run := ⟨0, 0⟩

def VlcRegs.zero : VlcRegs where
  q0 := 0
  q1 := 0
  q2 := 0
  q3 := 0
  escN := 0
  sfacc := 0
  isPos := 0
  nrg := 0
  noisePcm := false
  rvlcErr := false
  cwLen := 0
  source := .main
  sfRun := Run.empty
  escRun := Run.empty
  ret := 0

/-- No cursor. -/
def Cursor.none : Cursor := ⟨false, 0, 0, 0, false⟩

def Window.empty : Window := ⟨[], false⟩

/-- No per-frame state. -/
def Frame.none : Frame where
  hdrBytes := 0
  inBlock := false
  el := Option.none
  chans := []
  adts := Option.none
  adif := Option.none
  elems := []
  sbr := Option.none
  sbrRan := false
  psRan := false

def FrameInfo.zero (maxChannels : Nat) : FrameInfo where
  bytesConsumed := 0
  samples := 0
  channels := 0
  channelPos := List.replicate maxChannels 0
  sampleRate := 0
  objectType := 0
  headerType := 0
  sbr := 0
  ps := false
  error := 0

def CfgRegs.zero : CfgRegs where
  defObjectType := 0
  defSampleRate := 0
  outputFormat := 0
  downMatrix := false
  oldAdtsFormat := false
  noImplicitSbrUpsample := false

def StreamCfg.zero : StreamCfg where
  objectType := 0
  sfIndex := 0
  sampleRate := 0
  channelConfig := 0
  sbrPresent := false
  psPresent := false
  frameLen := 0
  headerType := 0
  erFlags := 0
  upsample := false
  latm := false

/-- The host's ports before any command; allocation succeeds (93_implementation_defined.md U13). -/
def HostPorts.idle : HostPorts where
  inBase := 0
  inLen := 0
  outBase := 0
  outCap := 0
  arg0 := 0
  cfgw := CfgRegs.zero
  allocOk := true

def DecoderState.zero : DecoderState where
  overlap := []
  windowShapePrev := []
  ltpHist := []
  ltpLagPrev := []
  rng1 := 0
  rng2 := 0
  frame := 0
  postSeek := false
  sbr := []
  sbrFree := 0
  firstElementDone := false
  channelsSeen := 0
  elementsSeen := 0
  pce := none

/-- Power-up (70_reset_and_hazards.md R490): ORCH is Unopened; the result registers are 0 (10_state.md R27). Everything
else is UNSPEC there; DESIGN CHOICE (unsafe, log 2): zero, empty or absent. -/
def State.reset : State where
  par := Config.params
  cmd := 0
  ports := HostPorts.idle
  pending := []
  inMem := []
  outMem := []
  orch := .unopened
  cfg := CfgRegs.zero
  fi := FrameInfo.zero Config.params.maxChannels
  res0 := 0
  res1 := 0
  res2 := 0
  work :=
    { eng := { bc := Cursor.none, bw := List.replicate Config.params.nSeg Window.empty, regs := VlcRegs.zero }
      frm := Frame.none
      ds := DecoderState.zero
      sc := StreamCfg.zero }
  draws := 0

end Sys2Proof.Machine
end

