-- ==== Sys2Proof/Machine/Ops.lean ====
section
/-! DEFINITION. The named operations over memory, the bit cursor, the bit windows and the register arrays; the three
program monads of the parsers, the VLC engine and the elements; error codes, and frame abandonment, the one operation
that takes an exception (60_exceptions.md R460). -/

namespace Sys2Proof.Machine

/-! ## Sparse memory in canonical form -/

/-- The value at a key; d is what an unlisted key reads as. -/
def sparseRead {β : Type} (d : β) : List (Nat × β) → Nat → β
  | [], _ => d
  | (k, v) :: r, a => if k = a then v else sparseRead d r a

/-- A write that keeps keys strictly rising and lists no default value. -/
def sparseWrite {β : Type} [DecidableEq β] (d : β) : List (Nat × β) → Nat → β → List (Nat × β)
  | [], a, v => if v = d then [] else [(a, v)]
  | (k, x) :: r, a, v =>
    if a < k then (if v = d then (k, x) :: r else (a, v) :: (k, x) :: r)
    else if k = a then (if v = d then r else (a, v) :: r)
    else (k, x) :: sparseWrite d r a v

/-- The canonical form: keys strictly rising, no entry equal to the default. -/
abbrev sparseWf {β : Type} [DecidableEq β] (d : β) (m : List (Nat × β)) : Prop :=
  m.Pairwise (fun x y => x.1 < y.1) ∧ ∀ x ∈ m, x.2 ≠ d

def Memory.read (m : Memory) (a : Nat) : Byte := sparseRead Memory.unwritten m a
def Memory.write (m : Memory) (a : Nat) (v : Byte) : Memory := sparseWrite Memory.unwritten m a v
abbrev Memory.wf (m : Memory) : Prop := sparseWf Memory.unwritten m

/-- Several stores, first to last. -/
def Memory.writeAll (m : Memory) : List Host.Cell → Memory
  | [] => m
  | (a, v) :: r => Memory.writeAll (m.write a v) r

def SampleMemory.read (m : SampleMemory) (a : Nat) : Rat := sparseRead SampleMemory.unwritten m a
def SampleMemory.write (m : SampleMemory) (a : Nat) (v : Rat) : SampleMemory :=
  sparseWrite SampleMemory.unwritten m a v
abbrev SampleMemory.wf (m : SampleMemory) : Prop := sparseWf SampleMemory.unwritten m

/-- Consecutive samples from address a on (20_memory.md R75). -/
def SampleMemory.writeFrom (m : SampleMemory) (a : Nat) : List Rat → SampleMemory
  | [] => m
  | v :: r => SampleMemory.writeFrom (m.write a v) (a + 1) r

/-! ## Bits (00_scope.md R14) -/

/-- Bit b of the byte slice at base: the most significant bit of a byte is first (20_memory.md R72). -/
def bitAt (m : Memory) (base b : Nat) : Bool := (m.read (base + b / 8)).getLsbD (7 - b % 8)

/-- bits(b, n): n bits from bit b as an unsigned number, the first the most significant. -/
def bitsAt (m : Memory) (base b : Nat) : Nat → Nat
  | 0 => 0
  | n + 1 => 2 * bitsAt m base b n + (bitAt m base (b + n)).toNat

/-- The bits b, b + 1, ..., b + n - 1 as a list. -/
def bitList (m : Memory) (base b n : Nat) : List Bool := (List.range n).map (fun i => bitAt m base (b + i))

/-- A bit string as a number, first bit most significant (00_scope.md R13). -/
def bitsToNat (l : List Bool) : Nat := l.foldl (fun a b => 2 * a + b.toNat) 0

/-- The n low bits of v, most significant first. -/
def natToBits (n v : Nat) : List Bool := (List.range n).map (fun i => v.testBit (n - 1 - i))

/-- The byte with bit position i (0 the most significant) set to b. -/
def setByteBit (v : Byte) (i : Nat) (b : Bool) : Byte :=
  let mask : Byte := BitVec.ofNat 8 (2 ^ (7 - i))
  if b then v ||| mask else v &&& ~~~ mask

/-- IN with bit b of the slice at base set to v: the host's bitwise store, used to place a syntax element. -/
def Memory.setBit (m : Memory) (base b : Nat) (v : Bool) : Memory :=
  m.write (base + b / 8) (setByteBit (m.read (base + b / 8)) (b % 8) v)

/-- Consecutive bits from bit b on. -/
def Memory.setBits (m : Memory) (base b : Nat) : List Bool → Memory
  | [] => m
  | v :: r => Memory.setBits (m.setBit base b v) base (b + 1) r

/-! ## The bit cursor (40_bitreader.md) -/

namespace Cursor

/-- BC_CREATE (R140). -/
def create (base len : Nat) : Cursor := ⟨true, base, len, 0, false⟩

/-- One past the last bit position: 8 * BC.len. -/
def limit (c : Cursor) : Nat := 8 * c.len

/-- BITS_LEFT (R154). -/
def bitsLeft (c : Cursor) : Nat := c.limit - c.pos

/-- Whether a read of n bits succeeds (R141). -/
def canRead (c : Cursor) (n : Nat) : Bool := !c.err && decide (n ≤ 32) && decide (c.pos + n ≤ c.limit)

def fail (c : Cursor) : Cursor := { c with err := true }

/-- PEEK n (R142). -/
def peek (m : Memory) (n : Nat) (c : Cursor) : Nat × Cursor :=
  if c.canRead n then (bitsAt m c.base c.pos n, c) else (0, c.fail)

/-- GET n (R143). -/
def get (m : Memory) (n : Nat) (c : Cursor) : Nat × Cursor :=
  if c.canRead n then (bitsAt m c.base c.pos n, { c with pos := c.pos + n }) else (0, c.fail)

/-- FLUSH n (R145). -/
def flush (n : Nat) (c : Cursor) : Cursor :=
  if c.canRead n then { c with pos := c.pos + n } else c.fail

/-- How many bits BYTE_ALIGN skips (R147). -/
def alignCount (c : Cursor) : Nat := if c.err then 0 else (8 - c.pos % 8) % 8

/-- BYTE_ALIGN (R147). -/
def byteAlign (c : Cursor) : Cursor := { c with pos := c.pos + c.alignCount }

/-- REWIND (R149). -/
def rewind (c : Cursor) : Cursor := { c with pos := 0 }

/-- SEEK bitpos (R151). -/
def seek (b : Nat) (c : Cursor) : Cursor := if b > c.limit then c.fail else { c with pos := b }

/-- ceil(BC.pos / 8): the bytes a parser has consumed (R148). -/
def bytesUsed (c : Cursor) : Nat := (c.pos + 7) / 8

/-- The invariant of 10_state.md R22. -/
def ok (c : Cursor) : Bool := decide (c.pos ≤ c.limit)

end Cursor

/-! ## Bit windows (40_bitreader.md R155 to R163) -/

namespace Window

/-- W_PEEK w, n (R157). -/
def peek (n : Nat) (w : Window) : Nat :=
  if n > 32 then 0 else bitsToNat ((w.bits ++ List.replicate n false).take n)

/-- W_CONSUME w, n (R158). -/
def consume (n : Nat) (w : Window) : Window :=
  if n > w.bits.length then ⟨[], true⟩ else { w with bits := w.bits.drop n }

/-- W_CONCAT w, v (R159). -/
def concat (w v : Window) : Window :=
  if w.bits.length + v.bits.length > 64 then { w with under := true } else { w with bits := w.bits ++ v.bits }

/-- W_REVERSE w (R161). -/
def reverse (w : Window) : Window := { w with bits := w.bits.reverse }

/-- What W_LOAD w, n leaves in the window (R156), given the cursor before it. -/
def load (m : Memory) (n : Nat) (c : Cursor) : Window :=
  if c.canRead n then ⟨natToBits n (bitsAt m c.base c.pos n), false⟩ else ⟨[], false⟩

/-- The capacity of 10_state.md R23. -/
def ok (w : Window) : Bool := decide (w.bits.length ≤ 64)

end Window

/-! ## Runs (43_scalefactor_rvlc.md R262) -/

/-- The next bit of a run of the cursor's bytes, none when the run or the buffer has run out (20_memory.md R78). -/
def Run.next (m : Memory) (k : Cursor) (r : Run) : Option Bool × Run :=
  if r.pos < min r.stop k.limit then (some (bitAt m k.base r.pos), { r with pos := r.pos + 1 }) else (none, r)

/-! ## Arrays -/

/-- Write element i, padding with d when the array is shorter. -/
def setPad {α : Type} (d : α) : List α → Nat → α → List α
  | [], 0, v => [v]
  | [], i + 1, v => d :: setPad d [] i v
  | _ :: r, 0, v => v :: r
  | x :: r, i + 1, v => x :: setPad d r i v

/-- Overwrite elements from start on; the length never changes. -/
def splice {α : Type} (l : List α) (start : Nat) (vals : List α) : List α :=
  (l.take start ++ vals ++ l.drop (start + vals.length)).take l.length

/-- n elements from start on, missing ones d. -/
def slice {α : Type} (d : α) (l : List α) (start n : Nat) : List α :=
  (List.range n).map (fun i => l.getD (start + i) d)

/-- Element k of row g, missing ones d. -/
def grid {α : Type} (d : α) (l : List (List α)) (g k : Nat) : α := (l.getD g []).getD k d

/-! ## Program monads. A program over the cursor cannot touch the registers, one over the engine cannot touch the
frame, one over Work cannot touch Config, ORCH, IN, OUT or the host's registers: by its type. -/

/-- What a program reads: the parameters, IN, and the Config registers. -/
structure Env where
  par : Params
  mem : Memory
  cfg : CfgRegs
  deriving Repr

/-- Parsers: programs over the cursor. -/
abbrev Rd (α : Type) : Type := EStateM Cause Cursor α
/-- VLC operations: programs over cursor, windows and registers. -/
abbrev Vx (α : Type) : Type := EStateM Cause Engine α
/-- Elements and commands: programs over the working state. -/
abbrev Wk (α : Type) : Type := EStateM Cause Work α

/-- raise E(c): while BC.err is set the cause is E_INPUT_TOO_SMALL (60_exceptions.md R455). -/
def adjust (err : Bool) (c : Cause) : Cause := if err then .inputTooSmall else c

namespace Rd

def raise {α : Type} (c : Cause) : Rd α := fun k => .error (adjust k.err c) k

/-- The sync search reports E_SYNC_NOT_FOUND even though its peek set the flag (92_eei_decisions.md D20). -/
def raiseAsIs {α : Type} (c : Cause) : Rd α := fun k => .error c k

/-- A sampling point of BC.err (60_exceptions.md R455). -/
def sample : Rd Unit := fun k => if k.err then .error .inputTooSmall k else .ok () k

def peek (e : Env) (n : Nat) : Rd Nat := fun k => let r := k.peek e.mem n; .ok r.1 r.2
def get (e : Env) (n : Nat) : Rd Nat := fun k => let r := k.get e.mem n; .ok r.1 r.2
def flush (n : Nat) : Rd Unit := fun k => .ok () (k.flush n)
def byteAlign : Rd Unit := fun k => .ok () k.byteAlign
def seek (b : Nat) : Rd Unit := fun k => .ok () (k.seek b)
def cursor : Rd Cursor := fun k => .ok k k

/-- A one-bit field. -/
def bit (e : Env) : Rd Bool := do
  let v ← get e 1
  return v == 1

/-- n fields of width k, first to last. -/
def many (e : Env) (width : Nat) : Nat → Rd (List Nat)
  | 0 => return []
  | n + 1 => do
    let v ← get e width
    let r ← many e width n
    return v :: r

/-- n one-bit fields, first to last. -/
def manyBits (e : Env) : Nat → Rd (List Bool)
  | 0 => return []
  | n + 1 => do
    let v ← bit e
    let r ← manyBits e n
    return v :: r

/-- FLUSH width, n times. -/
def flushMany (width : Nat) : Nat → Rd Unit
  | 0 => return ()
  | n + 1 => do
    flush width
    flushMany width n

/-- Speculative parse (40_bitreader.md R153): on failure the cursor, its flag included, is as it was. -/
def speculate {α : Type} (p : Rd α) : Rd (Except Cause α) := fun k =>
  match p k with
  | .ok a k' => .ok (.ok a) k'
  | .error c _ => .ok (.error c) k

end Rd

namespace Vx

def raise {α : Type} (c : Cause) : Vx α := fun g => .error (adjust g.bc.err c) g

/-- A cursor program inside the engine. -/
def ofRd {α : Type} (p : Rd α) : Vx α := fun g =>
  match p g.bc with
  | .ok a k => .ok a { g with bc := k }
  | .error c k => .error c { g with bc := k }

def regs : Vx VlcRegs := fun g => .ok g.regs g
def setRegs (f : VlcRegs → VlcRegs) : Vx Unit := fun g => .ok () { g with regs := f g.regs }

end Vx

namespace Wk

def raise {α : Type} (c : Cause) : Wk α := fun w => .error (adjust w.eng.bc.err c) w

/-- An engine program inside an element. -/
def ofVx {α : Type} (p : Vx α) : Wk α := fun w =>
  match p w.eng with
  | .ok a g => .ok a { w with eng := g }
  | .error c g => .error c { w with eng := g }

def ofRd {α : Type} (p : Rd α) : Wk α := ofVx (Vx.ofRd p)

def frm : Wk Frame := fun w => .ok w.frm w
def ds : Wk DecoderState := fun w => .ok w.ds w
def sc : Wk StreamCfg := fun w => .ok w.sc w
def setFrm (f : Frame → Frame) : Wk Unit := fun w => .ok () { w with frm := f w.frm }
def setDs (f : DecoderState → DecoderState) : Wk Unit := fun w => .ok () { w with ds := f w.ds }
def setSc (f : StreamCfg → StreamCfg) : Wk Unit := fun w => .ok () { w with sc := f w.sc }

/-- The empty per-frame arrays of a channel. -/
def noChan : Chan := ⟨none, [], [], [], []⟩

def chan (c : Nat) : Wk Chan := fun w => .ok (w.frm.chans.getD c noChan) w
def setChan (c : Nat) (f : Chan → Chan) : Wk Unit := fun w =>
  .ok () { w with frm := { w.frm with
    chans := setPad noChan w.frm.chans c (f (w.frm.chans.getD c noChan)) } }

/-- The bytes of a payload of count bytes that begins at bit start, on their own from address 0. -/
def payloadBytes (m : Memory) (base start count : Nat) : Memory :=
  Memory.setBits [] 0 0 (bitList m base start (8 * count))

/-- Run a parser of a payload of count bytes that began at bit start, so that it reads no bit after them (46_sbr.md R353): over
a cursor of its own, which an overrun makes E_SBR_PARAM (log 20). A payload that the buffer's end cuts is read through BC,
which stops it there. BC does not move here; the caller seeks to the payload's end. -/
def bounded {α : Type} (e : Env) (start count : Nat) (p : Env → Wk α) : Wk α := fun w =>
  if start + 8 * count ≤ w.eng.bc.limit then
    match p { e with mem := payloadBytes e.mem w.eng.bc.base start count }
        { w with eng := { w.eng with bc := ⟨true, 0, count, min (w.eng.bc.pos - start) (8 * count), false⟩ } } with
    | .ok a w' =>
      let v := { w' with eng := { w'.eng with bc := w.eng.bc } }
      if w'.eng.bc.err then .error .sbrParam v else .ok a v
    | .error c w' =>
      .error (if w'.eng.bc.err then .sbrParam else c) { w' with eng := { w'.eng with bc := w.eng.bc } }
  else p e w

/-- Run a program for each channel of a list, first to last. -/
def forEach : List Nat → (Nat → Wk Unit) → Wk Unit
  | [], _ => return ()
  | c :: r, f => do
    f c
    forEach r f

end Wk

/-! ## Error codes (60_exceptions.md R450) -/

/-- The default ERRCODE table. -/
def defaultErrCode : Cause → Nat
  | .syncNotFound => 5
  | .reservedValue => 32
  | .sectionCount => 44
  | .bandRange => 15
  | .pulseInShort => 2
  | .huffCodeword => 10
  | .huffSf => 9
  | .sfRange => 4
  | .rvlc => 8
  | .inputTooSmall => 14
  | .pce => 22
  | .capability => 45
  | .channelConfig => 12
  | .outputTooSmall => 27
  | .latmUnsupported => 43
  | .alloc => 40
  | .quantRange => 17
  | .ltpLag => 18
  | .sbrParam => 19
  | .badState => 42
  | .illegalCmd => 41

/-- ERRCODE: the parameter where it names the cause, else the default. -/
def errCode (p : Params) (c : Cause) : Nat :=
  match p.errCodes.find? (fun x => x.1 == c) with
  | some x => x.2
  | none => defaultErrCode c

/-- FI.error for a cause. -/
def fiError (p : Params) (c : Cause) : BitVec 8 := BitVec.ofNat 8 (errCode p c)

/-- The negative result -ERRCODE(cause) of RES0. -/
def negError (p : Params) (c : Cause) : Word32 := - BitVec.ofNat 32 (errCode p c)

/-! ## Silence: the reset values of the histories (10_state.md R34, 46_sbr.md R351, 47_ps.md R381) -/

/-- The greatest frame length, for which OPEN sizes the buffers (48_orchestrator.md R401). -/
def maxFrameLen : Nat := 1024

def silentOverlap (p : Params) : List (List Sample) := List.replicate p.maxChannels (List.replicate maxFrameLen 0)
def silentLtp (p : Params) : List (List Int) := List.replicate p.maxChannels (List.replicate p.ltpHistLen 0)

/-- Lanes of the PS signal path: the 34-band configuration has 32 sub-subbands and 59 QMF bands. -/
def psLanes : Nat := 91

/-- The greatest number of PS parameter bands. -/
def psMaxBands : Nat := 34

def PsCfg.zero : PsCfg := ⟨false, 0, false, 0, false, false, 0, [], false⟩
def mixZero : Mix := ⟨Cx.zero, Cx.zero, Cx.zero, Cx.zero⟩

/-- The zero all-pass and delay lines (47_ps.md R381, R383). -/
def psLines (p : Params) : List (List (List Cx)) :=
  (List.range 3).map (fun m => List.replicate psLanes (List.replicate (p.psAllpassLen.getD m 0) Cx.zero))

/-- The input history of the hybrid analysis: 12 slots of each QMF band; the upper bands pass through it delayed
(47_ps.md R384). -/
def psHybZero : List (List Cx) := List.replicate 64 (List.replicate 12 Cx.zero)

/-- The plain delay of a lane (47_ps.md R381, R386): the input delay below the all-pass limit, 14 slots, then 1. -/
def psLaneDelay (p : Params) (lane : Nat) : Nat :=
  if lane < p.psAllpassLimit then p.psInputDelay else if lane < p.psLongDelayBands then p.psLongDelay else 1

def psDelayZero (p : Params) : List (List Cx) :=
  (List.range psLanes).map (fun lane => List.replicate (psLaneDelay p lane) Cx.zero)

/-- PsState at allocation and on abandonment (47_ps.md R381). -/
def PsState.reset (p : Params) : PsState where
  hybIn := psHybZero
  apDelay := psLines p
  apIndex := List.replicate 3 0
  delayLine := psDelayZero p
  delayIndex := List.replicate psLanes 0
  transient := List.replicate psMaxBands ⟨0, 0, 0⟩
  iidPrev := List.replicate psMaxBands 0
  iccPrev := List.replicate psMaxBands 0
  ipdPrev := List.replicate psMaxBands 0
  opdPrev := List.replicate psMaxBands 0
  phaseMode := 0
  hPrev := List.replicate psMaxBands mixZero
  ipdHist := List.replicate psMaxBands (0, 0)
  opdHist := List.replicate psMaxBands (0, 0)
  cfg := PsCfg.zero
  dataSeen := false

/-- The S fields of one channel at zero (46_sbr.md R351). -/
def SbrChan.silent (p : Params) : SbrChan where
  qmfa := List.replicate 320 0
  qmfs := List.replicate 1280 0
  xlowHist := List.replicate p.sbrHistSlots (List.replicate 32 Cx.zero)
  envPrev := List.replicate 64 0
  envPrevEdges := []
  noisePrev := List.replicate 64 0
  noisePrevEdges := []
  bwPrev := List.replicate 64 0
  invfPrev := List.replicate 64 0
  gainHist := List.replicate 4 (List.replicate 64 0)
  noiseHist := List.replicate 4 (List.replicate 64 0)
  noiseIndex := 0
  harmIndex := 0
  harmPrev := List.replicate 64 false
  tEPrevEnd := 0

def SbrTables.empty : SbrTables := ⟨[], [], [], [], [], 0, 0, []⟩

/-- The PsState a new SbrState owns: with PS in CAP its buffers are allocated with it and never mid-stream (10_state.md R34,
R35: "lifetime matches it"), and ps_data_seen = 0 says that no PS is present yet (46_sbr.md R351; DEDUCED, log 14). -/
def freshPs (p : Params) : Option PsState := if p.cap.ps then some (PsState.reset p) else none

/-- SbrState at allocation (46_sbr.md R351): hdr_valid = 0, no tables, zero histories, no PS data seen. -/
def SbrState.fresh (p : Params) : SbrState where
  hdr := none
  hdrPrev := none
  reset := false
  tables := SbrTables.empty
  chans := List.replicate 2 (SbrChan.silent p)
  frameClassPrev := 0
  ps := freshPs p

/-- Abandonment of one SbrState: the S fields to zero, its PsState reset; header, tables and patch map stay. -/
def SbrState.silence (p : Params) (b : SbrState) : SbrState :=
  { b with
    chans := List.replicate 2 (SbrChan.silent p)
    frameClassPrev := 0
    ps := b.ps.map (fun _ => PsState.reset p) }

/-- The working state a command leaves: without its cursor, since IN is borrowed for one command (20_memory.md R82) and no cursor
state survives from one host command to the next (40_bitreader.md R140). -/
def Work.returnCursor (w : Work) : Work := { w with eng := { w.eng with bc := Cursor.none } }

/-! ## Taking the exception: frame abandonment (60_exceptions.md R460) -/

/-- The SbrStates after an abandoned frame: each one allocated before it is silent and keeps header and tables as they are
(46_sbr.md R351); a slot the frame itself took is free again (60_exceptions.md R461). -/
def keptSbr (p : Params) (before after : List (Option SbrState)) : List (Option SbrState) :=
  List.zipWith (fun a b => a.bind (fun _ => b.map (SbrState.silence p))) before after

/-- DS after an abandoned frame that began with d and raised with a: the histories of every channel silent; of what the frame
did, the generator pair, window_shape_prev and the SBR headers and tables stay (60_exceptions.md R460), nothing else (R461). -/
def abandonDs (p : Params) (d a : DecoderState) : DecoderState :=
  { d with
    overlap := silentOverlap p
    ltpHist := silentLtp p
    windowShapePrev := a.windowShapePrev
    rng1 := a.rng1
    rng2 := a.rng2
    sbr := keptSbr p d.sbr a.sbr }

/-- FrameInfo after a raise: the code, the header bytes H, all else 0. -/
def abandonInfo (p : Params) (c : Cause) (h : Nat) : FrameInfo :=
  { FrameInfo.zero p.maxChannels with
    error := fiError p c
    bytesConsumed := BitVec.ofNat 32 h }

/-- Frame abandonment: c is the cause as R455 adjusts it, w the working state the raise left, s the state the frame's body began
in. StreamConfig is as the header left it, so an sbr_present that late SBR data of this frame set is undone (DEDUCED, log 25:
60_exceptions.md R460 and R461). H is the header's. Per-frame state is gone, the VLC registers are free, the windows are as the
raise left them. ORCH, Config, IN, OUT and the result registers are untouched. There is no return from it (R464): the next
DECODE starts afresh. -/
def abandon (c : Cause) (w : Work) (s : State) : State :=
  { s with
    fi := abandonInfo s.par c s.work.frm.hdrBytes
    work := { eng := { bc := Cursor.none, bw := w.eng.bw, regs := freeRegs s.draws }
              frm := Frame.none
              ds := abandonDs s.par s.work.ds w.ds
              sc := s.work.sc }
    draws := s.draws + 1 }

/-! ## Running a program as an instruction -/

/-- What a program of this state reads. -/
def State.env (s : State) : Env := ⟨s.par, s.inMem, s.cfg⟩

/-- An operation of the block on its own: its effect on the working state, or abandonment when it raises. -/
def runWork (p : Env → Wk Unit) (s : State) : Host.Outcome State Fault Refusal :=
  .next (match p s.env s.work with
    | .ok _ w => { s with work := w }
    | .error c w => abandon c w s)

/-- The same, for an operation that reads the cursor: a fault while no cursor exists (10_state.md R37). -/
def runLive (p : Env → Wk Unit) (s : State) : Host.Outcome State Fault Refusal :=
  if s.work.eng.bc.live then runWork p s else .fault .noCursor

end Sys2Proof.Machine
end

