-- ==== Sys2Proof/Machine/Operands.lean ====
section
/-! DEFINITION. Operand forms: the kind of a codebook number, the tuple lanes, the bit source of a VLC operation, the
codeword decoder, and the lookups of the table parameters. -/

namespace Sys2Proof.Machine

/-! ## Codebook numbers (30_encoding.md R104, 42_huffman_spectral.md R210) -/

/-- The kinds of R210; the number is the table's. -/
inductive Kind where
  | zero
  | quadSigned (t : Nat)
  | quadUnsigned (t : Nat)
  | pairSigned (t : Nat)
  | pairUnsigned (t : Nat)
  | pairEscape (t : Nat)
  | reserved
  | noise
  | intensity
  | pairEscapeLimited (t lavIndex : Nat)
  deriving DecidableEq, Repr

/-- KIND(cb), total (R210). -/
def kind (cb : Nat) : Kind :=
  if cb = 0 then .zero
  else if cb ≤ 2 then .quadSigned cb
  else if cb ≤ 4 then .quadUnsigned cb
  else if cb ≤ 6 then .pairSigned cb
  else if cb ≤ 10 then .pairUnsigned cb
  else if cb = 11 then .pairEscape 11
  else if cb = 12 then .reserved
  else if cb = 13 then .noise
  else if cb ≤ 15 then .intensity
  else .pairEscapeLimited 11 (cb - 16)

/-- Whether a codebook carries a table, and so spectral codewords. -/
def carriesTable (cb : Nat) : Bool :=
  match kind cb with
  | .zero => false
  | .reserved => false
  | .noise => false
  | .intensity => false
  | .quadSigned _ => true
  | .quadUnsigned _ => true
  | .pairSigned _ => true
  | .pairUnsigned _ => true
  | .pairEscape _ => true
  | .pairEscapeLimited _ _ => true

/-- The lines one codeword covers: d of R225. -/
def tupleSize (cb : Nat) : Nat := if cb ≤ 4 then 4 else 2

/-- HCB[t]. -/
def spectralBook (p : Params) (t : Nat) : Book := p.hcb.getD t []

/-- VCB11_LAV[16 + i] (R220). -/
def lavLimit (p : Params) (i : Nat) : Int := (p.vcb11Lav.getD i 0 : Nat)

/-! ## Tuple lanes (R222): value j of a tuple is Q[j] -/

def VlcRegs.q (r : VlcRegs) : Nat → Int
  | 0 => r.q0
  | 1 => r.q1
  | 2 => r.q2
  | _ => r.q3

def VlcRegs.setQ (r : VlcRegs) (j : Nat) (v : Int) : VlcRegs :=
  match j with
  | 0 => { r with q0 := v }
  | 1 => { r with q1 := v }
  | 2 => { r with q2 := v }
  | _ => { r with q3 := v }

/-- A quad codeword's value in Q[0..3]. -/
def VlcRegs.setQuad (r : VlcRegs) (v : List Int) : VlcRegs :=
  { r with q0 := v.getD 0 0, q1 := v.getD 1 0, q2 := v.getD 2 0, q3 := v.getD 3 0 }

/-- A pair codeword's value in Q[0..1]; Q[2] and Q[3] are not written (R214). -/
def VlcRegs.setPair (r : VlcRegs) (v : List Int) : VlcRegs :=
  { r with q0 := v.getD 0 0, q1 := v.getD 1 0 }

/-- Q[0], ..., Q[d - 1]. -/
def VlcRegs.lanes (r : VlcRegs) (d : Nat) : List Int := (List.range d).map r.q

/-! ## The bit source (40_bitreader.md R162) -/

/-- Window w of the engine. -/
def Engine.window (g : Engine) (w : Nat) : Window := g.bw.getD w Window.empty

def Engine.setWindow (g : Engine) (w : Nat) (v : Window) : Engine := { g with bw := g.bw.set w v }

namespace Vx

/-- GET n from the selected source: the cursor, or W_PEEK then W_CONSUME of a window. -/
def getN (e : Env) (n : Nat) : Vx Nat := fun g =>
  match g.regs.source with
  | .main => ofRd (Rd.get e n) g
  | .window w => .ok ((g.window w).peek n) (g.setWindow w ((g.window w).consume n))

/-- GET1 from the selected source. -/
def get1 (e : Env) : Vx Bool := do
  let v ← getN e 1
  return v == 1

end Vx

/-! ## The codeword decoder (R211) -/

/-- The longest code of a book. -/
def maxCodeLen (b : Book) : Nat := b.foldr (fun e n => max e.code.length n) 0

/-- The entry whose code is exactly the bits read. -/
def findEntry (b : Book) (s : List Bool) : Option Entry := b.find? (fun e => e.code == s)

/-- The bit-serial walk: k more bits at most, s the bits read. -/
def codewordWalk (e : Env) (book : Book) (miss : Cause) : Nat → List Bool → Vx (List Int)
  | 0, _ => Vx.raise miss
  | k + 1, s => do
    let b ← Vx.get1 e
    let t := s ++ [b]
    match findEntry book t with
    | some en => do
      Vx.setRegs (fun r => { r with cwLen := t.length })
      return en.value
    | none => if maxCodeLen book ≤ t.length then Vx.raise miss else codewordWalk e book miss k t

/-- CODEWORD(book) (R211); miss is the cause of a table miss. -/
def codeword (e : Env) (book : Book) (miss : Cause) : Vx (List Int) :=
  codewordWalk e book miss (maxCodeLen book + 1) []

/-- A codeword of a single-valued book. -/
def codewordIndex (e : Env) (book : Book) (miss : Cause) : Vx Int := do
  let v ← codeword e book miss
  return v.getD 0 0

/-- The walk of CODEWORD_OR_99 over a bounded run (43_scalefactor_rvlc.md R263): the value and its length, or none when no
entry matches within maxlen bits or the run ends. -/
def runWalk (m : Memory) (k : Cursor) (book : Book) : Nat → List Bool → Run → Option (Int × Nat) × Run
  | 0, _, r => (none, r)
  | n + 1, s, r =>
    match r.next m k with
    | (none, r') => (none, r')
    | (some b, r') =>
      let t := s ++ [b]
      match findEntry book t with
      | some en => (some (en.value.getD 0 0, t.length), r')
      | none => if maxCodeLen book ≤ t.length then (none, r') else runWalk m k book n t r'

/-- CODEWORD_OR_99 without the number 99: none is the miss. -/
def runCodeword (m : Memory) (k : Cursor) (book : Book) (r : Run) : Option (Int × Nat) × Run :=
  runWalk m k book (maxCodeLen book + 1) [] r

/-! ## Table lookups (00_scope.md R11) -/

/-- SAMPLE_RATE[i] (41_parsers.md R185). -/
def sampleRate (p : Params) (i : Nat) : Nat := p.sampleRates.getD i 0

/-- The index of a listed rate, 15 when it is not listed (10_state.md R25). -/
def rateIndex (p : Params) (rate : Nat) : Nat :=
  match p.sampleRates.findIdx? (fun r => r == rate) with
  | some i => i
  | none => 15

/-- The distance of two numbers. -/
def natDist (a b : Nat) : Nat := (a - b) + (b - a)

/-- The index of the nearest listed rate, the lower index on a tie (48_orchestrator.md R406; tie DESIGN CHOICE, log 12). -/
def nearestRate (p : Params) (rate : Nat) : Nat :=
  (List.range p.sampleRates.length).foldl
    (fun best i => if natDist (sampleRate p i) rate < natDist (sampleRate p best) rate then i else best) 0

/-- The index that selects the band tables: SC.sf_index, or the nearest rate's for an explicit rate (R406). -/
def tableIndex (p : Params) (sc : StreamCfg) : Nat :=
  if sc.sfIndex.toNat ≤ 12 then sc.sfIndex.toNat else nearestRate p sc.sampleRate.toNat

/-- NUM_SWB and SWB_OFFSET of a rate, frame length and window kind; an absent row has no bands. -/
def swbTable (p : Params) (sf fl : Nat) (short : Bool) : Nat × List Nat :=
  match p.swb.find? (fun r => r.sfIndex == sf && r.frameLen == fl && r.short == short) with
  | some r => (r.numSwb, r.offsets)
  | none => (0, [])

/-- One coefficient of a rising half window (45_filterbank.md R333). -/
def windowCoef (p : Params) (k : WinKind) (shape : Bool) (fl n : Nat) : Sample :=
  match p.windows.find? (fun r => r.kind == k && r.shape == shape && r.frameLen == fl) with
  | some r => r.coef.getD n 0
  | none => 0

/-- TNS_MAX_BANDS; no row is no limit beyond max_sfb. -/
def tnsMaxBands (p : Params) (sf : Nat) (short : Bool) (maxSfb : Nat) : Nat :=
  match p.tnsMaxBands.find? (fun r => r.sfIndex == sf && r.short == short) with
  | some r => min maxSfb r.maxBands
  | none => maxSfb

/-- LTP_LAG_MAX, default two frame lengths (44_noiseless.md R296). -/
def ltpLagMax (p : Params) (fl : Nat) : Nat := p.ltpLagMax.getD (2 * fl)

/-! ## Object types (48_orchestrator.md R403) -/

/-- The object types a capability set can decode. -/
def decodable (c : Cap) (ot : Nat) : Bool :=
  match ot with
  | 1 => c.main
  | 2 => true
  | 4 => c.ltp
  | 17 => c.er
  | 19 => c.ltp && c.er
  | 23 => c.ld
  | _ => false

/-- The object types that can use long-term prediction (44_noiseless.md R281, R298). -/
def ltpCapable (ot : Nat) : Bool := ot == 4 || ot == 19 || ot == 23

end Sys2Proof.Machine
end

