-- ==== Sys2Proof/Machine/Flags.lean ====
section
/-! DEFINITION. Every flag and range test of the spec (10_state.md R33): the scale-factor range, the LAV limit, the SBR
reset condition, the quantiser range, the ID3 and ADIF tests, the border tests of an SBR grid. -/

namespace Sys2Proof.Machine

/-- The legal scale-factor range (43_scalefactor_rvlc.md R256). -/
def sfInRange (v : Int) : Bool := decide (0 ≤ v) && decide (v ≤ 255)

/-- Whether the range test on an intensity position or noise energy fails: only with SF_RANGE_CHECK_ALL (R256). -/
def sfOtherFails (p : Params) (v : Int) : Bool := p.sfRangeCheckAll && !sfInRange v

/-- LAVCHK: whether a pair exceeds the limit of its virtual codebook (42_huffman_spectral.md R220). -/
def lavExceeded (limit : Int) (r : VlcRegs) : Bool :=
  decide (limit < |r.q0|) || decide (limit < |r.q1|)

/-- The escape flag: a decoded magnitude of exactly 16 (42_huffman_spectral.md R219). -/
def isEscape (v : Int) : Bool := decide (|v| = 16)

/-- The quantiser range of DEQUANT (44_noiseless.md R289). -/
def quantInRange (q : Int) : Bool := decide (|q| ≤ 8191)

/-- The seven header fields whose change sets Reset (46_sbr.md R354). -/
def sbrFieldsDiffer (a b : SbrHeader) : Bool :=
  a.ampRes != b.ampRes || a.startFreq != b.startFreq || a.stopFreq != b.stopFreq || a.xoverBand != b.xoverBand ||
    a.freqScale != b.freqScale || a.alterScale != b.alterScale || a.noiseBands != b.noiseBands

/-- SBR[e].reset on a header-present frame; the first header always sets it (46_sbr.md R351, R354). -/
def sbrReset (prev : Option SbrHeader) (hdr : SbrHeader) : Bool :=
  match prev with
  | none => true
  | some h => sbrFieldsDiffer h hdr

/-- A strictly increasing list. -/
def increasing : List Nat → Bool
  | a :: b :: r => decide (a < b) && increasing (b :: r)
  | _ => true

/-- The required properties of SBR_FREQ_TABLES (46_sbr.md R355); an answer without them is an invalid parameter
combination. -/
def sbrTablesLegal (p : Params) (hdr : SbrHeader) (t : SbrTables) : Bool :=
  increasing t.fMaster && increasing t.fHigh && increasing t.fLow && increasing t.fNoise && increasing t.fLim &&
    decide (hdr.xoverBand < t.fMaster.length - 1) &&
    decide (t.fHigh.length + hdr.xoverBand = t.fMaster.length) &&
    decide (t.kx = t.fHigh.headD 0) && decide (t.kx + t.m = t.fHigh.getLastD 0) &&
    decide (t.kx + t.m ≤ 64) && decide (0 < t.m) &&
    [t.fMaster, t.fHigh, t.fLow, t.fNoise, t.fLim].all (fun l => decide (l.length ≤ p.sbrMaxBands))

/-- The border test of an SBR grid (46_sbr.md R356): 1 to 5 envelopes, 1 or 2 noise floors, strictly increasing, within
the buffer of slots. -/
def sbrGridLegal (tE tQ : List Nat) (limit : Nat) : Bool :=
  increasing tE && increasing tQ && decide (2 ≤ tE.length) && decide (tE.length ≤ 6) &&
    decide (2 ≤ tQ.length) && decide (tQ.length ≤ 3) &&
    decide (tE.getLastD 0 ≤ limit) && decide (tQ.getLastD 0 ≤ limit)

/-- The ID3 test (48_orchestrator.md R411, 20_memory.md R71). -/
def id3Test (m : Memory) (base len : Nat) : Bool :=
  decide (128 ≤ len) && m.read base == 0x54 && m.read (base + 1) == 0x41 && m.read (base + 2) == 0x47

/-- The ADIF test (48_orchestrator.md R404, 20_memory.md R71). -/
def adifTest (m : Memory) (base len : Nat) : Bool :=
  decide (4 ≤ len) && m.read base == 0x41 && m.read (base + 1) == 0x44 && m.read (base + 2) == 0x49 &&
    m.read (base + 3) == 0x46

/-- Whether a command is legal in a state (48_orchestrator.md R400); the reserved codes are handled apart. -/
def legalIn (code : Nat) (o : Orch) : Bool :=
  match code with
  | 0 => o == .unopened
  | 1 => o == .opened || o == .initialized || o == .decoding
  | 2 => o == .opened
  | 3 => o == .opened
  | 4 => o == .opened
  | 5 => o == .initialized || o == .decoding
  | 6 => o == .opened || o == .initialized || o == .decoding
  | 7 => o == .opened || o == .initialized || o == .decoding
  | _ => true

end Sys2Proof.Machine
end

