-- ==== Sys2Proof/Machine/BitReader.lean ====
section
/-! DEFINITION. The meanings of the Bit Reader and bit window operations (40_bitreader.md). -/

namespace Sys2Proof.Machine

/-! ## Shared forms -/

/-- The state with another cursor. -/
def State.setBc (s : State) (k : Cursor) : State :=
  { s with work := { s.work with eng := { s.work.eng with bc := k } } }

/-- The state with a returned value. -/
def State.setRet (s : State) (v : Int) : State :=
  { s with work := { s.work with eng := { s.work.eng with regs := { s.work.eng.regs with ret := v } } } }

/-- The state with another window w. -/
def State.setWindow (s : State) (w : Nat) (v : Window) : State :=
  { s with work := { s.work with eng := s.work.eng.setWindow w v } }

/-- An operation on the cursor that returns nothing; a fault while no cursor exists (10_state.md R37). -/
def cursorOp (f : Cursor → Cursor) (s : State) : Host.Outcome State Fault Refusal :=
  if s.work.eng.bc.live then .next (s.setBc (f s.work.eng.bc)) else .fault .noCursor

/-- An operation on the cursor that returns a number. -/
def cursorRead (f : Cursor → Nat × Cursor) (s : State) : Host.Outcome State Fault Refusal :=
  if s.work.eng.bc.live then
    .next ((s.setBc (f s.work.eng.bc).2).setRet ((f s.work.eng.bc).1 : Nat))
  else .fault .noCursor

/-- Look up an existing window: the window operations are Bit Reader operations (00_scope.md R2), so they too fault while no
cursor exists (10_state.md R37, 93_implementation_defined.md U2); then a fault on a number at or above N_SEG (10_state.md R23;
log 29). -/
def withWindow (w : Nat) (f : Window → Host.Outcome State Fault Refusal) (s : State) : Host.Outcome State Fault Refusal :=
  if s.work.eng.bc.live then
    match s.work.eng.bw[w]? with
    | some v => f v
    | none => .fault .noWindow
  else .fault .noCursor

/-- An operation on one existing window. -/
def windowOp (w : Nat) (f : Window → State) (s : State) : Host.Outcome State Fault Refusal :=
  withWindow w (fun v => .next (f v)) s

/-! ## The sixteen operations -/

/-- PEEK n (R142). -/
def execPeek (n : Nat) (s : State) : Host.Outcome State Fault Refusal :=
  cursorRead (Cursor.peek s.inMem n) s

/-- GET n (R143). -/
def execGet (n : Nat) (s : State) : Host.Outcome State Fault Refusal :=
  cursorRead (Cursor.get s.inMem n) s

/-- GET1 (R144). -/
def execGet1 (s : State) : Host.Outcome State Fault Refusal :=
  cursorRead (Cursor.get s.inMem 1) s

/-- FLUSH n (R145). -/
def execFlush (n : Nat) (s : State) : Host.Outcome State Fault Refusal :=
  cursorOp (Cursor.flush n) s

/-- BYTE_ALIGN (R147): returns the bits skipped. -/
def execByteAlign (s : State) : Host.Outcome State Fault Refusal :=
  cursorRead (fun k => (k.alignCount, k.byteAlign)) s

/-- PROCESSED_BITS (R148). -/
def execProcessedBits (s : State) : Host.Outcome State Fault Refusal :=
  cursorRead (fun k => (k.pos, k)) s

/-- REWIND (R149). -/
def execRewind (s : State) : Host.Outcome State Fault Refusal :=
  cursorOp Cursor.rewind s

/-- RESET_TO bitpos (R150): the same effect as SEEK. -/
def execResetTo (bitpos : Nat) (s : State) : Host.Outcome State Fault Refusal :=
  cursorOp (Cursor.seek bitpos) s

/-- SEEK bitpos (R151). -/
def execSeek (bitpos : Nat) (s : State) : Host.Outcome State Fault Refusal :=
  cursorOp (Cursor.seek bitpos) s

/-- W_PEEK w, n (R157). -/
def execWPeek (n w : Nat) (s : State) : Host.Outcome State Fault Refusal :=
  windowOp w (fun v => s.setRet (v.peek n : Nat)) s

/-- W_CONSUME w, n (R158). -/
def execWConsume (n w : Nat) (s : State) : Host.Outcome State Fault Refusal :=
  windowOp w (fun v => s.setWindow w (v.consume n)) s

/-- W_CONCAT w, v (R159): v is unchanged. -/
def execWConcat (w v : Nat) (s : State) : Host.Outcome State Fault Refusal :=
  withWindow v (fun b => windowOp w (fun a => s.setWindow w (a.concat b)) s) s

/-- W_REVERSE w (R161). -/
def execWReverse (w : Nat) (s : State) : Host.Outcome State Fault Refusal :=
  windowOp w (fun v => s.setWindow w v.reverse) s

/-- W_LOAD w, n (R156): the cursor moves as GET n does. -/
def execWLoad (n w : Nat) (s : State) : Host.Outcome State Fault Refusal :=
  windowOp w (fun _ =>
    (s.setWindow w (Window.load s.inMem n s.work.eng.bc)).setBc (s.work.eng.bc.get s.inMem n).2) s

/-- BR_OP 14, reserved: no effect on any state (30_encoding.md R130). -/
def execBrReserved14 (s : State) : Host.Outcome State Fault Refusal := .next s

/-- BR_OP 15, reserved: no effect on any state (30_encoding.md R130). -/
def execBrReserved15 (s : State) : Host.Outcome State Fault Refusal := .next s

end Sys2Proof.Machine
end

