-- ==== Sys2Proof/Machine/Vlc.lean ====
section
/-! DEFINITION. The VLC engine (42_huffman_spectral.md, 43_scalefactor_rvlc.md): the shared sub-operations over the
engine, and the meanings of the VLC_OP operations. -/

namespace Sys2Proof.Machine

/-! ## Sub-operations -/

/-- The sign bit of lane j: read when Q[j] is not 0, 1 meaning negative (42_huffman_spectral.md R218). -/
def sgnLane (e : Env) (j : Nat) : Vx Unit := do
  let r ← Vx.regs
  if r.q j = 0 then return ()
  else do
    let b ← Vx.get1 e
    if b then Vx.setRegs (fun r => r.setQ j (- r.q j)) else return ()

/-- SGN over lanes j, j + 1, ..., j + n - 1. -/
def sgnFrom (e : Env) (j : Nat) : Nat → Vx Unit
  | 0 => return ()
  | n + 1 => do
    sgnLane e j
    sgnFrom e (j + 1) n

/-- SGN d (R218). -/
def sgnOp (e : Env) (d : Nat) : Vx Unit := sgnFrom e 0 d

/-- The unary prefix of an escape: N counts up from 4 while ones are read; above ESC_MAX_N it raises (R219). -/
def escPrefix (e : Env) : Nat → Nat → Vx Nat
  | 0, _ => Vx.raise .huffCodeword
  | k + 1, n => do
    let b ← Vx.get1 e
    if b then
      if n + 1 > e.par.escMaxN then Vx.raise .huffCodeword else escPrefix e k (n + 1)
    else return n

/-- ESC i (R219). -/
def escOp (e : Env) (i : Nat) : Vx Unit := do
  let r ← Vx.regs
  if isEscape (r.q i) then do
    let n ← escPrefix e (e.par.escMaxN + 1) 4
    Vx.setRegs (fun r => { r with escN := n })
    let off ← Vx.getN e n
    Vx.setRegs (fun r => r.setQ i (Int.sign (r.q i) * ((2 ^ n + off : Nat) : Int)))
  else return ()

/-- LAVCHK (R220): a pair over the limit becomes (0, 0), without an error. -/
def lavCheck (e : Env) (i : Nat) : Vx Unit :=
  Vx.setRegs (fun r => if lavExceeded (lavLimit e.par i) r then { r with q0 := 0, q1 := 0 } else r)

/-- A quad codeword into Q[0..3]. -/
def quadCodeword (e : Env) (t : Nat) : Vx Unit := do
  let v ← codeword e (spectralBook e.par t) .huffCodeword
  Vx.setRegs (fun r => r.setQuad v)

/-- A pair codeword into Q[0..1]. -/
def pairCodeword (e : Env) (t : Nat) : Vx Unit := do
  let v ← codeword e (spectralBook e.par t) .huffCodeword
  Vx.setRegs (fun r => r.setPair v)

/-- HCW on an escape book (R216): codeword, both signs, then both escapes. -/
def escapeCodeword (e : Env) (t : Nat) : Vx Unit := do
  pairCodeword e t
  sgnOp e 2
  escOp e 0
  escOp e 1

/-- HCW cb, by the kind of the codebook (R210, R212 to R217, R227). -/
def hcw (e : Env) (cb : Nat) : Vx Unit :=
  match kind cb with
  | .zero => return ()
  | .noise => return ()
  | .intensity => return ()
  | .reserved => Vx.raise .reservedValue
  | .quadSigned t => quadCodeword e t
  | .quadUnsigned t => do
    quadCodeword e t
    sgnOp e 4
  | .pairSigned t => pairCodeword e t
  | .pairUnsigned t => do
    pairCodeword e t
    sgnOp e 2
  | .pairEscape t => escapeCodeword e t
  | .pairEscapeLimited t i => do
    escapeCodeword e t
    lavCheck e i

/-- SFD (43_scalefactor_rvlc.md R251): the signed difference, index minus 60. -/
def sfdOp (e : Env) : Vx Int := do
  let i ← codewordIndex e e.par.sfcb .huffSf
  return i - 60

/-- NPCM (R255): the 9-bit first noise energy minus 256. -/
def npcmOp (e : Env) : Vx Int := do
  let v ← Vx.getN e 9
  return (v : Int) - 256

/-- RVLC_ESCD (R264): an escape magnitude from the escape run, or 99. -/
def rvlcEscdOp (e : Env) : Vx Int := fun g =>
  match runCodeword e.mem g.bc e.par.rvlcEsc g.regs.escRun with
  | (some (v, n), r) => .ok v { g with regs := { g.regs with escRun := r, cwLen := n } }
  | (none, r) => .ok 99 { g with regs := { g.regs with escRun := r } }

/-- One codeword of RVLC_SF from the scale-factor run, or 99 (R263). -/
def rvlcIndex (e : Env) : Vx Int := fun g =>
  match runCodeword e.mem g.bc e.par.rvlcSf g.regs.sfRun with
  | (some (v, n), r) => .ok v { g with regs := { g.regs with sfRun := r, cwLen := n } }
  | (none, r) => .ok 99 { g with regs := { g.regs with sfRun := r } }

/-- RVLC_SFD (R263): the difference with its escape, or 99. -/
def rvlcSfdOp (e : Env) : Vx Int := do
  let i ← rvlcIndex e
  if i = 99 then return 99
  else if i = e.par.rvlcEscVal then do
    let x ← rvlcEscdOp e
    return (if x = 99 then 99 else i + x)
  else if i = - e.par.rvlcEscVal then do
    let x ← rvlcEscdOp e
    return (if x = 99 then 99 else i - x)
  else return i

/-! ## Running an operation from the port -/

/-- A VLC operation that reads bits of the selected source: a fault when that source does not exist. From a window each bit is a
W_PEEK and a W_CONSUME (40_bitreader.md R162), which need the cursor to exist as every Bit Reader operation does (10_state.md
R37; log 29). -/
def runBits (p : Env → Vx Unit) (s : State) : Host.Outcome State Fault Refusal :=
  match s.work.eng.regs.source with
  | .main => runLive (fun e => Wk.ofVx (p e)) s
  | .window w =>
    if s.work.eng.bc.live ∧ s.work.eng.bw.length ≤ w then .fault .noWindow else runLive (fun e => Wk.ofVx (p e)) s

/-- The same with a returned number. -/
def returning (p : Env → Vx Int) (e : Env) : Vx Unit := do
  let v ← p e
  Vx.setRegs (fun r => { r with ret := v })

/-! ## HCW, one meaning for each codebook number -/

/-- HCW 0 (Zero): no bit, no register (R227). -/
def execHcw0 (s : State) : Host.Outcome State Fault Refusal :=
  runWork (fun e => Wk.ofVx (hcw e 0)) s

/-- HCW 1 (R212). -/
def execHcw1 (s : State) : Host.Outcome State Fault Refusal :=
  runBits (fun e => hcw e 1) s

/-- HCW 2 (R212). -/
def execHcw2 (s : State) : Host.Outcome State Fault Refusal :=
  runBits (fun e => hcw e 2) s

/-- HCW 3 (R213). -/
def execHcw3 (s : State) : Host.Outcome State Fault Refusal :=
  runBits (fun e => hcw e 3) s

/-- HCW 4 (R213). -/
def execHcw4 (s : State) : Host.Outcome State Fault Refusal :=
  runBits (fun e => hcw e 4) s

/-- HCW 5 (R214). -/
def execHcw5 (s : State) : Host.Outcome State Fault Refusal :=
  runBits (fun e => hcw e 5) s

/-- HCW 6 (R214). -/
def execHcw6 (s : State) : Host.Outcome State Fault Refusal :=
  runBits (fun e => hcw e 6) s

/-- HCW 7 (R215). -/
def execHcw7 (s : State) : Host.Outcome State Fault Refusal :=
  runBits (fun e => hcw e 7) s

/-- HCW 8 (R215). -/
def execHcw8 (s : State) : Host.Outcome State Fault Refusal :=
  runBits (fun e => hcw e 8) s

/-- HCW 9 (R215). -/
def execHcw9 (s : State) : Host.Outcome State Fault Refusal :=
  runBits (fun e => hcw e 9) s

/-- HCW 10 (R215). -/
def execHcw10 (s : State) : Host.Outcome State Fault Refusal :=
  runBits (fun e => hcw e 10) s

/-- HCW 11 (R216). -/
def execHcw11 (s : State) : Host.Outcome State Fault Refusal :=
  runBits (fun e => hcw e 11) s

/-- HCW 12 (Reserved): raises E_RESERVED_VALUE (R227). -/
def execHcw12 (s : State) : Host.Outcome State Fault Refusal :=
  runWork (fun e => Wk.ofVx (hcw e 12)) s

/-- HCW 13 (Noise): no bit, no register (R227). -/
def execHcw13 (s : State) : Host.Outcome State Fault Refusal :=
  runWork (fun e => Wk.ofVx (hcw e 13)) s

/-- HCW 14 (Intensity, out of phase): no bit, no register (R227). -/
def execHcw14 (s : State) : Host.Outcome State Fault Refusal :=
  runWork (fun e => Wk.ofVx (hcw e 14)) s

/-- HCW 15 (Intensity, in phase): no bit, no register (R227). -/
def execHcw15 (s : State) : Host.Outcome State Fault Refusal :=
  runWork (fun e => Wk.ofVx (hcw e 15)) s

/-- HCW 16 (R217). -/
def execHcw16 (s : State) : Host.Outcome State Fault Refusal :=
  runBits (fun e => hcw e 16) s

/-- HCW 17 (R217). -/
def execHcw17 (s : State) : Host.Outcome State Fault Refusal :=
  runBits (fun e => hcw e 17) s

/-- HCW 18 (R217). -/
def execHcw18 (s : State) : Host.Outcome State Fault Refusal :=
  runBits (fun e => hcw e 18) s

/-- HCW 19 (R217). -/
def execHcw19 (s : State) : Host.Outcome State Fault Refusal :=
  runBits (fun e => hcw e 19) s

/-- HCW 20 (R217). -/
def execHcw20 (s : State) : Host.Outcome State Fault Refusal :=
  runBits (fun e => hcw e 20) s

/-- HCW 21 (R217). -/
def execHcw21 (s : State) : Host.Outcome State Fault Refusal :=
  runBits (fun e => hcw e 21) s

/-- HCW 22 (R217). -/
def execHcw22 (s : State) : Host.Outcome State Fault Refusal :=
  runBits (fun e => hcw e 22) s

/-- HCW 23 (R217). -/
def execHcw23 (s : State) : Host.Outcome State Fault Refusal :=
  runBits (fun e => hcw e 23) s

/-- HCW 24 (R217). -/
def execHcw24 (s : State) : Host.Outcome State Fault Refusal :=
  runBits (fun e => hcw e 24) s

/-- HCW 25 (R217). -/
def execHcw25 (s : State) : Host.Outcome State Fault Refusal :=
  runBits (fun e => hcw e 25) s

/-- HCW 26 (R217). -/
def execHcw26 (s : State) : Host.Outcome State Fault Refusal :=
  runBits (fun e => hcw e 26) s

/-- HCW 27 (R217). -/
def execHcw27 (s : State) : Host.Outcome State Fault Refusal :=
  runBits (fun e => hcw e 27) s

/-- HCW 28 (R217). -/
def execHcw28 (s : State) : Host.Outcome State Fault Refusal :=
  runBits (fun e => hcw e 28) s

/-- HCW 29 (R217). -/
def execHcw29 (s : State) : Host.Outcome State Fault Refusal :=
  runBits (fun e => hcw e 29) s

/-- HCW 30 (R217). -/
def execHcw30 (s : State) : Host.Outcome State Fault Refusal :=
  runBits (fun e => hcw e 30) s

/-- HCW 31 (R217). -/
def execHcw31 (s : State) : Host.Outcome State Fault Refusal :=
  runBits (fun e => hcw e 31) s

/-! ## The sub-operations -/

/-- SFD (43_scalefactor_rvlc.md R251). -/
def execSfd (s : State) : Host.Outcome State Fault Refusal := runBits (returning sfdOp) s

/-- ESC i (42_huffman_spectral.md R219); without the escape magnitude nothing is read. -/
def execEsc (i : Nat) (s : State) : Host.Outcome State Fault Refusal :=
  if isEscape (s.work.eng.regs.q (i % 2)) then runBits (fun e => escOp e (i % 2)) s else .next s

/-- The tuple size of SGN's selector p (30_encoding.md R103). -/
def sgnSize (p : Nat) : Nat := if p % 2 = 0 then 4 else 2

/-- SGN (42_huffman_spectral.md R218); an all-zero tuple reads nothing. -/
def execSgn (p : Nat) (s : State) : Host.Outcome State Fault Refusal :=
  if (s.work.eng.regs.lanes (sgnSize p)).all (fun v => v == 0) then .next s
  else runBits (fun e => sgnOp e (sgnSize p)) s

/-- RVLC_SFD (43_scalefactor_rvlc.md R263), over the two runs of the cursor's bytes; a fault while no cursor exists. -/
def execRvlcSfd (s : State) : Host.Outcome State Fault Refusal :=
  runLive (fun e => Wk.ofVx (returning rvlcSfdOp e)) s

/-- RVLC_ESCD (43_scalefactor_rvlc.md R264), over the escape run; a fault while no cursor exists. -/
def execRvlcEscd (s : State) : Host.Outcome State Fault Refusal :=
  runLive (fun e => Wk.ofVx (returning rvlcEscdOp e)) s

/-- NPCM (43_scalefactor_rvlc.md R255). -/
def execNpcm (s : State) : Host.Outcome State Fault Refusal := runBits (returning npcmOp) s

/-- VLC_OP 7, reserved: no effect on any state (30_encoding.md R130). -/
def execVlcReserved7 (s : State) : Host.Outcome State Fault Refusal := .next s

end Sys2Proof.Machine
end

