-- ==== Sys2Proof/Machine/Parsers.lean ====
section
/-! DEFINITION. The container and configuration parsers (41_parsers.md): ADTS, ADIF, PCE, AudioSpecificConfig and LATM, each
a program over the cursor alone. -/

namespace Sys2Proof.Machine

/-! ## ADTS (R171 to R175) -/

/-- ADTS_SYNC (R171): tries left, bytes skipped so far; answers the bytes skipped. -/
def adtsSync (e : Env) : Nat → Nat → Rd Nat
  | 0, _ => Rd.raiseAsIs .syncNotFound
  | k + 1, i => do
    let s ← Rd.peek e 12
    let c ← Rd.cursor
    if c.err then Rd.raiseAsIs .syncNotFound
    else if s = 0xFFF then do
      Rd.flush 12
      return i
    else do
      Rd.flush 8
      adtsSync e k (i + 1)

/-- An empty ADTS record. -/
def adtsEmpty : Adts := ⟨0, false, 0, 0, 0, false, 0, 0, 0, none⟩

/-- ADTS_FIXED (R172). -/
def adtsFixed (e : Env) (a : Adts) : Rd Adts := do
  let id ← Rd.bit e
  let _layer ← Rd.get e 2
  let protectionAbsent ← Rd.bit e
  let profile ← Rd.get e 2
  let sfIndex ← Rd.get e 4
  let _private ← Rd.get e 1
  let channels ← Rd.get e 3
  let _original ← Rd.get e 1
  let _home ← Rd.get e 1
  if e.cfg.oldAdtsFormat && !id then do
    let _emphasis ← Rd.get e 2
  if sfIndex > 12 then Rd.raise .reservedValue
  return { a with
    id := id
    objectType := BitVec.ofNat 6 (profile + 1)
    sfIndex := BitVec.ofNat 4 sfIndex
    channelConfig := BitVec.ofNat 4 channels
    protectionAbsent := protectionAbsent }

/-- ADTS_VARIABLE (R173). -/
def adtsVariable (e : Env) (a : Adts) : Rd Adts := do
  let _idBit ← Rd.get e 1
  let _idStart ← Rd.get e 1
  let frameLength ← Rd.get e 13
  let fullness ← Rd.get e 11
  let blocks ← Rd.get e 2
  return { a with
    frameLength := BitVec.ofNat 13 frameLength
    bufferFullness := BitVec.ofNat 11 fullness
    rawBlocks := BitVec.ofNat 2 blocks }

/-- ADTS_CRC (R174): read and not verified. -/
def adtsCrc (e : Env) (a : Adts) : Rd Adts :=
  if a.protectionAbsent then return a
  else do
    let v ← Rd.get e 16
    return { a with crc := some (BitVec.ofNat 16 v) }

/-- ADTS_HEADER (R175). -/
def adtsHeader (e : Env) : Rd Adts := do
  let skipped ← adtsSync e e.par.syncWindowBytes 0
  let a ← adtsFixed e { adtsEmpty with skipped := skipped }
  let a ← adtsVariable e a
  let a ← adtsCrc e a
  Rd.sample
  return a

/-! ## PCE (R181, 30_encoding.md R123) -/

/-- is_cpe and tag_select of n elements. -/
def pceElems (e : Env) : Nat → Rd (List PceElem)
  | 0 => return []
  | n + 1 => do
    let c ← Rd.bit e
    let t ← Rd.get e 4
    let r ← pceElems e n
    return ⟨c, t⟩ :: r

/-- A present flag and, when set, a 4-bit number. -/
def optional4 (e : Env) : Rd (Option Nat) := do
  let p ← Rd.bit e
  if p then do
    let v ← Rd.get e 4
    return some v
  else return none

/-- The channels of a PCE's element list, a pair counting two. -/
def pceElemChannels (l : List PceElem) : Nat := l.foldl (fun n x => n + (if x.isCpe then 2 else 1)) 0

/-- pce.channels (R181). -/
def Pce.channels (p : Pce) : Nat :=
  pceElemChannels p.front + pceElemChannels p.side + pceElemChannels p.back + p.lfe.length

/-- matrix_mixdown_idx_present and its fields. -/
def pceMatrix (e : Env) : Rd (Option (Nat × Bool)) := do
  let p ← Rd.bit e
  if p then do
    let i ← Rd.get e 2
    let s ← Rd.bit e
    return some (i, s)
  else return none

/-- PCE_PARSE (R181). -/
def pceParse (e : Env) : Rd Pce := do
  let tag ← Rd.get e 4
  let objectType ← Rd.get e 2
  let sfIndex ← Rd.get e 4
  let numFront ← Rd.get e 4
  let numSide ← Rd.get e 4
  let numBack ← Rd.get e 4
  let numLfe ← Rd.get e 2
  let numAssoc ← Rd.get e 3
  let numCc ← Rd.get e 4
  let mono ← optional4 e
  let stereo ← optional4 e
  let matrix ← pceMatrix e
  let front ← pceElems e numFront
  let side ← pceElems e numSide
  let back ← pceElems e numBack
  let lfe ← Rd.many e 4 numLfe
  let assoc ← Rd.many e 4 numAssoc
  let cc ← pceElems e numCc
  Rd.byteAlign
  let commentBytes ← Rd.get e 8
  let comment ← Rd.many e 8 commentBytes
  let pce : Pce :=
    { tag := tag, objectType := objectType, sfIndex := sfIndex, front := front, side := side, back := back,
      lfe := lfe, assoc := assoc, cc := cc, monoMixdown := mono, stereoMixdown := stereo,
      matrixMixdown := matrix, comment := comment }
  if pce.channels > e.par.maxChannels then Rd.raise .pce
  Rd.sample
  return pce

/-! ## ADIF (R179) -/

/-- The PCEs of an ADIF header, each after its adif_buffer_fullness when bitstream_type is 0. -/
def adifPces (e : Env) (bitstreamType : Bool) : Nat → Rd (List Nat × List Pce)
  | 0 => return ([], [])
  | n + 1 => do
    let fullness ← (if bitstreamType then (return []) else Rd.many e 20 1)
    let p ← pceParse e
    let r ← adifPces e bitstreamType n
    return (fullness ++ r.1, p :: r.2)

/-- ADIF_HEADER (R179). -/
def adifHeader (e : Env) : Rd Adif := do
  Rd.flush 32
  let idPresent ← Rd.bit e
  let copyrightId ← Rd.many e 8 (if idPresent then 9 else 0)
  let _original ← Rd.get e 1
  let _home ← Rd.get e 1
  let bitstreamType ← Rd.bit e
  let bitrate ← Rd.get e 23
  let n ← Rd.get e 4
  let r ← adifPces e bitstreamType (n + 1)
  Rd.byteAlign
  Rd.sample
  return { copyrightId := copyrightId, bitstreamType := bitstreamType, bitrate := bitrate,
           bufferFullness := r.1, pces := r.2 }

/-! ## AudioSpecificConfig (R182) -/

/-- What a stream says of SBR (R184): nothing, absent, or present with an extension rate and PS. -/
inductive SbrSignal where
  | unknown
  | absent
  | present (extRate : Nat) (ps : Bool)
  deriving DecidableEq, Repr, Inhabited

/-- What ASC_PARSE reads. -/
structure Asc where
  objectType : Nat
  sfIndex : Nat
  rate : Nat
  channelConfig : Nat
  frameLen : Nat
  erFlags : Nat
  pce : Option Pce
  signal : SbrSignal
  deriving DecidableEq, Repr, Inhabited

/-- A 4-bit rate index and, for the escape 15, the 24-bit rate; indexes 13 and 14 are reserved (30_encoding.md R131). -/
def ascRate (e : Env) : Rd (Nat × Nat) := do
  let i ← Rd.get e 4
  if i = 15 then do
    let r ← Rd.get e 24
    return (i, r)
  else if i > 12 then Rd.raise .reservedValue
  else return (i, sampleRate e.par i)

/-- The object types an ASC may name (R182): SSR needs its capability, the others as R403. -/
def ascDecodable (c : Cap) (ot : Nat) : Bool := if ot = 3 then c.ssr else decodable c ot

/-- Explicit SBR: object type 5 or 29, then the extension rate and the core object type (30_encoding.md R108 row 5). -/
def ascExplicit (e : Env) (ot : Nat) : Rd (Nat × SbrSignal) :=
  if ot = 5 ∨ ot = 29 then
    if e.par.cap.sbr then do
      let x ← ascRate e
      let core ← Rd.get e 5
      return (core, .present x.2 (ot == 29))
    else Rd.raise .capability
  else return (ot, .unknown)

/-- channelConfiguration (30_encoding.md R108 row 4). Above 7 it is E_RESERVED_VALUE (R182) when strict; INIT and INIT2 leave it
to R408, whose E_CHANNEL_CONFIG the test vector T-OR-15 shows (log 10). -/
def ascChannels (e : Env) (strict : Bool) : Rd Nat := do
  let cc ← Rd.get e 4
  if strict && decide (7 < cc) then Rd.raise .reservedValue
  return cc

/-- The error-resilience flags and extensionFlag3 (30_encoding.md R108 row 10). -/
def ascErFlags (e : Env) (ext : Bool) (ot : Nat) : Rd Nat :=
  if ext && decide (17 ≤ ot) then do
    let a ← Rd.get e 1
    let b ← Rd.get e 1
    let c ← Rd.get e 1
    let _flag3 ← Rd.get e 1
    return a + 2 * b + 4 * c
  else return 0

/-- The sync-extension search (30_encoding.md R108 row 11). -/
def ascSyncExtension (e : Env) (signal : SbrSignal) : Rd SbrSignal := do
  let k ← Rd.cursor
  if signal = .unknown ∧ 16 ≤ k.bitsLeft then do
    let t ← Rd.peek e 11
    if t = 0x2B7 then do
      Rd.flush 11
      let eot ← Rd.get e 5
      if eot = 5 then do
        let present ← Rd.bit e
        if present then do
          let x ← ascRate e
          return .present x.2 false
        else return .absent
      else return signal
    else return signal
  else return signal

/-- ASC_PARSE (R182); strict as ascChannels. -/
def ascParse (e : Env) (strict : Bool) : Rd Asc := do
  let ot ← Rd.get e 5
  let sfr ← ascRate e
  if sfr.2 = 0 then Rd.raise .reservedValue
  let cc ← ascChannels e strict
  let x ← ascExplicit e ot
  if !ascDecodable e.par.cap x.1 then Rd.raise .capability
  let frameLenFlag ← Rd.bit e
  let depends ← Rd.bit e
  if depends then do
    let _delay ← Rd.get e 14
  let ext ← Rd.bit e
  let pce ← (if cc = 0 then do
      let p ← pceParse e
      return some p
    else return none)
  let er ← ascErFlags e ext x.1
  let signal ← ascSyncExtension e x.2
  Rd.sample
  return { objectType := x.1, sfIndex := sfr.1, rate := sfr.2, channelConfig := cc,
           frameLen := (if frameLenFlag then 960 else 1024), erFlags := er, pce := pce, signal := signal }

/-! ## The SBR presence policy (R184) and the commit to StreamConfig -/

/-- SC.sbr_present and SC.ps_present from what the stream says (R184). -/
def applySignal (c : Cap) (sig : SbrSignal) (sc : StreamCfg) : StreamCfg :=
  match sig with
  | .present _ ps => { sc with sbrPresent := true, psPresent := ps && c.ps }
  | .absent => { sc with sbrPresent := false, psPresent := false }
  | .unknown => { sc with sbrPresent := c.sbr && decide (sc.sampleRate.toNat ≤ 24000), psPresent := false }

/-- The StreamConfig an ASC writes (R182). -/
def applyAsc (c : Cap) (a : Asc) (sc : StreamCfg) : StreamCfg :=
  applySignal c a.signal { sc with
    objectType := BitVec.ofNat 6 a.objectType
    sfIndex := BitVec.ofNat 4 a.sfIndex
    sampleRate := BitVec.ofNat 32 a.rate
    channelConfig := BitVec.ofNat 4 a.channelConfig
    frameLen := BitVec.ofNat 11 a.frameLen
    erFlags := BitVec.ofNat 3 a.erFlags }

/-! ## LATM (R186, R187) -/

/-- Whether LATM_MUX_PARSE's answer is the supported multiplex shape. -/
def latmSupported (m : LatmMux) : Bool := m.numPrograms == 1 && m.numLayers == 1 && m.uniformFraming

/-- The LATM lookahead (R187): the embedded ASC at the cursor, parsed speculatively; its length is what the parse consumes, and a
failure leaves the cursor as it was. -/
def latmAsc (e : Env) (strict : Bool) : Rd Asc := do
  let r ← Rd.speculate (ascParse e strict)
  match r with
  | .ok a => return a
  | .error c => Rd.raiseAsIs c

/-- LATM_MUX_PARSE (R186, 30_encoding.md R109): useSameStreamMux, and without it the StreamMuxConfig with its embedded ASC. Its
field layout is configuration; it leaves the cursor at the payload and answers the conditions and the ASC, if any. -/
def latmMuxParse (e : Env) (strict : Bool) : Rd (LatmMux × Option Asc) := do
  let same ← Rd.bit e
  let k ← Rd.cursor
  let bits := bitList e.mem k.base k.pos k.bitsLeft
  let m := Config.latmMux same bits
  let a ← (if same then (return none) else do
    Rd.seek (k.pos + m.ascOffset)
    let a ← latmAsc e strict
    return some a)
  let c ← Rd.cursor
  Rd.seek (c.pos + (Config.latmPayload same bits (c.pos - k.pos)).skip)
  return (m, a)

/-- LATM_FRAME (R186): answers the ASC to commit, if any, and leaves the cursor at the payload. -/
def latmFrame (e : Env) (strict : Bool) : Rd (Option Asc) := do
  let s ← Rd.peek e 11
  if s ≠ 0x2B7 then Rd.raise .syncNotFound
  Rd.flush 11
  let _muxLen ← Rd.get e 13
  let x ← latmMuxParse e strict
  if !latmSupported x.1 then Rd.raise .latmUnsupported
  Rd.sample
  return x.2

end Sys2Proof.Machine
end

