-- ==== Sys2Proof/Machine/SideInfo.lean ====
section
/-! DEFINITION. The parsing half of component 4 (44_noiseless.md R281 to R296), the scale factors with their RVLC variant
(43_scalefactor_rvlc.md R252 to R265) and the spectral data (42_huffman_spectral.md R225). -/

namespace Sys2Proof.Machine

/-! ## ics_info (R281, R283) -/

/-- One bit of scale_factor_grouping: 1 extends the current group, 0 starts a new one. The list is newest first. -/
def groupStep (acc : List Nat) (b : Bool) : List Nat :=
  match acc with
  | [] => [1]
  | a :: r => if b then (a + 1) :: r else 1 :: a :: r

/-- window_group_length from the seven grouping bits, bit 6 first (R281). -/
def groupLengths (l : List Bool) : List Nat := (l.foldl groupStep [1]).reverse

/-- sect_sfb_offset of a group of len short windows: n more bands from band sfb on (R283). -/
def shortOffsets (swb : List Nat) (len : Nat) : Nat → Nat → Nat → List Nat
  | 0, _, acc => [acc]
  | n + 1, sfb, acc => acc :: shortOffsets swb len n (sfb + 1) (acc + (swb.getD (sfb + 1) 0 - swb.getD sfb 0) * len)

/-- sect_sfb_offset (R283). -/
def sectOffsets (short : Bool) (swb groups : List Nat) (maxSfb : Nat) : List (List Nat) :=
  if short then groups.map (fun len => shortOffsets swb len maxSfb 0 0) else [slice 0 swb 0 (maxSfb + 1)]

/-- The eight-short window sequence. -/
def eightShort : BitVec 2 := 2

/-- LTP_DATA (R296): prevLag is the previous frame's lag of the channel, used by the low-delay object type. -/
def ltpData (e : Env) (ot fl : Nat) (short : Bool) (maxSfb prevLag : Nat) : Rd Ltp := do
  if !e.par.cap.ltp then Rd.raise .capability
  let lag ← (if ot = 23 then do
      let upd ← Rd.bit e
      if upd then Rd.get e 10 else return prevLag
    else Rd.get e 11)
  let coef ← Rd.get e 3
  if lag > ltpLagMax e.par fl then Rd.raise .ltpLag
  let used ← (if short then (return []) else Rd.manyBits e (min maxSfb 40))
  return ⟨lag, coef, used⟩

/-- ltp_data_present and its ltp_data. -/
def optionalLtp (e : Env) (ot fl : Nat) (short : Bool) (maxSfb prevLag : Nat) : Rd (Option Ltp) := do
  let p ← Rd.bit e
  if p then do
    let l ← ltpData e ot fl short maxSfb prevLag
    return some l
  else return none

/-- What follows predictor_data_present in a long window (R281): the LTP data of the channel and, in a common-window pair,
of the second channel. -/
def predictorData (e : Env) (ot fl : Nat) (shared : Bool) (maxSfb lagA lagB : Nat) :
    Rd (Option Ltp × Option Ltp) := do
  let p ← Rd.bit e
  if !p then return (none, none)
  else if ltpCapable ot then do
    let a ← optionalLtp e ot fl false maxSfb lagA
    if shared then do
      let b ← optionalLtp e ot fl false maxSfb lagB
      return (a, b)
    else return (a, none)
  else Rd.raise .capability

/-- The part of ICS_INFO after window_shape: max_sfb, the groups, and the LTP data of one or two channels. -/
def icsInfoBody (e : Env) (ot fl : Nat) (short shared : Bool) (lagA lagB : Nat) :
    Rd (Nat × List Nat × Option Ltp × Option Ltp) :=
  if short then do
    let maxSfb ← Rd.get e 4
    let grouping ← Rd.manyBits e 7
    return (maxSfb, groupLengths grouping, none, none)
  else do
    let maxSfb ← Rd.get e 6
    let l ← predictorData e ot fl shared maxSfb lagA lagB
    return (maxSfb, [1], l.1, l.2)

/-- ICS_INFO (R281): the shared fields, the LTP data of the channel, and of the second channel of a shared ics_info. -/
def icsInfo (e : Env) (sc : StreamCfg) (shared : Bool) (lagA lagB : Nat) :
    Rd (IcsInfo × Option Ltp × Option Ltp) := do
  let reservedBit ← Rd.bit e
  if reservedBit then Rd.raise .reservedValue
  let ws ← Rd.get e 2
  let shape ← Rd.bit e
  if sc.objectType.toNat = 23 ∧ ws ≠ 0 then Rd.raise .reservedValue
  let short := ws == 2
  let x ← icsInfoBody e sc.objectType.toNat sc.frameLen.toNat short shared lagA lagB
  let swb := swbTable e.par (tableIndex e.par sc) sc.frameLen.toNat short
  if x.1 > swb.1 then Rd.raise .bandRange
  return ({ windowSequence := BitVec.ofNat 2 ws
            windowShape := shape
            maxSfb := x.1
            numWindows := if short then 8 else 1
            groupLens := x.2.1
            numSwb := swb.1
            swbOffset := swb.2
            sectSfbOffset := sectOffsets short swb.2 x.2.1 x.1 }, x.2.2.1, x.2.2.2)

/-! ## Section data (R282) -/

/-- The sum of sect_len_incr up to the first that is not the escape value. -/
def sectionLength (e : Env) (lenBits : Nat) : Nat → Nat → Rd Nat
  | 0, acc => return acc
  | k + 1, acc => do
    let incr ← Rd.get e lenBits
    if incr = 2 ^ lenBits - 1 then sectionLength e lenBits k (acc + incr) else return acc + incr

/-- Whether a section carries no length field: an error-resilient section of codebook 11 or 16 to 31 (R282). -/
def implicitLength (cbBits cb : Nat) : Bool := cbBits == 5 && (cb == 11 || decide (16 ≤ cb))

/-- The sections of one group from band k on; fuel bounds their number. -/
def sectionGroup (e : Env) (cbBits lenBits limit maxSfb : Nat) : Nat → Nat → Rd (List Section)
  | 0, k => if k = maxSfb then return [] else Rd.raise .sectionCount
  | f + 1, k =>
    if k < maxSfb then do
      Rd.sample
      let cb ← Rd.get e cbBits
      if cb = 12 then Rd.raise .reservedValue
      let c ← Rd.cursor
      let len ← (if implicitLength cbBits cb then (return 1) else sectionLength e lenBits (c.bitsLeft + 1) 0)
      if len = 0 then Rd.raise .sectionCount
      if k + len > limit then Rd.raise .bandRange
      let r ← sectionGroup e cbBits lenBits limit maxSfb f (k + len)
      return ⟨cb, k, k + len⟩ :: r
    else if k = maxSfb then return []
    else Rd.raise .sectionCount

/-- The sections of n groups. -/
def sectionGroups (e : Env) (cbBits lenBits limit maxSfb : Nat) : Nat → Rd (List (List Section))
  | 0 => return []
  | n + 1 => do
    let g ← sectionGroup e cbBits lenBits limit maxSfb maxSfb 0
    let r ← sectionGroups e cbBits lenBits limit maxSfb n
    return g :: r

/-- Bit i of SC.er_flags. -/
def StreamCfg.erFlag (sc : StreamCfg) (i : Nat) : Bool := sc.erFlags.getLsbD i

/-- SECTION_DATA (R282). The virtual codebooks 16 to 31 are "available only when ER is in CAP and SC.er_flags bit 0 is set"
(42_huffman_spectral.md R217): a stream with the flag needs ER, and without it fails with the capability error
(00_scope.md R10; log 17). -/
def sectionData (e : Env) (sc : StreamCfg) (info : IcsInfo) : Rd (List (List Section)) := do
  let short := info.windowSequence == eightShort
  if sc.erFlag 0 && !e.par.cap.er then Rd.raise .capability
  sectionGroups e (if sc.erFlag 0 then 5 else 4) (if short then 3 else 5)
    (if short then e.par.maxSfbShort else e.par.maxSfbLong) info.maxSfb info.groupLens.length

/-- sfb_cb of a group: the codebook of each band its sections cover. -/
def sectionCodebooks (l : List Section) : List Nat := l.flatMap (fun s => List.replicate (s.stop - s.first) s.cb)

/-- noise_used: some section has codebook 13; is_used: some section has 14 or 15 (R282). -/
def sectionsNoise (l : List (List Section)) : Bool := l.any (fun g => g.any (fun s => s.cb == 13))
def sectionsIntensity (l : List (List Section)) : Bool := l.any (fun g => g.any (fun s => s.cb == 14 || s.cb == 15))

/-! ## Scale factors (43_scalefactor_rvlc.md R252 to R257) -/

/-- A spectral band: SFACC plus a difference, checked into [0, 255] before the store (R253, R256). -/
def sfSpectral (e : Env) : Vx Int := do
  let d ← sfdOp e
  let r ← Vx.regs
  let v := r.sfacc + d
  Vx.setRegs (fun r => { r with sfacc := v })
  if sfInRange v then return v else Vx.raise .sfRange

/-- An intensity band (R254). -/
def sfIntensity (e : Env) : Vx Int := do
  let d ← sfdOp e
  let r ← Vx.regs
  let v := r.isPos + d
  Vx.setRegs (fun r => { r with isPos := v })
  if sfOtherFails e.par v then Vx.raise .sfRange else return v

/-- A noise band: the first of a channel by NPCM, the others by SFD (R255). -/
def sfNoise (e : Env) : Vx Int := do
  let r ← Vx.regs
  let t ← (if r.noisePcm then do
      Vx.setRegs (fun r => { r with noisePcm := false })
      npcmOp e
    else sfdOp e)
  let r ← Vx.regs
  let v := r.nrg + t
  Vx.setRegs (fun r => { r with nrg := v })
  if sfOtherFails e.par v then Vx.raise .sfRange else return v

/-- The stored value of one band, by the kind of its codebook (R252). -/
def sfBand (e : Env) (cb : Nat) : Vx Int :=
  match kind cb with
  | .zero => return 0
  | .intensity => sfIntensity e
  | .noise => sfNoise e
  | .reserved => sfSpectral e
  | .quadSigned _ => sfSpectral e
  | .quadUnsigned _ => sfSpectral e
  | .pairSigned _ => sfSpectral e
  | .pairUnsigned _ => sfSpectral e
  | .pairEscape _ => sfSpectral e
  | .pairEscapeLimited _ _ => sfSpectral e

/-- The bands of one group, sfb ascending. -/
def mapBands (f : Nat → Vx Int) : List Nat → Vx (List Int)
  | [] => return []
  | cb :: r => do
    let v ← f cb
    let vs ← mapBands f r
    return v :: vs

/-- The groups in order. -/
def mapGroups (f : Nat → Vx Int) : List (List Nat) → Vx (List (List Int))
  | [] => return []
  | g :: r => do
    let v ← mapBands f g
    let vs ← mapGroups f r
    return v :: vs

/-- The start values of the running registers (R252). -/
def sfStart (globalGain : Nat) (r : VlcRegs) : VlcRegs :=
  { r with sfacc := globalGain, isPos := 0, nrg := (globalGain : Int) - 90, noisePcm := true }

/-- SCALE_FACTOR_DATA (R252). -/
def scaleFactorData (e : Env) (globalGain : Nat) (sfbCb : List (List Nat)) : Vx (List (List Int)) := do
  Vx.setRegs (sfStart globalGain)
  let v ← mapGroups (sfBand e) sfbCb
  Vx.ofRd Rd.sample
  return v

/-! ## The reversible-VLC variant (43_scalefactor_rvlc.md R262 to R265) -/

/-- The side information read in place of scale_factor_data (R262). -/
def rvlcSideInfo (e : Env) (short noiseUsed : Bool) : Rd RvlcSide := do
  let concealment ← Rd.bit e
  let revGain ← Rd.get e 8
  let lengthSf ← Rd.get e (if short then 11 else 9)
  let dpcm ← (if noiseUsed then Rd.get e 9 else return 0)
  let escapes ← Rd.bit e
  let lengthEsc ← (if escapes then Rd.get e 8 else return 0)
  let last ← (if noiseUsed then Rd.get e 9 else return 0)
  return { concealment := concealment, revGlobalGain := revGain,
           lengthSf := if noiseUsed then lengthSf - 9 else lengthSf, dpcmNoiseNrg := dpcm,
           escapesPresent := escapes, lengthEscapes := lengthEsc, dpcmNoiseLast := last }

/-- A value that ended in the sentinel: the flag is set and 0 is stored (R265). -/
def rvlcMiss : Vx Int := do
  Vx.setRegs (fun r => { r with rvlcErr := true })
  return 0

/-- A spectral band of the RVLC variant: below 0 sets the flag, above 255 is out of range (R265). -/
def rvlcSpectral (e : Env) : Vx Int := do
  let t ← rvlcSfdOp e
  if t = 99 then rvlcMiss
  else do
    let r ← Vx.regs
    let v := r.sfacc + t
    Vx.setRegs (fun r => { r with sfacc := v })
    if v < 0 then rvlcMiss
    else if sfInRange v then return v
    else Vx.raise .sfRange

/-- An intensity band of the RVLC variant. -/
def rvlcIntensity (e : Env) : Vx Int := do
  let t ← rvlcSfdOp e
  if t = 99 then rvlcMiss
  else do
    let r ← Vx.regs
    let v := r.isPos + t
    Vx.setRegs (fun r => { r with isPos := v })
    if sfOtherFails e.par v then Vx.raise .sfRange else return v

/-- A noise band of the RVLC variant: the first difference is dpcm_noise_nrg. -/
def rvlcNoise (e : Env) (dpcm : Nat) : Vx Int := do
  let r ← Vx.regs
  let t ← (if r.noisePcm then do
      Vx.setRegs (fun r => { r with noisePcm := false })
      return (dpcm : Int)
    else rvlcSfdOp e)
  if t = 99 ∧ r.noisePcm = false then rvlcMiss
  else do
    let r ← Vx.regs
    let v := r.nrg + t
    Vx.setRegs (fun r => { r with nrg := v })
    if sfOtherFails e.par v then Vx.raise .sfRange else return v

/-- One band: 0 while the error flag is set (R265), else by the kind of its codebook. -/
def rvlcBand (e : Env) (dpcm cb : Nat) : Vx Int := do
  let r ← Vx.regs
  if r.rvlcErr then return 0
  else match kind cb with
    | .zero => return 0
    | .intensity => rvlcIntensity e
    | .noise => rvlcNoise e dpcm
    | .reserved => rvlcSpectral e
    | .quadSigned _ => rvlcSpectral e
    | .quadUnsigned _ => rvlcSpectral e
    | .pairSigned _ => rvlcSpectral e
    | .pairUnsigned _ => rvlcSpectral e
    | .pairEscape _ => rvlcSpectral e
    | .pairEscapeLimited _ _ => rvlcSpectral e

/-- The running registers of RVLC data (R265). -/
def rvlcStart (globalGain : Nat) (r : VlcRegs) : VlcRegs :=
  { sfStart globalGain r with nrg := (globalGain : Int) - 90 - 256, rvlcErr := false }

/-- Both runs, located at the cursor and cut at the buffer's end, and the cursor moved past them (R262). -/
def rvlcRuns (side : RvlcSide) : Vx Unit := fun g =>
  let p := g.bc.pos
  let q := p + side.lengthSf
  let t := q + side.lengthEscapes
  .ok () { g with
    bc := g.bc.seek t
    regs := { g.regs with
      sfRun := ⟨p, min q g.bc.limit⟩
      escRun := ⟨min q g.bc.limit, min t g.bc.limit⟩ } }

/-- RVLC_SCALE_FACTORS (R265). -/
def rvlcScaleFactors (e : Env) (globalGain : Nat) (side : RvlcSide) (sfbCb : List (List Nat)) :
    Vx (List (List Int)) := do
  rvlcRuns side
  Vx.setRegs (rvlcStart globalGain)
  let v ← mapGroups (rvlcBand e side.dpcmNoiseNrg) sfbCb
  let r ← Vx.regs
  if r.rvlcErr then Vx.raise .rvlc
  else do
    Vx.ofRd Rd.sample
    return v

/-! ## Pulse and TNS data (R287, R290) -/

/-- Offset and amplitude of n pulses. -/
def pulseList (e : Env) : Nat → Rd (List (Nat × Nat))
  | 0 => return []
  | n + 1 => do
    let o ← Rd.get e 5
    let a ← Rd.get e 4
    let r ← pulseList e n
    return (o, a) :: r

/-- PULSE_DATA (R287). -/
def pulseData (e : Env) (numSwb : Nat) : Rd Pulse := do
  let n ← Rd.get e 2
  let start ← Rd.get e 6
  if start > numSwb then Rd.raise .bandRange
  let l ← pulseList e (n + 1)
  return ⟨start, l.map (·.1), l.map (·.2)⟩

/-- One TNS filter: all its coefficients are read, the first 20 are used (R290). -/
def tnsFilterData (e : Env) (lengthBits orderBits : Nat) (coefRes : Bool) : Rd TnsFilter := do
  let length ← Rd.get e lengthBits
  let order ← Rd.get e orderBits
  if order = 0 then return ⟨length, 0, false, false, []⟩
  else do
    let direction ← Rd.bit e
    let compress ← Rd.bit e
    let coef ← Rd.many e (coefRes.toNat + 3 - compress.toNat) order
    return ⟨length, min order 20, direction, compress, coef.take 20⟩

/-- n filters of one window. -/
def tnsFilters (e : Env) (lengthBits orderBits : Nat) (coefRes : Bool) : Nat → Rd (List TnsFilter)
  | 0 => return []
  | n + 1 => do
    let f ← tnsFilterData e lengthBits orderBits coefRes
    let r ← tnsFilters e lengthBits orderBits coefRes n
    return f :: r

/-- n windows. -/
def tnsWindows (e : Env) (short : Bool) : Nat → Rd (List TnsWindow)
  | 0 => return []
  | n + 1 => do
    let nf ← Rd.get e (if short then 1 else 2)
    let res ← (if nf > 0 then Rd.bit e else return false)
    let fs ← tnsFilters e (if short then 4 else 6) (if short then 3 else 5) res nf
    let r ← tnsWindows e short n
    return ⟨res, fs⟩ :: r

/-- TNS_DATA (R290). -/
def tnsData (e : Env) (info : IcsInfo) : Rd (List TnsWindow) :=
  tnsWindows e (info.windowSequence == eightShort) info.numWindows

/-! ## Spectral data (42_huffman_spectral.md R225) -/

/-- The codewords of one section, from line k up to line stop; fuel bounds their number. -/
def spectralSection (e : Env) (fl cb stop : Nat) : Nat → Nat → List Int → Vx (List Int)
  | 0, _, q => return q
  | f + 1, k, q =>
    if k < stop then
      if k + tupleSize cb > fl then Vx.raise .bandRange
      else do
        hcw e cb
        let r ← Vx.regs
        spectralSection e fl cb stop f (k + tupleSize cb) (splice q k (r.lanes (tupleSize cb)))
    else return q

/-- Whether SPECTRAL_DATA skips a section (R227). -/
def skipsSection (cb : Nat) : Bool :=
  kind cb == .zero || kind cb == .noise || kind cb == .intensity

/-- The sections of one group at QSPEC line base. -/
def spectralGroup (e : Env) (fl base : Nat) (offsets : List Nat) : List Section → List Int → Vx (List Int)
  | [], q => return q
  | s :: r, q =>
    if skipsSection s.cb then spectralGroup e fl base offsets r q
    else do
      let q' ← spectralSection e fl s.cb (base + offsets.getD s.stop 0) (fl + 1) (base + offsets.getD s.first 0) q
      spectralGroup e fl base offsets r q'

/-- The groups in order: (sections, offsets, window count). -/
def spectralGroups (e : Env) (fl : Nat) : Nat → List (List Section × List Nat × Nat) → List Int → Vx (List Int)
  | _, [], q => return q
  | base, g :: r, q => do
    let q' ← spectralGroup e fl base g.2.1 g.1 q
    spectralGroups e fl (base + g.2.2 * (fl / 8)) r q'

/-- Sections, offsets and window count of each group. -/
def groupTriples (info : IcsInfo) (sections : List (List Section)) : List (List Section × List Nat × Nat) :=
  (List.range info.groupLens.length).map
    (fun g => (sections.getD g [], info.sectSfbOffset.getD g [], info.groupLens.getD g 0))

/-- SPECTRAL_DATA (R225): QSPEC starts at zero (R226). -/
def spectralData (e : Env) (fl : Nat) (info : IcsInfo) (sections : List (List Section)) : Vx (List Int) := do
  let q ← spectralGroups e fl 0 (groupTriples info sections) (List.replicate fl 0)
  Vx.ofRd Rd.sample
  return q

/-! ## The channel stream (R284) -/

def IcsInfo.none : IcsInfo := ⟨0, false, 0, 1, [], 0, [], []⟩

/-- A channel stream of which only ics_info and its LTP data are known. -/
def Ics.start (info : IcsInfo) (ltp : Option Ltp) : Ics where
  globalGain := 0
  info := info
  sections := []
  sfbCb := []
  scaleFactors := []
  noiseUsed := false
  isUsed := false
  pulse := Option.none
  tns := Option.none
  ltp := ltp
  rvlc := Option.none
  msMaskPresent := 0
  msUsed := []

/-- The channel stream of channel c. -/
def chanIcs (c : Nat) : Wk Ics := do
  let ch ← Wk.chan c
  return ch.ics.getD (Ics.start IcsInfo.none none)

/-- Remember the lag of a channel for the low-delay object type (R296). A frame without LTP data for the channel leaves the lag
last read there, so that "the previous frame's lag" is the latest one (DESIGN CHOICE, log 15: the rule is silent). -/
def rememberLag (c : Nat) (l : Option Ltp) : Wk Unit :=
  match l with
  | some x => Wk.setDs (fun d => { d with ltpLagPrev := setPad 0 d.ltpLagPrev c x.lag })
  | none => return ()

/-- ICS_INFO for channel c alone. -/
def icsInfoOne (e : Env) (c : Nat) : Wk Unit := do
  let sc ← Wk.sc
  let d ← Wk.ds
  let x ← Wk.ofRd (icsInfo e sc false (d.ltpLagPrev.getD c 0) 0)
  rememberLag c x.2.1
  Wk.setChan c (fun ch => { ch with ics := some (Ics.start x.1 x.2.1) })

/-- ICS_INFO shared by channels a and b (48_orchestrator.md R417). -/
def icsInfoPair (e : Env) (a b : Nat) : Wk Unit := do
  let sc ← Wk.sc
  let d ← Wk.ds
  let x ← Wk.ofRd (icsInfo e sc true (d.ltpLagPrev.getD a 0) (d.ltpLagPrev.getD b 0))
  rememberLag a x.2.1
  rememberLag b x.2.2
  Wk.setChan a (fun ch => { ch with ics := some (Ics.start x.1 x.2.1) })
  Wk.setChan b (fun ch => { ch with ics := some (Ics.start x.1 x.2.2) })

/-- The scale factors at their place in the stream, or the RVLC side information (R284). -/
def scaleFactorPart (e : Env) (sc : StreamCfg) (gain : Nat) (short noise : Bool) (sfbCb : List (List Nat)) :
    Wk (List (List Int) × Option RvlcSide) :=
  if sc.erFlag 1 then
    if e.par.cap.rvlc then do
      let side ← Wk.ofRd (rvlcSideInfo e short noise)
      return ([], some side)
    else Wk.raise .capability
  else do
    let v ← Wk.ofVx (scaleFactorData e gain sfbCb)
    return (v, none)

/-- A presence bit and, when set, the data (R284). -/
def optionalPart {α : Type} (e : Env) (p : Rd α) : Rd (Option α) := do
  let b ← Rd.bit e
  if b then do
    let v ← p
    return some v
  else return none

/-- The RVLC scale factors at their place before the spectral data (R284). -/
def rvlcPart (e : Env) (gain : Nat) (sfbCb : List (List Nat)) (early : List (List Int) × Option RvlcSide) :
    Wk (List (List Int)) :=
  match early.2 with
  | some side => Wk.ofVx (rvlcScaleFactors e gain side sfbCb)
  | none => return early.1

/-- ICS_PARSE(c, common_window) (R284). -/
def icsParse (e : Env) (c : Nat) (common : Bool) : Wk Unit := do
  let sc ← Wk.sc
  let gain ← Wk.ofRd (Rd.get e 8)
  if !common then icsInfoOne e c
  let ics ← chanIcs c
  let short := ics.info.windowSequence == eightShort
  let sections ← Wk.ofRd (sectionData e sc ics.info)
  let sfbCb := sections.map sectionCodebooks
  let early ← scaleFactorPart e sc gain short (sectionsNoise sections) sfbCb
  let pulse ← Wk.ofRd (optionalPart e (pulseData e ics.info.numSwb))
  let tns ← Wk.ofRd (optionalPart e (tnsData e ics.info))
  let gainControl ← Wk.ofRd (Rd.bit e)
  if gainControl then Wk.raise .capability
  let sf ← rvlcPart e gain sfbCb early
  if sc.erFlag 2 then Wk.raise .capability
  let q ← Wk.ofVx (spectralData e sc.frameLen.toNat ics.info sections)
  if pulse.isSome && short then Wk.raise .pulseInShort
  Wk.setChan c (fun ch => { ch with
    qspec := q
    ics := some { ics with
      globalGain := gain
      sections := sections
      sfbCb := sfbCb
      scaleFactors := sf
      noiseUsed := sectionsNoise sections
      isUsed := sectionsIntensity sections
      pulse := pulse
      tns := tns
      rvlc := early.2 } })

end Sys2Proof.Machine
end

