-- ==== Sys2Proof/Machine/Recon.lean ====
section
/-! DEFINITION. The reconstruction stages (44_noiseless.md R283, R288 to R312) and the filterbank (45_filterbank.md): pure
functions over the arrays of a channel, and the stages over the working state. -/

namespace Sys2Proof.Machine

/-! ## Lines of a band (R283, R289) -/

/-- One window's share of one band: its group, band, first SPEC line (window order), first QSPEC line (group order) and
number of lines. -/
structure Block where
  g : Nat
  sfb : Nat
  spec : Nat
  q : Nat
  width : Nat
  deriving DecidableEq, Repr

/-- The width of band sfb. -/
def bandWidth (info : IcsInfo) (sfb : Nat) : Nat := info.swbOffset.getD (sfb + 1) 0 - info.swbOffset.getD sfb 0

/-- The windows before group g. -/
def windowsBefore (info : IcsInfo) (g : Nat) : Nat := (info.groupLens.take g).sum

/-- The distance between the windows' lines in SPEC. -/
def windowStride (info : IcsInfo) (fl : Nat) : Nat := if info.windowSequence == eightShort then fl / 8 else fl

/-- The blocks of band sfb of group g, windows ascending. -/
def bandBlocks (info : IcsInfo) (fl g sfb : Nat) : List Block :=
  (List.range (info.groupLens.getD g 0)).map (fun w =>
    { g := g
      sfb := sfb
      spec := (windowsBefore info g + w) * windowStride info fl + info.swbOffset.getD sfb 0
      q := windowsBefore info g * windowStride info fl + grid 0 info.sectSfbOffset g sfb + w * bandWidth info sfb
      width := bandWidth info sfb })

/-- Every (group, band) below max_sfb: groups ascending, bands ascending. -/
def bandList (info : IcsInfo) : List (Nat × Nat) :=
  (List.range info.groupLens.length).flatMap (fun g => (List.range info.maxSfb).map (fun sfb => (g, sfb)))

/-- Every block of a channel stream. -/
def blocks (info : IcsInfo) (fl : Nat) : List Block :=
  (bandList info).flatMap (fun x => bandBlocks info fl x.1 x.2)

/-- The codebook of a band of a channel. -/
def bandCb (ics : Ics) (g sfb : Nat) : Nat := grid 0 ics.sfbCb g sfb

/-- The stored scale factor, position or energy of a band. -/
def bandSf (ics : Ics) (g sfb : Nat) : Int := grid 0 ics.scaleFactors g sfb

/-! ## Dequantisation (R289) -/

/-- DEQ: zero at zero and odd by construction, the magnitude law a configuration function. -/
def deq (q sf : Int) : Sample :=
  if q = 0 then 0 else if 0 < q then Config.deqMag q.natAbs sf else - Config.deqMag q.natAbs sf

/-- One block of DEQUANT. -/
def dequantBlock (ics : Ics) (qspec : List Int) (spec : List Sample) (b : Block) : List Sample :=
  if carriesTable (bandCb ics b.g b.sfb) then
    splice spec b.spec ((slice 0 qspec b.q b.width).map (fun q => deq q (bandSf ics b.g b.sfb)))
  else spec

/-- DEQUANT (R289): lines of no table-carrying band are 0. -/
def dequant (ics : Ics) (fl : Nat) (qspec : List Int) : List Sample :=
  (blocks ics.info fl).foldl (dequantBlock ics qspec) (List.replicate fl 0)

/-- The quantised values DEQUANT uses. -/
def dequantInputs (ics : Ics) (fl : Nat) (qspec : List Int) : List Int :=
  (blocks ics.info fl).flatMap
    (fun b => if carriesTable (bandCb ics b.g b.sfb) then slice 0 qspec b.q b.width else [])

/-! ## Pulses (R288) -/

/-- Add the pulses from line k on; none when a position passes the frame length. -/
def pulseApply {α : Type} (d : α) (step : α → Nat → α) (fl : Nat) : List (Nat × Nat) → Nat → List α → Option (List α)
  | [], _, x => some x
  | (o, a) :: r, k, x =>
    if k + o < fl then pulseApply d step fl r (k + o) (x.set (k + o) (step (x.getD (k + o) d) a)) else none

/-- The sign rule on a sample and on a quantised integer: zero counts as not positive. -/
def pulseSample (x : Sample) (a : Nat) : Sample := if 0 < x then x + a else x - a
def pulseInt (x : Int) (a : Nat) : Int := if 0 < x then x + a else x - a

/-- The pulses of a channel as (offset, amplitude). -/
def Pulse.steps (p : Pulse) : List (Nat × Nat) := p.offsets.zip p.amps

/-! ## Temporal noise shaping (R291, R292) -/

/-- sum of a[i] * h[i - 1], the newest sample first. -/
def dot : List Sample → List Sample → Sample
  | a :: as, h :: hs => a * h + dot as hs
  | _, _ => 0

/-- The all-pole filter (mode decode), hist the newest outputs first. -/
def tnsDecode (a : List Sample) : List Sample → List Sample → List Sample
  | _, [] => []
  | hist, x :: r => let y := x - dot a hist; y :: tnsDecode a (y :: hist.take a.length) r

/-- The all-zero filter (mode encode), hist the newest inputs first. -/
def tnsEncode (a : List Sample) : List Sample → List Sample → List Sample
  | _, [] => []
  | hist, x :: r => (x + dot a hist) :: tnsEncode a (x :: hist.take a.length) r

/-- TNS_FILTER over the lines start to stop - 1, upwards or downwards (R292). -/
def tnsFilter (decode : Bool) (a : List Sample) (down : Bool) (spec : List Sample) (start stop : Nat) : List Sample :=
  let x := slice 0 spec start (stop - start)
  let run := fun l => if decode then tnsDecode a [] l else tnsEncode a [] l
  splice spec start (if down then (run x.reverse).reverse else run x)

/-- The filters of one window whose lines begin at base; top is the upper band of the next filter. -/
def tnsWindowApply (decode : Bool) (info : IcsInfo) (limit base : Nat) (res : Bool) :
    List TnsFilter → Nat → List Sample → List Sample
  | [], _, spec => spec
  | f :: r, top, spec =>
    let bottom := top - f.length
    let start := base + info.swbOffset.getD (min bottom limit) 0
    let stop := base + info.swbOffset.getD (min top limit) 0
    let spec' :=
      if 0 < f.order ∧ start < stop then
        tnsFilter decode ((Config.tnsLpc f.order res f.compress f.coef).take f.order) f.direction spec start stop
      else spec
    tnsWindowApply decode info limit base res r bottom spec'

/-- The windows in order, each stride lines after the one before. -/
def tnsWindowsApply (decode : Bool) (info : IcsInfo) (limit stride : Nat) :
    List TnsWindow → Nat → List Sample → List Sample
  | [], _, spec => spec
  | w :: r, base, spec =>
    tnsWindowsApply decode info limit stride r (base + stride)
      (tnsWindowApply decode info limit base w.coefRes w.filters info.numSwb spec)

/-- TNS_APPLY(c, mode) (R292). -/
def tnsApply (p : Params) (sc : StreamCfg) (decode : Bool) (info : IcsInfo) (tns : List TnsWindow)
    (spec : List Sample) : List Sample :=
  let short := info.windowSequence == eightShort
  tnsWindowsApply decode info (tnsMaxBands p (tableIndex p sc) short info.maxSfb)
    (windowStride info sc.frameLen.toNat) tns 0 spec

/-! ## Windows and the inverse transform (45_filterbank.md R332, R333) -/

/-- The short transform half-length NS and the flat part NF. -/
def shortLen (fl : Nat) : Nat := fl / 8
def flatLen (fl : Nat) : Nat := (fl - shortLen fl) / 2

/-- The rising long window: WLD in place of WL for the low-delay object type. -/
def longWindow (p : Params) (ld : Bool) (shape : Bool) (fl n : Nat) : Sample :=
  windowCoef p (if ld then .lowDelay else .long) shape fl n

/-- The rising short window. -/
def shortWindow (p : Params) (shape : Bool) (fl n : Nat) : Sample := windowCoef p .short shape fl n

/-- The factor of the first half of a one-transform frame at n: only-long and long-start rise by the long window of the
previous shape, long-stop by the short one (R335, R336, R338). -/
def riseFactor (p : Params) (ld : Bool) (ws : BitVec 2) (prev : Bool) (fl n : Nat) : Sample :=
  if ws == 3 then
    if n < flatLen fl then 0
    else if n < flatLen fl + shortLen fl then shortWindow p prev fl (n - flatLen fl)
    else 1
  else longWindow p ld prev fl n

/-- The factor of the second half at n: only-long and long-stop fall by the long window of the frame's own shape,
long-start by the short one. -/
def fallFactor (p : Params) (ld : Bool) (ws : BitVec 2) (shape : Bool) (fl n : Nat) : Sample :=
  if ws == 1 then
    if n < flatLen fl then 1
    else if n < flatLen fl + shortLen fl then shortWindow p shape fl (shortLen fl - 1 - (n - flatLen fl))
    else 0
  else longWindow p ld shape fl (fl - 1 - n)

/-- IMDCT(M, X) on lists (R332). -/
def imdct (M : Nat) (x : List Sample) : List Sample := List.ofFn (Config.imdct M (fun k => x.getD k 0))

/-- The windowed transform of a one-transform frame: FL rising then FL falling samples. -/
def longFrame (p : Params) (ld : Bool) (info : IcsInfo) (prev : Bool) (fl : Nat) (spec : List Sample) : List Sample :=
  let x := imdct (2 * fl) spec
  (List.range fl).map (fun n => x.getD n 0 * riseFactor p ld info.windowSequence prev fl n) ++
  (List.range fl).map (fun n => x.getD (fl + n) 0 * fallFactor p ld info.windowSequence info.windowShape fl n)

/-- One windowed short transform: the window w of eight (R337). -/
def shortFrame (p : Params) (shape prev : Bool) (fl w : Nat) (spec : List Sample) : List Sample :=
  let ns := shortLen fl
  let x := imdct (2 * ns) (slice 0 spec (w * ns) ns)
  (List.range (2 * ns)).map (fun j =>
    x.getD j 0 *
      (if j < ns then shortWindow p (if w = 0 then prev else shape) fl j
       else shortWindow p shape fl (2 * ns - 1 - j)))

/-- Add a run of samples into a buffer from start on. -/
def addAt (z : List Sample) (start : Nat) (x : List Sample) : List Sample :=
  splice z start ((List.range x.length).map (fun j => z.getD (start + j) 0 + x.getD j 0))

/-- The buffer z of R337: eight windows accumulated NS apart from NF on. -/
def shortBuffer (p : Params) (info : IcsInfo) (prev : Bool) (fl : Nat) (spec : List Sample) : List Sample :=
  (List.range 8).foldl
    (fun z w => addAt z (flatLen fl + w * shortLen fl) (shortFrame p info.windowShape prev fl w spec))
    (List.replicate (2 * fl) 0)

/-- The 2 FL windowed samples of a frame, whichever its sequence. -/
def windowedFrame (p : Params) (ld : Bool) (info : IcsInfo) (prev : Bool) (fl : Nat) (spec : List Sample) :
    List Sample :=
  if info.windowSequence == eightShort then shortBuffer p info prev fl spec else longFrame p ld info prev fl spec

/-- Overlap-add (R330): TIME and the new overlap buffer. Elements of the buffer past FL keep their values, also over a change of the
frame length (DESIGN CHOICE, log 34: R340 gives only the FL elements of the frame). -/
def overlapAdd (fl : Nat) (ov z : List Sample) : List Sample × List Sample :=
  ((List.range fl).map (fun n => ov.getD n 0 + z.getD n 0),
   (List.range fl).map (fun n => z.getD (fl + n) 0) ++ ov.drop fl)

/-- FILTERBANK on one channel's arrays (R330, R335 to R338). -/
def filterbank (p : Params) (ld : Bool) (info : IcsInfo) (prev : Bool) (fl : Nat) (ov spec : List Sample) :
    List Sample × List Sample :=
  overlapAdd fl ov (windowedFrame p ld info prev fl spec)

/-! ## Long-term prediction (R297, R298) -/

/-- One history sample; outside the history the layout is configuration. -/
def ltpSample (hist : List Int) (i : Int) : Int :=
  if 0 ≤ i ∧ i < hist.length then hist.getD i.toNat 0 else Config.ltpOutside i

/-- est[0 .. 2 FL - 1] (R297). -/
def ltpEstimate (p : Params) (fl : Nat) (hist : List Int) (l : Ltp) : List Sample :=
  (List.range (2 * fl)).map (fun n =>
    p.ltpCoef.getD l.coef 0 * (ltpSample hist ((p.ltpHistBase : Int) + n - l.lag) : Rat))

/-- window(est): the frame's own window form (DEDUCED, log 15). -/
def ltpWindow (p : Params) (ld : Bool) (info : IcsInfo) (prev : Bool) (fl : Nat) (est : List Sample) : List Sample :=
  (List.range fl).map (fun n => est.getD n 0 * riseFactor p ld info.windowSequence prev fl n) ++
  (List.range fl).map (fun n => est.getD (fl + n) 0 * fallFactor p ld info.windowSequence info.windowShape fl n)

/-- MDCT_FWD on lists. -/
def mdctFwd (M : Nat) (x : List Sample) : List Sample := List.ofFn (Config.mdctFwd M (fun k => x.getD k 0))

/-- X_est (R297). -/
def ltpSpectrum (p : Params) (sc : StreamCfg) (ics : Ics) (prev : Bool) (hist : List Int) (l : Ltp) : List Sample :=
  let fl := sc.frameLen.toNat
  let ld := sc.objectType == 23
  let x := mdctFwd (2 * fl) (ltpWindow p ld ics.info prev fl (ltpEstimate p fl hist l))
  match ics.tns with
  | some t => tnsApply p sc false ics.info t x
  | none => x

/-- Add the predicted lines of the bands that use the prediction, sfb ascending. -/
def ltpAdd (info : IcsInfo) (x : List Sample) : List Bool → Nat → List Sample → List Sample
  | [], _, spec => spec
  | u :: r, sfb, spec =>
    ltpAdd info x r (sfb + 1)
      (if u then addAt spec (info.swbOffset.getD sfb 0) (slice 0 x (info.swbOffset.getD sfb 0) (bandWidth info sfb))
       else spec)

/-- LTP_APPLY(c) (R297). -/
def ltpApply (p : Params) (sc : StreamCfg) (ics : Ics) (prev : Bool) (hist : List Int) (l : Ltp)
    (spec : List Sample) : List Sample :=
  ltpAdd ics.info (ltpSpectrum p sc ics prev hist l) l.longUsed 0 spec

/-- A value saturated to a signed range. -/
def clampInt (lo hi v : Int) : Int := max lo (min hi v)

/-- A sample rounded to the 16-bit history (R298), by a function of which only the 16 bits are known (log 15). -/
def round16 (x : Sample) : Int := (Config.ltpRound x).toInt

/-- The history after a frame (R298): shifted by one frame, the output completed up to HIST_BASE, the overlap after it. What lies
beyond the overlap stays in place, unshifted (DESIGN CHOICE, log 15: the rule is silent). -/
def ltpUpdate (p : Params) (fl : Nat) (hist : List Int) (time ov : List Sample) : List Int :=
  (((hist.take p.ltpHistBase).drop fl ++ (time.take fl).map round16 ++ (ov.take fl).map round16) ++
    hist.drop (p.ltpHistBase + fl)).take hist.length

/-! ## Perceptual noise substitution (R300, R304) -/

/-- RNG_STEP (R300): the two shift registers move opposite ways; the feedback bits are configuration. -/
def rngStep (r1 r2 : Word32) : Word32 × Word32 × Int :=
  let a := (r1 >>> 1) ||| (if Config.rngFeedback1 r1 then 1 <<< 31 else 0)
  let b := (r2 <<< 1) ||| (if Config.rngFeedback2 r2 then 1 else 0)
  (a, b, (a ^^^ b).toInt)

/-- n generator outputs and the pair after them. -/
def rngRun : Nat → Word32 → Word32 → List Sample × Word32 × Word32
  | 0, r1, r2 => ([], r1, r2)
  | n + 1, r1, r2 =>
    let s := rngStep r1 r2
    let t := rngRun n s.1 s.2.1
    ((s.2.2 : Rat) :: t.1, t.2.1, t.2.2)

/-- The sum of squares of a list. -/
def energy (l : List Sample) : Sample := (l.map (fun v => v * v)).sum

/-- Noise values scaled to a signalled energy (R304). -/
def scaleNoise (l : List Sample) (nrg : Int) : List Sample := l.map (fun v => Config.noiseScale (energy l) nrg * v)

/-- The outputs of the generator for the blocks of a band, one list per block. -/
def noiseBlocks : List Block → Word32 → Word32 → List (List Sample) × Word32 × Word32
  | [], r1, r2 => ([], r1, r2)
  | b :: r, r1, r2 =>
    let x := rngRun b.width r1 r2
    let y := noiseBlocks r x.2.1 x.2.2
    (x.1 :: y.1, y.2.1, y.2.2)

/-- Write the noise of a band into SPEC, each block scaled on its own. -/
def noiseWrite (nrg : Int) : List (Block × List Sample) → List Sample → List Sample
  | [], spec => spec
  | (b, l) :: r, spec => noiseWrite nrg r (splice spec b.spec (scaleNoise l nrg))

/-- Whether a band of a channel is filled with noise. -/
def isNoiseBand (ics : Ics) (g sfb : Nat) : Bool :=
  ics.noiseUsed && decide (g < ics.info.groupLens.length) && decide (sfb < ics.info.maxSfb) && bandCb ics g sfb == 13

/-- The band's M/S flag (R304, R308): set by ms_used or for all bands. -/
def msFlag (ics : Ics) (g sfb : Nat) : Bool :=
  ics.msMaskPresent == 2 || (ics.msMaskPresent == 1 && grid false ics.msUsed g sfb)

/-- What PNS carries from band to band: the spectra of one or two channels, and the generator pair. -/
structure NoiseState where
  specA : List Sample
  specB : List Sample
  r1 : Word32
  r2 : Word32

/-- PNS on one band of a channel pair (R304): the first channel's band, then the second's, which shares the outputs when
both are noise and the M/S flag is set. -/
def noiseBandPair (a b : Ics) (fl : Nat) (n : NoiseState) (x : Nat × Nat) : NoiseState :=
  let ba := bandBlocks a.info fl x.1 x.2
  let bb := bandBlocks b.info fl x.1 x.2
  let na := isNoiseBand a x.1 x.2
  let nb := isNoiseBand b x.1 x.2
  let ga := if na then noiseBlocks ba n.r1 n.r2 else ([], n.r1, n.r2)
  let shared := na && nb && msFlag a x.1 x.2
  let gb := if nb && !shared then noiseBlocks bb ga.2.1 ga.2.2 else ([], ga.2.1, ga.2.2)
  let specA := if na then noiseWrite (bandSf a x.1 x.2) (ba.zip ga.1) n.specA else n.specA
  let specB :=
    if nb then noiseWrite (bandSf b x.1 x.2) (bb.zip (if shared then ga.1 else gb.1)) n.specB else n.specB
  ⟨specA, specB, gb.2.1, gb.2.2⟩

/-- The bands PNS visits: groups ascending, bands ascending, over both channels. -/
def noiseBands (a b : Ics) : List (Nat × Nat) :=
  (List.range (max a.info.groupLens.length b.info.groupLens.length)).flatMap
    (fun g => (List.range (max a.info.maxSfb b.info.maxSfb)).map (fun sfb => (g, sfb)))

/-- PNS_APPLY on a pair; a single channel is a pair whose second channel has no noise band. -/
def pnsApply (a b : Ics) (fl : Nat) (n : NoiseState) : NoiseState :=
  (noiseBands a b).foldl (noiseBandPair a b fl) n

/-! ## Mid/side and intensity stereo (R308, R312, R314) -/

/-- A codebook of 13, 14 or 15 carries no M/S band (R308). -/
def noMsCodebook (cb : Nat) : Bool := cb == 13 || cb == 14 || cb == 15

/-- Sum and difference on one block. -/
def msBlock (s : List Sample × List Sample) (b : Block) : List Sample × List Sample :=
  let m := slice 0 s.1 b.spec b.width
  let d := slice 0 s.2 b.spec b.width
  (splice s.1 b.spec (List.zipWith (· + ·) m d), splice s.2 b.spec (List.zipWith (· - ·) m d))

/-- MS_APPLY (R308). -/
def msApply (a b : Ics) (fl : Nat) (s : List Sample × List Sample) : List Sample × List Sample :=
  (blocks a.info fl).foldl
    (fun s x =>
      if msFlag a x.g x.sfb && !noMsCodebook (bandCb a x.g x.sfb) && !noMsCodebook (bandCb b x.g x.sfb)
      then msBlock s x else s) s

/-- The sign of an intensity band (R312): codebook 15 plus, 14 minus, inverted once more by its M/S flag. -/
def isSign (a b : Ics) (g sfb : Nat) : Sample :=
  let s : Sample := if bandCb b g sfb = 15 then 1 else -1
  if a.msMaskPresent == 1 && grid false a.msUsed g sfb then -s else s

/-- One block of intensity stereo: the second channel a scaled copy of the first. -/
def isBlock (scale : Sample) (first second : List Sample) (b : Block) : List Sample :=
  splice second b.spec ((slice 0 first b.spec b.width).map (fun v => scale * v))

/-- IS_APPLY (R312): the second channel's spectrum. -/
def isApply (a b : Ics) (fl : Nat) (first second : List Sample) : List Sample :=
  (blocks b.info fl).foldl
    (fun s x =>
      if bandCb b x.g x.sfb = 14 ∨ bandCb b x.g x.sfb = 15 then
        isBlock (isSign a b x.g x.sfb * Config.isScale (bandSf b x.g x.sfb)) first s x
      else s) second

/-! ## The stages over the working state -/

/-- Replace the spectrum of a channel. -/
def setSpec (c : Nat) (v : List Sample) : Wk Unit := Wk.setChan c (fun ch => { ch with spec := v })

/-- DEQUANT(c) with its range error. -/
def stageDequant (c : Nat) : Wk Unit := do
  let ics ← chanIcs c
  let ch ← Wk.chan c
  let sc ← Wk.sc
  if !(dequantInputs ics sc.frameLen.toNat ch.qspec).all quantInRange then Wk.raise .quantRange
  setSpec c (dequant ics sc.frameLen.toNat ch.qspec)

/-- PULSE_APPLY(c) on the quantised integers (PULSE_STAGE = pre_dequant). -/
def stagePulsePre (c : Nat) : Wk Unit := do
  let ics ← chanIcs c
  let ch ← Wk.chan c
  let sc ← Wk.sc
  match ics.pulse with
  | none => return ()
  | some p =>
    match pulseApply 0 pulseInt sc.frameLen.toNat p.steps (ics.info.swbOffset.getD p.startSfb 0) ch.qspec with
    | some q => Wk.setChan c (fun ch => { ch with qspec := q })
    | none => Wk.raise .bandRange

/-- PULSE_APPLY(c) on the dequantised samples (PULSE_STAGE = post_dequant). -/
def stagePulsePost (c : Nat) : Wk Unit := do
  let ics ← chanIcs c
  let ch ← Wk.chan c
  let sc ← Wk.sc
  match ics.pulse with
  | none => return ()
  | some p =>
    match pulseApply 0 pulseSample sc.frameLen.toNat p.steps (ics.info.swbOffset.getD p.startSfb 0) ch.spec with
    | some x => setSpec c x
    | none => Wk.raise .bandRange

/-- DEQUANT and the pulses at their configured stage (48_orchestrator.md R424). -/
def stageDequantPulse (e : Env) (c : Nat) : Wk Unit :=
  match e.par.pulseStage with
  | .preDequant => do
    stagePulsePre c
    stageDequant c
  | .postDequant => do
    stageDequant c
    stagePulsePost c

/-- TNS_APPLY(c, decode) when the channel has TNS data. -/
def stageTns (e : Env) (c : Nat) : Wk Unit := do
  let ics ← chanIcs c
  let ch ← Wk.chan c
  let sc ← Wk.sc
  match ics.tns with
  | some t => setSpec c (tnsApply e.par sc true ics.info t ch.spec)
  | none => return ()

/-- LTP_APPLY(c) when the channel has LTP data. -/
def stageLtp (e : Env) (c : Nat) : Wk Unit := do
  let ics ← chanIcs c
  let ch ← Wk.chan c
  let sc ← Wk.sc
  let d ← Wk.ds
  match ics.ltp with
  | some l =>
    setSpec c (ltpApply e.par sc ics (d.windowShapePrev.getD c false) (d.ltpHist.getD c []) l ch.spec)
  | none => return ()

/-- PNS_APPLY on one channel. -/
def stagePnsOne (c : Nat) : Wk Unit := do
  let a ← chanIcs c
  let ch ← Wk.chan c
  let sc ← Wk.sc
  let d ← Wk.ds
  let n := pnsApply a (Ics.start IcsInfo.none none) sc.frameLen.toNat ⟨ch.spec, [], d.rng1, d.rng2⟩
  setSpec c n.specA
  Wk.setDs (fun d => { d with rng1 := n.r1, rng2 := n.r2 })

/-- PNS_APPLY on a pair. -/
def stagePnsPair (c d : Nat) : Wk Unit := do
  let a ← chanIcs c
  let b ← chanIcs d
  let x ← Wk.chan c
  let y ← Wk.chan d
  let sc ← Wk.sc
  let st ← Wk.ds
  let n := pnsApply a b sc.frameLen.toNat ⟨x.spec, y.spec, st.rng1, st.rng2⟩
  setSpec c n.specA
  setSpec d n.specB
  Wk.setDs (fun st => { st with rng1 := n.r1, rng2 := n.r2 })

/-- MS_APPLY then IS_APPLY on a common-window pair. -/
def stageStereo (c d : Nat) : Wk Unit := do
  let a ← chanIcs c
  let b ← chanIcs d
  let x ← Wk.chan c
  let y ← Wk.chan d
  let sc ← Wk.sc
  let m := msApply a b sc.frameLen.toNat (x.spec, y.spec)
  setSpec c m.1
  setSpec d (isApply a b sc.frameLen.toNat m.1 m.2)

/-- FILTERBANK(c), the shape memory (45_filterbank.md R339), and the LTP history update (R298). -/
def stageFilterbank (e : Env) (c : Nat) : Wk Unit := do
  let ics ← chanIcs c
  let ch ← Wk.chan c
  let sc ← Wk.sc
  let d ← Wk.ds
  let fl := sc.frameLen.toNat
  let r := filterbank e.par (sc.objectType == 23) ics.info (d.windowShapePrev.getD c false) fl
    (d.overlap.getD c []) ch.spec
  Wk.setChan c (fun ch => { ch with time := r.1 })
  Wk.setDs (fun d => { d with
    overlap := setPad [] d.overlap c r.2
    windowShapePrev := setPad false d.windowShapePrev c ics.info.windowShape
    ltpHist :=
      if ltpCapable sc.objectType.toNat then
        setPad [] d.ltpHist c (ltpUpdate e.par fl (d.ltpHist.getD c []) r.1 r.2)
      else d.ltpHist })

/-- The stages of R424 between the parse and the SBR engine, in the configured order; cs the channels of the element, pns
and stereo its joint stages. -/
def reconstructCore (e : Env) (cs : List Nat) (pns stereo : Wk Unit) : Wk Unit :=
  match e.par.stageOrder with
  | .source => do
    Wk.forEach cs (stageDequantPulse e)
    Wk.forEach cs (stageTns e)
    Wk.forEach cs (stageLtp e)
    pns
    stereo
    Wk.forEach cs (stageFilterbank e)
  | .standard => do
    Wk.forEach cs (stageDequantPulse e)
    pns
    stereo
    Wk.forEach cs (stageLtp e)
    Wk.forEach cs (stageTns e)
    Wk.forEach cs (stageFilterbank e)

end Sys2Proof.Machine
end

