-- ==== Sys2Proof/Machine/Ps.lean ====
section
/-! DEFINITION. The PS engine (47_ps.md): the payload parser over the engine, and the signal path as pure functions of
PsState and the mono QMF signal. -/

namespace Sys2Proof.Machine

/-! ## PS_PARSE (R382) -/

/-- The header fields in force, before the grid and the indexes. -/
structure PsHeader where
  enableIid : Bool
  iidMode : Nat
  enableIcc : Bool
  iccMode : Nat
  enableExt : Bool
  deriving DecidableEq, Repr

/-- An enable bit and, when set, a 3-bit mode. Without the mode the previous one stays in force where a mode is still used: icc_mode
for the type of the mixing matrices, iid_mode for the bands of the phases (DESIGN CHOICE, log 23: R382 is silent). -/
def psMode (e : Env) (old : Nat) : Rd (Bool × Nat) := do
  let on ← Rd.bit e
  if on then do
    let m ← Rd.get e 3
    return (true, m)
  else return (false, old)

/-- The optional header; without one the previous frame's stays. -/
def psHeader (e : Env) (c : PsCfg) : Rd PsHeader := do
  let present ← Rd.bit e
  if present then do
    let iid ← psMode e c.iidMode
    let icc ← psMode e c.iccMode
    let ext ← Rd.bit e
    return ⟨iid.1, iid.2, icc.1, icc.2, ext⟩
  else return ⟨c.enableIid, c.iidMode, c.enableIcc, c.iccMode, c.enableExt⟩

/-- The borders of a frame's envelopes: 0, 1, 2 or 4 fixed ones, evenly spaced over the frame's slots (DESIGN CHOICE, log 23: the
rule gives only their number), or, where frame_class is 1, 1 to 4 with a 5-bit border each, the slot at which the envelope ends.
Borders out of order or beyond the frame are taken as they are (DESIGN CHOICE, log 23: R382 names no check). -/
def psBorders (e : Env) (ts : Nat) : Rd (Bool × List Nat) := do
  let cls ← Rd.bit e
  let idx ← Rd.get e 2
  if cls then do
    let b ← Rd.many e 5 (idx + 1)
    return (cls, b)
  else do
    let n := [0, 1, 2, 4].getD idx 0
    return (cls, (List.range n).map (fun i => ts * (i + 1) / n))

/-- The parameter bands of a mode, and of the phase parameters; a mode beyond the table (6 and 7) has none, so nothing is coded
for it (DESIGN CHOICE, log 23: R383 gives these modes no band count). -/
def psBandCount (p : Params) (mode : Nat) : Nat := p.psBands.getD mode 0
def psPhaseCount (p : Params) (mode : Nat) : Nat := p.psPhaseBands.getD mode 0

/-- Clip to the legal index range of the mode; phase indexes are taken modulo 8. -/
def psLegal (kind mode : Nat) (v : Int) : Int :=
  let m := if 2 ≤ kind then v % 8 else v
  clampInt (Config.psIndexLo kind mode) (Config.psIndexHi kind mode) m

/-- The deltas of one envelope from band b on: in the time direction to the entry b of the envelope before, 0 where it has none,
also when that was coded on another number of bands (DESIGN CHOICE, log 23: R382 is silent); else to the band below. The band
below and the next envelope see the clipped index (DESIGN CHOICE, log 23: R382 says only accumulated and clipped). -/
def psDeltas (e : Env) (book : Book) (kind mode : Nat) (time : Bool) (prev : List Int) :
    Nat → Nat → Int → Vx (List Int)
  | 0, _, _ => return []
  | n + 1, b, below => do
    let d ← codewordIndex e book .huffCodeword
    let v := psLegal kind mode ((if time then prev.getD b 0 else below) + d)
    let r ← psDeltas e book kind mode time prev n (b + 1) v
    return v :: r

/-- One envelope of one parameter: a direction bit, then the deltas; in the frequency direction the first band's codeword is
its value (DESIGN CHOICE, log 23: R382 refers to 46_sbr.md R357, where the first band is absolute). -/
def psEnvelope (e : Env) (kind mode bands : Nat) (prev : List Int) : Vx (List Int) := do
  let time ← Vx.ofRd (Rd.bit e)
  psDeltas e (e.par.psHcb.getD (2 * kind + time.toNat) []) kind mode time prev bands 0 0

/-- One envelope of a parameter when it is enabled. -/
def psOptional (e : Env) (on : Bool) (kind mode bands : Nat) (prev : List Int) : Vx (List Int) :=
  if on then psEnvelope e kind mode bands prev else return []

/-- IID then ICC of n envelopes. -/
def psLevels (e : Env) (h : PsHeader) : Nat → List Int → List Int → Vx (List (List Int) × List (List Int))
  | 0, _, _ => return ([], [])
  | n + 1, pi, pc => do
    let a ← psOptional e h.enableIid 0 h.iidMode (psBandCount e.par h.iidMode) pi
    let b ← psOptional e h.enableIcc 1 h.iccMode (psBandCount e.par h.iccMode) pc
    let r ← psLevels e h n a b
    return (a :: r.1, b :: r.2)

/-- IPD then OPD of n envelopes. -/
def psPhases (e : Env) (h : PsHeader) : Nat → List Int → List Int → Vx (List (List Int) × List (List Int))
  | 0, _, _ => return ([], [])
  | n + 1, pi, po => do
    let a ← psEnvelope e 2 h.iidMode (psPhaseCount e.par h.iidMode) pi
    let b ← psEnvelope e 3 h.iidMode (psPhaseCount e.par h.iidMode) po
    let r ← psPhases e h n a b
    return (a :: r.1, b :: r.2)

/-- The extension: enable_ipdopd and, when set, the phase indexes. Without the extension (enable_ext = 0) enable_ipdopd keeps its
previous value and the frame's phase indexes are 0 (DESIGN CHOICE, log 23: the rule is silent). -/
def psExtension (e : Env) (h : PsHeader) (n : Nat) (s : PsState) :
    Vx (Bool × List (List Int) × List (List Int)) :=
  if h.enableExt then do
    let on ← Vx.ofRd (Rd.bit e)
    if on then do
      let r ← psPhases e h n s.ipdPrev s.opdPrev
      return (true, r.1, r.2)
    else return (false, [], [])
  else return (s.cfg.enableIpdopd, [], [])

/-- PS_PARSE (R382). -/
def psParse (e : Env) (ts : Nat) (s : PsState) : Vx PsData := do
  let h ← Vx.ofRd (psHeader e s.cfg)
  let b ← Vx.ofRd (psBorders e ts)
  let l ← psLevels e h b.2.length s.iidPrev s.iccPrev
  let x ← psExtension e h b.2.length s
  return { enableIid := h.enableIid, iidMode := h.iidMode, enableIcc := h.enableIcc, iccMode := h.iccMode,
           enableExt := h.enableExt, enableIpdopd := x.1, frameClass := b.1, borders := b.2,
           iid := l.1, icc := l.2, ipd := x.2.1, opd := x.2.2 }

/-! ## Configuration of a frame (R383) -/

/-- Whether either parameter uses 34 bands; a disabled one does not count, whatever mode it keeps (DESIGN CHOICE, log 23: R383 does
not say). -/
def psUse34 (p : Params) (d : PsData) : Bool :=
  (d.enableIid && psBandCount p d.iidMode == 34) || (d.enableIcc && psBandCount p d.iccMode == 34)

/-- The parameter bands of the active configuration. -/
def psActiveBands (use34 : Bool) : Nat := if use34 then 34 else 20

/-- The decoded band an active band takes its index from (R383). Phase indexes on 34 bands in the 20-band configuration are mapped
down by the same kind of map (DESIGN CHOICE, log 23: R383 names only coarser resolutions). -/
def psResBand (p : Params) (use34 : Bool) (decoded b : Nat) : Nat :=
  if decoded = psActiveBands use34 then b
  else if use34 then grid 0 p.psResMap (if decoded = 10 then 2 else 3) b
  else grid 0 p.psResMap (if decoded = 10 then 0 else 1) b

/-- PsState with a new payload: header, borders, indexes seen; a change of use34 clears the hybrid and all-pass lines. The
other histories (h_prev, phases, transients, plain delays) stay, by band or lane index (DESIGN CHOICE, log 23: R383 names only
the two lines). -/
def psCommit (p : Params) (d : PsData) (s : PsState) : PsState :=
  let use34 := psUse34 p d
  let s' := if use34 = s.cfg.use34 then s
    else { s with hybIn := psHybZero, apDelay := psLines p, apIndex := List.replicate 3 0 }
  { s' with
    cfg := { enableIid := d.enableIid, iidMode := d.iidMode, enableIcc := d.enableIcc, iccMode := d.iccMode,
             enableExt := d.enableExt, enableIpdopd := d.enableIpdopd, numEnv := d.borders.length,
             border := d.borders, use34 := use34 }
    dataSeen := true }

/-! ## Hybrid analysis (R384) and synthesis (R390) -/

/-- The DFT order of each split QMF band (47_ps.md R384). -/
def psOrders (use34 : Bool) : List Nat := if use34 then [12, 8, 4, 4, 4] else [8, 2, 2]

/-- How many sub-subbands each split QMF band has: the 8 of band 0 in the 20-band configuration become 6. -/
def psSplit (use34 : Bool) : List Nat := if use34 then [12, 8, 4, 4, 4] else [6, 2, 2]

/-- The QMF band of each lane. -/
def psLaneBand (use34 : Bool) : List Nat :=
  ((List.range (psSplit use34).length).flatMap (fun k => List.replicate ((psSplit use34).getD k 0) k)) ++
    (List.range (64 - (psSplit use34).length)).map (fun i => (psSplit use34).length + i)

/-- The sum of complex numbers. -/
def cxSum (l : List Cx) : Cx := l.foldl Cx.add Cx.zero

/-- Output q of HYB_A on a split QMF band: the 13-tap FIR over its newest samples, then the DFT of the band's order. -/
def hybOutput (use34 : Bool) (band order : Nat) (newest : List Cx) (q : Nat) : Cx :=
  cxSum ((List.range 13).map (fun m =>
    (Cx.smul (Config.hybTap use34 band m) (newest.getD m Cx.zero)).mul (Config.hybKernel order q m)))

/-- The reduction of eight sub-subbands to six by adding pairs (R384): four stay alone and four are added in two pairs. -/
def hybReduce (y : List Cx) : List Cx :=
  let at_ := fun (i : Fin 8) => y.getD (Config.hybOrder i) Cx.zero
  let r := [at_ 0, at_ 1, at_ 2, at_ 3, (at_ 4).add (at_ 5), (at_ 6).add (at_ 7)]
  List.ofFn (fun i => r.getD (Config.hybPlace i) Cx.zero)

/-- HYB_A on a split QMF band (R384). -/
def hybSplit (use34 : Bool) (band : Nat) (newest : List Cx) : List Cx :=
  let order := (psOrders use34).getD band 0
  let y := (List.range order).map (hybOutput use34 band order newest)
  if !use34 && band == 0 then hybReduce y else y

/-- The lanes of one slot and the new input history: split bands by HYB_A on their 13 newest samples, the others delayed. -/
def psAnalysis (p : Params) (use34 : Bool) (hist : List (List Cx)) (x : List Cx) : List Cx × List (List Cx) :=
  let newest := fun k => x.getD k Cx.zero :: hist.getD k []
  let n := (psSplit use34).length
  let low := (List.range n).flatMap (fun k => hybSplit use34 k (newest k))
  let high := (List.range (64 - n)).map (fun i => (newest (n + i)).getD p.psHybridDelay Cx.zero)
  (low ++ high, (List.range 64).map (fun k => (newest k).take 12))

/-- Hybrid synthesis: the lanes of each QMF band summed. -/
def psSynthesis (use34 : Bool) (lanes : List Cx) : List Cx :=
  (List.range 64).map (fun k =>
    cxSum (((psLaneBand use34).zip lanes).filterMap (fun x => if x.1 = k then some x.2 else none)))

/-! ## Transients and decorrelation (R385, R386) -/

/-- The parameter band of a lane. -/
def psLaneParam (p : Params) (use34 : Bool) (lane : Nat) : Nat :=
  (if use34 then p.psMap34 else p.psMap20).getD lane 0

/-- The power of a parameter band in a slot: its lanes' squared magnitudes summed (DEDUCED, log 23). -/
def psPower (p : Params) (use34 : Bool) (lanes : List Cx) (b : Nat) : Sample :=
  ((List.range lanes.length).map (fun i =>
    if psLaneParam p use34 i = b then (lanes.getD i Cx.zero).normSq else 0)).sum

/-- First-order smoothing of a value towards a new one. -/
def psSmooth (p : Params) (old new : Sample) : Sample := old + p.psSmoothing * (new - old)

/-- PS_TRANSIENT on one parameter band (R385): its new state and the attenuation g. What is smoothed into smooth_peak_diff, and g
where the quotient has no value, are free (log 23). -/
def psTransient (p : Params) (power : Sample) (t : Transient) : Transient × Sample :=
  let peak := max (p.psPeakAlpha * t.peakDecay) power
  let nrg := psSmooth p t.smoothNrg power
  let diff := psSmooth p t.smoothPeakDiff (Config.psPeakDiff peak power)
  (⟨peak, nrg, diff⟩, if diff = 0 then Config.psGainAtZero nrg else min 1 (nrg * p.psGamma / diff))

/-- One slot of the transient detector: new states and one attenuation per band. -/
def psTransientStep (p : Params) (use34 : Bool) (lanes : List Cx) (t : List Transient) :
    List (Transient × Sample) :=
  (List.range t.length).map (fun b => psTransient p (psPower p use34 lanes b) (t.getD b ⟨0, 0, 0⟩))

/-- A ring buffer: the oldest entry out, a new one in; an empty ring passes its input. -/
def ringOut (ring : List Cx) (idx : Nat) (x : Cx) : Cx := if ring.isEmpty then x else ring.getD idx Cx.zero

/-- decay(band) (R386), with the lane's number for the band, sub-subbands first, and one band0 and one all-pass limit for both
configurations (DESIGN CHOICE, log 23: the rule does not say what the band counts). -/
def psDecay (p : Params) (lane : Nat) : Sample :=
  max 0 (1 - p.psSlope * ((lane : Rat) - (p.psBand0 : Rat)))

/-- One all-pass section: its output and what enters its ring. The ring's output d is rotated by the stage's phase (DESIGN CHOICE,
log 23: R386 names per-band phase rotations and its formula has none). -/
def psSection (g : Sample) (rot d x : Cx) : Cx × Cx :=
  let y := (Cx.smul (-g) x).add (rot.mul d)
  (y, x.add (Cx.smul g y))

/-- The three sections in series on a lane: the output and the new ring of each stage. -/
def psAllpass (p : Params) (lane : Nat) (s : PsState) (x : Cx) : Cx × List (List Cx) :=
  (List.range 3).foldl
    (fun acc m =>
      let ring := grid [] s.apDelay m lane
      let idx := s.apIndex.getD m 0
      let r := psSection (p.psAllpassGain.getD m 0 * psDecay p lane) (Config.psRotate m lane)
        (ring.getD idx Cx.zero) acc.1
      (r.1, acc.2 ++ [ring.set idx r.2]))
    (x, [])

/-- The delayed input of a lane, its new delay line and its new all-pass rings: the decorrelated sample before R385. The delayed
input is rotated once before the sections (DESIGN CHOICE, log 23: R386 does not say where the rotations stand). -/
def psLane (p : Params) (s : PsState) (lane : Nat) (x : Cx) : Cx × List Cx × List (List Cx) :=
  let line := s.delayLine.getD lane []
  let idx := s.delayIndex.getD lane 0
  let d := ringOut line idx x
  if lane < p.psAllpassLimit then
    let r := psAllpass p lane s ((Config.psRotate 3 lane).mul d)
    (r.1, line.set idx x, r.2)
  else (d, line.set idx x, (List.range 3).map (fun m => grid [] s.apDelay m lane))

/-- One slot of transient detection and decorrelation: D and the state after it. -/
def psDecorrelate (p : Params) (use34 : Bool) (s : PsState) (lanes : List Cx) : List Cx × PsState :=
  let t := psTransientStep p use34 lanes s.transient
  let r := (List.range lanes.length).map (fun i => psLane p s i (lanes.getD i Cx.zero))
  let d := (List.range lanes.length).map (fun i =>
    Cx.smul ((t.map (·.2)).getD (psLaneParam p use34 i) 0) ((r.map (·.1)).getD i Cx.zero))
  (d, { s with
    transient := t.map (·.1)
    delayLine := r.map (·.2.1) ++ s.delayLine.drop lanes.length
    delayIndex := (List.range s.delayIndex.length).map
      (fun i => (s.delayIndex.getD i 0 + 1) % max 1 (s.delayLine.getD i []).length)
    apDelay := (List.range 3).map (fun m => r.map (fun x => x.2.2.getD m []) ++ (s.apDelay.getD m []).drop lanes.length)
    apIndex := (List.range 3).map (fun m => (s.apIndex.getD m 0 + 1) % max 1 (p.psAllpassLen.getD m 0)) })

/-! ## Mixing (R387 to R389) -/

def mixUnit : Mix := ⟨⟨1, 0⟩, ⟨1, 0⟩, Cx.zero, Cx.zero⟩

/-- A real matrix as a complex one. -/
def realMix (h : RealMix) : Mix := ⟨⟨h.h11, 0⟩, ⟨h.h12, 0⟩, ⟨h.h21, 0⟩, ⟨h.h22, 0⟩⟩

/-- PS_MIX_A or PS_MIX_B; at 0 dB and coherence 1 the mono signal goes unchanged to both outputs (R388). Index 0 stands for
either (DESIGN CHOICE, log 23: the rule names the values only). -/
def psMix (iccMode : Nat) (iid icc : Int) : Mix :=
  if iid = 0 ∧ icc = 0 then mixUnit
  else if iccMode < 3 then realMix (Config.psMixA iid icc) else realMix (Config.psMixB iid icc)

/-- The columns of a matrix turned: left by opd, right by opd minus ipd (R389). -/
def mixRotate (h : Mix) (opd ipd : Cx) : Mix :=
  let right := opd.mul ⟨ipd.re, -ipd.im⟩
  ⟨h.h11.mul opd, h.h12.mul right, h.h21.mul opd, h.h22.mul right⟩

/-- The linear interpolation a + t (b - a). -/
def cxLerp (t : Sample) (a b : Cx) : Cx := ⟨a.re + t * (b.re - a.re), a.im + t * (b.im - a.im)⟩

def mixLerp (t : Sample) (a b : Mix) : Mix :=
  ⟨cxLerp t a.h11 b.h11, cxLerp t a.h12 b.h12, cxLerp t a.h21 b.h21, cxLerp t a.h22 b.h22⟩

/-- The index of active band b in an envelope's list. -/
def psIndexAt (p : Params) (use34 : Bool) (l : List Int) (b : Nat) : Int := l.getD (psResBand p use34 l.length b) 0

/-- The target matrix of one envelope and band, without phase. The icc_mode in the header selects the type even while ICC is
disabled (DESIGN CHOICE, log 23). -/
def psTarget (p : Params) (c : PsCfg) (iid icc : List Int) (b : Nat) : Mix :=
  psMix c.iccMode (psIndexAt p c.use34 iid b) (psIndexAt p c.use34 icc b)

/-- The decoded phase band an active band takes its index from: phases are coded at the resolution of the iid_mode given, that
of the frame they were coded in (R383). -/
def psPhaseBand (p : Params) (c : PsCfg) (mode b : Nat) : Nat := psResBand p c.use34 (psBandCount p mode) b

/-- Whether phase rotation applies to active band b: its phase band is below the limit (R389). -/
def psPhaseOn (p : Params) (c : PsCfg) (mode b : Nat) : Bool :=
  c.enableIpdopd && p.cap.psIpdopd && decide (psPhaseBand p c mode b < psPhaseCount p mode)

/-- The matrices of the envelopes in order, with the phase histories threaded through: each envelope enters its indexes, 0 where
it has none, whether or not it rotates (DESIGN CHOICE, log 23: R389 is silent). -/
def psMatrices (p : Params) (c : PsCfg) (mode : Nat) :
    List (List Int × List Int × List Int × List Int) → List (Int × Int) → List (Int × Int) →
    List (List Mix) × List (Int × Int) × List (Int × Int)
  | [], hi, ho => ([], hi, ho)
  | x :: r, hi, ho =>
    let n := psActiveBands c.use34
    let cur := fun (l : List Int) b => l.getD (psPhaseBand p c mode b) 0
    let h := (List.range n).map (fun b =>
      let base := psTarget p c x.1 x.2.1 b
      if psPhaseOn p c mode b then
        mixRotate base (Config.psPhase (cur x.2.2.2 b) (ho.getD b (0, 0)).1 (ho.getD b (0, 0)).2)
          (Config.psPhase (cur x.2.2.1 b) (hi.getD b (0, 0)).1 (hi.getD b (0, 0)).2)
      else base)
    let push := fun (l : List Int) (old : List (Int × Int)) =>
      (List.range psMaxBands).map (fun b => (cur l b, (old.getD b (0, 0)).1))
    let t := psMatrices p c mode r (push x.2.2.1 hi) (push x.2.2.2 ho)
    (h :: t.1, t.2.1, t.2.2)

/-- The matrix of band b in a slot: interpolated from the previous border's to the envelope's; after the last border the
last one. A slot weighs (slot + 1 - lo) / (hi - lo), so the last slot before a border holds its whole matrix (DESIGN CHOICE, log 23:
R387 does not say which slot does). An envelope without slots, its border not above an earlier one, is skipped (DESIGN CHOICE,
log 23). -/
def psMatrixAt (borders : List Nat) (hs : List (List Mix)) (hPrev : List Mix) (slot b : Nat) : Mix :=
  let e := (borders.takeWhile (fun x => x ≤ slot)).length
  if e < borders.length then
    let lo := if e = 0 then 0 else borders.getD (e - 1) 0
    let hi := borders.getD e 0
    let from_ := if e = 0 then hPrev.getD b mixZero else (hs.getD (e - 1) []).getD b mixZero
    mixLerp (((slot + 1 - lo : Nat) : Rat) / ((hi - lo : Nat) : Rat)) from_ ((hs.getD e []).getD b mixZero)
  else (hs.getLastD hPrev).getD b mixZero

/-- One slot of mixing: L = h11 S + h21 D, R = h12 S + h22 D (R387). -/
def psMixSlot (p : Params) (use34 : Bool) (m : Nat → Mix) (s d : List Cx) : List Cx × List Cx :=
  let lane := fun i (f : Mix → Cx) (g : Mix → Cx) =>
    let h := m (psLaneParam p use34 i)
    ((f h).mul (s.getD i Cx.zero)).add ((g h).mul (d.getD i Cx.zero))
  ((List.range s.length).map (fun i => lane i (·.h11) (·.h21)),
   (List.range s.length).map (fun i => lane i (·.h12) (·.h22)))

/-! ## PS_PROCESS (R380) -/

/-- The slots in order: hybrid analysis, decorrelation, mixing, hybrid synthesis. -/
def psSlots (p : Params) (use34 : Bool) (matrix : Nat → Nat → Mix) :
    List (List Cx) → Nat → PsState → List (List Cx × List Cx) × PsState
  | [], _, s => ([], s)
  | x :: r, slot, s =>
    let a := psAnalysis p use34 s.hybIn x
    let d := psDecorrelate p use34 { s with hybIn := a.2 } a.1
    let m := psMixSlot p use34 (matrix slot) a.1 d.1
    let t := psSlots p use34 matrix r (slot + 1) d.2
    ((psSynthesis use34 m.1, psSynthesis use34 m.2) :: t.1, t.2)

/-- The envelopes of a frame: those of its payload, or one that repeats the previous frame's parameters (R380). A payload that codes
no envelope repeats them so too, under its own header (DESIGN CHOICE, log 23: R380 speaks only of frames without PS data). A
parameter that is not coded has no indexes, which counts as index 0 in every band. -/
def psEnvelopes (ts : Nat) (d : Option PsData) (s : PsState) :
    List Nat × List (List Int × List Int × List Int × List Int) :=
  let kept := fun (on : Bool) (l : List Int) => if on then l else []
  let again := ([ts], [(kept s.cfg.enableIid s.iidPrev, kept s.cfg.enableIcc s.iccPrev,
    kept s.cfg.enableIpdopd s.ipdPrev, kept s.cfg.enableIpdopd s.opdPrev)])
  match d with
  | none => again
  | some d =>
    if d.borders.isEmpty then again
    else (d.borders, (List.range d.borders.length).map (fun i =>
      (d.iid.getD i [], d.icc.getD i [], d.ipd.getD i [], d.opd.getD i [])))

/-- The iid_mode of the phase indexes in force: the payload's when it codes envelopes, else that of the ones repeated. -/
def psPhaseMode (d : Option PsData) (s : PsState) : Nat :=
  match d with
  | some d => if d.borders.isEmpty then s.phaseMode else d.iidMode
  | none => s.phaseMode

/-- PS_PROCESS on the mono QMF signal of a frame: left and right per slot, and the state after it. The previous-frame indexes
become those in force in the last envelope, none where a parameter is not coded (DESIGN CHOICE, log 23: R381 is silent there).
h_prev becomes the last envelope's whole matrix, even where its border lies beyond the frame (DESIGN CHOICE, log 23). -/
def psProcess (p : Params) (d : Option PsData) (s0 : PsState) (x : List (List Cx)) :
    List (List Cx × List Cx) × PsState :=
  let s := match d with
    | some d => psCommit p d s0
    | none => s0
  let env := psEnvelopes x.length d s
  let mode := psPhaseMode d s
  let m := psMatrices p s.cfg mode env.2 s.ipdHist s.opdHist
  let last := env.2.getLastD ([], [], [], [])
  let r := psSlots p s.cfg.use34 (psMatrixAt env.1 m.1 s.hPrev) x 0 s
  (r.1, { r.2 with
    hPrev := (m.1.getLastD s.hPrev)
    ipdHist := m.2.1
    opdHist := m.2.2
    iidPrev := last.1
    iccPrev := last.2.1
    ipdPrev := last.2.2.1
    opdPrev := last.2.2.2
    phaseMode := mode })

end Sys2Proof.Machine
end

