-- ==== Sys2Proof/Machine/Sbr.lean ====
section
/-! DEFINITION. The SBR engine (46_sbr.md): the payload parser over the engine, and the signal path as pure functions of
SbrState and the core time signal. -/

namespace Sys2Proof.Machine

/-- TS: time slots of 32 core samples per frame. -/
def timeSlots (fl : Nat) : Nat := fl / 32

/-! ## Header, reset and tables (R352, R354, R355) -/

/-- The fields of bs_header_extra_1 with their defaults. -/
def sbrExtra1 (e : Env) (present : Bool) : Rd (Nat × Nat × Nat) :=
  if present then do
    let a ← Rd.get e 2
    let b ← Rd.get e 1
    let c ← Rd.get e 2
    return (a, b, c)
  else return (2, 1, 2)

/-- The fields of bs_header_extra_2 with their defaults. -/
def sbrExtra2 (e : Env) (present : Bool) : Rd (Nat × Nat × Nat × Nat) :=
  if present then do
    let a ← Rd.get e 2
    let b ← Rd.get e 2
    let c ← Rd.get e 1
    let d ← Rd.get e 1
    return (a, b, c, d)
  else return (2, 2, 1, 1)

/-- The header (R352). -/
def sbrHeader (e : Env) : Rd SbrHeader := do
  let ampRes ← Rd.get e 1
  let startFreq ← Rd.get e 4
  let stopFreq ← Rd.get e 4
  let xover ← Rd.get e 3
  let _reserved ← Rd.get e 2
  let extra1 ← Rd.bit e
  let extra2 ← Rd.bit e
  let x ← sbrExtra1 e extra1
  let y ← sbrExtra2 e extra2
  return { ampRes := ampRes, startFreq := startFreq, stopFreq := stopFreq, xoverBand := xover,
           freqScale := x.1, alterScale := x.2.1, noiseBands := x.2.2, limiterBands := y.1,
           limiterGains := y.2.1, interpolFreq := y.2.2.1, smoothingMode := y.2.2.2 }

/-- SBR_FREQ_TABLES (R355): the master table depends neither on amp_res nor on xover_band, so a change of the crossover band
alone keeps N_master, and the derived tables do not depend on amp_res. -/
def sbrFreqTables (hdr : SbrHeader) (rate : Nat) : Option SbrTables :=
  match Config.sbrMaster { hdr with ampRes := 0, xoverBand := 0 } rate with
  | some m => some { Config.sbrDerived m { hdr with ampRes := 0 } rate with fMaster := m }
  | none => none

/-- The tables of a new header: none when the parameter combination is invalid (R355). -/
def sbrBuildTables (p : Params) (hdr : SbrHeader) (rate : Nat) : Option SbrTables :=
  match sbrFreqTables hdr rate with
  | some t => if sbrTablesLegal p hdr t then some t else none
  | none => none

/-- Reset detection (R354), at the header: hdr, reset and hdr_prev; without a header reset is 0 and the header stays. -/
def sbrDetect (s : SbrState) (h : Option SbrHeader) : SbrState :=
  match h with
  | some x => { s with hdr := some x, hdrPrev := some x, reset := sbrReset s.hdrPrev x }
  | none => { s with reset := false }

/-- Step 2 of R350: the tables of the current header when reset is 1. -/
def sbrRebuild (e : Env) (rate : Nat) (s : SbrState) : Rd SbrTables :=
  if s.reset then
    match sbrBuildTables e.par (s.hdr.getD default) rate with
    | some t => return t
    | none => Rd.raise .sbrParam
  else return s.tables

/-- The start of the payload (R353): the CRC word of extension type 0xE, not verified, and the header when present. -/
def sbrHeaderPart (e : Env) (crc : Bool) : Rd (Option SbrHeader) := do
  let _crc ← (if crc then Rd.get e 10 else return 0)
  let present ← Rd.bit e
  if present then do
    let h ← sbrHeader e
    return some h
  else return none

/-! ## Grid, directions, inverse filtering (R353, R356) -/

/-- A border vector after its first entry: the classes FIXFIX (0) and VARFIX (2) have a fixed trailing border, the frame's
last slot TS (R356). -/
def sbrTrailing (cls ts : Nat) (l : List Nat) : List Nat :=
  if cls % 2 = 0 then l.dropLast ++ (if l.isEmpty then [] else [ts]) else l

/-- The limit of a border, "the buffer of slots": a frame and the slots kept of the one before (R356 gives no number; DESIGN
CHOICE, log 20). -/
def sbrSlotLimit (p : Params) (ts : Nat) : Nat := ts + p.sbrHistSlots

/-- One channel's grid (R356): the frame class, then the borders after the first, whose widths no source gives. t_E[0] is the
previous frame's end minus TS, and t_Q[0] the same border (DESIGN CHOICE, log 20). Illegal borders raise. -/
def sbrGridParse (e : Env) (ts : Nat) (c : SbrChan) : Rd SbrChanData := do
  let cls ← Rd.get e 2
  let k ← Rd.cursor
  let g := Config.sbrGrid cls (bitList e.mem k.base k.pos k.bitsLeft)
  Rd.seek (k.pos + g.consumed)
  let lead := c.tEPrevEnd - ts
  let tE := lead :: sbrTrailing cls ts g.envBorders
  let tQ := lead :: sbrTrailing cls ts g.noiseBorders
  if !sbrGridLegal tE tQ (sbrSlotLimit e.par ts) then Rd.raise .sbrParam
  return { frameClass := cls, tE := tE, tQ := tQ, highRes := g.highRes, invfModes := [], env := [], noise := [],
           harmonics := [] }

/-- The envelopes and noise floors of a grid. -/
def SbrChanData.numEnv (d : SbrChanData) : Nat := d.tE.length - 1
def SbrChanData.numNoise (d : SbrChanData) : Nat := d.tQ.length - 1

/-- The band edges of envelope l: high or low resolution. -/
def sbrEnvEdges (t : SbrTables) (d : SbrChanData) (l : Nat) : List Nat :=
  if d.highRes.getD l false then t.fHigh else t.fLow

/-! ## Envelope and noise data (R357) -/

/-- Which book: time or frequency direction, envelope or noise, level or balance, and the header's amp_res for the resolution, of
envelopes and noise floors alike (DESIGN CHOICE, log 20: R357 names the two resolutions and not what selects them). -/
def sbrBook (p : Params) (time noise balance : Bool) (ampRes : Nat) : Book :=
  p.sbrHcb.getD (8 * time.toNat + 4 * noise.toNat + 2 * balance.toNat + ampRes) []

/-- The width of an absolute first band: the field is unsigned and of a fixed width, a parameter for each kind of vector and
resolution (DESIGN CHOICE, log 20: R357 says only that the first band is absolute). -/
def sbrStartWidth (p : Params) (noise balance : Bool) (ampRes : Nat) : Nat :=
  p.sbrStartBits.getD (4 * noise.toNat + 2 * balance.toNat + ampRes) 0

/-- The band of the edges that holds subband k; the first or the last band for a subband outside them. -/
def bandHolding (edges : List Nat) (k : Nat) : Nat := min ((edges.takeWhile (fun x => x ≤ k)).length - 1) (edges.length - 2)

/-- Levels and the band edges they stand for. -/
structure SbrVector where
  levels : List Int
  edges : List Nat
  deriving DecidableEq, Repr, Inhabited

/-- The level of a vector on the band that begins at subband k: "the same band", whatever its resolution (R357). -/
def SbrVector.at (v : SbrVector) (k : Nat) : Int := v.levels.getD (bandHolding v.edges k) 0

/-- Deltas of the bands that begin at the given subbands: to the same band of prev, or to the band below. -/
def sbrDeltas (e : Env) (book : Book) (time : Bool) (prev : SbrVector) : List Nat → Int → Vx (List Int)
  | [], _ => return []
  | k :: ks, below => do
    let d ← codewordIndex e book .huffCodeword
    let v := (if time then prev.at k else below) + d
    let r ← sbrDeltas e book time prev ks v
    return v :: r

/-- One envelope or noise floor on the given band edges: in the time direction deltas to prev, in the frequency direction the
first band absolute, an unsigned field (DESIGN CHOICE, log 20), and the rest deltas to the band below (R357). -/
def sbrVector (e : Env) (noise balance : Bool) (ampRes : Nat) (time : Bool) (prev : SbrVector) (edges : List Nat) :
    Vx (List Int) :=
  match time, edges.dropLast with
  | true, bands => sbrDeltas e (sbrBook e.par true noise balance ampRes) true prev bands 0
  | false, [] => return []
  | false, _ :: bands => do
    let first ← Vx.ofRd (Rd.get e (sbrStartWidth e.par noise balance ampRes))
    let r ← sbrDeltas e (sbrBook e.par false noise balance ampRes) false prev bands first
    return (first : Int) :: r

/-- The vectors of a channel in order, each the history of the next: (direction, band edges). -/
def sbrVectors (e : Env) (noise balance : Bool) (ampRes : Nat) :
    List (Bool × List Nat) → SbrVector → Vx (List (List Int))
  | [], _ => return []
  | x :: r, prev => do
    let v ← sbrVector e noise balance ampRes x.1 prev x.2
    let vs ← sbrVectors e noise balance ampRes r ⟨v, x.2⟩
    return v :: vs

/-- The direction flags of a channel: bs_df_env per envelope, bs_df_noise per noise floor. -/
def sbrDirections (e : Env) (d : SbrChanData) : Rd (List Bool × List Bool) := do
  let a ← Rd.manyBits e d.numEnv
  let b ← Rd.manyBits e d.numNoise
  return (a, b)

/-- bs_add_harmonic_flag and one flag per high-resolution band (R358). -/
def sbrHarmonics (e : Env) (t : SbrTables) : Rd (List Bool) := do
  let on ← Rd.bit e
  if on then Rd.manyBits e (t.fHigh.length - 1) else return List.replicate (t.fHigh.length - 1) false

/-! ## Extension payload (R359) -/

/-- The items of bs_extended_data up to bit stop: id 2 is PS; any other id ends the search, and so do fewer than 8 bits
(DESIGN CHOICE, log 20: the rule gives no threshold). Each of several PS items is parsed against the header and the indexes of the
frame before, and the last one counts (DESIGN CHOICE, log 23: R359 and R382 are silent). An item that reads past bit stop is
accepted as read (DESIGN CHOICE, log 20: no rule bounds it but the fill element's bytes). -/
def sbrExtension (e : Env) (ts stop : Nat) (psOn : Bool) (ps : PsState) :
    Nat → Option PsData → Vx (Option PsData)
  | 0, acc => return acc
  | f + 1, acc => do
    let k ← Vx.ofRd Rd.cursor
    if k.pos + 8 ≤ stop ∧ k.err = false then do
      let id ← Vx.ofRd (Rd.get e 2)
      if id = 2 ∧ psOn then do
        let d ← psParse e ts ps
        sbrExtension e ts stop psOn ps f (some d)
      else return acc
    else return acc

/-- bs_extended_data: its size in bytes, 4 bits and for 15 an 8-bit field added to it (DESIGN CHOICE, log 20: the rule gives
neither the unit nor the sum), its items, and the cursor at its end, also where an item read past it (DESIGN CHOICE, log 20: R359
is silent). -/
def sbrExtended (e : Env) (ts : Nat) (psOn : Bool) (ps : PsState) : Vx (Option PsData) := do
  let present ← Vx.ofRd (Rd.bit e)
  if present then do
    let n ← Vx.ofRd (Rd.get e 4)
    let more ← Vx.ofRd (if n = 15 then Rd.get e 8 else return 0)
    let k ← Vx.ofRd Rd.cursor
    let stop := k.pos + 8 * (n + more)
    let d ← sbrExtension e ts stop psOn ps (8 * (n + more)) none
    Vx.ofRd (Rd.seek stop)
    return d
  else return none

/-! ## SBR_PARSE (R353) -/

/-- Channel i of an SbrState. -/
def SbrState.chan (p : Params) (s : SbrState) (i : Nat) : SbrChan := s.chans.getD i (SbrChan.silent p)

/-- The grids of one or two channels; a coupled pair shares the first channel's. -/
def sbrGrids (e : Env) (ts : Nat) (s : SbrState) (pair coupling : Bool) : Rd (List SbrChanData) := do
  let a ← sbrGridParse e ts (s.chan e.par 0)
  if pair then
    if coupling then return [a, a]
    else do
      let b ← sbrGridParse e ts (s.chan e.par 1)
      return [a, b]
  else return [a]

/-- A parse for each channel's data, with its number, in order. -/
def sbrEach {α : Type} (f : Nat → SbrChanData → Vx α) : Nat → List SbrChanData → Vx (List α)
  | _, [] => return []
  | i, d :: r => do
    let v ← f i d
    let vs ← sbrEach f (i + 1) r
    return v :: vs

/-- The envelope vectors of channel i. -/
def sbrEnvData (e : Env) (ampRes : Nat) (t : SbrTables) (coupling : Bool) (s : SbrState)
    (dirs : List (List Bool × List Bool)) (i : Nat) (d : SbrChanData) : Vx (List (List Int)) :=
  sbrVectors e false (coupling && i == 1) ampRes
    ((List.range d.numEnv).map (fun l => (((dirs.getD i ([], [])).1.getD l false), sbrEnvEdges t d l)))
    ⟨(s.chan e.par i).envPrev, (s.chan e.par i).envPrevEdges⟩

/-- The noise vectors of channel i. -/
def sbrNoiseData (e : Env) (ampRes : Nat) (t : SbrTables) (coupling : Bool) (s : SbrState)
    (dirs : List (List Bool × List Bool)) (i : Nat) (d : SbrChanData) : Vx (List (List Int)) :=
  sbrVectors e true (coupling && i == 1) ampRes
    ((List.range d.numNoise).map (fun l => (((dirs.getD i ([], [])).2.getD l false), t.fNoise)))
    ⟨(s.chan e.par i).noisePrev, (s.chan e.par i).noisePrevEdges⟩

/-- The data of an element after its header: s has the header and the tables it is read with (R353). A pair's bs_coupling stands
first, before the grids (DESIGN CHOICE, log 20: the rule gives it no place). -/
def sbrElementData (e : Env) (ts : Nat) (pair : Bool) (s : SbrState) (ampRes : Nat) : Vx SbrPayload := do
  let coupling ← Vx.ofRd (if pair then Rd.bit e else return false)
  let grids ← Vx.ofRd (sbrGrids e ts s pair coupling)
  let dirs ← sbrEach (fun _ d => Vx.ofRd (sbrDirections e d)) 0 grids
  let invf ← sbrEach (fun _ _ => Vx.ofRd (Rd.many e 2 (s.tables.fNoise.length - 1))) 0 grids
  let env ← sbrEach (sbrEnvData e ampRes s.tables coupling s dirs) 0 grids
  let noise ← sbrEach (sbrNoiseData e ampRes s.tables coupling s dirs) 0 grids
  let harm ← sbrEach (fun _ _ => Vx.ofRd (sbrHarmonics e s.tables)) 0 grids
  let ps ← sbrExtended e ts (e.par.cap.ps && !pair) (s.ps.getD (PsState.reset e.par))
  return { coupling := coupling,
           chans := (List.range grids.length).map (fun i =>
             { grids.getD i default with
               invfModes := invf.getD i [], env := env.getD i [], noise := noise.getD i [],
               harmonics := harm.getD i [] }),
           ps := ps }

/-- The rest of SBR_PARSE after the header, up to its sampling point: no payload while no header has been seen (R352). -/
def sbrDataPart (e : Env) (ts : Nat) (pair : Bool) (s : SbrState) : Vx (Option SbrPayload) := do
  let u ← (match s.hdr with
    | some h => do
      let d ← sbrElementData e ts pair s h.ampRes
      return some d
    | none => return none)
  Vx.ofRd Rd.sample
  return u

/-! ## The filter banks (R360, R363) -/

/-- The last n entries of a list. -/
def lastN {α : Type} (n : Nat) (l : List α) : List α := l.drop (l.length - n)

/-- One slot of QMF_A: 32 complex subbands of the last 320 input samples, which are the new history. -/
def qmfAnalysisSlot (hist x : List Sample) : List Cx × List Sample :=
  let h := lastN 320 (hist ++ x)
  ((List.ofFn (Config.qmfA (fun i => h.getD i 0))).map (fun z => ⟨z.1, z.2⟩), h)

/-- QMF_ANALYSIS of n slots (R360). -/
def qmfAnalysis : Nat → List Sample → List Sample → List (List Cx) × List Sample
  | 0, hist, _ => ([], hist)
  | n + 1, hist, x =>
    let r := qmfAnalysisSlot hist (x.take 32)
    let t := qmfAnalysis n r.2 (x.drop 32)
    (r.1 :: t.1, t.2)

/-- One slot of QMF_S: 64 samples, or the first 32 in the downsampled mode, and the new history. -/
def qmfSynthesisSlot (down : Bool) (hist : List Sample) (x : List Cx) : List Sample × List Sample :=
  let band := fun k => if down && decide (32 ≤ k) then Cx.zero else x.getD k Cx.zero
  let r := Config.qmfS down (fun i => hist.getD i 0, fun k => ((band k).re, (band k).im))
  ((List.ofFn r.2).take (if down then 32 else 64), List.ofFn r.1)

/-- QMF_SYNTHESIS (R363). -/
def qmfSynthesis (down : Bool) : List Sample → List (List Cx) → List Sample × List Sample
  | hist, [] => ([], hist)
  | hist, x :: r =>
    let a := qmfSynthesisSlot down hist x
    let t := qmfSynthesis down a.2 r
    (a.1 ++ t.1, t.2)

/-! ## HF generation (R361) -/

/-- The low subband each high subband is copied from, kx upwards: patch_start is a patch's first source, and the patches lie one
after another from kx on (DESIGN CHOICE, log 21: R361 and R351 do not say where a patch lands). -/
def patchSources (t : SbrTables) : List Nat :=
  t.patches.flatMap (fun p => (List.range p.len).map (fun i => p.start + i))

/-- The noise band that holds a subband. -/
def noiseBandOf (t : SbrTables) (k : Nat) : Nat := (t.fNoise.takeWhile (fun x => x ≤ k)).length - 1

/-- The sum over the frame's slots of the sample a slots earlier times the conjugate of the one b slots earlier; col holds h
earlier slots before the frame's. -/
def phi (col : List Cx) (h ts a b : Nat) : Cx :=
  let at_ := fun n d => if h + n < d then Cx.zero else col.getD (h + n - d) Cx.zero
  (List.range ts).foldl (fun s n => s.add ((at_ n a).mul ⟨(at_ n b).re, -(at_ n b).im⟩)) Cx.zero

/-- The covariance of a low subband over the frame's slots (R361). -/
def covariance (col : List Cx) (h ts : Nat) : Covariance :=
  ⟨phi col h ts 0 1, phi col h ts 0 2, (phi col h ts 1 1).re, phi col h ts 1 2, (phi col h ts 2 2).re⟩

/-- The determinant of the covariance of the two earlier samples. -/
def covarianceDet (c : Covariance) : Sample := c.phi11 * c.phi22 - c.phi12.normSq

/-- LPC2 with its guards (R361): both coefficients are 0 when the determinant is too small, and when either magnitude is 4 or
more. -/
def lpcGuarded (c : Covariance) : Cx × Cx :=
  let a := Config.lpc2 c
  if covarianceDet c ≤ |Config.lpcDetMin| ∨ 16 ≤ a.1.normSq ∨ 16 ≤ a.2.normSq then (Cx.zero, Cx.zero) else a

/-- The chirp factors of a frame, one per noise band. -/
def chirpFactors (d : SbrChanData) (c : SbrChan) : List Sample :=
  (List.range d.invfModes.length).map (fun q =>
    Config.chirp (d.invfModes.getD q 0) (c.invfPrev.getD q 0) (c.bwPrev.getD q 0))

/-- One high subband over the frame's slots; x holds h earlier slots before them. -/
def hfSubband (x : List (List Cx)) (h ts k : Nat) (bw : Sample) : List Cx :=
  let col := x.map (fun r => r.getD k Cx.zero)
  let a := lpcGuarded (covariance col h ts)
  (List.range ts).map (fun n =>
    ((col.getD (h + n) Cx.zero).add ((Cx.smul bw a.1).mul (if h + n < 1 then Cx.zero else col.getD (h + n - 1) Cx.zero))).add
      ((Cx.smul (bw * bw) a.2).mul (if h + n < 2 then Cx.zero else col.getD (h + n - 2) Cx.zero)))

/-- HF_GENERATE: XHIGH[slot][j], j counted from kx; 0 in the subbands no patch reaches (DESIGN CHOICE, log 21). -/
def hfGenerate (t : SbrTables) (x : List (List Cx)) (h ts : Nat) (bw : List Sample) : List (List Cx) :=
  let cols := (List.range t.m).map (fun j =>
    match (patchSources t)[j]? with
    | some k => hfSubband x h ts k (bw.getD (noiseBandOf t (t.kx + j)) 0)
    | none => List.replicate ts Cx.zero)
  (List.range ts).map (fun n => cols.map (fun c => c.getD n Cx.zero))

/-! ## HF adjustment (R362) -/

/-- The smoothed value of subband j in a slot: SBR_SMOOTH over the slot and the four before it. The histories count subbands from kx,
also after new tables have moved kx (DESIGN CHOICE, log 21: R362 does not say what their band counts). -/
def smoothed (p : Params) (hist vals : List (List Sample)) (n j : Nat) : Sample :=
  ((List.range 5).map (fun i => p.sbrSmooth.getD i 0 * grid 0 (hist ++ vals) (n + i) j)).sum

/-- The level of subband j in a slot: smoothed when smoothing_mode is 0. -/
def levelAt (p : Params) (mode : Nat) (hist vals : List (List Sample)) (n j : Nat) : Sample :=
  if mode = 0 then smoothed p hist vals n j else grid 0 vals n j

/-- The high-resolution band b of a table carries a set add-harmonic flag. -/
def harmonicBand (d : SbrChanData) (b : Nat) : Bool := d.harmonics.getD b false

/-- Whether subband k lies in a band with a sinusoid: there the noise is omitted (R362). -/
def inHarmonicBand (t : SbrTables) (d : SbrChanData) (k : Nat) : Bool :=
  (List.range (t.fHigh.length - 1)).any
    (fun b => harmonicBand d b && decide (t.fHigh.getD b 0 ≤ k) && decide (k < t.fHigh.getD (b + 1) 0))

/-- Whether a sinusoid is injected at subband k: it is the centre subband of a band whose flag is set (R358); of a band of even
width the upper one of the two middle subbands (DESIGN CHOICE, log 21: the rule is silent). -/
def atHarmonicCentre (t : SbrTables) (d : SbrChanData) (k : Nat) : Bool :=
  (List.range (t.fHigh.length - 1)).any
    (fun b => harmonicBand d b && k == (t.fHigh.getD b 0 + t.fHigh.getD (b + 1) 0) / 2)

/-- One sample of Y (R362): gain times XHIGH, noise in the bands without a sinusoid, and the sinusoid at its centre subband,
its sign plus on even subbands (DESIGN CHOICE, log 21: the rule says only that it alternates). This frame's add-harmonic flags hold
in all its slots, those before t_E[0] included (DESIGN CHOICE, log 21: the rule is silent). -/
def hfSample (p : Params) (mode : Nat) (t : SbrTables) (d : SbrChanData) (c : SbrChan) (g : SbrGainOut)
    (xh : List (List Cx)) (n j : Nat) : Cx :=
  let base := Cx.smul (levelAt p mode c.gainHist g.gain n j) (grid Cx.zero xh n j)
  let noise :=
    if inHarmonicBand t d (t.kx + j) then Cx.zero
    else Cx.smul (levelAt p mode c.noiseHist g.noise n j)
      (p.sbrNoiseTab.getD ((c.noiseIndex + n * t.m + j) % 512) Cx.zero)
  let sgn : Sample := if (t.kx + j) % 2 = 0 then 1 else -1
  let sine :=
    if atHarmonicCentre t d (t.kx + j) then
      Cx.smul (sgn * grid 0 g.sine n j) (Config.sbrPhase ((c.harmIndex + n) % 4))
    else Cx.zero
  (base.add noise).add sine

/-- The signalled levels of a channel: its frame's data beside its history. -/
def sbrLevels (d : SbrChanData) (c : SbrChan) : SbrLevels :=
  ⟨d.env, d.noise, c.envPrev, c.envPrevEdges, c.noisePrev, c.noisePrevEdges⟩

/-- The band edges of a channel's last envelope. -/
def sbrLastEdges (t : SbrTables) (d : SbrChanData) : List Nat := sbrEnvEdges t d (d.numEnv - 1)

/-- HF_ADJUST (R362): Y per slot, and the channel's histories after it, whose rows count subbands from kx (DESIGN CHOICE, log 21);
partner is the other channel of a coupled pair. -/
def hfAdjust (p : Params) (hdr : SbrHeader) (t : SbrTables) (partner : Option SbrLevels) (ch : Nat) (d : SbrChanData)
    (bw : List Sample) (c : SbrChan) (xh : List (List Cx)) : List (List Cx) × SbrChan :=
  let g := Config.sbrGain { hdr := hdr, tables := t, channel := ch, tE := d.tE, tQ := d.tQ, highRes := d.highRes,
                            own := sbrLevels d c, partner := partner, harmonics := d.harmonics,
                            harmonicsPrev := c.harmPrev, xhigh := xh }
  let y := (List.range xh.length).map
    (fun n => (List.range t.m).map (fun j => hfSample p hdr.smoothingMode t d c g xh n j))
  (y, { c with
    envPrev := d.env.getLastD c.envPrev
    envPrevEdges := sbrLastEdges t d
    noisePrev := d.noise.getLastD c.noisePrev
    noisePrevEdges := t.fNoise
    bwPrev := bw
    invfPrev := d.invfModes
    gainHist := lastN 4 (c.gainHist ++ g.gain)
    noiseHist := lastN 4 (c.noiseHist ++ g.noise)
    noiseIndex := (c.noiseIndex + xh.length * t.m) % 512
    harmIndex := (c.harmIndex + xh.length) % 4
    harmPrev := d.harmonics
    tEPrevEnd := d.tE.getLastD 0 })

/-! ## SBR_PROCESS and plain upsampling (R350, R352, R364) -/

/-- The QMF signal of a slot: XLOW below kx, delayed to align, Y above, 0 beyond. -/
def qmfRow (p : Params) (x : List (List Cx)) (h kx : Nat) (y : List (List Cx)) (n : Nat) : List Cx :=
  (List.range 64).map (fun k =>
    if k < kx then grid Cx.zero x (h + n - p.sbrLowDelay) k else grid Cx.zero y n (k - kx))

/-- Analysis of one channel: history and frame of XLOW, and the channel after it. -/
def sbrAnalyse (p : Params) (ts : Nat) (c : SbrChan) (time : List Sample) : List (List Cx) × SbrChan :=
  let a := qmfAnalysis ts c.qmfa time
  let x := c.xlowHist ++ a.1
  (x, { c with qmfa := a.2, xlowHist := lastN p.sbrHistSlots x })

/-- Plain upsampling of one channel: analysis and synthesis with no high band. All 32 low subbands pass, whatever kx an earlier
header gave (DESIGN CHOICE, log 22: R352 and R364 name only the two steps, R363 names 0 to kx - 1). -/
def sbrPlain (p : Params) (down : Bool) (ts : Nat) (c : SbrChan) (time : List Sample) : List Sample × SbrChan :=
  let a := sbrAnalyse p ts c time
  let rows := (List.range ts).map (qmfRow p a.1 c.xlowHist.length 32 [])
  let s := qmfSynthesis down c.qmfs rows
  (s.1, { a.2 with qmfs := s.2 })

/-- The levels of the other channel of a coupled pair (R353: the second channel is balance-coded). -/
def sbrPartner (p : Params) (u : SbrPayload) (s : SbrState) (ch : Nat) : Option SbrLevels :=
  if u.coupling then some (sbrLevels (u.chans.getD (1 - ch) default) (s.chan p (1 - ch))) else none

/-- Steps 3 to 5 of R350 for channel ch: its QMF signal per slot, and the channel after it. -/
def sbrChannel (p : Params) (u : SbrPayload) (s : SbrState) (ts ch : Nat) (time : List Sample) :
    List (List Cx) × SbrChan :=
  let c := s.chan p ch
  let d := u.chans.getD ch default
  let a := sbrAnalyse p ts c time
  let h := c.xlowHist.length
  let bw := chirpFactors d c
  let xh := hfGenerate s.tables a.1 h ts bw
  let y := hfAdjust p (s.hdr.getD default) s.tables (sbrPartner p u s ch) ch d bw a.2 xh
  ((List.range ts).map (qmfRow p a.1 h s.tables.kx y.1), y.2)

/-- Synthesis of one output channel. -/
def sbrSynthesise (down : Bool) (c : SbrChan) (rows : List (List Cx)) : List Sample × SbrChan :=
  let s := qmfSynthesis down c.qmfs rows
  (s.1, { c with qmfs := s.2 })

/-- What an element's SBR processing yields: the output signals, whether PS ran, and the state after it. -/
structure SbrResult where
  out : List (List Sample)
  ps : Bool
  state : SbrState

/-- SBR_PROCESS on a pair (steps 3 to 5 and 7). frame_class_prev is the first channel's class (DESIGN CHOICE, log 20: R351 gives it no
channel index). -/
def sbrProcessPair (p : Params) (down : Bool) (ts : Nat) (u : SbrPayload) (s : SbrState) (ta tb : List Sample) :
    SbrResult :=
  let a := sbrChannel p u s ts 0 ta
  let b := sbrChannel p u s ts 1 tb
  let x := sbrSynthesise down a.2 a.1
  let y := sbrSynthesise down b.2 b.1
  ⟨[x.1, y.1], false, { s with chans := [x.2, y.2], frameClassPrev := (u.chans.getD 0 default).frameClass }⟩

/-- Whether PS runs for a single channel element (47_ps.md R380). -/
def psRuns (p : Params) (u : SbrPayload) (s : SbrState) : Bool :=
  p.cap.ps && (u.ps.isSome || (s.ps.map (·.dataSeen)).getD false)

/-- SBR_PROCESS on a single channel element, with PS as step 6. -/
def sbrProcessSingle (p : Params) (down : Bool) (ts : Nat) (u : SbrPayload) (s : SbrState) (time : List Sample) :
    SbrResult :=
  let a := sbrChannel p u s ts 0 time
  let second := s.chan p 1
  let cls := (u.chans.getD 0 default).frameClass
  if psRuns p u s then
    let r := psProcess p u.ps (s.ps.getD (PsState.reset p)) a.1
    let x := sbrSynthesise down a.2 (r.1.map (·.1))
    let y := sbrSynthesise down second (r.1.map (·.2))
    ⟨[x.1, y.1], true, { s with chans := [x.2, y.2], frameClassPrev := cls, ps := some r.2 }⟩
  else
    let x := sbrSynthesise down a.2 a.1
    ⟨[x.1], false, { s with chans := [x.2, second], frameClassPrev := cls }⟩

/-- Plain upsampling of an element's channels (R352, R364). -/
def sbrPlainElement (p : Params) (down : Bool) (ts : Nat) (s : SbrState) (times : List (List Sample)) : SbrResult :=
  let r := (List.range times.length).map (fun i =>
    sbrPlain p down ts (s.chan p i) (times.getD i []))
  ⟨r.map (·.1), false, { s with chans := r.map (·.2) ++ s.chans.drop times.length }⟩

end Sys2Proof.Machine
end

