-- ==== Sys2Proof/Machine/Elements.lean ====
section
/-! DEFINITION. The syntax elements (48_orchestrator.md R416 to R425): their programs over the working state, shared by the
raw_data_block loop of DECODE (R412) and by the element operations, and the meanings of the latter. -/

namespace Sys2Proof.Machine

/-! ## The SBR attachment (R423) -/

/-- count of a fill element (30_encoding.md R121). -/
def fillCount (e : Env) : Rd Nat := do
  let c ← Rd.get e 4
  if c = 15 then do
    let x ← Rd.get e 8
    return 15 + x - 1
  else return c

/-- The payload of a fill element: its first bit, its bytes, and whether it carries a CRC word (30_encoding.md R121, R122). -/
structure FillPayload where
  start : Nat
  count : Nat
  crc : Bool
  deriving DecidableEq, Repr

/-- One past the payload's last bit. -/
def FillPayload.stop (x : FillPayload) : Nat := x.start + 8 * x.count

/-- The fill element after a channel element when it carries SBR data, the cursor after its extension type; none, with the
cursor where it was, when there is none or it carries no SBR data. -/
def sbrFill (e : Env) : Rd (Option FillPayload) := do
  let k ← Rd.cursor
  if 3 ≤ k.bitsLeft then do
    let id ← Rd.peek e 3
    if id = 6 then do
      Rd.flush 3
      let count ← fillCount e
      let c ← Rd.cursor
      let t ← (if 0 < count then Rd.peek e 4 else return 0)
      if 0 < count ∧ (t = 0xD ∨ t = 0xE) then do
        Rd.flush 4
        return some ⟨c.pos, count, t == 0xE⟩
      else do
        Rd.seek k.pos
        return none
    else return none
  else return none

/-- The SbrState of element n: its own, or a free preallocated slot for late SBR data or for an upsampling that began in the stream
(log 14); none when there is neither. -/
def sbrSlot (e : Env) (n : Nat) : Wk (Option SbrState) := do
  let d ← Wk.ds
  match d.sbr.getD n none with
  | some s => return some s
  | none =>
    if 0 < d.sbrFree then do
      Wk.setDs (fun d => { d with
        sbrFree := d.sbrFree - 1
        sbr := setPad none d.sbr n (some (SbrState.fresh e.par)) })
      return some (SbrState.fresh e.par)
    else return none

/-- Write the SbrState of element n. -/
def setSbr (n : Nat) (s : SbrState) : Wk Unit := Wk.setDs (fun d => { d with sbr := setPad none d.sbr n (some s) })

/-- Record whether SBR data is attached to the current element. -/
def setSbrData (b : Bool) : Wk Unit :=
  Wk.setFrm (fun f => { f with el := f.el.map (fun x => { x with sbrData := b }) })

/-- SBR_PARSE (46_sbr.md R353) of element n with SbrState s, and step 2 of R350 inside it: the reset flag is cleared at the start
(10_state.md R33); header, reset and hdr_prev are written at detection (R354), then the tables the data is read with, so that
their E_SBR_PARAM comes before a later error of the payload (DESIGN CHOICE, log 20); then the data. -/
def sbrParse (e : Env) (n : Nat) (pair crc : Bool) (s : SbrState) : Wk Unit := do
  setSbr n { s with reset := false }
  let sc ← Wk.sc
  let h ← Wk.ofRd (sbrHeaderPart e crc)
  setSbr n (sbrDetect s h)
  let t ← Wk.ofRd (sbrRebuild e sc.sampleRate.toNat (sbrDetect s h))
  setSbr n { sbrDetect s h with tables := t }
  let u ← Wk.ofVx (sbrDataPart e (timeSlots sc.frameLen.toNat) pair { sbrDetect s h with tables := t })
  Wk.setFrm (fun f => { f with sbr := u })

/-- The SBR payload of element n, parsed within its bytes into the frame. Data without a slot is skipped, and leaves sbr_present
as it is (DESIGN CHOICE, log 22: R423's sentence can be read either way). -/
def sbrAttachTo (e : Env) (n : Nat) (pair : Bool) (x : FillPayload) : Wk Unit := do
  let slot ← sbrSlot e n
  match slot with
  | none => return ()
  | some s => do
    Wk.setSc (fun sc => { sc with sbrPresent := true })
    setSbrData true
    Wk.bounded e x.start x.count (fun e => sbrParse e n pair x.crc s)

/-- ATTACH_SBR(e) (R423) for element n. -/
def attachSbr (e : Env) (n : Nat) (pair : Bool) : Wk Unit := do
  setSbrData false
  Wk.setFrm (fun f => { f with sbr := none })
  if e.par.cap.sbr then do
    let x ← Wk.ofRd (sbrFill e)
    match x with
    | none => return ()
    | some y => do
      sbrAttachTo e n pair y
      Wk.ofRd (Rd.seek y.stop)
  else return ()

/-! ## RECONSTRUCT (R424) -/

/-- The TIME arrays of a list of channels. -/
def chanTimes : List Nat → Wk (List (List Sample))
  | [] => return []
  | c :: r => do
    let ch ← Wk.chan c
    let t ← chanTimes r
    return ch.time :: t

/-- Store TIME2 from channel c on. -/
def setTime2 : Nat → List (List Sample) → Wk Unit
  | _, [] => return ()
  | c, x :: r => do
    Wk.setChan c (fun ch => { ch with time2 := x })
    setTime2 (c + 1) r

/-- The processing of element n's channels with its SbrState (R350, R352). -/
def sbrResult (p : Params) (sc : StreamCfg) (u : Option SbrPayload) (pair : Bool) (s : SbrState)
    (times : List (List Sample)) : SbrResult :=
  let down := !sc.upsample
  let ts := timeSlots sc.frameLen.toNat
  match u with
  | none => sbrPlainElement p down ts s times
  | some u =>
    if pair then sbrProcessPair p down ts u s (times.getD 0 []) (times.getD 1 [])
    else sbrProcessSingle p down ts u s (times.getD 0 [])

/-- Keep element n's SbrState after processing; an element INIT made none for has no memory (10_state.md R34). -/
def keepSbr (n : Nat) (s : SbrState) : Wk Unit := do
  let d ← Wk.ds
  match d.sbr.getD n none with
  | some _ => setSbr n s
  | none => return ()

/-- The output signals of an element from channel c on; PS needs room for the second one (E_CHANNEL_CONFIG, log 23). -/
def storeTime2 (e : Env) (c : Nat) (out : List (List Sample)) : Wk Unit := do
  if c + out.length > e.par.maxChannels then Wk.raise .channelConfig
  setTime2 c out

/-- The last line of R424 for element n, whose channels are cs from c on: SBR_PROCESS or plain upsampling. -/
def stageSbr (e : Env) (n c : Nat) (cs : List Nat) (pair : Bool) : Wk Unit := do
  let f ← Wk.frm
  let sc ← Wk.sc
  let attached := (f.el.map (·.sbrData)).getD false
  if attached || sc.upsample then do
    let times ← chanTimes cs
    let slot ← sbrSlot e n
    let r := sbrResult e.par sc (if attached then f.sbr else none) pair (slot.getD (SbrState.fresh e.par)) times
    storeTime2 e c r.out
    keepSbr n r.state
    Wk.setFrm (fun f => { f with
      sbrRan := f.sbrRan || (attached && f.sbr.isSome)
      psRan := f.psRan || r.ps
      elems := match f.elems.getLast? with
        | some x => f.elems.dropLast ++ [{ x with ps := r.ps }]
        | none => [] })
  else return ()

/-- RECONSTRUCT of a single channel element n at channel c. -/
def reconstructOne (e : Env) (n c : Nat) : Wk Unit := do
  reconstructCore e [c] (stagePnsOne c) (return ())
  stageSbr e n c [c] false

/-- RECONSTRUCT of a pair; M/S and intensity only with a common window. -/
def reconstructPair (e : Env) (n c : Nat) (common : Bool) : Wk Unit := do
  reconstructCore e [c, c + 1] (stagePnsPair c (c + 1)) (if common then stageStereo c (c + 1) else return ())
  stageSbr e n c [c, c + 1] true

/-! ## The elements (R416 to R425) -/

/-- The capacity test of a channel element, then its record and EL with the tag read; its codewords come from the cursor
(40_bitreader.md R162: only the HCR path uses a window). -/
def beginElement (e : Env) (id : BitVec 3) (channels : Nat) (paired : Bool) : Wk Unit := do
  let d ← Wk.ds
  if d.channelsSeen + channels > e.par.maxChannels ∨ d.elementsSeen + 1 > e.par.maxElements then
    Wk.raise .channelConfig
  Wk.ofVx (Vx.setRegs (fun r => { r with source := .main }))
  let tag ← Wk.ofRd (Rd.get e 4)
  Wk.setFrm (fun f => { f with
    el := some ⟨id, BitVec.ofNat 4 tag, d.channelsSeen, paired, false, false⟩
    elems := f.elems ++ [⟨id, BitVec.ofNat 4 tag, false⟩] })

/-- The bookkeeping after a channel element. -/
def endElement (channels : Nat) : Wk Unit :=
  Wk.setDs (fun d => { d with
    firstElementDone := true
    channelsSeen := d.channelsSeen + channels
    elementsSeen := d.elementsSeen + 1 })

/-- Whether PS ran for the element just reconstructed. -/
def lastPs (f : Frame) : Bool := (f.elems.getLast?.map (·.ps)).getD false

/-- SCE (R416). -/
def sceBody (e : Env) : Wk Unit := do
  let d ← Wk.ds
  beginElement e 0 1 false
  icsParse e d.channelsSeen false
  attachSbr e d.elementsSeen false
  reconstructOne e d.elementsSeen d.channelsSeen
  let f ← Wk.frm
  endElement (if lastPs f then 2 else 1)

/-- LFE (R419): as SCE, with no SBR data of its own. -/
def lfeBody (e : Env) : Wk Unit := do
  let d ← Wk.ds
  beginElement e 3 1 false
  icsParse e d.channelsSeen false
  reconstructOne e d.elementsSeen d.channelsSeen
  endElement 1

/-- The M/S mask of a pair: ms_used for each group and band (R417). -/
def msRows (e : Env) (maxSfb : Nat) : Nat → Rd (List (List Bool))
  | 0 => return []
  | n + 1 => do
    let g ← Rd.manyBits e maxSfb
    let r ← msRows e maxSfb n
    return g :: r

/-- ms_mask_present and ms_used. -/
def msMask (e : Env) (info : IcsInfo) : Rd (Nat × List (List Bool)) := do
  let m ← Rd.get e 2
  if m = 3 then Rd.raise .reservedValue
  let used ← (if m = 1 then msRows e info.maxSfb info.groupLens.length else return [])
  return (m, used)

/-- The shared part of a common-window pair (R417): ics_info for both channels, the M/S mask in the first. -/
def commonWindow (e : Env) (a b : Nat) : Wk Unit := do
  icsInfoPair e a b
  let ics ← chanIcs a
  let m ← Wk.ofRd (msMask e ics.info)
  Wk.setChan a (fun ch => { ch with ics := ch.ics.map (fun x => { x with msMaskPresent := m.1, msUsed := m.2 }) })

/-- CPE (R417). -/
def cpeBody (e : Env) : Wk Unit := do
  let d ← Wk.ds
  beginElement e 1 2 true
  let common ← Wk.ofRd (Rd.bit e)
  Wk.setFrm (fun f => { f with el := f.el.map (fun x => { x with commonWindow := common }) })
  if common then commonWindow e d.channelsSeen (d.channelsSeen + 1)
  icsParse e d.channelsSeen common
  icsParse e (d.channelsSeen + 1) common
  attachSbr e d.elementsSeen true
  reconstructPair e d.elementsSeen d.channelsSeen common
  endElement 2

/-- CCE (R418): refused, since its length cannot be known without parsing it. -/
def cceBody : Wk Unit := Wk.raise .capability

/-- DSE (R420): skipped. -/
def dseBody (e : Env) : Rd Unit := do
  let _tag ← Rd.get e 4
  let align ← Rd.bit e
  let count ← Rd.get e 8
  let more ← (if count = 255 then Rd.get e 8 else return 0)
  if align then Rd.byteAlign
  Rd.flushMany 8 (count + more)

/-- PCE (R421): stored when it is the first element of a stream whose configuration is 0, else ignored. -/
def pceBody (e : Env) : Wk Unit := do
  let p ← Wk.ofRd (pceParse e)
  let d ← Wk.ds
  let sc ← Wk.sc
  if d.elementsSeen = 0 ∧ sc.channelConfig = 0 then Wk.setDs (fun d => { d with pce := some p }) else return ()

/-- FIL (R422): skipped whole. -/
def filBody (e : Env) : Rd Unit := do
  let count ← fillCount e
  let k ← Rd.cursor
  Rd.seek (k.pos + 8 * count)

/-- END (R425): the loop is left. -/
def endBody : Wk Unit := Wk.setFrm (fun f => { f with inBlock := false })

/-- The element an id selects (R412). -/
def elementBody (e : Env) (id : Nat) : Wk Unit :=
  match id with
  | 0 => sceBody e
  | 1 => cpeBody e
  | 2 => cceBody
  | 3 => lfeBody e
  | 4 => Wk.ofRd (dseBody e)
  | 5 => pceBody e
  | 6 => Wk.ofRd (filBody e)
  | _ => endBody

/-! ## RAW_DATA_BLOCK (R412) -/

/-- The loop: each iteration consumes at least three bits or raises, so the bits left bound their number. -/
def rawLoop (e : Env) : Nat → Wk Unit
  | 0 => Wk.ofRd Rd.sample
  | k + 1 => do
    let f ← Wk.frm
    if f.inBlock then do
      Wk.ofRd Rd.sample
      let id ← Wk.ofRd (Rd.get e 3)
      elementBody e id
      rawLoop e k
    else Wk.ofRd Rd.sample

/-- RAW_DATA_BLOCK. -/
def rawDataBlock (e : Env) : Wk Unit := do
  Wk.setFrm (fun f => { f with inBlock := true })
  let k ← Wk.ofRd Rd.cursor
  rawLoop e (k.bitsLeft + 2)

/-! ## The element operations. Each reads the cursor, which DECODE (or the host's test port) created; its selector has
been read. A raise abandons the frame (60_exceptions.md R460). -/

/-- SCE (R416). -/
def execSce (s : State) : Host.Outcome State Fault Refusal := runLive sceBody s

/-- CPE (R417). -/
def execCpe (s : State) : Host.Outcome State Fault Refusal := runLive cpeBody s

/-- CCE (R418): raises E_CAPABILITY. -/
def execCce (s : State) : Host.Outcome State Fault Refusal := runLive (fun _ => cceBody) s

/-- LFE (R419). -/
def execLfe (s : State) : Host.Outcome State Fault Refusal := runLive lfeBody s

/-- DSE (R420). -/
def execDse (s : State) : Host.Outcome State Fault Refusal := runLive (fun e => Wk.ofRd (dseBody e)) s

/-- PCE (R421). -/
def execPce (s : State) : Host.Outcome State Fault Refusal := runLive pceBody s

/-- FIL (R422). -/
def execFil (s : State) : Host.Outcome State Fault Refusal := runLive (fun e => Wk.ofRd (filBody e)) s

/-- END (R425). -/
def execEndMarker (s : State) : Host.Outcome State Fault Refusal := runLive (fun _ => endBody) s

end Sys2Proof.Machine
end

