-- ==== Sys2Proof/Machine/Commands.lean ====
section
/-! DEFINITION. The host commands (48_orchestrator.md): OPEN, the Config commands, INIT and INIT2, DECODE with its output
stage, POST_SEEK_RESET, CLOSE, and the reserved codes. -/

namespace Sys2Proof.Machine

/-! ## Refusals (R435) -/

/-- A refused OPEN, INIT or INIT2, and a reserved code: only RES0 changes. -/
def refuseRes (c : Cause) (s : State) : State := { s with res0 := negError s.par c }

/-! ## OPEN (R401, 70_reset_and_hazards.md R491) -/

/-- StreamConfig's object type and rate from the Config defaults (10_state.md R25). -/
def defaultsFrom (p : Params) (c : CfgRegs) (sc : StreamCfg) : StreamCfg :=
  { sc with
    objectType := c.defObjectType.setWidth 6
    sfIndex := BitVec.ofNat 4 (rateIndex p c.defSampleRate.toNat)
    sampleRate := c.defSampleRate }

/-- StreamConfig after OPEN (10_state.md R25). -/
def openStreamCfg (p : Params) : StreamCfg :=
  defaultsFrom p p.cfgReset { StreamCfg.zero with frameLen := BitVec.ofNat 11 maxFrameLen }

/-- DS after OPEN (10_state.md R34): silence, the seeds, no SbrState. -/
def openDs (p : Params) : DecoderState where
  overlap := silentOverlap p
  windowShapePrev := List.replicate p.maxChannels false
  ltpHist := silentLtp p
  ltpLagPrev := List.replicate p.maxChannels 0
  rng1 := p.rngSeed1
  rng2 := p.rngSeed2
  frame := 0
  postSeek := false
  sbr := List.replicate p.maxElements none
  sbrFree := 0
  firstElementDone := false
  channelsSeen := 0
  elementsSeen := 0
  pce := none

/-- The state OPEN leaves (R491); per-frame state absent, no cursor, the VLC registers free, every window empty with its underflow
flag 0 (DESIGN CHOICE for the flag, log 2: the rules give only len = 0). -/
def openState (s : State) : State :=
  { s with
    orch := .opened
    cfg := s.par.cfgReset
    fi := FrameInfo.zero s.par.maxChannels
    res0 := 0
    res1 := 0
    res2 := 0
    work := { eng := { bc := Cursor.none, bw := List.replicate s.par.nSeg Window.empty, regs := freeRegs s.draws }
              frm := Frame.none
              ds := openDs s.par
              sc := openStreamCfg s.par }
    draws := s.draws + 1 }

/-- OPEN (R401). -/
def execOpen (s : State) : Host.Outcome State Fault Refusal :=
  if !legalIn 0 s.orch then .next (refuseRes .badState s)
  else if s.ports.allocOk then .next (openState s)
  else .next (refuseRes .alloc s)

/-! ## GET_CONFIG and SET_CONFIG (R402, R403) -/

/-- GET_CONFIG (R402): no effect on state; the Config registers are the result. -/
def execGetConfig (s : State) : Host.Outcome State Fault Refusal := .next s

/-- SET_CONFIG's validation (R403); down_matrix is one bit, so it is always 0 or 1. -/
def configLegal (c : Cap) (g : CfgRegs) : Bool :=
  decodable c g.defObjectType.toNat && g.defSampleRate != 0 &&
    decide (1 ≤ g.outputFormat.toNat) && decide (g.outputFormat.toNat ≤ 5)

/-- An accepted SET_CONFIG: all six fields, StreamConfig from the new defaults, RES0 = 1. -/
def setConfigState (s : State) : State :=
  { s with
    cfg := s.ports.cfgw
    res0 := 1
    work := { s.work with sc := defaultsFrom s.par s.ports.cfgw s.work.sc } }

/-- SET_CONFIG (R403, R435). -/
def execSetConfig (s : State) : Host.Outcome State Fault Refusal :=
  if legalIn 2 s.orch && configLegal s.par.cap s.ports.cfgw then .next (setConfigState s)
  else .next { s with res0 := 0 }

/-! ## INIT and INIT2 (R404 to R408) -/

/-- BC_CREATE inside a command (40_bitreader.md R140). -/
def createCursor (base len : Nat) : Wk Unit := Wk.ofRd (fun _ => .ok () (Cursor.create base len))

/-- The channels of a channel configuration (41_parsers.md R185). -/
def configChannels : Nat → Nat
  | 1 => 1
  | 2 => 2
  | 3 => 3
  | 4 => 4
  | 5 => 5
  | 6 => 6
  | 7 => 8
  | _ => 0

/-- R408: the channel count of a stream, none for a configuration above 7. -/
def channelCount (sc : StreamCfg) (pce : Option Pce) : Option Nat :=
  if sc.channelConfig.toNat > 7 then none
  else if sc.channelConfig = 0 then some ((pce.map Pce.channels).getD 0)
  else some (configChannels sc.channelConfig.toNat)

/-- Whether SBR is assumed because nothing signals it (41_parsers.md R184). -/
def implicitSbr (c : Cap) (sig : SbrSignal) (sc : StreamCfg) : Bool :=
  sig == .unknown && c.sbr && decide (sc.sampleRate.toNat ≤ 24000)

/-- SC.upsample (R407). -/
def upsampleFor (c : Cap) (g : CfgRegs) (sig : SbrSignal) (sc : StreamCfg) : Bool :=
  match sig with
  | .present ext _ => c.sbr && decide (ext ≠ sc.sampleRate.toNat)
  | .absent => false
  | .unknown => implicitSbr c sig sc && !g.noImplicitSbrUpsample

/-- The SBR presence policy (41_parsers.md R184) and the pre-doubling (R407): what follows an AudioSpecificConfig or a header,
in INIT and in the stream alike. -/
def sbrPolicy (c : Cap) (g : CfgRegs) (sig : SbrSignal) (sc : StreamCfg) : StreamCfg :=
  { applySignal c sig sc with upsample := upsampleFor c g sig (applySignal c sig sc) }

/-- The rate INIT reports (R407). -/
def reportedRate (sc : StreamCfg) : Nat := if sc.upsample then 2 * sc.sampleRate.toNat else sc.sampleRate.toNat

/-- The count INIT reports (R408): 2 for a mono stream in which PS may occur. -/
def reportedChannels (c : Cap) (sig : SbrSignal) (sc : StreamCfg) (n : Nat) : Nat :=
  if n = 1 ∧ (sc.psPresent ∨ (implicitSbr c sig sc ∧ c.ps)) then 2 else n

/-- The element kinds of a channel configuration (DEDUCED from the position lists of 41_parsers.md R185, log 13). -/
def configElements : Nat → List (BitVec 3)
  | 1 => [0]
  | 2 => [1]
  | 3 => [0, 1]
  | 4 => [0, 1, 0]
  | 5 => [0, 1, 1]
  | 6 => [0, 1, 1, 3]
  | 7 => [0, 1, 1, 1, 3]
  | _ => []

/-- How many elements the negotiated channels make (10_state.md R34): those of the configuration or of the stored PCE; all
MAX_ELEMENTS while the count is not yet known (R408). An LFE counts, since an upsampled stream filters it too (R419). -/
def negotiatedElements (p : Params) (sc : StreamCfg) (pce : Option Pce) : Nat :=
  if sc.channelConfig = 0 then
    match pce with
    | some q => min p.maxElements (q.front.length + q.side.length + q.back.length + q.lfe.length)
    | none => p.maxElements
  else min p.maxElements (configElements sc.channelConfig.toNat).length

/-- The SBR slots INIT allocates: those of the n negotiated elements when SBR is present, else the free preallocated ones, no more
than these elements either (R406, R423, 10_state.md R34). Nothing is allocated later. A failing allocation of free slots, SBR not
being present, leaves none and is no error (DESIGN CHOICE, log 14: R406 gives E_ALLOC only for sbr_present = 1). -/
def allocateSbr (p : Params) (allocOk present : Bool) (n : Nat) (d : DecoderState) : DecoderState :=
  if present then { d with
    sbr := List.replicate n (some (SbrState.fresh p)) ++ List.replicate (p.maxElements - n) none
    sbrFree := 0 }
  else { d with
    sbr := List.replicate p.maxElements none
    sbrFree := if p.cap.sbr && allocOk then min p.sbrSlots n else 0 }

/-- INIT_COMMON (R406): answers the reported rate and channel count. -/
def initCommon (e : Env) (allocOk : Bool) (sig : SbrSignal) : Wk (Nat × Nat) := do
  let sc ← Wk.sc
  let d ← Wk.ds
  if !decodable e.par.cap sc.objectType.toNat then Wk.raise .capability
  if sc.sfIndex.toNat > 12 ∧ sc.sampleRate = 0 then Wk.raise .reservedValue
  match channelCount sc d.pce with
  | none => Wk.raise .channelConfig
  | some n => do
    if n > e.par.maxChannels then Wk.raise .channelConfig
    Wk.setSc (sbrPolicy e.par.cap e.cfg sig)
    let sc ← Wk.sc
    if sc.sbrPresent && e.par.cap.sbr && !allocOk then Wk.raise .alloc
    Wk.setDs (allocateSbr e.par allocOk (sc.sbrPresent && e.par.cap.sbr) (negotiatedElements e.par sc d.pce))
    return (reportedRate sc, reportedChannels e.par.cap sig sc n)

/-- Commit an AudioSpecificConfig to StreamConfig and its PCE to the stored one (41_parsers.md R182). -/
def commitAsc (c : Cap) (a : Asc) : Wk Unit := do
  Wk.setSc (applyAsc c a)
  Wk.setDs (fun d => { d with pce := match a.pce with
    | some p => some p
    | none => d.pce })

/-- The ADIF branch of INIT: answers the bytes consumed. -/
def initAdif (e : Env) : Wk (Nat × SbrSignal) := do
  let a ← Wk.ofRd (adifHeader e)
  Wk.setFrm (fun f => { f with adif := some a })
  let p := a.pces.headD default
  Wk.setSc (fun sc => { sc with
    headerType := 1
    objectType := BitVec.ofNat 6 (p.objectType + 1)
    sfIndex := BitVec.ofNat 4 p.sfIndex
    sampleRate := BitVec.ofNat 32 (sampleRate e.par p.sfIndex)
    channelConfig := 0 })
  Wk.setDs (fun d => { d with pce := some p })
  let k ← Wk.ofRd Rd.cursor
  return (k.bytesUsed, .unknown)

/-- The ADTS branch of INIT. -/
def initAdts (e : Env) : Wk (Nat × SbrSignal) := do
  let a ← Wk.ofRd (adtsHeader e)
  Wk.setFrm (fun f => { f with adts := some a })
  Wk.setSc (fun sc => { sc with
    headerType := 2
    objectType := a.objectType
    sfIndex := a.sfIndex
    sampleRate := BitVec.ofNat 32 (sampleRate e.par a.sfIndex.toNat)
    channelConfig := a.channelConfig })
  return (0, .unknown)

/-- The LATM branch of INIT (41_parsers.md R186 to R188). -/
def initLatm (e : Env) : Wk (Nat × SbrSignal) := do
  Wk.setSc (fun sc => { sc with latm := true, headerType := 0 })
  let a ← Wk.ofRd (latmFrame e false)
  match a with
  | some x => do
    commitAsc e.par.cap x
    return (0, x.signal)
  | none => return (0, .unknown)

/-- The three tests of INIT in order, else raw (R404). -/
def initHeader (e : Env) (base len : Nat) : Wk (Nat × SbrSignal) := do
  let k ← Wk.ofRd Rd.cursor
  if adifTest e.mem base len then initAdif e
  else if 12 ≤ k.bitsLeft ∧ bitsAt e.mem base 0 12 = 0xFFF then initAdts e
  else if 11 ≤ k.bitsLeft ∧ bitsAt e.mem base 0 11 = 0x2B7 then initLatm e
  else do
    Wk.setSc (fun sc => { sc with headerType := 0 })
    return (0, .unknown)

/-- What INIT and INIT2 answer: RES0, RES1, RES2. -/
structure InitResult where
  consumed : Nat
  rate : Nat
  channels : Nat
  deriving DecidableEq, Repr

/-- The program of INIT (R404). -/
def initBody (e : Env) (h : HostPorts) : Wk InitResult := do
  createCursor h.inBase h.inLen
  let x ← initHeader e h.inBase h.inLen
  let r ← initCommon e h.allocOk x.2
  return ⟨x.1, r.1, r.2⟩

/-- The program of INIT2 (R405). -/
def init2Body (e : Env) (h : HostPorts) : Wk InitResult := do
  createCursor h.inBase h.inLen
  let a ← Wk.ofRd (ascParse e false)
  commitAsc e.par.cap a
  Wk.setSc (fun sc => { sc with headerType := 0 })
  let r ← initCommon e h.allocOk a.signal
  return ⟨0, r.1, r.2⟩

/-- The working state a command starts its parse from: no per-frame state of an earlier command. -/
def freshWork (w : Work) : Work := { w with frm := Frame.none }

/-- The working state after a failed INIT: StreamConfig and DS as before it, no cursor (R406, 60_exceptions.md R463). -/
def failedInit (before after : Work) : Work :=
  { before with eng := after.returnCursor.eng, frm := Frame.none }

/-- The state after a successful INIT or INIT2. What the parse left in per-frame state (ADTS, ADIF) stays until the next INIT or
DECODE (DESIGN CHOICE, log 14: 10_state.md R38 gives only its lifetime). -/
def initState (r : InitResult) (w : Work) (s : State) : State :=
  { s with
    orch := .initialized
    work := w.returnCursor
    res0 := BitVec.ofNat 32 r.consumed
    res1 := BitVec.ofNat 32 r.rate
    res2 := BitVec.ofNat 32 r.channels }

/-- Run INIT or INIT2: refused outside Opened; on a raise the negative code and StreamConfig restored. -/
def runInit (p : Env → HostPorts → Wk InitResult) (s : State) : Host.Outcome State Fault Refusal :=
  if !legalIn 3 s.orch then .next (refuseRes .badState s)
  else
    match p s.env s.ports (freshWork s.work) with
    | .ok r w => .next (initState r w s)
    | .error c w => .next { s with res0 := negError s.par c, work := failedInit s.work w }

/-- INIT (R404). -/
def execInit (s : State) : Host.Outcome State Fault Refusal := runInit initBody s

/-- INIT2 (R405). -/
def execInit2 (s : State) : Host.Outcome State Fault Refusal := runInit init2Body s

/-! ## Output channels and positions (R427) -/

/-- The positions of a channel configuration (41_parsers.md R185), in the numbers of 10_state.md R26. -/
def configPositions : Nat → List (BitVec 4)
  | 1 => [1]
  | 2 => [2, 3]
  | 3 => [1, 2, 3]
  | 4 => [1, 2, 3, 6]
  | 5 => [1, 2, 3, 7, 8]
  | 6 => [1, 2, 3, 7, 8, 9]
  | 7 => [1, 2, 3, 4, 5, 7, 8, 9]
  | _ => []

/-- Front-left and front-right, where PS made a single element two channels (47_ps.md R392). -/
def psPositions : List (BitVec 4) := [2, 3]

/-- The positions of a configured layout: the list in order, a single element that ran PS taking front-left and
front-right in place of its own. -/
def listPositions : List ElemRec → List (BitVec 4) → List (BitVec 4)
  | [], _ => []
  | x :: r, l =>
    let n := if x.id = 1 then 2 else 1
    (if x.ps then psPositions else l.take n) ++ listPositions r (l.drop n)

/-- Whether a PCE list names an element of this kind and tag. -/
def pceHas (l : List PceElem) (x : ElemRec) : Bool := l.any (fun p => p.isCpe == (x.id == 1) && p.tag == x.tag.toNat)

/-- The positions of one element by the stored PCE, none when the PCE does not name it; a single that ran PS is front-left and
front-right in whichever list it stands (47_ps.md R380). -/
def pcePosition (p : Pce) (x : ElemRec) : Option (List (BitVec 4)) :=
  let positions := fun (l : List PceElem) (single pair : List (BitVec 4)) =>
    if pceHas l x then some (if x.ps then psPositions else if x.id = 1 then pair else single) else none
  if x.id = 3 then (if p.lfe.any (fun t => t == x.tag.toNat) then some [9] else none)
  else (positions p.front [1] [2, 3]).orElse fun _ =>
    (positions p.side [Config.sideSinglePos] [4, 5]).orElse fun _ => positions p.back [6] [7, 8]

/-- The positions by a PCE, none when an element does not match it. A frame that leaves out an element of the PCE, or repeats one,
matches it (DESIGN CHOICE, log 13: R427 does not say). -/
def pcePositions (p : Pce) : List ElemRec → Option (List (BitVec 4))
  | [] => some []
  | x :: r =>
    match pcePosition p x, pcePositions p r with
    | some a, some b => some (a ++ b)
    | _, _ => none

/-- The positions without a PCE, by element kind in the order center, left, right, back-left, back-right, LFE: singles and
pairs before this one counted. -/
def fallbackPositions : List ElemRec → Nat → Nat → List (BitVec 4)
  | [], _, _ => []
  | x :: r, singles, pairs =>
    if x.id = 3 then 9 :: fallbackPositions r singles pairs
    else if x.id = 1 then
      (if pairs = 0 then [2, 3] else if pairs = 1 then [7, 8]
       else [Config.fallbackPos (2 * pairs), Config.fallbackPos (2 * pairs + 1)]) ++
        fallbackPositions r singles (pairs + 1)
    else
      (if x.ps then psPositions else if singles = 0 then [1] else [Config.fallbackPos (64 + singles)]) ++
        fallbackPositions r (singles + 1) pairs

/-- The positions of a frame's channels, none when its elements do not match the configuration (R427). -/
def framePositions (sc : StreamCfg) (pce : Option Pce) (l : List ElemRec) : Option (List (BitVec 4)) :=
  if sc.channelConfig = 0 then
    match pce with
    | some p => pcePositions p l
    | none => some (fallbackPositions l 0 0)
  else if l.map (·.id) = configElements sc.channelConfig.toNat then
    some (listPositions l (configPositions sc.channelConfig.toNat))
  else none

/-- Whether the frame is mixed down to two channels (R427). -/
def mixesDown (g : CfgRegs) (c0 : Nat) : Bool := g.downMatrix && (c0 == 5 || c0 == 6)

/-- Samples per channel (R427). -/
def samplesPerChannel (sc : StreamCfg) : Nat := if sc.upsample then 2 * sc.frameLen.toNat else sc.frameLen.toNat

/-! ## The output stage (R428) -/

/-- The range of an integer output format: 16, 24 or 32 bits. -/
def intRange (format : Nat) : Int × Int :=
  if format = 1 then (-32768, 32767) else if format = 2 then (-8388608, 8388607) else (-2147483648, 2147483647)

/-- OUT_CONVERT (R428): 0 to 0 and monotone by construction; the integer formats round and saturate, the 32-bit float
passes the value through. -/
def outConvert (format : Nat) (x : Sample) : Rat :=
  if 1 ≤ format ∧ format ≤ 3 then
    ((clampInt (intRange format).1 (intRange format).2
      (⌊Config.outScale format x⌋ - ⌊Config.outScale format 0⌋) : Int) : Rat)
  else if format = 4 then x
  else if format = 5 then Config.outScale format x - Config.outScale format 0
  else Config.outIllegal format x

/-- The signal of a channel: TIME2 after SBR, else TIME. -/
def Chan.signal (c : Chan) : List Sample := if c.time2.isEmpty then c.time else c.time2

/-- Sample n of every output channel, after DOWNMIX when it applies. -/
def outputRow (mix : Bool) (ys : List (List Sample)) (n : Nat) : List Sample :=
  let row := ys.map (fun y => y.getD n 0)
  if mix then [(Config.downmix row).1, (Config.downmix row).2] else row

/-- The interleaved converted samples of a frame: sample n of channel c at n * C + c (20_memory.md R75). -/
def outputSamples (format : Nat) (mix : Bool) (ys : List (List Sample)) (count : Nat) : List Rat :=
  (List.range count).flatMap (fun n => (outputRow mix ys n).map (outConvert format))

/-! ## DECODE (R410) -/

/-- What a decoded frame delivers. -/
structure FrameOut where
  consumed : Nat
  channels : Nat
  count : Nat
  positions : List (BitVec 4)
  samples : List Rat

/-- ADTS_HEADER with config-change detection (41_parsers.md R175): a change of object type or rate is taken over, and the SBR
presence policy and R407 follow it, since an ADTS header is an in-band header (R184) that signals nothing of SBR (log 11). -/
def decodeAdts (e : Env) : Wk Unit := do
  let a ← Wk.ofRd (adtsHeader e)
  Wk.setFrm (fun f => { f with adts := some a })
  let sc ← Wk.sc
  if a.channelConfig ≠ sc.channelConfig then Wk.raise .channelConfig
  if a.objectType ≠ sc.objectType ∨ a.sfIndex ≠ sc.sfIndex then
    Wk.setSc (fun sc => sbrPolicy e.par.cap e.cfg .unknown { sc with
      objectType := a.objectType
      sfIndex := a.sfIndex
      sampleRate := BitVec.ofNat 32 (sampleRate e.par a.sfIndex.toNat) })

/-- The LATM framing of a frame (41_parsers.md R186): a committed ASC is followed by the SBR presence policy and R407 (R184). -/
def decodeLatm (e : Env) : Wk Unit := do
  let a ← Wk.ofRd (latmFrame e true)
  match a with
  | some x => do
    commitAsc e.par.cap x
    Wk.setSc (sbrPolicy e.par.cap e.cfg x.signal)
  | none => return ()

/-- H <- ceil(BC.pos / 8) (R410 step 6). -/
def markHeader : Wk Unit := do
  let k ← Wk.ofRd Rd.cursor
  Wk.setFrm (fun f => { f with hdrBytes := k.bytesUsed })

/-- Step 6 of R410. -/
def decodeHeader (e : Env) : Wk Unit := do
  let sc ← Wk.sc
  if sc.headerType = 2 then do
    decodeAdts e
    markHeader
  else if sc.latm then do
    decodeLatm e
    markHeader
  else return ()

/-- Steps 8 to 10 of R410: what the frame delivers, or the error that stops it. -/
def decodeOutput (e : Env) (outCap : Nat) : Wk FrameOut := do
  Wk.ofRd Rd.byteAlign
  let k ← Wk.ofRd Rd.cursor
  let sc ← Wk.sc
  let d ← Wk.ds
  let f ← Wk.frm
  match framePositions sc d.pce f.elems with
  | none => Wk.raise .channelConfig
  | some pos => do
    let mix := mixesDown e.cfg d.channelsSeen
    let c := if mix then 2 else d.channelsSeen
    let n := samplesPerChannel sc
    if c = 0 then Wk.raise .channelConfig
    if c * n > outCap then Wk.raise .outputTooSmall
    return { consumed := k.pos / 8, channels := c, count := n, positions := if mix then psPositions else pos,
             samples := outputSamples e.cfg.outputFormat.toNat mix
               ((List.range d.channelsSeen).map (fun i => (f.chans.getD i Wk.noChan).signal)) n }

/-- Steps 5 and 6 of R410. -/
def decodeStart (e : Env) (h : HostPorts) : Wk Unit := do
  createCursor h.inBase h.inLen
  decodeHeader e

/-- Steps 7 to 10 of R410. -/
def decodeBlock (e : Env) (h : HostPorts) : Wk FrameOut := do
  rawDataBlock e
  decodeOutput e h.outCap

/-- FI.sbr (46_sbr.md R364). -/
def sbrStatus (sc : StreamCfg) (f : Frame) : BitVec 2 :=
  if f.sbrRan then (if sc.upsample then 1 else 2) else (if sc.upsample then 3 else 0)

/-- A list of exactly n positions, 0 where unused. -/
def padPositions (n : Nat) (l : List (BitVec 4)) : List (BitVec 4) := slice 0 l 0 n

/-- FrameInfo after a decoded frame (R410 step 12). -/
def frameInfo (p : Params) (o : FrameOut) (w : Work) : FrameInfo where
  bytesConsumed := BitVec.ofNat 32 o.consumed
  samples := BitVec.ofNat 32 (o.channels * o.count)
  channels := BitVec.ofNat 8 o.channels
  channelPos := padPositions p.maxChannels o.positions
  sampleRate := BitVec.ofNat 32 (reportedRate w.sc)
  objectType := w.sc.objectType
  headerType := w.sc.headerType
  sbr := sbrStatus w.sc w.frm
  ps := w.frm.psRan
  error := 0

/-- Steps 11 to 13 of R410: OUT, FrameInfo, and the frame counter. The cursor is given back; the frame's other per-frame state
(ADTS, EL, ICS, QSPEC, SPEC, TIME) stays in place until the next INIT or DECODE (DESIGN CHOICE, log 14: the rules give only
its lifetime). -/
def deliver (o : FrameOut) (w : Work) (s : State) : State :=
  { s with
    outMem := s.outMem.writeFrom s.ports.outBase o.samples
    fi := frameInfo s.par o w
    work := { w.returnCursor with ds := { w.ds with frame := w.ds.frame + 1, postSeek := false } } }

/-- Step 2 of R410: ORCH, FrameInfo, the bookkeeping and H; no cursor or per-frame state of an earlier command. -/
def beginDecode (s : State) : State :=
  { s with
    orch := .decoding
    fi := FrameInfo.zero s.par.maxChannels
    work := { s.work.returnCursor with
      frm := Frame.none
      ds := { s.work.ds with firstElementDone := false, channelsSeen := 0, elementsSeen := 0 } } }

/-- Steps 7 to 13 of R410, on the state the header left: what an abandoned frame keeps of StreamConfig and H (60_exceptions.md
R460). -/
def decodeBody (s : State) : State :=
  match decodeBlock s.env s.ports s.work with
  | .ok o w => deliver o w s
  | .error c w => abandon c w s

/-- Steps 5 to 13 of R410, on the state step 2 left; a raise in the header leaves H = 0. -/
def decodeFrame (s : State) : State :=
  match decodeStart s.env s.ports s.work with
  | .ok _ w => decodeBody { s with work := w }
  | .error c w => abandon c w s

/-- DECODE (R410, R411). -/
def execDecode (s : State) : Host.Outcome State Fault Refusal :=
  if !legalIn 5 s.orch then .next { s with fi := { s.fi with error := fiError s.par .badState } }
  else if s.ports.inLen = 0 then .next (abandon .inputTooSmall (beginDecode s).work (beginDecode s))
  else if id3Test s.inMem s.ports.inBase s.ports.inLen then
    .next { beginDecode s with fi := { FrameInfo.zero s.par.maxChannels with bytesConsumed := 128 } }
  else .next (decodeFrame (beginDecode s))

/-! ## POST_SEEK_RESET and CLOSE (R433, R409) -/

/-- POST_SEEK_RESET (R433): -1 keeps the frame counter. -/
def execPostSeekReset (s : State) : Host.Outcome State Fault Refusal :=
  if !legalIn 6 s.orch then .next s
  else .next { s with work := { s.work with ds := { s.work.ds with
    postSeek := true
    frame := if s.ports.arg0 = -1 then s.work.ds.frame else s.ports.arg0 } } }

/-- The windows after CLOSE: of unknown contents, still at most 64 bits (10_state.md R23). -/
def closedWindows (draw n : Nat) : List Window :=
  (List.range n).map (fun w => { freeWindowBits draw w with bits := (freeWindowBits draw w).bits.take 64 })

/-- The state CLOSE leaves (R409): Closed, all else of the block UNSPEC. -/
def closeState (s : State) : State :=
  { s with
    orch := .closed
    cfg := freeCfg s.draws
    fi := freeFi s.draws
    res0 := freeRes (3 * s.draws)
    res1 := freeRes (3 * s.draws + 1)
    res2 := freeRes (3 * s.draws + 2)
    work := { eng := { bc := Cursor.none, bw := closedWindows s.draws s.work.eng.bw.length, regs := freeRegs s.draws }
              frm := Frame.none
              ds := freeDs s.draws
              sc := freeSc s.draws }
    draws := s.draws + 1 }

/-- CLOSE (R409). -/
def execClose (s : State) : Host.Outcome State Fault Refusal :=
  if !legalIn 7 s.orch then .next s else .next (closeState s)

/-! ## The reserved codes (30_encoding.md R130): only RES0 changes -/

/-- CMD 8, reserved. -/
def execCmdReserved8 (s : State) : Host.Outcome State Fault Refusal := .next (refuseRes .illegalCmd s)

/-- CMD 9, reserved. -/
def execCmdReserved9 (s : State) : Host.Outcome State Fault Refusal := .next (refuseRes .illegalCmd s)

/-- CMD 10, reserved. -/
def execCmdReserved10 (s : State) : Host.Outcome State Fault Refusal := .next (refuseRes .illegalCmd s)

/-- CMD 11, reserved. -/
def execCmdReserved11 (s : State) : Host.Outcome State Fault Refusal := .next (refuseRes .illegalCmd s)

/-- CMD 12, reserved. -/
def execCmdReserved12 (s : State) : Host.Outcome State Fault Refusal := .next (refuseRes .illegalCmd s)

/-- CMD 13, reserved. -/
def execCmdReserved13 (s : State) : Host.Outcome State Fault Refusal := .next (refuseRes .illegalCmd s)

/-- CMD 14, reserved. -/
def execCmdReserved14 (s : State) : Host.Outcome State Fault Refusal := .next (refuseRes .illegalCmd s)

/-- CMD 15, reserved. -/
def execCmdReserved15 (s : State) : Host.Outcome State Fault Refusal := .next (refuseRes .illegalCmd s)

end Sys2Proof.Machine
end

