-- ==== Sys2Proof/Machine/Dispatch.lean ====
section
/-! DEFINITION. The dispatcher: one arm for each instruction, each a direct call of its meaning. -/

namespace Sys2Proof.Machine

def exec (i : Instr) (s : State) : Host.Outcome State Fault Refusal :=
  match i with
  | .openHandle => Sys2Proof.Machine.execOpen s
  | .getConfig => Sys2Proof.Machine.execGetConfig s
  | .setConfig => Sys2Proof.Machine.execSetConfig s
  | .init => Sys2Proof.Machine.execInit s
  | .init2 => Sys2Proof.Machine.execInit2 s
  | .decode => Sys2Proof.Machine.execDecode s
  | .postSeekReset => Sys2Proof.Machine.execPostSeekReset s
  | .close => Sys2Proof.Machine.execClose s
  | .cmdReserved8 => Sys2Proof.Machine.execCmdReserved8 s
  | .cmdReserved9 => Sys2Proof.Machine.execCmdReserved9 s
  | .cmdReserved10 => Sys2Proof.Machine.execCmdReserved10 s
  | .cmdReserved11 => Sys2Proof.Machine.execCmdReserved11 s
  | .cmdReserved12 => Sys2Proof.Machine.execCmdReserved12 s
  | .cmdReserved13 => Sys2Proof.Machine.execCmdReserved13 s
  | .cmdReserved14 => Sys2Proof.Machine.execCmdReserved14 s
  | .cmdReserved15 => Sys2Proof.Machine.execCmdReserved15 s
  | .peek n => Sys2Proof.Machine.execPeek n s
  | .get n => Sys2Proof.Machine.execGet n s
  | .get1 => Sys2Proof.Machine.execGet1 s
  | .flush n => Sys2Proof.Machine.execFlush n s
  | .byteAlign => Sys2Proof.Machine.execByteAlign s
  | .processedBits => Sys2Proof.Machine.execProcessedBits s
  | .rewind => Sys2Proof.Machine.execRewind s
  | .resetTo bitpos => Sys2Proof.Machine.execResetTo bitpos s
  | .seek bitpos => Sys2Proof.Machine.execSeek bitpos s
  | .wPeek n w => Sys2Proof.Machine.execWPeek n w s
  | .wConsume n w => Sys2Proof.Machine.execWConsume n w s
  | .wConcat w v => Sys2Proof.Machine.execWConcat w v s
  | .wReverse w => Sys2Proof.Machine.execWReverse w s
  | .wLoad n w => Sys2Proof.Machine.execWLoad n w s
  | .brReserved14 => Sys2Proof.Machine.execBrReserved14 s
  | .brReserved15 => Sys2Proof.Machine.execBrReserved15 s
  | .hcw0 => Sys2Proof.Machine.execHcw0 s
  | .hcw1 => Sys2Proof.Machine.execHcw1 s
  | .hcw2 => Sys2Proof.Machine.execHcw2 s
  | .hcw3 => Sys2Proof.Machine.execHcw3 s
  | .hcw4 => Sys2Proof.Machine.execHcw4 s
  | .hcw5 => Sys2Proof.Machine.execHcw5 s
  | .hcw6 => Sys2Proof.Machine.execHcw6 s
  | .hcw7 => Sys2Proof.Machine.execHcw7 s
  | .hcw8 => Sys2Proof.Machine.execHcw8 s
  | .hcw9 => Sys2Proof.Machine.execHcw9 s
  | .hcw10 => Sys2Proof.Machine.execHcw10 s
  | .hcw11 => Sys2Proof.Machine.execHcw11 s
  | .hcw12 => Sys2Proof.Machine.execHcw12 s
  | .hcw13 => Sys2Proof.Machine.execHcw13 s
  | .hcw14 => Sys2Proof.Machine.execHcw14 s
  | .hcw15 => Sys2Proof.Machine.execHcw15 s
  | .hcw16 => Sys2Proof.Machine.execHcw16 s
  | .hcw17 => Sys2Proof.Machine.execHcw17 s
  | .hcw18 => Sys2Proof.Machine.execHcw18 s
  | .hcw19 => Sys2Proof.Machine.execHcw19 s
  | .hcw20 => Sys2Proof.Machine.execHcw20 s
  | .hcw21 => Sys2Proof.Machine.execHcw21 s
  | .hcw22 => Sys2Proof.Machine.execHcw22 s
  | .hcw23 => Sys2Proof.Machine.execHcw23 s
  | .hcw24 => Sys2Proof.Machine.execHcw24 s
  | .hcw25 => Sys2Proof.Machine.execHcw25 s
  | .hcw26 => Sys2Proof.Machine.execHcw26 s
  | .hcw27 => Sys2Proof.Machine.execHcw27 s
  | .hcw28 => Sys2Proof.Machine.execHcw28 s
  | .hcw29 => Sys2Proof.Machine.execHcw29 s
  | .hcw30 => Sys2Proof.Machine.execHcw30 s
  | .hcw31 => Sys2Proof.Machine.execHcw31 s
  | .sfd => Sys2Proof.Machine.execSfd s
  | .esc k => Sys2Proof.Machine.execEsc k s
  | .sgn p => Sys2Proof.Machine.execSgn p s
  | .rvlcSfd => Sys2Proof.Machine.execRvlcSfd s
  | .rvlcEscd => Sys2Proof.Machine.execRvlcEscd s
  | .npcm => Sys2Proof.Machine.execNpcm s
  | .vlcReserved7 => Sys2Proof.Machine.execVlcReserved7 s
  | .sce => Sys2Proof.Machine.execSce s
  | .cpe => Sys2Proof.Machine.execCpe s
  | .cce => Sys2Proof.Machine.execCce s
  | .lfe => Sys2Proof.Machine.execLfe s
  | .dse => Sys2Proof.Machine.execDse s
  | .pce => Sys2Proof.Machine.execPce s
  | .fil => Sys2Proof.Machine.execFil s
  | .endMarker => Sys2Proof.Machine.execEndMarker s

end Sys2Proof.Machine
end

