-- ==== Sys2Proof/Machine/Fetch.lean ====
section
/-! DEFINITION. Fetching: how the next operation of the host's queue reaches the decoder, and how one is placed there. -/

namespace Sys2Proof.Machine

/-- What a fetch gives: nothing to do, an instruction to run in a state, or the end of the step (a fault, or the
abandonment the raw_data_block loop's sampling point raises). -/
inductive Fetched where
  | idle
  | run (i : Instr) (s : State)
  | stop (o : Host.Outcome State Fault Refusal)

/-- The state with a command on the host port: CMD, the port values, and the host's earlier stores to IN; a cursor made between
commands is gone, since none survives into a host command (40_bitreader.md R140). -/
def State.presentCommand (s : State) (code : BitVec 4) (ports : HostPorts) (stores : List Host.Cell) : State :=
  { s with cmd := code, ports := ports, inMem := s.inMem.writeAll stores, work := s.work.returnCursor }

/-- The state with a bit source selected for a VLC operation (40_bitreader.md R162). -/
def State.selectSource (s : State) (b : BitSource) : State :=
  { s with work := { s.work with eng := { s.work.eng with regs := { s.work.eng.regs with source := b } } } }

/-- The decoder's answer as a fetch; a port never carries a word too wide for it. -/
def decoded (a : Except DecodeError Instr) (s : State) : Fetched :=
  match a with
  | .ok i => .run i s
  | .error _ => .idle

/-- One pass of the raw_data_block loop (48_orchestrator.md R412): sample BC.err, then read the 3-bit selector. -/
def fetchElement (s : State) : Fetched :=
  if s.work.eng.bc.live then
    if s.work.eng.bc.err then .stop (.next (abandon .inputTooSmall s.work s))
    else
      decoded (decodeWord .element (s.work.eng.bc.get s.inMem 3).1 Side.none)
        (s.setBc (s.work.eng.bc.get s.inMem 3).2)
  else .stop (.fault .noCursor)

/-- The fetch of one issue, on the state with the issue taken from the queue. -/
def fetchIssue (x : Issue) (s : State) : Fetched :=
  match x with
  | .command code ports stores =>
    decoded (decodeWord .cmd code.toNat Side.none) (s.presentCommand code ports stores)
  | .bitReader word side => decoded (decodeWord .bitReader (word % 1024) side) s
  | .vlc word source => decoded (decodeWord .vlc (word % 256) Side.none) (s.selectSource source)
  | .element => fetchElement s
  | .create base len => .stop (.next (s.setBc (Cursor.create base len)))

/-- The next operation (00_scope.md R2: the host's commands and the block's internal requests). -/
def fetch (s : State) : Fetched :=
  match s.pending with
  | [] => .idle
  | x :: r => fetchIssue x { s with pending := r }

/-- A cursor that can read three bits: the state's own, or a new one over sixteen bytes at address 0. -/
def fetchCursor (k : Cursor) : Cursor := if k.live && k.canRead 3 then k else Cursor.create 0 16

/-- A cursor that exists: the internal ports work only inside a command that has made one (10_state.md R37). -/
def portCursor (k : Cursor) : Cursor := if k.live then k else Cursor.create 0 16

/-- The state with an instruction of the opcode table placed where the next step fetches it. -/
def placeWord (s : State) (nbits w : Nat) : State :=
  match tablePort nbits w with
  | .cmd => { s with pending := .command (BitVec.ofNat 4 w) s.ports [] :: s.pending }
  | .bitReader =>
    { s with pending := .bitReader w Side.none :: s.pending }.setBc (portCursor s.work.eng.bc)
  | .vlc =>
    { s with pending := .vlc w s.work.eng.regs.source :: s.pending }.setBc (portCursor s.work.eng.bc)
  | .element =>
    let k := fetchCursor s.work.eng.bc
    { s with
      pending := .element :: s.pending
      inMem := s.inMem.setBits k.base k.pos (natToBits 3 w) }.setBc k

end Sys2Proof.Machine
end

