-- ==== Sys2Proof/Machine/Step.lean ====
section
/-! DEFINITION. One step of the machine: take the next operation of the queue, decode it, run its meaning. -/

namespace Sys2Proof.Machine

/-- One step. With nothing queued the block holds its state (60_exceptions.md R472). -/
def step (s : State) : Host.Outcome State Fault Refusal :=
  match fetch s with
  | .idle => .next s
  | .run i t => exec i t
  | .stop o => o

/-- s with an instruction stored where the next step fetches it. -/
def State.withFetchWord (s : State) (nbits w : Nat) : State := placeWord s nbits w

end Sys2Proof.Machine
end

