-- ==== Sys2Proof/Safety.lean ====
section
/-! DEFINITION. What a legal state and a legal parameter set are, in the terms the statements use. -/

namespace Sys2Proof.Machine

/-! ## Legal states -/

/-- Every window holds at most 64 bits (10_state.md R23). -/
abbrev windowsOk (l : List Window) : Prop := ∀ w ∈ l, w.ok = true

/-- The invariants of the bit-level engine: BC.pos <= 8 * BC.len (10_state.md R22), windows within capacity (R23). -/
abbrev Engine.Inv (g : Engine) : Prop := g.bc.ok = true ∧ windowsOk g.bw

/-- The invariant of the machine: both memory spaces in canonical form, the engine's invariants, and as many windows as
N_SEG says (10_state.md R23). -/
structure Inv (s : State) : Prop where
  inMem : s.inMem.wf
  outMem : s.outMem.wf
  engine : s.work.eng.Inv
  windows : s.work.eng.bw.length = s.par.nSeg

/-- The commands of the handle API run in this order only (48_orchestrator.md R400): the states a step may move to. -/
def orchNext : Orch → Orch → Bool
  | .unopened, .unopened => true
  | .unopened, .opened => true
  | .opened, .opened => true
  | .opened, .initialized => true
  | .opened, .closed => true
  | .initialized, .initialized => true
  | .initialized, .decoding => true
  | .initialized, .closed => true
  | .decoding, .decoding => true
  | .decoding, .closed => true
  | .closed, .closed => true
  | _, _ => false

/-! ## The bits an operation reads next -/

/-- The bits a VLC operation reads next from its source: those of the cursor up to the end of the buffer, none once the
error flag is set (40_bitreader.md R141), or those of the window (R162). -/
def Engine.sourceBits (m : Memory) (g : Engine) : List Bool :=
  match g.regs.source with
  | .main => if g.bc.err then [] else bitList m g.bc.base g.bc.pos g.bc.bitsLeft
  | .window w => (g.window w).bits

/-- The engine after n bits of its source. -/
def Engine.afterBits (n : Nat) (g : Engine) : Engine :=
  match g.regs.source with
  | .main => { g with bc := { g.bc with pos := g.bc.pos + n } }
  | .window w => g.setWindow w { g.window w with bits := (g.window w).bits.drop n }

/-- The bits of the cursor's slice a run holds (43_scalefactor_rvlc.md R262, 20_memory.md R78). -/
def Run.bits (m : Memory) (k : Cursor) (r : Run) : List Bool := bitList m k.base r.pos (min r.stop k.limit - r.pos)

/-- The engine with other registers. -/
def Engine.setRegs (g : Engine) (r : VlcRegs) : Engine := { g with regs := r }

/-- Whether the bit source of a VLC operation exists (10_state.md R37, R23). -/
def State.sourceReady (s : State) : Bool :=
  match s.work.eng.regs.source with
  | .main => s.work.eng.bc.live
  | .window w => s.work.eng.bc.live && decide (w < s.work.eng.bw.length)

/-- The state with another bit-level engine. -/
def State.withEngine (s : State) (g : Engine) : State := { s with work := { s.work with eng := g } }

/-- Whether the cursor exists and a read of n bits succeeds (40_bitreader.md R141). -/
def State.canRead (s : State) (n : Nat) : Bool := s.work.eng.bc.live && s.work.eng.bc.canRead n

/-- The bits of IN from the cursor to the end of its slice. -/
def State.restBits (s : State) : List Bool :=
  bitList s.inMem s.work.eng.bc.base s.work.eng.bc.pos s.work.eng.bc.bitsLeft

/-- The number n bits of IN make from i bits after the cursor on, first bit most significant (00_scope.md R14). -/
def State.field (s : State) (i n : Nat) : Nat := bitsAt s.inMem s.work.eng.bc.base (s.work.eng.bc.pos + i) n

/-! ## Signs and escapes of a codeword (42_huffman_spectral.md R218, R219) -/

/-- How many sign bits a tuple has: one for each value that is not 0. -/
def signCount (l : List Int) : Nat := (l.filter (fun v => v ≠ 0)).length

/-- The tuple after its sign bits, in tuple order; 1 means negative. -/
def applySigns : List Int → List Bool → List Int
  | [], _ => []
  | v :: r, bits =>
    if v = 0 then v :: applySigns r bits
    else
      match bits with
      | [] => v :: applySigns r []
      | b :: bits => (if b then -v else v) :: applySigns r bits

/-- The bits of an escape sequence: n - 4 ones, a zero, and n bits of offset. -/
def escapeBits (n off : Nat) : List Bool := List.replicate (n - 4) true ++ false :: natToBits n off

/-- Whether bits are the escape sequence that turns value v into w, with the length N it has: none, and no bits, unless the
magnitude is 16. -/
def isEscapeOf (p : Params) (v w : Int) (len : Option Nat) (bits : List Bool) : Prop :=
  if |v| = 16 then
    ∃ n off, len = some n ∧ 4 ≤ n ∧ n ≤ p.escMaxN ∧ off < 2 ^ n ∧ bits = escapeBits n off ∧
      w = (if v < 0 then -((2 ^ n + off : Nat) : Int) else ((2 ^ n + off : Nat) : Int))
  else len = none ∧ bits = [] ∧ w = v

/-! ## Abandoned frames (60_exceptions.md R460) -/

/-- What a state t holds after a frame that began in state s was abandoned with cause c and header bytes h, its body having left
the histories a: FrameInfo, every history silent, the generator pair and window shapes as far as the frame moved them, the SBR
headers and tables as they are, all else of the decoder and StreamConfig as s had them; no cursor, no per-frame state. -/
def abandonedWith (c : Cause) (h : Nat) (a : DecoderState) (s t : State) : Prop :=
  t.fi.error = fiError s.par c ∧ t.fi.bytesConsumed = BitVec.ofNat 32 h ∧ t.fi.samples = 0 ∧ t.fi.channels = 0 ∧
  t.fi.channelPos = List.replicate s.par.maxChannels 0 ∧ t.fi.sampleRate = 0 ∧ t.fi.objectType = 0 ∧
  t.fi.headerType = 0 ∧ t.fi.sbr = 0 ∧ t.fi.ps = false ∧
  t.work.ds.overlap = List.replicate s.par.maxChannels (List.replicate 1024 0) ∧
  t.work.ds.ltpHist = List.replicate s.par.maxChannels (List.replicate s.par.ltpHistLen 0) ∧
  t.work.ds.sbr = keptSbr s.par s.work.ds.sbr a.sbr ∧
  t.work.ds.windowShapePrev = a.windowShapePrev ∧ t.work.ds.rng1 = a.rng1 ∧ t.work.ds.rng2 = a.rng2 ∧
  t.work.ds.frame = s.work.ds.frame ∧ t.work.ds.postSeek = s.work.ds.postSeek ∧ t.work.ds.pce = s.work.ds.pce ∧
  t.work.ds.ltpLagPrev = s.work.ds.ltpLagPrev ∧ t.work.ds.sbrFree = s.work.ds.sbrFree ∧
  t.work.sc = s.work.sc ∧ t.work.eng.bc.live = false ∧ t.work.frm = Frame.none ∧
  t.orch = s.orch ∧ t.cfg = s.cfg ∧ t.outMem = s.outMem ∧ t.inMem = s.inMem ∧
  t.res0 = s.res0 ∧ t.res1 = s.res1 ∧ t.res2 = s.res2

/-! ## A silent channel stream: only-long, no band, no pulse, no TNS (30_encoding.md R112, R113) -/

/-- Whether the 22 bits from i bits after the cursor on are a silent individual channel stream; global_gain and
window_shape are free. -/
def State.silentStream (s : State) (i : Nat) : Prop :=
  s.field (i + 8) 1 = 0 ∧ s.field (i + 9) 2 = 0 ∧ s.field (i + 12) 6 = 0 ∧ s.field (i + 18) 1 = 0 ∧
    s.field (i + 19) 1 = 0 ∧ s.field (i + 20) 1 = 0 ∧ s.field (i + 21) 1 = 0

/-- The window_shape bit of that stream. -/
def State.silentShape (s : State) (i : Nat) : Bool := s.field (i + 11) 1 == 1

/-- What a silent channel c leaves, from the histories d before it: its TIME is the overlap buffer, whose first FL
elements become 0, and the shape is remembered (45_filterbank.md R330, R339). -/
def silentChannel (fl c : Nat) (shape : Bool) (d : DecoderState) (t : Work) : Prop :=
  (t.frm.chans.getD c Wk.noChan).time = (List.range fl).map (fun n => (d.overlap.getD c []).getD n 0) ∧
  (t.frm.chans.getD c Wk.noChan).qspec = List.replicate fl 0 ∧
  t.ds.overlap.getD c [] = List.replicate fl 0 ++ (d.overlap.getD c []).drop fl ∧
  t.ds.windowShapePrev.getD c false = shape

/-! ## A program config element as bits (30_encoding.md R123) -/

/-- is_cpe and tag_select of each element. -/
def pceElemBits (l : List PceElem) : List Bool := l.flatMap (fun x => x.isCpe :: natToBits 4 x.tag)

/-- A present flag and, when set, a field of its own. -/
def optionalBits {α : Type} (f : α → List Bool) : Option α → List Bool
  | none => [false]
  | some v => true :: f v

/-- The fields of a PCE before its byte alignment. -/
def Pce.headBits (p : Pce) : List Bool :=
  natToBits 4 p.tag ++ natToBits 2 p.objectType ++ natToBits 4 p.sfIndex ++ natToBits 4 p.front.length ++
  natToBits 4 p.side.length ++ natToBits 4 p.back.length ++ natToBits 2 p.lfe.length ++ natToBits 3 p.assoc.length ++
  natToBits 4 p.cc.length ++ optionalBits (natToBits 4) p.monoMixdown ++ optionalBits (natToBits 4) p.stereoMixdown ++
  optionalBits (fun x => natToBits 2 x.1 ++ [x.2]) p.matrixMixdown ++
  pceElemBits p.front ++ pceElemBits p.side ++ pceElemBits p.back ++
  p.lfe.flatMap (natToBits 4) ++ p.assoc.flatMap (natToBits 4) ++ pceElemBits p.cc

/-- The comment after it: its length in bytes, and the bytes. -/
def Pce.commentBits (p : Pce) : List Bool := natToBits 8 p.comment.length ++ p.comment.flatMap (natToBits 8)

/-- Every field fits its width. -/
def Pce.fits (p : Pce) : Prop :=
  p.tag < 16 ∧ p.objectType < 4 ∧ p.sfIndex < 16 ∧ p.front.length < 16 ∧ p.side.length < 16 ∧ p.back.length < 16 ∧
  p.lfe.length < 4 ∧ p.assoc.length < 8 ∧ p.cc.length < 16 ∧ p.comment.length < 256 ∧
  (∀ v ∈ p.monoMixdown, v < 16) ∧ (∀ v ∈ p.stereoMixdown, v < 16) ∧ (∀ v ∈ p.matrixMixdown, v.1 < 4) ∧
  (∀ x ∈ p.front ++ p.side ++ p.back ++ p.cc, x.tag < 16) ∧ (∀ v ∈ p.lfe ++ p.assoc, v < 16) ∧ ∀ v ∈ p.comment, v < 256

/-- Whether bits that begin start bits into a byte-aligned buffer are the PCE: its fields, the padding of its byte alignment, and
its comment. -/
def isPce (start : Nat) (p : Pce) (bits : List Bool) : Prop :=
  p.fits ∧ ∃ pad : List Bool, pad.length < 8 ∧ (start + p.headBits.length + pad.length) % 8 = 0 ∧
    bits = p.headBits ++ pad ++ p.commentBits

/-- Whether bits are the PCEs of an ADIF header (30_encoding.md R107), each after its adif_buffer_fullness unless the
bitstream_type is set. -/
def isPceList (bitstreamType : Bool) : Nat → List (Nat × Pce) → List Bool → Prop
  | _, [], bits => bits = []
  | start, x :: r, bits => ∃ full own more, full = (if bitstreamType then [] else natToBits 20 x.1) ∧ x.1 < 2 ^ 20 ∧
      isPce (start + full.length) x.2 own ∧ isPceList bitstreamType (start + full.length + own.length) r more ∧
      bits = full ++ own ++ more

/-! ## INIT (48_orchestrator.md R404 to R408) -/

/-- Whether INIT_COMMON accepts the StreamConfig sc with the stored PCE, of n channels: the conditions of R406 to R408, and
memory for SBR where it is needed. -/
def State.accepts (s : State) (sig : SbrSignal) (sc : StreamCfg) (pce : Option Pce) (n : Nat) : Prop :=
  decodable s.par.cap sc.objectType.toNat = true ∧ (sc.sfIndex.toNat ≤ 12 ∨ sc.sampleRate ≠ 0) ∧
    channelCount sc pce = some n ∧ n ≤ s.par.maxChannels ∧
    ((applySignal s.par.cap sig sc).sbrPresent = true → s.par.cap.sbr = true → s.ports.allocOk = true)

/-- What an accepted INIT leaves: StreamConfig is sc under the SBR presence policy (41_parsers.md R184) and R407, the results are
the bytes consumed, the reported rate and the reported channel count; no cursor; all else of the host's as it was. -/
def initialisedWith (sig : SbrSignal) (sc : StreamCfg) (n consumed : Nat) (s t : State) : Prop :=
  let sc' := sbrPolicy s.par.cap s.cfg sig sc
  t.orch = .initialized ∧ t.res0 = BitVec.ofNat 32 consumed ∧ t.res1 = BitVec.ofNat 32 (reportedRate sc') ∧
    t.res2 = BitVec.ofNat 32 (reportedChannels s.par.cap sig sc' n) ∧ t.work.sc = sc' ∧
    t.cfg = s.cfg ∧ t.fi = s.fi ∧ t.outMem = s.outMem ∧ t.inMem = s.inMem ∧ t.work.eng.bc.live = false ∧
    t.work.ds.overlap = s.work.ds.overlap ∧ t.work.ds.frame = s.work.ds.frame ∧
    t.work.ds.rng1 = s.work.ds.rng1 ∧ t.work.ds.rng2 = s.work.ds.rng2

/-! ## A channel stream of one band (30_encoding.md R113 to R116) -/

/-- ics_info of the only-long sequence with max_sfb 1 and no prediction. -/
def oneBandInfoBits (shape : Bool) : List Bool :=
  [false] ++ natToBits 2 0 ++ [shape] ++ natToBits 6 1 ++ [false]

/-- The section of codebook cb over the one band, its scale-factor codeword, no pulse, TNS or gain control, and the spectral
codeword, if the codebook has one. -/
def oneBandDataBits (cb : Nat) (scaleFactor spectral : List Bool) : List Bool :=
  natToBits 4 cb ++ natToBits 5 1 ++ scaleFactor ++ [false, false, false] ++ spectral

/-- The ics_info those bits are read as. -/
def oneBandInfo (p : Params) (sc : StreamCfg) (shape : Bool) : IcsInfo :=
  let swb := swbTable p (tableIndex p sc) sc.frameLen.toNat false
  ⟨0, shape, 1, 1, [1], swb.1, swb.2, [[swb.2.getD 0 0, swb.2.getD 1 0]]⟩

/-- The band layout such a stream needs here: the first band of the long window is one quad, in a frame of at least four
lines, and both band limits allow it. -/
def quadBand (p : Params) (sc : StreamCfg) : Prop :=
  let swb := swbTable p (tableIndex p sc) sc.frameLen.toNat false
  1 ≤ swb.1 ∧ swb.2.getD 0 0 = 0 ∧ swb.2.getD 1 0 = 4 ∧ 4 ≤ sc.frameLen.toNat ∧ 1 ≤ p.maxSfbLong

/-- The spectrum of four lines and silence above them. -/
def quadSpectrum (fl : Nat) (v : List Sample) : List Sample := v ++ List.replicate (fl - 4) 0

/-- What channel c holds after the filterbank of spectrum x: TIME, the overlap buffer and the remembered shape, from the histories
d before it (45_filterbank.md R330, R335). -/
def filteredChannel (p : Params) (sc : StreamCfg) (c : Nat) (shape : Bool) (x : List Sample) (d : DecoderState) (t : Work) :
    Prop :=
  let r := filterbank p (sc.objectType == 23) (oneBandInfo p sc shape) (d.windowShapePrev.getD c false) sc.frameLen.toNat
    (d.overlap.getD c []) x
  (t.frm.chans.getD c Wk.noChan).spec = x ∧ (t.frm.chans.getD c Wk.noChan).time = r.1 ∧ t.ds.overlap.getD c [] = r.2 ∧
    t.ds.windowShapePrev.getD c false = shape

/-! ## Words of a port -/

/-- How many words a port of R100 carries. -/
def portWords : Port → Nat
  | .cmd => 16
  | .bitReader => 1024
  | .vlc => 256
  | .element => 8

/-! ## Legal parameters -/

/-- Every cause of 60_exceptions.md R450. -/
def allCauses : List Cause :=
  [.syncNotFound, .reservedValue, .sectionCount, .bandRange, .pulseInShort, .huffCodeword, .huffSf, .sfRange, .rvlc,
    .inputTooSmall, .pce, .capability, .channelConfig, .outputTooSmall, .latmUnsupported, .alloc, .quantRange, .ltpLag,
    .sbrParam, .badState, .illegalCmd]

/-- The required properties of ERRCODE: between 1 and 127, and injective (R450). -/
def errCodesOk (p : Params) : Bool :=
  allCauses.all (fun c => decide (1 ≤ errCode p c) && decide (errCode p c ≤ 127)) &&
    decide ((allCauses.map (errCode p)).Nodup)

/-! ## The required properties of the transforms, as hypotheses (45_filterbank.md R341, 46_sbr.md R365) -/

/-- The first FL samples of a signal of two frames, and the two transform blocks that hold them. -/
def firstBlock (fl : Nat) (y : Nat → Sample) (n : Nat) : Sample := if n < fl then 0 else y (n - fl)

/-- The spectrum of a block under the only-long window of one shape on both halves. -/
def onlyLongSpectrum (p : Params) (shape : Bool) (fl : Nat) (block : Nat → Sample) : List Sample :=
  mdctFwd (2 * fl) ((List.range (2 * fl)).map (fun n =>
    block n * (if n < fl then longWindow p false shape fl n else longWindow p false shape fl (2 * fl - 1 - n))))

/-- A channel stream of the only-long sequence. -/
def onlyLong (shape : Bool) : IcsInfo := ⟨0, shape, 0, 1, [1], 0, [], [[0]]⟩

/-- The round-trip property of the filterbank, a hypothesis on MDCT_FWD, IMDCT and WL (R341), for both window shapes: the second
call's TIME is the signal's first frame within FB_TOL. -/
def FilterbankRoundTrip (p : Params) (fl : Nat) : Prop :=
  ∀ shape : Bool, ∀ y : Nat → Sample, ∀ n, n < fl →
    let first := filterbank p false (onlyLong shape) shape fl [] (onlyLongSpectrum p shape fl (firstBlock fl y))
    let second := filterbank p false (onlyLong shape) shape fl first.2 (onlyLongSpectrum p shape fl y)
    |second.1.getD n 0 - y n| ≤ Config.fbTol

/-- The round-trip property of the QMF banks, a hypothesis on QMF_A and QMF_S (46_sbr.md R365): plain upsampling gives, within
an energy-normalised bound, an interpolation of the input by two, delayed by QMF_DELAY. -/
def QmfRoundTrip (p : Params) (ts : Nat) : Prop :=
  ∀ x : List Sample, x.length = 32 * ts → ∃ ref : List Sample, ref.length = 64 * ts ∧
    (∀ n, Config.qmfDelay ≤ n → n < 64 * ts → (n - Config.qmfDelay) % 2 = 0 →
      ref.getD n 0 = x.getD ((n - Config.qmfDelay) / 2) 0) ∧
    energy ((List.range (64 * ts)).map (fun n =>
      (sbrPlain p false ts (SbrChan.silent p) x).1.getD n 0 - ref.getD n 0)) ≤ Config.qmfTol * energy ref

end Sys2Proof.Machine
end

