-- ==== Sys2Proof/Certificates/Slice0/Obligations.lean ====
section
/-! DEFINITION. The statements for the provers. Each is about every parameter set (State.par) and every state; where a
statement needs a legal state it says so in a hypothesis. -/

open Sys2Proof Sys2Proof.Machine

/-! ## Encoding (30_encoding.md) -/

/-- R100 to R105: the decoder undoes the encoder on every well-formed instruction, with every operand at every value its
field admits. -/
def Obligations.DecodeUndoesEncode : Prop :=
  ∀ i : Instr, i.wellFormed = true → decodeEncoded (encode i) = .ok i

/-- R100 to R105, R130: every word of a port's width decodes, to a well-formed instruction; a wider word is refused by
name (the model's choice, log 5). -/
def Obligations.EveryWordDecodes : Prop :=
  ∀ (port : Port) (word : Nat) (side : Side),
    (word < portWords port → ∃ i, decodeWord port word side = .ok i ∧ i.wellFormed = true) ∧
    (portWords port ≤ word → decodeWord port word side = .error (.wordTooWide port word))

/-- A few words written out from the tables of R101 to R105. -/
def Obligations.DecodeWords : Prop :=
  decodeWord .cmd 0b0101 Side.none = .ok .decode ∧
  decodeWord .bitReader 0b0001001100 Side.none = .ok (.get 12) ∧
  decodeWord .bitReader 0b1000000000 ⟨33, 0, 0⟩ = .ok (.seek 33) ∧
  decodeWord .bitReader 0b1101000110 ⟨0, 2, 0⟩ = .ok (.wLoad 6 2) ∧
  decodeWord .vlc 0b00001011 Side.none = .ok .hcw11 ∧
  decodeWord .vlc 0b01000001 Side.none = .ok (.esc 1) ∧
  decodeWord .vlc 0b11000000 Side.none = .ok .npcm ∧
  decodeWord .element 0b110 Side.none = .ok .fil

/-! ## The step -/

/-- R2, R20, R412, R472: a step takes the oldest issue, and runs the instruction its word decodes to: a command after its
port values and the host's stores to IN, without a cursor of an earlier command; a VLC operation from its bit source; an
element after its 3-bit selector; BC_CREATE between commands makes a cursor. A selector past the end of the buffer reads 0 and
sets BC.err; without a cursor the step faults; with nothing queued the state stays. The queue and BC_CREATE as an issue are the
model's form of the host's choice (log 8); that a flag already set abandons the frame of a lone pass of the loop is the
model's reading (log 9). -/
def Obligations.StepRunsDecoded : Prop :=
  ∀ (s : State) (r : List Issue) (i : Instr),
    (∀ code ports stores, s.pending = .command code ports stores :: r →
      decodeWord .cmd code.toNat Side.none = .ok i →
      step s = exec i ({ s with pending := r, cmd := code, ports := ports, inMem := s.inMem.writeAll stores }.withEngine
        { s.work.eng with bc := Cursor.none })) ∧
    (∀ word side, s.pending = .bitReader word side :: r → word < 1024 →
      decodeWord .bitReader word side = .ok i → step s = exec i { s with pending := r }) ∧
    (∀ word source, s.pending = .vlc word source :: r → word < 256 →
      decodeWord .vlc word Side.none = .ok i →
      step s = exec i ({ s with pending := r }.withEngine
        (s.work.eng.setRegs { s.work.eng.regs with source := source }))) ∧
    (s.pending = .element :: r → s.canRead 3 = true → decodeWord .element (s.field 0 3) Side.none = .ok i →
      step s = exec i ({ s with pending := r }.setBc { s.work.eng.bc with pos := s.work.eng.bc.pos + 3 })) ∧
    (s.pending = .element :: r → s.work.eng.bc.live = true → s.work.eng.bc.err = false → s.canRead 3 = false →
      step s = exec .sce ({ s with pending := r }.setBc { s.work.eng.bc with err := true })) ∧
    (s.pending = .element :: r → s.work.eng.bc.live = true → s.work.eng.bc.err = true →
      step s = .next (abandon .inputTooSmall s.work { s with pending := r })) ∧
    (s.pending = .element :: r → s.work.eng.bc.live = false → step s = .fault .noCursor) ∧
    (∀ base len, s.pending = .create base len :: r →
      step s = .next ({ s with pending := r }.setBc ⟨true, base, len, 0, false⟩)) ∧
    (s.pending = [] → step s = .next s)

/-! ## Rules about the whole machine -/

/-- 10_state.md R22, R23, 20_memory.md R70: every step, from any legal state, leaves a legal state: BC.pos within the buffer,
no window above 64 bits, N_SEG windows, both memories in canonical form. -/
def Obligations.InvariantKept : Prop :=
  ∀ s t : State, Inv s → step s = .next t → Inv t

/-- The state before any command is legal. -/
def Obligations.InvariantAtReset : Prop := Inv State.reset

/-- 48_orchestrator.md R400: a step moves ORCH only along the order of the handle API, and Closed is terminal. -/
def Obligations.CommandOrder : Prop :=
  ∀ s t : State, step s = .next t →
    t.orch = s.orch ∨
    (s.orch = .unopened ∧ t.orch = .opened) ∨ (s.orch = .opened ∧ t.orch = .initialized) ∨
    (s.orch = .initialized ∧ t.orch = .decoding) ∨
    ((s.orch = .opened ∨ s.orch = .initialized ∨ s.orch = .decoding) ∧ t.orch = .closed)

/-- 20_memory.md R70, R78, R82: no instruction writes IN or the ROM, and none writes the host's own port registers; only DECODE
writes OUT, never below OUT_BASE nor at or beyond OUT_CAP samples after it. -/
def Obligations.MemoryWriters : Prop :=
  (∀ (i : Instr) (s t : State), exec i s = .next t →
    (∀ a, t.inMem.read a = s.inMem.read a) ∧ t.inMem = s.inMem ∧ t.par = s.par ∧ t.ports = s.ports ∧ t.cmd = s.cmd ∧
      t.pending = s.pending) ∧
  (∀ (i : Instr) (s t : State), i ≠ .decode → exec i s = .next t → ∀ a, t.outMem.read a = s.outMem.read a) ∧
  (∀ s t : State, s.outMem.wf → exec .decode s = .next t →
    ∀ a, a < s.ports.outBase ∨ s.ports.outBase + s.ports.outCap ≤ a → t.outMem.read a = s.outMem.read a)

/-- 10_state.md R24 to R27: only OPEN, SET_CONFIG and CLOSE write Config; only OPEN, SET_CONFIG, INIT, INIT2, CLOSE and the
reserved commands write the result registers; only OPEN, INIT, INIT2, DECODE and CLOSE write ORCH. -/
def Obligations.ControlRegisterWriters : Prop :=
  ∀ (i : Instr) (s t : State), exec i s = .next t →
    (i ∉ [.openHandle, .setConfig, .close] → t.cfg = s.cfg) ∧
    (i ∉ [.openHandle, .setConfig, .init, .init2, .close, .cmdReserved8, .cmdReserved9, .cmdReserved10, .cmdReserved11,
        .cmdReserved12, .cmdReserved13, .cmdReserved14, .cmdReserved15] →
      t.res0 = s.res0 ∧ t.res1 = s.res1 ∧ t.res2 = s.res2) ∧
    (i ∉ [.openHandle, .init, .init2, .decode, .close] → t.orch = s.orch)

/-! ## The Bit Reader (40_bitreader.md) -/

/-- R142 to R145, R147: PEEK n, GET n, GET1 and FLUSH n: the n bits from BC.pos on, first bit most significant, or the error flag
and 0 with the position kept; a set flag freezes the cursor. BYTE_ALIGN moves to the next byte boundary, at most 7 bits, and
returns the bits skipped; it never passes the end of the buffer. Nothing else changes. -/
def Obligations.ReadBits : Prop :=
  ∀ (s : State) (n : Nat), s.work.eng.bc.live = true →
    (s.work.eng.bc.err = false ∧ n ≤ 32 ∧ s.work.eng.bc.pos + n ≤ 8 * s.work.eng.bc.len →
      exec (.peek n) s = .next (s.setRet (s.field 0 n : Nat)) ∧
      exec (.get n) s =
        .next ((s.setBc { s.work.eng.bc with pos := s.work.eng.bc.pos + n }).setRet (s.field 0 n : Nat)) ∧
      exec (.flush n) s = .next (s.setBc { s.work.eng.bc with pos := s.work.eng.bc.pos + n }) ∧
      (n = 1 → exec .get1 s =
        .next ((s.setBc { s.work.eng.bc with pos := s.work.eng.bc.pos + 1 }).setRet (s.field 0 1 : Nat)))) ∧
    (¬ (s.work.eng.bc.err = false ∧ n ≤ 32 ∧ s.work.eng.bc.pos + n ≤ 8 * s.work.eng.bc.len) →
      exec (.peek n) s = .next ((s.setBc { s.work.eng.bc with err := true }).setRet 0) ∧
      exec (.get n) s = .next ((s.setBc { s.work.eng.bc with err := true }).setRet 0) ∧
      exec (.flush n) s = .next (s.setBc { s.work.eng.bc with err := true }) ∧
      (n = 1 → exec .get1 s = .next ((s.setBc { s.work.eng.bc with err := true }).setRet 0))) ∧
    (s.work.eng.bc.err = true → exec .byteAlign s = .next (s.setRet 0)) ∧
    (s.work.eng.bc.err = false → ∃ k, k < 8 ∧ (s.work.eng.bc.pos + k) % 8 = 0 ∧
      exec .byteAlign s =
        .next ((s.setBc { s.work.eng.bc with pos := s.work.eng.bc.pos + k }).setRet (k : Nat)) ∧
      (s.work.eng.bc.pos ≤ 8 * s.work.eng.bc.len → s.work.eng.bc.pos + k ≤ 8 * s.work.eng.bc.len))

/-- R148, R149, R150, R151: PROCESSED_BITS returns the position whatever the flag; REWIND, SEEK and RESET_TO move it and never
clear BC.err; a position past the end sets the flag and keeps the position. GET n after REWIND returns the first n bits of the
buffer with BC.err = 0, and 0 with BC.err = 1, so that repeating the two repeats the value. -/
def Obligations.PositionControl : Prop :=
  ∀ (s : State) (b n : Nat), s.work.eng.bc.live = true →
    exec .processedBits s = .next (s.setRet (s.work.eng.bc.pos : Nat)) ∧
    exec .rewind s = .next (s.setBc { s.work.eng.bc with pos := 0 }) ∧
    (∃ t u, exec .rewind s = .next t ∧ exec (.get n) t = .next u ∧
      (s.work.eng.bc.err = false → n ≤ 32 → n ≤ 8 * s.work.eng.bc.len →
        u.work.eng.regs.ret = (bitsAt s.inMem s.work.eng.bc.base 0 n : Nat) ∧ u.work.eng.bc.err = false) ∧
      (s.work.eng.bc.err = true → u.work.eng.regs.ret = 0 ∧ u.work.eng.bc.err = true)) ∧
    (∀ i ∈ [Instr.seek b, .resetTo b],
      (b ≤ 8 * s.work.eng.bc.len → exec i s = .next (s.setBc { s.work.eng.bc with pos := b })) ∧
      (8 * s.work.eng.bc.len < b → exec i s = .next (s.setBc { s.work.eng.bc with err := true })))

/-- R152: while n bits can be read and k ≤ n, GET k then GET (n - k) read a and b with a * 2 ^ (n - k) + b the number GET n reads,
and leave the cursor where it leaves it, n bits on. PEEK n twice returns the same value, for every n and whatever the flag.
With BC.err = 0, REWIND then GET n returns the first n bits of the buffer, or 0 when it has fewer or n is above 32. -/
def Obligations.SplitReads : Prop :=
  ∀ (s : State) (n k : Nat), s.work.eng.bc.live = true →
    (s.canRead n = true → k ≤ n → ∃ t u v, exec (.get k) s = .next t ∧ exec (.get (n - k)) t = .next u ∧
      exec (.get n) s = .next v ∧
      t.work.eng.regs.ret * 2 ^ (n - k) + u.work.eng.regs.ret = v.work.eng.regs.ret ∧
      u.work.eng.bc = v.work.eng.bc ∧ v.work.eng.bc.pos = s.work.eng.bc.pos + n) ∧
    (∃ t u, exec (.peek n) s = .next t ∧ exec (.peek n) t = .next u ∧ u = t ∧
      t.work.eng.bc.pos = s.work.eng.bc.pos) ∧
    (s.work.eng.bc.err = false → ∃ t u, exec .rewind s = .next t ∧ exec (.get n) t = .next u ∧
      u.work.eng.regs.ret =
        if n ≤ 32 ∧ n ≤ 8 * s.work.eng.bc.len then (bitsAt s.inMem s.work.eng.bc.base 0 n : Nat) else 0)

/-- 20_memory.md R72: at a byte boundary the next eight bits are the byte, and 16 bits are two bytes, the first the more
significant. -/
def Obligations.BytesAreBigEndian : Prop :=
  ∀ (m : Memory) (base k : Nat),
    bitsAt m base (8 * k) 8 = (m.read (base + k)).toNat ∧
    bitsAt m base (8 * k) 16 = 256 * (m.read (base + k)).toNat + (m.read (base + k + 1)).toNat

/-- R141, R149, R151: no Bit Reader or window operation clears BC.err, and once it is set every read returns 0 and moves
nothing. -/
def Obligations.ErrorFlagIsSticky : Prop :=
  ∀ (s t : State) (n b w v : Nat) (i : Instr),
    i ∈ [.peek n, .get n, .get1, .flush n, .byteAlign, .processedBits, .rewind, .resetTo b, .seek b, .wPeek n w,
      .wConsume n w, .wConcat w v, .wReverse w, .wLoad n w, .brReserved14, .brReserved15] →
    s.work.eng.bc.err = true → exec i s = .next t →
    t.work.eng.bc.err = true ∧
      (i ∈ [.peek n, .get n, .get1, .byteAlign] → t.work.eng.regs.ret = 0) ∧
      (i ∈ [.peek n, .get n, .get1, .flush n, .byteAlign] → t.work.eng.bc = s.work.eng.bc)

/-- 10_state.md R37, R23: a Bit Reader operation, the window operations among them (00_scope.md R2), or an element, without a
cursor stops, and so does, with a cursor, a window operation on a window that does not exist. The model's reading are the clauses
on the window operations and on a missing window (log 29), on RVLC_SFD and RVLC_ESCD, whose runs are relative to the cursor
(log 16), and on the elements, END and CCE, which read no bit, among them (log 9). -/
def Obligations.MissingCursorOrWindow : Prop :=
  ∀ (s : State) (n b w v : Nat) (i : Instr),
    (s.work.eng.bc.live = false →
      i ∈ [.peek n, .get n, .get1, .flush n, .byteAlign, .processedBits, .rewind, .resetTo b, .seek b, .wPeek n w,
        .wConsume n w, .wConcat w v, .wReverse w, .wLoad n w, .rvlcSfd, .rvlcEscd, .sce, .cpe, .cce, .lfe, .dse, .pce, .fil,
        .endMarker] → exec i s = .fault .noCursor) ∧
    (s.work.eng.bc.live = true → s.work.eng.bw.length ≤ w →
      i ∈ [.wPeek n w, .wConsume n w, .wConcat w v, .wConcat v w, .wReverse w, .wLoad n w] → exec i s = .fault .noWindow)

/-- R141 to R163: what the Bit Reader and window operations leave unchanged: everything but the cursor, the returned value,
and the window the operation names as its destination. No form stores to memory. -/
def Obligations.BitReaderFrame : Prop :=
  ∀ (s t : State) (n b w v : Nat) (i : Instr),
    i ∈ [.peek n, .get n, .get1, .flush n, .byteAlign, .processedBits, .rewind, .resetTo b, .seek b, .wPeek n w,
      .wConsume n w, .wConcat w v, .wReverse w, .wLoad n w, .brReserved14, .brReserved15] →
    exec i s = .next t →
    (∀ a, t.inMem.read a = s.inMem.read a) ∧ (∀ a, t.outMem.read a = s.outMem.read a) ∧
    t.par = s.par ∧ t.orch = s.orch ∧ t.cfg = s.cfg ∧ t.fi = s.fi ∧ t.res0 = s.res0 ∧ t.res1 = s.res1 ∧
    t.res2 = s.res2 ∧ t.work.frm = s.work.frm ∧ t.work.ds = s.work.ds ∧ t.work.sc = s.work.sc ∧
    { t.work.eng.regs with ret := s.work.eng.regs.ret } = s.work.eng.regs ∧
    t.work.eng.bc.live = s.work.eng.bc.live ∧ t.work.eng.bc.base = s.work.eng.bc.base ∧
    t.work.eng.bc.len = s.work.eng.bc.len ∧
    (i ∈ [.wPeek n w, .wConsume n w, .wConcat w v, .wReverse w] → t.work.eng.bc = s.work.eng.bc) ∧
    (i ∉ [.wConsume n w, .wConcat w v, .wReverse w, .wLoad n w] → t.work.eng.bw = s.work.eng.bw) ∧
    (∀ x, x ≠ w → t.work.eng.bw[x]? = s.work.eng.bw[x]?)

/-! ## Bit windows (40_bitreader.md R155 to R163) -/

/-- R156: W_LOAD w, n puts the next n bits of the cursor into window w, most significant first, and moves the cursor as GET n
does; a read that fails empties the window and sets BC.err. The underflow flag is cleared. -/
def Obligations.WindowLoad : Prop :=
  ∀ (s : State) (n w : Nat), s.work.eng.bc.live = true → w < s.work.eng.bw.length →
    (s.work.eng.bc.canRead n = true →
      exec (.wLoad n w) s = .next ((s.setWindow w ⟨bitList s.inMem s.work.eng.bc.base s.work.eng.bc.pos n, false⟩).setBc
        { s.work.eng.bc with pos := s.work.eng.bc.pos + n })) ∧
    (s.work.eng.bc.canRead n = false →
      exec (.wLoad n w) s = .next ((s.setWindow w ⟨[], false⟩).setBc { s.work.eng.bc with err := true }))

/-- R157, R158: W_PEEK returns the next n bits of a window, zero-padded, and changes nothing else; W_CONSUME of up to 32 bits
drops n bits, or empties the window and sets its underflow flag when it holds fewer. -/
def Obligations.WindowPeekConsume : Prop :=
  ∀ (s : State) (n w : Nat) (x : Window), s.work.eng.bc.live = true → s.work.eng.bw[w]? = some x →
    (n ≤ 32 → ∀ z, n ≤ x.bits.length + z →
      exec (.wPeek n w) s = .next (s.setRet (bitsToNat ((x.bits ++ List.replicate z false).take n) : Nat))) ∧
    (32 < n → exec (.wPeek n w) s = .next (s.setRet 0)) ∧
    (n ≤ 32 → n ≤ x.bits.length → exec (.wConsume n w) s = .next (s.setWindow w ⟨x.bits.drop n, x.under⟩)) ∧
    (n ≤ 32 → x.bits.length < n → exec (.wConsume n w) s = .next (s.setWindow w ⟨[], true⟩))

/-- R159, R161: W_CONCAT w, v appends the bits of v to w, or sets the underflow flag of w when the total is above 64 bits;
W_REVERSE reverses the order of a window's bits: bit i becomes bit len - 1 - i. -/
def Obligations.WindowConcatReverse : Prop :=
  ∀ (s : State) (w v : Nat) (x y : Window), s.work.eng.bc.live = true → s.work.eng.bw[w]? = some x → s.work.eng.bw[v]? = some y →
    (x.bits.length + y.bits.length ≤ 64 →
      exec (.wConcat w v) s = .next (s.setWindow w ⟨x.bits ++ y.bits, x.under⟩)) ∧
    (64 < x.bits.length + y.bits.length → exec (.wConcat w v) s = .next (s.setWindow w ⟨x.bits, true⟩)) ∧
    (∃ z, exec (.wReverse w) s = .next (s.setWindow w z) ∧ z.under = x.under ∧ z.bits.length = x.bits.length ∧
      ∀ i, i < x.bits.length → z.bits.getD i false = x.bits.getD (x.bits.length - 1 - i) false)

/-- R163: reversing a window twice gives it back; consuming a then b bits is consuming a + b (for counts above 32: log 29); peeking
after a concat sees the bits of w, then those of v, zero-padded, whichever v is; W_CONCAT is associative while the total is at
most 64 bits, the middle and last window being any but the first. -/
def Obligations.WindowLaws : Prop :=
  ∀ (s : State) (w a b : Nat) (x : Window), s.work.eng.bc.live = true → s.work.eng.bw[w]? = some x →
    (∃ t, exec (.wReverse w) s = .next t ∧ exec (.wReverse w) t = .next s) ∧
    (a + b ≤ x.bits.length → ∃ t u, exec (.wConsume a w) s = .next t ∧ exec (.wConsume b w) t = .next u ∧
      exec (.wConsume (a + b) w) s = .next u) ∧
    (∀ (v : Nat) (y : Window), s.work.eng.bw[v]? = some y → x.bits.length + y.bits.length ≤ 64 → a ≤ 32 →
      ∃ t u, exec (.wConcat w v) s = .next t ∧ exec (.wPeek a w) t = .next u ∧
        u.work.eng.regs.ret = (bitsToNat ((x.bits ++ y.bits ++ List.replicate a false).take a) : Nat) ∧
        (v ≠ w → u.work.eng.bw[v]? = some y)) ∧
    (∀ (v u : Nat) (y z : Window), v ≠ w → u ≠ w → s.work.eng.bw[v]? = some y → s.work.eng.bw[u]? = some z →
      x.bits.length + y.bits.length + z.bits.length ≤ 64 →
      ∃ l l' r r', exec (.wConcat w v) s = .next l ∧ exec (.wConcat w u) l = .next l' ∧
        exec (.wConcat v u) s = .next r ∧ exec (.wConcat w v) r = .next r' ∧
        l'.work.eng.bw[w]? = r'.work.eng.bw[w]? ∧ l'.work.eng.bw[w]? = some ⟨x.bits ++ y.bits ++ z.bits, x.under⟩)

/-! ## The VLC engine (42_huffman_spectral.md, 43_scalefactor_rvlc.md) -/

/-- R211, R212, R214: HCW of a signed book, its source holding the code of an entry next: Q receives the entry's value, the
code's bits are consumed, CW_LEN is their number; a pair book leaves Q[2] and Q[3]; nothing else changes. -/
def Obligations.SignedCodeword : Prop :=
  ∀ (s : State) (i : Instr) (cb : Nat) (en : Entry) (rest : List Bool), s.sourceReady = true →
    (spectralBook s.par cb).prefixFree → en ∈ spectralBook s.par cb → en.code ≠ [] →
    s.work.eng.sourceBits s.inMem = en.code ++ rest →
    ((i, cb) ∈ [(Instr.hcw1, 1), (.hcw2, 2)] → en.value.length = 4 →
      exec i s = .next (s.withEngine ((s.work.eng.afterBits en.code.length).setRegs
        ({ s.work.eng.regs with cwLen := en.code.length }.setQuad en.value)))) ∧
    ((i, cb) ∈ [(Instr.hcw5, 5), (.hcw6, 6)] → en.value.length = 2 →
      exec i s = .next (s.withEngine ((s.work.eng.afterBits en.code.length).setRegs
        ({ s.work.eng.regs with cwLen := en.code.length }.setPair en.value))))

/-- R211, R213, R215, R218: HCW of an unsigned book: the codeword, then one sign bit for each value that is not 0, in tuple
order, 1 meaning negative. -/
def Obligations.UnsignedCodeword : Prop :=
  ∀ (s : State) (i : Instr) (cb : Nat) (en : Entry) (signs rest : List Bool), s.sourceReady = true →
    (spectralBook s.par cb).prefixFree → en ∈ spectralBook s.par cb → en.code ≠ [] →
    signs.length = signCount en.value → s.work.eng.sourceBits s.inMem = en.code ++ signs ++ rest →
    ((i, cb) ∈ [(Instr.hcw3, 3), (.hcw4, 4)] → en.value.length = 4 →
      exec i s = .next (s.withEngine ((s.work.eng.afterBits (en.code.length + signs.length)).setRegs
        ({ s.work.eng.regs with cwLen := en.code.length }.setQuad (applySigns en.value signs))))) ∧
    ((i, cb) ∈ [(Instr.hcw7, 7), (.hcw8, 8), (.hcw9, 9), (.hcw10, 10)] → en.value.length = 2 →
      exec i s = .next (s.withEngine ((s.work.eng.afterBits (en.code.length + signs.length)).setRegs
        ({ s.work.eng.regs with cwLen := en.code.length }.setPair (applySigns en.value signs)))))

/-- R216, R217, R219, R220: HCW of codebook 11 and of the virtual codebooks 16 to 31, all on the book HCB[11]: the codeword,
the signs, then the escape of each value of magnitude 16; a virtual codebook turns a pair whose magnitude exceeds its
VCB11_LAV entry into (0, 0). ESC_N is the N of the last escape read, and stays when there is none. -/
def Obligations.EscapeCodeword : Prop :=
  ∀ (s : State) (en : Entry) (a b v w : Int) (na nb : Option Nat)
    (signs ea eb rest : List Bool), s.sourceReady = true →
    s.par.escMaxN ≤ 32 →
    (spectralBook s.par 11).prefixFree → en ∈ spectralBook s.par 11 → en.code ≠ [] → en.value.length = 2 →
    signs.length = signCount en.value → applySigns en.value signs = [a, b] →
    isEscapeOf s.par a v na ea → isEscapeOf s.par b w nb eb →
    s.work.eng.sourceBits s.inMem = en.code ++ signs ++ ea ++ eb ++ rest →
    (exec .hcw11 s = .next (s.withEngine
      ((s.work.eng.afterBits (en.code.length + signs.length + ea.length + eb.length)).setRegs
        { s.work.eng.regs with cwLen := en.code.length, escN := (nb.or na).getD s.work.eng.regs.escN, q0 := v, q1 := w }))) ∧
    (∀ (i : Instr) (k : Nat),
      (i, k) ∈ [(Instr.hcw16, 0), (.hcw17, 1), (.hcw18, 2), (.hcw19, 3), (.hcw20, 4), (.hcw21, 5), (.hcw22, 6),
        (.hcw23, 7), (.hcw24, 8), (.hcw25, 9), (.hcw26, 10), (.hcw27, 11), (.hcw28, 12), (.hcw29, 13), (.hcw30, 14),
        (.hcw31, 15)] →
      exec i s = .next (s.withEngine
        ((s.work.eng.afterBits (en.code.length + signs.length + ea.length + eb.length)).setRegs
          { s.work.eng.regs with
            cwLen := en.code.length
            escN := (nb.or na).getD s.work.eng.regs.escN
            q0 := if (s.par.vcb11Lav.getD k 0 : Int) < |v| ∨ (s.par.vcb11Lav.getD k 0 : Int) < |w| then 0 else v
            q1 := if (s.par.vcb11Lav.getD k 0 : Int) < |v| ∨ (s.par.vcb11Lav.getD k 0 : Int) < |w| then 0 else w })))

/-- R227: HCW 0, 13, 14 and 15 read no bit and write no register; HCW 12 raises E_RESERVED_VALUE: issued on its
own, it abandons the frame (the model's reading, log 9). -/
def Obligations.CodewordWithoutTable : Prop :=
  ∀ s : State,
    (∀ i ∈ [Instr.hcw0, .hcw13, .hcw14, .hcw15], exec i s = .next s) ∧
    (s.work.eng.bc.err = false →
      ∃ t, exec .hcw12 s = .next t ∧ abandonedWith .reservedValue s.work.frm.hdrBytes s.work.ds s t)

/-- R211: with a book that is prefix-free and complete a codeword operation never raises a table miss, whatever bits come,
also when the buffer ends inside a codeword: HCW 1 to 10 and SFD end with a value. -/
def Obligations.CompleteBooksNeverMiss : Prop :=
  ∀ (s : State) (i : Instr) (book : Book), s.sourceReady = true →
    (i, book) ∈ [(Instr.hcw1, spectralBook s.par 1), (.hcw2, spectralBook s.par 2), (.hcw3, spectralBook s.par 3),
      (.hcw4, spectralBook s.par 4), (.hcw5, spectralBook s.par 5), (.hcw6, spectralBook s.par 6),
      (.hcw7, spectralBook s.par 7), (.hcw8, spectralBook s.par 8), (.hcw9, spectralBook s.par 9),
      (.hcw10, spectralBook s.par 10), (.sfd, s.par.sfcb)] →
    book.walkable → (∀ en ∈ book, en.code ≠ []) →
    ∃ g, exec i s = .next (s.withEngine g) ∧ ∃ en ∈ book, g.regs.cwLen = en.code.length

/-- R211, 43_scalefactor_rvlc.md R251: bits that no entry of the book begins, as many as its longest code has, are a table
miss for every HCW with a table and for SFD: issued on its own, it abandons the frame with E_HUFF_CODEWORD, or with E_HUFF_SF
for SFD (the model's reading, log 9). -/
def Obligations.TableMissRaises : Prop :=
  ∀ (s : State) (i : Instr) (book : Book) (c : Cause) (bits rest : List Bool), s.sourceReady = true →
    (i, book, c) ∈ [(Instr.hcw1, spectralBook s.par 1, Cause.huffCodeword),
      (.hcw2, spectralBook s.par 2, .huffCodeword), (.hcw3, spectralBook s.par 3, .huffCodeword),
      (.hcw4, spectralBook s.par 4, .huffCodeword), (.hcw5, spectralBook s.par 5, .huffCodeword),
      (.hcw6, spectralBook s.par 6, .huffCodeword), (.hcw7, spectralBook s.par 7, .huffCodeword),
      (.hcw8, spectralBook s.par 8, .huffCodeword), (.hcw9, spectralBook s.par 9, .huffCodeword),
      (.hcw10, spectralBook s.par 10, .huffCodeword), (.hcw11, spectralBook s.par 11, .huffCodeword),
      (.hcw16, spectralBook s.par 11, .huffCodeword), (.hcw17, spectralBook s.par 11, .huffCodeword),
      (.hcw18, spectralBook s.par 11, .huffCodeword), (.hcw19, spectralBook s.par 11, .huffCodeword),
      (.hcw20, spectralBook s.par 11, .huffCodeword), (.hcw21, spectralBook s.par 11, .huffCodeword),
      (.hcw22, spectralBook s.par 11, .huffCodeword), (.hcw23, spectralBook s.par 11, .huffCodeword),
      (.hcw24, spectralBook s.par 11, .huffCodeword), (.hcw25, spectralBook s.par 11, .huffCodeword),
      (.hcw26, spectralBook s.par 11, .huffCodeword), (.hcw27, spectralBook s.par 11, .huffCodeword),
      (.hcw28, spectralBook s.par 11, .huffCodeword), (.hcw29, spectralBook s.par 11, .huffCodeword),
      (.hcw30, spectralBook s.par 11, .huffCodeword), (.hcw31, spectralBook s.par 11, .huffCodeword),
      (.sfd, s.par.sfcb, .huffSf)] →
    bits ≠ [] → bits.length = maxCodeLen book → (∀ en ∈ book, ¬ en.code <+: bits) →
    s.work.eng.bc.err = false → s.work.eng.sourceBits s.inMem = bits ++ rest →
    ∃ t, exec i s = .next t ∧ abandonedWith c s.work.frm.hdrBytes s.work.ds s t

/-- R251, R255: SFD returns the index of its codeword minus 60; NPCM returns the next nine bits minus 256. -/
def Obligations.ScaleFactorDifferences : Prop :=
  ∀ (s : State) (rest : List Bool), s.sourceReady = true →
    (∀ (en : Entry) (k : Int), s.par.sfcb.prefixFree → en ∈ s.par.sfcb → en.code ≠ [] → en.value = [k] →
      s.work.eng.sourceBits s.inMem = en.code ++ rest →
      exec .sfd s = .next (s.withEngine ((s.work.eng.afterBits en.code.length).setRegs
        { s.work.eng.regs with cwLen := en.code.length, ret := k - 60 }))) ∧
    (∀ bits : List Bool, bits.length = 9 → s.work.eng.sourceBits s.inMem = bits ++ rest →
      exec .npcm s = .next (s.withEngine ((s.work.eng.afterBits 9).setRegs
        { s.work.eng.regs with ret := (bitsToNat bits : Int) - 256 })))

/-- R219: ESC i does nothing unless |Q[i]| is 16; then N starts at 4 and counts the ones of the prefix, and Q[i] becomes the
sign times 2^N plus the next N bits. A prefix of more than ESC_MAX_N - 4 ones raises E_HUFF_CODEWORD: issued on its own, it
abandons the frame (the model's reading, log 9). -/
def Obligations.EscapeSequence : Prop :=
  ∀ (s : State) (i : Nat), i < 2 →
    (|s.work.eng.regs.q i| ≠ 16 → exec (.esc i) s = .next s) ∧
    (∀ (n off : Nat) (rest : List Bool), |s.work.eng.regs.q i| = 16 → s.sourceReady = true → 4 ≤ n →
      n ≤ s.par.escMaxN → n ≤ 32 → off < 2 ^ n → s.work.eng.sourceBits s.inMem = escapeBits n off ++ rest →
      exec (.esc i) s = .next (s.withEngine ((s.work.eng.afterBits (2 * n - 3)).setRegs
        ({ s.work.eng.regs with escN := n }.setQ i
          (if s.work.eng.regs.q i < 0 then -((2 ^ n + off : Nat) : Int) else ((2 ^ n + off : Nat) : Int)))))) ∧
    (∀ rest : List Bool, |s.work.eng.regs.q i| = 16 → s.sourceReady = true → 4 ≤ s.par.escMaxN →
      s.work.eng.bc.err = false →
      s.work.eng.sourceBits s.inMem = List.replicate (s.par.escMaxN - 3) true ++ rest →
      ∃ t, exec (.esc i) s = .next t ∧ abandonedWith .huffCodeword s.work.frm.hdrBytes s.work.ds s t)

/-- R218: SGN reads one bit for each value of the tuple that is not 0, in tuple order, 1 meaning negative: four values for
selector 0, two for selector 1; an all-zero tuple reads nothing. -/
def Obligations.SignBits : Prop :=
  ∀ (s : State) (signs rest : List Bool), s.sourceReady = true →
    s.work.eng.sourceBits s.inMem = signs ++ rest →
    (signs.length = signCount (s.work.eng.regs.lanes 4) →
      exec (.sgn 0) s = .next (s.withEngine ((s.work.eng.afterBits signs.length).setRegs
        (s.work.eng.regs.setQuad (applySigns (s.work.eng.regs.lanes 4) signs))))) ∧
    (signs.length = signCount (s.work.eng.regs.lanes 2) →
      exec (.sgn 1) s = .next (s.withEngine ((s.work.eng.afterBits signs.length).setRegs
        (s.work.eng.regs.setPair (applySigns (s.work.eng.regs.lanes 2) signs)))))

/-- R263, R264: RVLC_ESCD returns the value of the next codeword of the escape run; when no entry matches within the longest
code's bits, or the run ends first, it returns 99, the run moved past the bits it tried (where it then stands no rule says: log 16).
No exception, and the cursor stays. -/
def Obligations.RvlcEscape : Prop :=
  ∀ s : State, s.work.eng.bc.live = true →
    (∀ (en : Entry) (k : Int) (rest : List Bool), s.par.rvlcEsc.prefixFree → en ∈ s.par.rvlcEsc → en.code ≠ [] →
      en.value = [k] → Run.bits s.inMem s.work.eng.bc s.work.eng.regs.escRun = en.code ++ rest →
      exec .rvlcEscd s = .next (s.withEngine (s.work.eng.setRegs { s.work.eng.regs with
        escRun := { s.work.eng.regs.escRun with pos := s.work.eng.regs.escRun.pos + en.code.length }
        cwLen := en.code.length
        ret := k }))) ∧
    (s.par.rvlcEsc ≠ [] → (∀ en ∈ s.par.rvlcEsc, ¬ en.code <+: Run.bits s.inMem s.work.eng.bc s.work.eng.regs.escRun) →
      exec .rvlcEscd s = .next (s.withEngine (s.work.eng.setRegs { s.work.eng.regs with
        escRun := { s.work.eng.regs.escRun with
          pos := s.work.eng.regs.escRun.pos +
            min (Run.bits s.inMem s.work.eng.bc s.work.eng.regs.escRun).length (maxCodeLen s.par.rvlcEsc) }
        ret := 99 })))

/-- R263: RVLC_SFD returns the difference of its codeword; plus or minus RVLC_ESC_VAL is extended by the escape run; a miss in
either run gives 99. -/
def Obligations.RvlcDifference : Prop :=
  ∀ s : State, s.work.eng.bc.live = true → 0 < s.par.rvlcEscVal →
    (∀ (en : Entry) (k : Int) (rest : List Bool), s.par.rvlcSf.prefixFree → en ∈ s.par.rvlcSf →
      en.code ≠ [] → en.value = [k] → k ≠ 99 → Run.bits s.inMem s.work.eng.bc s.work.eng.regs.sfRun = en.code ++ rest →
      (k ≠ s.par.rvlcEscVal → k ≠ - s.par.rvlcEscVal →
        exec .rvlcSfd s = .next (s.withEngine (s.work.eng.setRegs { s.work.eng.regs with
          sfRun := { s.work.eng.regs.sfRun with pos := s.work.eng.regs.sfRun.pos + en.code.length }
          cwLen := en.code.length
          ret := k }))) ∧
      (∀ (ex : Entry) (x : Int) (more : List Bool), k = s.par.rvlcEscVal ∨ k = - s.par.rvlcEscVal →
        s.par.rvlcEsc.prefixFree → ex ∈ s.par.rvlcEsc → ex.code ≠ [] → ex.value = [x] → x ≠ 99 →
        Run.bits s.inMem s.work.eng.bc s.work.eng.regs.escRun = ex.code ++ more →
        exec .rvlcSfd s = .next (s.withEngine (s.work.eng.setRegs { s.work.eng.regs with
          sfRun := { s.work.eng.regs.sfRun with pos := s.work.eng.regs.sfRun.pos + en.code.length }
          escRun := { s.work.eng.regs.escRun with pos := s.work.eng.regs.escRun.pos + ex.code.length }
          cwLen := ex.code.length
          ret := if k = s.par.rvlcEscVal then k + x else k - x }))) ∧
      (k = s.par.rvlcEscVal ∨ k = - s.par.rvlcEscVal → s.par.rvlcEsc ≠ [] →
        (∀ ex ∈ s.par.rvlcEsc, ¬ ex.code <+: Run.bits s.inMem s.work.eng.bc s.work.eng.regs.escRun) →
        ∃ t, exec .rvlcSfd s = .next t ∧ t.work.eng.regs.ret = 99 ∧ t.work.eng.bc = s.work.eng.bc ∧ t.fi = s.fi)) ∧
    (s.par.rvlcSf ≠ [] → (∀ en ∈ s.par.rvlcSf, ¬ en.code <+: Run.bits s.inMem s.work.eng.bc s.work.eng.regs.sfRun) →
      ∃ t, exec .rvlcSfd s = .next t ∧ t.work.eng.regs.ret = 99 ∧ t.work.eng.regs.escRun = s.work.eng.regs.escRun ∧
        t.work.eng.bc = s.work.eng.bc ∧ t.fi = s.fi)

/-- R250 to R257, 10_state.md R32: what the VLC operations leave unchanged: every register of the host, both memories,
StreamConfig; and, when the operation does not raise (a lone raise abandons the frame: the model's reading, log 9), FrameInfo,
the frame, DS, and every window but the selected one. No form stores to memory. -/
def Obligations.VlcFrame : Prop :=
  ∀ (s t : State) (i : Instr), (∃ word, decodeVlc word = some i) → exec i s = .next t →
    (∀ a, t.inMem.read a = s.inMem.read a) ∧ (∀ a, t.outMem.read a = s.outMem.read a) ∧
    t.orch = s.orch ∧ t.cfg = s.cfg ∧ t.res0 = s.res0 ∧ t.res1 = s.res1 ∧ t.res2 = s.res2 ∧ t.work.sc = s.work.sc ∧
    ((∃ c, abandonedWith c s.work.frm.hdrBytes s.work.ds s t) ∨
      (t.fi = s.fi ∧ t.work.frm = s.work.frm ∧ t.work.ds = s.work.ds ∧ t.draws = s.draws ∧
        (∀ w, s.work.eng.regs.source ≠ .window w → t.work.eng.bw[w]? = s.work.eng.bw[w]?)))

/-- R252 to R257: the scale factors of a channel: when SCALE_FACTOR_DATA ends, every band of a table-carrying codebook holds a
value from 0 to 255, a band of codebook 0 holds 0, and there is one value for each band. -/
def Obligations.ScaleFactorRange : Prop :=
  ∀ (e : Env) (gain : Nat) (cbs : List (List Nat)) (g g' : Engine) (sf : List (List Int)),
    scaleFactorData e gain cbs g = .ok sf g' →
    sf.length = cbs.length ∧
    ∀ k, k < cbs.length → (sf.getD k []).length = (cbs.getD k []).length ∧
      ∀ b, b < (cbs.getD k []).length →
        (carriesTable (grid 0 cbs k b) = true → 0 ≤ grid 0 sf k b ∧ grid 0 sf k b ≤ 255) ∧
        (grid 0 cbs k b = 0 → grid 0 sf k b = 0)

/-! ## The syntax elements (48_orchestrator.md) -/

/-- R420: DSE skips its tag, its flag, its count with the one-step escape, the alignment it asks for, and its bytes; no state
but BC changes. Bytes past the end of the buffer set BC.err, the cursor after the last whole byte; a header cut by the end sets
it at the field that does not fit; with BC.err set nothing changes (40_bitreader.md R141). -/
def Obligations.DataStreamElement : Prop :=
  ∀ (s : State), s.work.eng.bc.live = true →
    (∀ count start : Nat, s.canRead 13 = true → (s.field 5 8 = 255 → s.canRead 21 = true) →
      count = (if s.field 5 8 = 255 then 255 + s.field 13 8 else s.field 5 8) →
      start = (if s.field 4 1 = 1 then
          8 * ((s.work.eng.bc.pos + (if s.field 5 8 = 255 then 21 else 13) + 7) / 8)
        else s.work.eng.bc.pos + (if s.field 5 8 = 255 then 21 else 13)) →
      (start + 8 * count ≤ 8 * s.work.eng.bc.len →
        exec .dse s = .next (s.setBc { s.work.eng.bc with pos := start + 8 * count })) ∧
      (8 * s.work.eng.bc.len < start + 8 * count →
        exec .dse s = .next (s.setBc { s.work.eng.bc with
          pos := start + 8 * ((8 * s.work.eng.bc.len - start) / 8), err := true }))) ∧
    (s.canRead 0 = true → s.canRead (if s.canRead 13 = true ∧ s.field 5 8 = 255 then 21 else 13) = false →
      exec .dse s = .next (s.setBc { s.work.eng.bc with
        pos := s.work.eng.bc.pos + (if s.canRead 13 then 13 else if s.canRead 5 then 5 else if s.canRead 4 then 4 else 0)
        err := true })) ∧
    (s.work.eng.bc.err = true → exec .dse s = .next s)

/-- R422: FIL skips its count with the one-step escape and that many bytes; past the end of the buffer, and where the count itself
is cut by the end, BC.err is set and the position stays after the last field read; with BC.err set nothing changes
(40_bitreader.md R141). -/
def Obligations.FillElement : Prop :=
  ∀ s : State, s.work.eng.bc.live = true →
    (∀ count start : Nat, s.canRead 4 = true → (s.field 0 4 = 15 → s.canRead 12 = true) →
      count = (if s.field 0 4 = 15 then 15 + s.field 4 8 - 1 else s.field 0 4) →
      start = s.work.eng.bc.pos + (if s.field 0 4 = 15 then 12 else 4) →
      (start + 8 * count ≤ 8 * s.work.eng.bc.len →
        exec .fil s = .next (s.setBc { s.work.eng.bc with pos := start + 8 * count })) ∧
      (8 * s.work.eng.bc.len < start + 8 * count →
        exec .fil s = .next (s.setBc { s.work.eng.bc with pos := start, err := true }))) ∧
    (s.canRead 0 = true → s.canRead 4 = false → exec .fil s = .next (s.setBc { s.work.eng.bc with err := true })) ∧
    (s.canRead 4 = true → s.field 0 4 = 15 → s.canRead 12 = false →
      exec .fil s = .next (s.setBc { s.work.eng.bc with pos := s.work.eng.bc.pos + 4, err := true })) ∧
    (s.work.eng.bc.err = true → exec .fil s = .next s)

/-- R425: END leaves the raw_data_block loop and changes nothing else. -/
def Obligations.EndMarker : Prop :=
  ∀ s : State, s.work.eng.bc.live = true →
    exec .endMarker s = .next { s with work := { s.work with frm := { s.work.frm with inBlock := false } } }

/-- R416 to R419, 60_exceptions.md R460: CCE raises E_CAPABILITY, and a channel element beyond MAX_CHANNELS or MAX_ELEMENTS raises
E_CHANNEL_CONFIG: issued on its own, each abandons the frame (the model's reading, log 9). -/
def Obligations.RefusedElements : Prop :=
  ∀ s : State, s.work.eng.bc.live = true → s.work.eng.bc.err = false →
    (∃ t, exec .cce s = .next t ∧ abandonedWith .capability s.work.frm.hdrBytes s.work.ds s t) ∧
    (∀ (i : Instr) (n : Nat), (i, n) ∈ [(Instr.sce, 1), (.lfe, 1), (.cpe, 2)] →
      s.par.maxChannels < s.work.ds.channelsSeen + n ∨ s.par.maxElements < s.work.ds.elementsSeen + 1 →
      ∃ t, exec i s = .next t ∧ abandonedWith .channelConfig s.work.frm.hdrBytes s.work.ds s t)

/-- R421, 41_parsers.md R181: a PCE, with any elements and any mix-down fields, next in the buffer: the cursor moves past its
comment, and it becomes the stored PCE when it is the first element of a stream whose channel configuration is 0; nothing else
changes. One of more than MAX_CHANNELS channels raises E_PCE: issued on its own, it abandons the frame (the model's reading,
log 9). -/
def Obligations.ProgramConfigElement : Prop :=
  ∀ (s : State) (p : Pce) (bits rest : List Bool), s.work.eng.bc.live = true → s.work.eng.bc.err = false →
    isPce s.work.eng.bc.pos p bits → s.restBits = bits ++ rest →
    (p.channels ≤ s.par.maxChannels →
      exec .pce s = .next
        { s.setBc { s.work.eng.bc with pos := s.work.eng.bc.pos + bits.length } with
          work := { (s.setBc { s.work.eng.bc with pos := s.work.eng.bc.pos + bits.length }).work with
            ds := { s.work.ds with
              pce := if s.work.ds.elementsSeen = 0 ∧ s.work.sc.channelConfig = 0 then some p else s.work.ds.pce } } }) ∧
    (s.par.maxChannels < p.channels →
      ∃ t, exec .pce s = .next t ∧ abandonedWith .pce s.work.frm.hdrBytes s.work.ds s t)

/-- R416, R419: SCE and LFE on a silent channel stream (only-long, no band, no tool) of a stream without upsampling: 26 bits
are consumed, the channel's TIME is its overlap buffer, the buffer's first frame becomes 0, the element is counted, and the
first element is done (that a channel element sets this flag is the model's reading, log 25). That the buffer's elements at and
beyond FL stay is the model's choice (log 34). -/
def Obligations.SilentSingleElement : Prop :=
  ∀ (s : State) (i : Instr) (id : BitVec 3), (i, id) ∈ [(Instr.sce, 0), (.lfe, 3)] →
    s.canRead 0 = true → s.work.eng.bc.pos + 26 ≤ 8 * s.work.eng.bc.len → s.silentStream 4 →
    s.work.ds.channelsSeen + 1 ≤ s.par.maxChannels → s.work.ds.elementsSeen + 1 ≤ s.par.maxElements →
    s.work.sc.erFlag 1 = false → s.work.sc.erFlag 2 = false → (s.work.sc.erFlag 0 = true → s.par.cap.er = true) →
    s.work.sc.upsample = false →
    (i = .sce → s.par.cap.sbr = true → s.field 26 3 ≠ 6) →
    ∃ w, exec i s = .next { s with work := w } ∧
      w.eng.bc = { s.work.eng.bc with pos := s.work.eng.bc.pos + 26 } ∧ w.eng.bw = s.work.eng.bw ∧
      w.sc = s.work.sc ∧
      silentChannel s.work.sc.frameLen.toNat s.work.ds.channelsSeen (s.silentShape 4) s.work.ds w ∧
      w.frm.el = some ⟨id, BitVec.ofNat 4 (s.field 0 4), s.work.ds.channelsSeen, false, false, false⟩ ∧
      w.frm.elems = s.work.frm.elems ++ [⟨id, BitVec.ofNat 4 (s.field 0 4), false⟩] ∧
      w.ds.firstElementDone = true ∧ w.ds.channelsSeen = s.work.ds.channelsSeen + 1 ∧
      w.ds.elementsSeen = s.work.ds.elementsSeen + 1 ∧ w.ds.rng1 = s.work.ds.rng1 ∧ w.ds.rng2 = s.work.ds.rng2 ∧
      w.ds.frame = s.work.ds.frame ∧ w.ds.sbr = s.work.ds.sbr ∧ w.ds.pce = s.work.ds.pce

/-- R417: CPE without a common window on two silent channel streams: 49 bits are consumed and both channels are silent;
the first element is done (the model's reading, log 25). That the buffers' elements at and beyond FL stay is the model's choice
(log 34). -/
def Obligations.SilentPairElement : Prop :=
  ∀ s : State,
    s.canRead 0 = true → s.work.eng.bc.pos + 49 ≤ 8 * s.work.eng.bc.len → s.field 4 1 = 0 →
    s.silentStream 5 → s.silentStream 27 →
    s.work.ds.channelsSeen + 2 ≤ s.par.maxChannels → s.work.ds.elementsSeen + 1 ≤ s.par.maxElements →
    s.work.sc.erFlag 1 = false → s.work.sc.erFlag 2 = false → (s.work.sc.erFlag 0 = true → s.par.cap.er = true) →
    s.work.sc.upsample = false →
    (s.par.cap.sbr = true → s.field 49 3 ≠ 6) →
    ∃ w, exec .cpe s = .next { s with work := w } ∧
      w.eng.bc = { s.work.eng.bc with pos := s.work.eng.bc.pos + 49 } ∧ w.eng.bw = s.work.eng.bw ∧
      w.sc = s.work.sc ∧
      silentChannel s.work.sc.frameLen.toNat s.work.ds.channelsSeen (s.silentShape 5) s.work.ds w ∧
      silentChannel s.work.sc.frameLen.toNat (s.work.ds.channelsSeen + 1) (s.silentShape 27) s.work.ds w ∧
      w.frm.el = some ⟨1, BitVec.ofNat 4 (s.field 0 4), s.work.ds.channelsSeen, true, false, false⟩ ∧
      w.ds.firstElementDone = true ∧ w.ds.channelsSeen = s.work.ds.channelsSeen + 2 ∧
      w.ds.elementsSeen = s.work.ds.elementsSeen + 1 ∧ w.ds.rng1 = s.work.ds.rng1 ∧ w.ds.rng2 = s.work.ds.rng2

/-- R419, R424, 46_sbr.md R352, R364: SCE and LFE on a silent channel stream of an upsampled stream, no SBR data following: as
without upsampling, and the channel's TIME2 is plain upsampling of its TIME with the SbrState INIT allocated, which keeps the
filters' histories; silence with silent histories is silence at the double rate. The model's choice are that the overlap buffer's
elements at and beyond FL stay (log 34) and that plain upsampling passes all 32 low subbands, its reading that an LFE is upsampled so
(log 22). -/
def Obligations.UpsampledElement : Prop :=
  ∀ (s : State) (i : Instr) (id : BitVec 3) (b : SbrState), (i, id) ∈ [(Instr.sce, 0), (.lfe, 3)] →
    s.canRead 0 = true → s.work.eng.bc.pos + 26 ≤ 8 * s.work.eng.bc.len → s.silentStream 4 →
    s.work.ds.channelsSeen + 1 ≤ s.par.maxChannels → s.work.ds.elementsSeen + 1 ≤ s.par.maxElements →
    s.work.sc.erFlag 1 = false → s.work.sc.erFlag 2 = false → (s.work.sc.erFlag 0 = true → s.par.cap.er = true) →
    s.work.sc.upsample = true → s.work.ds.sbr[s.work.ds.elementsSeen]? = some (some b) →
    (i = .sce → s.par.cap.sbr = true → s.field 26 3 ≠ 6) →
    let fl := s.work.sc.frameLen.toNat
    let time := (List.range fl).map (fun n => (s.work.ds.overlap.getD s.work.ds.channelsSeen []).getD n 0)
    let up := sbrPlain s.par false (timeSlots fl) (b.chan s.par 0) time
    ∃ w, exec i s = .next { s with work := w } ∧
      w.eng.bc = { s.work.eng.bc with pos := s.work.eng.bc.pos + 26 } ∧ w.eng.bw = s.work.eng.bw ∧ w.sc = s.work.sc ∧
      silentChannel fl s.work.ds.channelsSeen (s.silentShape 4) s.work.ds w ∧
      (w.frm.chans.getD s.work.ds.channelsSeen Wk.noChan).time2 = up.1 ∧
      w.ds.sbr = s.work.ds.sbr.set s.work.ds.elementsSeen (some { b with chans := up.2 :: b.chans.drop 1 }) ∧
      (b.chan s.par 0 = SbrChan.silent s.par → time = List.replicate fl 0 →
        up.1 = List.replicate (64 * timeSlots fl) 0) ∧
      w.frm.elems = s.work.frm.elems ++ [⟨id, BitVec.ofNat 4 (s.field 0 4), false⟩] ∧
      w.ds.channelsSeen = s.work.ds.channelsSeen + 1 ∧ w.ds.elementsSeen = s.work.ds.elementsSeen + 1 ∧
      w.ds.rng1 = s.work.ds.rng1 ∧ w.ds.rng2 = s.work.ds.rng2 ∧ w.ds.frame = s.work.ds.frame

/-- R416, R419, R424, 42_huffman_spectral.md R225, 43_scalefactor_rvlc.md R253, 44_noiseless.md R281 to R289, 45_filterbank.md R330:
SCE and LFE on a channel stream of one band of four lines, of signed quads: QSPEC holds the codeword's values, SPEC their
dequantisation by the scale factor (the gain plus the codeword's difference), and the filterbank makes TIME, the overlap
buffer and the remembered shape of it; that the buffer's elements at and beyond FL stay is the model's choice (log 34). -/
def Obligations.SpectralSingleElement : Prop :=
  ∀ (s : State) (i : Instr) (id : BitVec 3) (tag gain cb : Nat) (shape : Bool) (f q : Entry) (k : Int) (rest : List Bool),
    (i, id) ∈ [(Instr.sce, 0), (.lfe, 3)] → cb ∈ [1, 2] → tag < 16 → gain < 256 →
    s.work.eng.bc.live = true → s.work.eng.bc.err = false →
    s.restBits = natToBits 4 tag ++ natToBits 8 gain ++ oneBandInfoBits shape ++ oneBandDataBits cb f.code q.code ++ rest →
    (i = .sce → s.par.cap.sbr = true → ¬ [true, true, false] <+: rest) → quadBand s.par s.work.sc →
    s.par.sfcb.prefixFree → f ∈ s.par.sfcb → f.code ≠ [] → f.value = [k] →
    0 ≤ gain + (k - 60) → gain + (k - 60) ≤ 255 →
    (spectralBook s.par cb).prefixFree → q ∈ spectralBook s.par cb → q.code ≠ [] → q.value.length = 4 →
    (∀ v ∈ q.value, |v| ≤ 8191) →
    s.work.ds.channelsSeen + 1 ≤ s.par.maxChannels → s.work.ds.elementsSeen + 1 ≤ s.par.maxElements →
    s.work.sc.erFlags = 0 → s.work.sc.upsample = false →
    ∃ w, exec i s = .next { s with work := w } ∧
      w.eng.bc = { s.work.eng.bc with pos := s.work.eng.bc.pos + 35 + f.code.length + q.code.length } ∧
      (w.frm.chans.getD s.work.ds.channelsSeen Wk.noChan).qspec =
        q.value ++ List.replicate (s.work.sc.frameLen.toNat - 4) 0 ∧
      filteredChannel s.par s.work.sc s.work.ds.channelsSeen shape
        (quadSpectrum s.work.sc.frameLen.toNat (q.value.map (fun v => deq v (gain + (k - 60))))) s.work.ds w ∧
      w.frm.el = some ⟨id, BitVec.ofNat 4 tag, s.work.ds.channelsSeen, false, false, false⟩ ∧
      w.ds.channelsSeen = s.work.ds.channelsSeen + 1 ∧ w.ds.elementsSeen = s.work.ds.elementsSeen + 1 ∧
      w.ds.rng1 = s.work.ds.rng1 ∧ w.ds.rng2 = s.work.ds.rng2 ∧ w.sc = s.work.sc

/-- R417, R424, 44_noiseless.md R308, R312: CPE with a common window and an M/S mask over one band of four lines: flagged, two
coded channels become sum and difference; with an intensity codebook in the second channel its lines are the first's times
IS_SCALE of its position, plus for codebook 15 and minus for 14, the sign turned once more by the flag. Both channels then go
through the filterbank with the shared window; that overlap elements at and beyond FL stay is the model's choice (log 34). -/
def Obligations.CommonWindowPair : Prop :=
  ∀ (s : State) (tag gainA gainB cbA cbB : Nat) (shape used : Bool) (fa fb qa qb : Entry) (ka kb : Int) (rest : List Bool),
    tag < 16 → gainA < 256 → gainB < 256 → cbA ∈ [1, 2] → cbB ∈ [1, 2, 14, 15] →
    s.work.eng.bc.live = true → s.work.eng.bc.err = false →
    s.restBits = natToBits 4 tag ++ [true] ++ oneBandInfoBits shape ++ [false, true, used] ++
      natToBits 8 gainA ++ oneBandDataBits cbA fa.code qa.code ++
      natToBits 8 gainB ++ oneBandDataBits cbB fb.code (if cbB ≤ 2 then qb.code else []) ++ rest →
    (s.par.cap.sbr = true → ¬ [true, true, false] <+: rest) → quadBand s.par s.work.sc →
    s.par.sfcb.prefixFree → fa ∈ s.par.sfcb → fa.code ≠ [] → fa.value = [ka] → fb ∈ s.par.sfcb → fb.code ≠ [] →
    fb.value = [kb] →
    0 ≤ gainA + (ka - 60) → gainA + (ka - 60) ≤ 255 →
    (cbB ≤ 2 → 0 ≤ gainB + (kb - 60) ∧ gainB + (kb - 60) ≤ 255) →
    (2 < cbB → s.par.sfRangeCheckAll = true → 0 ≤ kb - 60 ∧ kb - 60 ≤ 255) →
    (spectralBook s.par cbA).prefixFree → qa ∈ spectralBook s.par cbA → qa.code ≠ [] → qa.value.length = 4 →
    (∀ v ∈ qa.value, |v| ≤ 8191) →
    (cbB ≤ 2 → (spectralBook s.par cbB).prefixFree ∧ qb ∈ spectralBook s.par cbB ∧ qb.code ≠ [] ∧ qb.value.length = 4 ∧
      ∀ v ∈ qb.value, |v| ≤ 8191) →
    s.work.ds.channelsSeen + 2 ≤ s.par.maxChannels → s.work.ds.elementsSeen + 1 ≤ s.par.maxElements →
    s.work.sc.erFlags = 0 → s.work.sc.upsample = false →
    let fl := s.work.sc.frameLen.toNat
    let a := qa.value.map (fun v => deq v (gainA + (ka - 60)))
    let b := qb.value.map (fun v => deq v (gainB + (kb - 60)))
    let sign : Sample := (if cbB = 15 then 1 else -1) * (if used then -1 else 1)
    let left := if cbB ≤ 2 ∧ used then List.zipWith (· + ·) a b else a
    let right :=
      if cbB ≤ 2 then (if used then List.zipWith (· - ·) a b else b)
      else a.map (fun v => sign * Config.isScale (kb - 60) * v)
    ∃ w, exec .cpe s = .next { s with work := w } ∧
      filteredChannel s.par s.work.sc s.work.ds.channelsSeen shape (quadSpectrum fl left) s.work.ds w ∧
      filteredChannel s.par s.work.sc (s.work.ds.channelsSeen + 1) shape (quadSpectrum fl right) s.work.ds w ∧
      w.frm.el = some ⟨1, BitVec.ofNat 4 tag, s.work.ds.channelsSeen, true, true, false⟩ ∧
      w.ds.channelsSeen = s.work.ds.channelsSeen + 2 ∧ w.ds.elementsSeen = s.work.ds.elementsSeen + 1 ∧
      w.ds.rng1 = s.work.ds.rng1 ∧ w.ds.rng2 = s.work.ds.rng2 ∧ w.sc = s.work.sc

/-- R412, R416 to R425, 60_exceptions.md R460: with a cursor every element ends, in its effect on the working state or in the
abandonment of the frame (that a lone element's raise abandons the frame is the model's reading, log 9); either way no other
register changes and no byte of either memory. -/
def Obligations.ElementOutcome : Prop :=
  ∀ (s : State) (i : Instr), i ∈ [.sce, .cpe, .cce, .lfe, .dse, .pce, .fil, .endMarker] →
    s.work.eng.bc.live = true →
    ∃ t, exec i s = .next t ∧
      (∀ a, t.inMem.read a = s.inMem.read a) ∧ (∀ a, t.outMem.read a = s.outMem.read a) ∧ t.par = s.par ∧
      t.orch = s.orch ∧ t.cfg = s.cfg ∧ t.res0 = s.res0 ∧ t.res1 = s.res1 ∧ t.res2 = s.res2 ∧
      ((t.fi = s.fi ∧ t.draws = s.draws) ∨ ∃ c a, abandonedWith c s.work.frm.hdrBytes a s t)

/-! ## The SBR engine (46_sbr.md) -/

/-- 46_sbr.md R354, R355, R366: a header sets Reset exactly when it is the first or one of the seven fields differs, and is
remembered; without one Reset is 0 and nothing else changes. Tables are built only with the required properties. The master
table does not depend on the crossover band, so tables of headers that differ there alone differ in N_high; nor do any tables
depend on amp_res. -/
def Obligations.SbrHeaderAndTables : Prop :=
  ∀ (p : Params) (b : SbrState) (g h : SbrHeader) (rate x a : Nat),
    sbrDetect b none = { b with reset := false } ∧
    sbrDetect { b with hdrPrev := none } (some h) = { b with hdr := some h, hdrPrev := some h, reset := true } ∧
    sbrDetect { b with hdrPrev := some g } (some h) = { b with
      hdr := some h
      hdrPrev := some h
      reset := decide (¬ (g.ampRes = h.ampRes ∧ g.startFreq = h.startFreq ∧ g.stopFreq = h.stopFreq ∧
        g.xoverBand = h.xoverBand ∧ g.freqScale = h.freqScale ∧ g.alterScale = h.alterScale ∧
        g.noiseBands = h.noiseBands)) } ∧
    sbrBuildTables p h rate = (sbrFreqTables h rate).filter (sbrTablesLegal p h) ∧
    (∀ t : SbrTables, sbrTablesLegal p h t = true →
      (∀ l ∈ [t.fMaster, t.fHigh, t.fLow, t.fNoise, t.fLim], l.Pairwise (· < ·) ∧ l.length ≤ p.sbrMaxBands) ∧
      t.fHigh.length - 1 + h.xoverBand = t.fMaster.length - 1 ∧ t.kx = t.fHigh.headD 0 ∧
      t.kx + t.m = t.fHigh.getLastD 0 ∧ 0 < t.m ∧ t.kx + t.m ≤ 64) ∧
    (sbrFreqTables { h with xoverBand := x } rate).map SbrTables.fMaster =
      (sbrFreqTables h rate).map SbrTables.fMaster ∧
    (∀ t u : SbrTables, x ≠ h.xoverBand → u.fMaster = t.fMaster → sbrTablesLegal p h t = true →
      sbrTablesLegal p { h with xoverBand := x } u = true → u.fHigh.length - 1 ≠ t.fHigh.length - 1) ∧
    sbrFreqTables { h with ampRes := a } rate = sbrFreqTables h rate

/-! ## The host commands (48_orchestrator.md) -/

/-- R401, 70_reset_and_hazards.md R491: OPEN with memory writes the reset values of Config, StreamConfig, FrameInfo, the results
and DS, empties the windows, and leaves no cursor; without memory only RES0 changes. That the windows' underflow flags are then
0 is the model's choice (log 2). -/
def Obligations.OpenResets : Prop :=
  ∀ s : State, s.orch = .unopened →
    (s.ports.allocOk = true → ∃ t, exec .openHandle s = .next t ∧
      t.orch = .opened ∧ t.cfg = s.par.cfgReset ∧ t.fi = FrameInfo.zero s.par.maxChannels ∧
      t.res0 = 0 ∧ t.res1 = 0 ∧ t.res2 = 0 ∧
      t.work.sc.objectType = s.par.cfgReset.defObjectType.setWidth 6 ∧
      t.work.sc.sampleRate = s.par.cfgReset.defSampleRate ∧
      t.work.sc.sfIndex = BitVec.ofNat 4 (rateIndex s.par s.par.cfgReset.defSampleRate.toNat) ∧
      t.work.sc.channelConfig = 0 ∧ t.work.sc.sbrPresent = false ∧ t.work.sc.psPresent = false ∧
      t.work.sc.frameLen = 1024 ∧ t.work.sc.headerType = 0 ∧ t.work.sc.erFlags = 0 ∧ t.work.sc.upsample = false ∧
      t.work.sc.latm = false ∧
      t.work.ds.overlap = List.replicate s.par.maxChannels (List.replicate 1024 0) ∧
      t.work.ds.ltpHist = List.replicate s.par.maxChannels (List.replicate s.par.ltpHistLen 0) ∧
      t.work.ds.windowShapePrev = List.replicate s.par.maxChannels false ∧
      t.work.ds.rng1 = s.par.rngSeed1 ∧ t.work.ds.rng2 = s.par.rngSeed2 ∧ t.work.ds.frame = 0 ∧
      t.work.ds.postSeek = false ∧ t.work.ds.sbr = List.replicate s.par.maxElements none ∧
      t.work.eng.bw = List.replicate s.par.nSeg ⟨[], false⟩ ∧ t.work.eng.bc.live = false ∧
      t.inMem = s.inMem ∧ t.outMem = s.outMem) ∧
    (s.ports.allocOk = false → exec .openHandle s = .next { s with res0 := negError s.par .alloc })

/-- R403: SET_CONFIG in Opened is all or nothing: legal values are all written, StreamConfig follows the new defaults and RES0
is 1; an illegal value changes no field and RES0 is 0. Which object types are
decodable under a capability set. -/
def Obligations.SetConfigAllOrNothing : Prop :=
  (∀ (c : Cap) (ot : Nat), decodable c ot = true ↔
    (ot = 1 ∧ c.main = true) ∨ ot = 2 ∨ (ot = 4 ∧ c.ltp = true) ∨ (ot = 17 ∧ c.er = true) ∨
      (ot = 19 ∧ c.ltp = true ∧ c.er = true) ∨ (ot = 23 ∧ c.ld = true)) ∧
  ∀ s : State, s.orch = .opened →
    ((decodable s.par.cap s.ports.cfgw.defObjectType.toNat = true ∧ s.ports.cfgw.defSampleRate ≠ 0 ∧
        1 ≤ s.ports.cfgw.outputFormat.toNat ∧ s.ports.cfgw.outputFormat.toNat ≤ 5) →
      exec .setConfig s = .next { s with
        cfg := s.ports.cfgw
        res0 := 1
        work := { s.work with sc := { s.work.sc with
          objectType := s.ports.cfgw.defObjectType.setWidth 6
          sfIndex := BitVec.ofNat 4 (rateIndex s.par s.ports.cfgw.defSampleRate.toNat)
          sampleRate := s.ports.cfgw.defSampleRate } } }) ∧
    (¬ (decodable s.par.cap s.ports.cfgw.defObjectType.toNat = true ∧ s.ports.cfgw.defSampleRate ≠ 0 ∧
        1 ≤ s.ports.cfgw.outputFormat.toNat ∧ s.ports.cfgw.outputFormat.toNat ≤ 5) →
      exec .setConfig s = .next { s with res0 := 0 })

/-- R404, R406, R407, R408, 41_parsers.md R184: INIT on a stream without a header (none of the three patterns at its start):
StreamConfig keeps its values but for the SBR presence policy; the results are 0, the reported rate and the channel
count. -/
def Obligations.InitRaw : Prop :=
  ∀ (s : State) (n : Nat) (sbr up : Bool), s.orch = .opened →
    adifTest s.inMem s.ports.inBase s.ports.inLen = false →
    (12 ≤ 8 * s.ports.inLen → bitsAt s.inMem s.ports.inBase 0 12 ≠ 0xFFF) →
    (11 ≤ 8 * s.ports.inLen → bitsAt s.inMem s.ports.inBase 0 11 ≠ 0x2B7) →
    decodable s.par.cap s.work.sc.objectType.toNat = true →
    s.work.sc.sampleRate ≠ 0 → channelCount s.work.sc s.work.ds.pce = some n → n ≤ s.par.maxChannels →
    sbr = (s.par.cap.sbr && decide (s.work.sc.sampleRate.toNat ≤ 24000)) →
    up = (sbr && !s.cfg.noImplicitSbrUpsample) → (sbr = true → s.ports.allocOk = true) →
    ∃ t, exec .init s = .next t ∧ t.orch = .initialized ∧ t.res0 = 0 ∧
      t.res1 = BitVec.ofNat 32 (if up then 2 * s.work.sc.sampleRate.toNat else s.work.sc.sampleRate.toNat) ∧
      t.res2 = BitVec.ofNat 32 (if n = 1 ∧ sbr = true ∧ s.par.cap.ps = true then 2 else n) ∧
      t.work.sc = { s.work.sc with headerType := 0, sbrPresent := sbr, psPresent := false, upsample := up } ∧
      t.cfg = s.cfg ∧ t.fi = s.fi ∧ t.outMem = s.outMem ∧ t.inMem = s.inMem ∧
      t.work.ds.overlap = s.work.ds.overlap ∧ t.work.ds.frame = s.work.ds.frame

/-- R404, 41_parsers.md R172, R173, R175: INIT on a stream that begins with an ADTS header, by its bits: object type, rate index,
rate and channel configuration go to StreamConfig, header_type is 2, and the results are 0 (the first DECODE parses the header
again), the reported rate and channel count. Two emphasis bits follow the fixed part of an MPEG-4 header (ID 0) in the old
format. That the header record is still there after the command is the model's choice (log 14). -/
def Obligations.InitAdts : Prop :=
  ∀ (s : State) (v n : Nat) (sc : StreamCfg), s.orch = .opened → 1 ≤ s.par.syncWindowBytes →
    let f := fun i k => bitsAt s.inMem s.ports.inBase i k
    f 0 12 = 0xFFF → f 18 4 ≤ 12 → v = 28 + (if s.cfg.oldAdtsFormat = true ∧ f 12 1 = 0 then 2 else 0) →
    v + 28 + (if f 15 1 = 0 then 16 else 0) ≤ 8 * s.ports.inLen →
    sc = { s.work.sc with
      headerType := 2
      objectType := BitVec.ofNat 6 (f 16 2 + 1)
      sfIndex := BitVec.ofNat 4 (f 18 4)
      sampleRate := BitVec.ofNat 32 (sampleRate s.par (f 18 4))
      channelConfig := BitVec.ofNat 4 (f 23 3) } →
    s.accepts .unknown sc s.work.ds.pce n →
    ∃ t a, exec .init s = .next t ∧ initialisedWith .unknown sc n 0 s t ∧ t.work.ds.pce = s.work.ds.pce ∧
      t.work.frm.adts = some a ∧ a.id = (f 12 1 == 1) ∧ a.protectionAbsent = (f 15 1 == 1) ∧
      a.frameLength = BitVec.ofNat 13 (f (v + 2) 13) ∧ a.bufferFullness = BitVec.ofNat 11 (f (v + 15) 11) ∧
      a.rawBlocks = BitVec.ofNat 2 (f (v + 26) 2)

/-- R404, 41_parsers.md R179, 30_encoding.md R107: INIT on an ADIF header, by its bits: the first PCE gives object type and rate
and becomes the stored one, the channel configuration is 0, header_type is 1, and RES0 is the header's length in bytes. That the
sample rate is the one SAMPLE_RATE gives for that PCE's index is the model's reading (log 11), and that the header's record is
still there after the command its choice (log 14). -/
def Obligations.InitAdif : Prop :=
  ∀ (s : State) (mark : List Bool) (original home type : Bool) (rate n : Nat) (x : Nat × Pce) (l : List (Nat × Pce))
      (bits rest : List Bool) (sc : StreamCfg), s.orch = .opened →
    (mark = [false] ∨ ∃ id : List Bool, id.length = 72 ∧ mark = true :: id) → rate < 2 ^ 23 → l.length < 16 →
    (∀ y ∈ x :: l, y.2.channels ≤ s.par.maxChannels) → isPceList type (62 + mark.length) (x :: l) bits →
    bitList s.inMem s.ports.inBase 0 (8 * s.ports.inLen) =
      natToBits 32 0x41444946 ++ mark ++ [original, home, type] ++ natToBits 23 rate ++ natToBits 4 l.length ++
        bits ++ rest →
    sc = { s.work.sc with
      headerType := 1
      objectType := BitVec.ofNat 6 (x.2.objectType + 1)
      sfIndex := BitVec.ofNat 4 x.2.sfIndex
      sampleRate := BitVec.ofNat 32 (sampleRate s.par x.2.sfIndex)
      channelConfig := 0 } →
    s.accepts .unknown sc (some x.2) n →
    ∃ t, exec .init s = .next t ∧ initialisedWith .unknown sc n ((62 + mark.length + bits.length) / 8) s t ∧
      t.work.ds.pce = some x.2 ∧ t.work.frm.adif.map (·.pces) = some ((x :: l).map (·.2))

/-- R404, 41_parsers.md R182, R186, R188: INIT on a LATM frame: LATM_FRAME's raise is the error it answers; else StreamConfig
follows the ASC of its multiplex, if it carried one, RES0 is 0, and the stream is marked as LATM. The multiplex' field layout is
configuration (log 18), so the statement speaks of what LATM_FRAME gives. That DS stays when INIT fails is the model's reading
(log 14). -/
def Obligations.InitLatm : Prop :=
  ∀ s : State, s.orch = .opened → 11 ≤ 8 * s.ports.inLen → bitsAt s.inMem s.ports.inBase 0 11 = 0x2B7 →
    ∃ t, exec .init s = .next t ∧
      let sc := { s.work.sc with latm := true, headerType := 0 }
      match latmFrame s.env false (Cursor.create s.ports.inBase s.ports.inLen) with
      | .error c _ => t.orch = .opened ∧ t.res0 = negError s.par c ∧ t.work.sc = s.work.sc ∧ t.work.ds = s.work.ds
      | .ok none _ => ∀ n, s.accepts .unknown sc s.work.ds.pce n →
        initialisedWith .unknown sc n 0 s t ∧ t.work.ds.pce = s.work.ds.pce
      | .ok (some a) _ => ∀ (n : Nat) (asc : StreamCfg) (pce : Option Pce),
        asc = { sc with
          objectType := BitVec.ofNat 6 a.objectType
          sfIndex := BitVec.ofNat 4 a.sfIndex
          sampleRate := BitVec.ofNat 32 a.rate
          channelConfig := BitVec.ofNat 4 a.channelConfig
          frameLen := BitVec.ofNat 11 a.frameLen
          erFlags := BitVec.ofNat 3 a.erFlags } →
        pce = a.pce.or s.work.ds.pce → s.accepts a.signal asc pce n →
        initialisedWith a.signal asc n 0 s t ∧ t.work.ds.pce = pce

/-- R405, 41_parsers.md R182: INIT2 on the two bytes of a plain AudioSpecificConfig: object type, rate index, channel
configuration 1 to 7 and frame length go to StreamConfig; the results are 0, the rate and the channel count. -/
def Obligations.Init2TwoBytes : Prop :=
  ∀ (s : State) (ot i cc : Nat) (sbr up : Bool), s.orch = .opened → s.ports.inLen = 2 →
    bitsAt s.inMem s.ports.inBase 0 5 = ot → bitsAt s.inMem s.ports.inBase 5 4 = i →
    bitsAt s.inMem s.ports.inBase 9 4 = cc → bitsAt s.inMem s.ports.inBase 14 1 = 0 →
    bitsAt s.inMem s.ports.inBase 15 1 = 0 →
    decodable s.par.cap ot = true → i ≤ 12 → 1 ≤ cc → cc ≤ 7 →
    0 < sampleRate s.par i → sampleRate s.par i < 2 ^ 31 → configChannels cc ≤ s.par.maxChannels →
    sbr = (s.par.cap.sbr && decide (sampleRate s.par i ≤ 24000)) →
    up = (sbr && !s.cfg.noImplicitSbrUpsample) → (sbr = true → s.ports.allocOk = true) →
    ∃ t, exec .init2 s = .next t ∧ t.orch = .initialized ∧ t.res0 = 0 ∧
      t.res1 = BitVec.ofNat 32 (if up then 2 * sampleRate s.par i else sampleRate s.par i) ∧
      t.res2 = BitVec.ofNat 32 (if cc = 1 ∧ sbr = true ∧ s.par.cap.ps = true then 2 else configChannels cc) ∧
      t.work.sc.objectType = BitVec.ofNat 6 ot ∧ t.work.sc.sfIndex = BitVec.ofNat 4 i ∧
      t.work.sc.sampleRate = BitVec.ofNat 32 (sampleRate s.par i) ∧
      t.work.sc.channelConfig = BitVec.ofNat 4 cc ∧
      t.work.sc.frameLen = (if bitsAt s.inMem s.ports.inBase 13 1 = 1 then 960 else 1024) ∧
      t.work.sc.headerType = 0 ∧ t.work.sc.erFlags = 0 ∧ t.work.sc.sbrPresent = sbr ∧ t.work.sc.upsample = up ∧
      t.cfg = s.cfg ∧ t.fi = s.fi ∧ t.outMem = s.outMem

/-- R406, 60_exceptions.md R463: an INIT or INIT2 that fails answers the negative code of its cause, stays in Opened, and leaves
StreamConfig, DS, Config and FrameInfo as they were (DS: the model's reading, log 14). -/
def Obligations.FailedInitRestores : Prop :=
  ∀ (s t : State) (i : Instr), i ∈ [.init, .init2] → s.orch = .opened → exec i s = .next t → t.orch ≠ .initialized →
    (∃ c, t.res0 = negError s.par c) ∧ t.orch = .opened ∧ t.work.sc = s.work.sc ∧ t.work.ds = s.work.ds ∧
      t.cfg = s.cfg ∧ t.fi = s.fi ∧ t.inMem = s.inMem ∧ t.outMem = s.outMem ∧ t.work.eng.bc.live = false

/-- R410, R412, R416, R424 to R428: a raw frame of one silent mono SCE and END, 32 bits, in a stream of channel configuration 1
without upsampling: one frame of the overlap buffer's samples is delivered, converted; FrameInfo says so; the overlap
buffer's FL elements are cleared; the frame is counted. That its elements at and beyond FL stay is the model's choice (log 34). -/
def Obligations.SilentMonoFrame : Prop :=
  ∀ (s : State) (fl : Nat), s.orch = .initialized ∨ s.orch = .decoding → 4 ≤ s.ports.inLen →
    s.work.sc.headerType = 0 → s.work.sc.latm = false → s.work.sc.channelConfig = 1 → s.work.sc.upsample = false →
    s.work.sc.erFlag 1 = false → s.work.sc.erFlag 2 = false → (s.work.sc.erFlag 0 = true → s.par.cap.er = true) →
    1 ≤ s.par.maxChannels → 1 ≤ s.par.maxElements →
    fl = s.work.sc.frameLen.toNat → fl ≤ s.ports.outCap →
    bitsAt s.inMem s.ports.inBase 0 3 = 0 → bitsAt s.inMem s.ports.inBase 15 3 = 0 →
    bitsAt s.inMem s.ports.inBase 19 10 = 0 → bitsAt s.inMem s.ports.inBase 29 3 = 7 →
    ∃ t, exec .decode s = .next t ∧ t.orch = .decoding ∧
      t.outMem = s.outMem.writeFrom s.ports.outBase ((List.range fl).map (fun n =>
        outConvert s.cfg.outputFormat.toNat ((s.work.ds.overlap.getD 0 []).getD n 0))) ∧
      t.fi.error = 0 ∧ t.fi.bytesConsumed = 4 ∧ t.fi.samples = BitVec.ofNat 32 fl ∧ t.fi.channels = 1 ∧
      t.fi.channelPos = (1 : BitVec 4) :: List.replicate (s.par.maxChannels - 1) 0 ∧
      t.fi.sampleRate = s.work.sc.sampleRate ∧ t.fi.objectType = s.work.sc.objectType ∧ t.fi.headerType = 0 ∧
      t.fi.sbr = 0 ∧ t.fi.ps = false ∧
      t.work.ds.overlap.getD 0 [] = List.replicate fl 0 ++ (s.work.ds.overlap.getD 0 []).drop fl ∧
      t.work.ds.windowShapePrev.getD 0 false = (bitsAt s.inMem s.ports.inBase 18 1 == 1) ∧
      t.work.ds.frame = s.work.ds.frame + 1 ∧ t.work.ds.postSeek = false ∧
      t.work.ds.rng1 = s.work.ds.rng1 ∧ t.work.ds.rng2 = s.work.ds.rng2 ∧ t.work.sc = s.work.sc ∧
      t.cfg = s.cfg ∧ t.res0 = s.res0 ∧ t.res1 = s.res1 ∧ t.res2 = s.res2

/-- R410, R411, R435: the ends of DECODE before any bit is read: outside Initialized and Decoding only FI.error changes; an empty
buffer abandons the frame with E_INPUT_TOO_SMALL, no byte consumed; an ID3 tag of 128 bytes is skipped without samples: no field
of DS changes but the loop's bookkeeping, which step 2 of R410 clears (the model's reading, log 25). -/
def Obligations.DecodeBeforeTheBits : Prop :=
  ∀ s : State,
    (s.orch ≠ .initialized → s.orch ≠ .decoding →
      exec .decode s = .next { s with fi := { s.fi with error := fiError s.par .badState } }) ∧
    ((s.orch = .initialized ∨ s.orch = .decoding) → s.ports.inLen = 0 →
      ∃ t, exec .decode s = .next t ∧ t.orch = .decoding ∧ t.fi.bytesConsumed = 0 ∧ t.outMem = s.outMem ∧
        t.work.ds.frame = s.work.ds.frame ∧ t.work.ds.pce = s.work.ds.pce ∧ t.work.sc = s.work.sc ∧
        abandonedWith .inputTooSmall 0 (beginDecode s).work.ds (beginDecode s) t) ∧
    ((s.orch = .initialized ∨ s.orch = .decoding) → 128 ≤ s.ports.inLen → s.inMem.read s.ports.inBase = 0x54 →
      s.inMem.read (s.ports.inBase + 1) = 0x41 → s.inMem.read (s.ports.inBase + 2) = 0x47 →
      ∃ t, exec .decode s = .next t ∧ t.orch = .decoding ∧
        t.fi = { FrameInfo.zero s.par.maxChannels with bytesConsumed := 128 } ∧
        t.outMem = s.outMem ∧ t.inMem = s.inMem ∧
        t.work.ds = { s.work.ds with firstElementDone := false, channelsSeen := 0, elementsSeen := 0 } ∧
        t.work.sc = s.work.sc ∧ t.work.eng.bc.live = false ∧ t.work.eng.bw = s.work.eng.bw ∧ t.cfg = s.cfg ∧
        t.res0 = s.res0 ∧ t.res1 = s.res1 ∧ t.res2 = s.res2)

/-- R410, R436, 60_exceptions.md R450, R460: a DECODE that is accepted ends in Decoding, and either delivers a frame with FI.error
0 and counts it, or reports a cause, delivers no sample, writes no byte of OUT, counts nothing and leaves every history
silent. -/
def Obligations.DecodeDeliversOrAbandons : Prop :=
  ∀ s : State, s.orch = .initialized ∨ s.orch = .decoding → s.ports.inLen ≠ 0 →
    id3Test s.inMem s.ports.inBase s.ports.inLen = false → errCodesOk s.par = true →
    ∃ t, exec .decode s = .next t ∧ t.orch = .decoding ∧ t.cfg = s.cfg ∧ t.inMem = s.inMem ∧
      t.res0 = s.res0 ∧ t.res1 = s.res1 ∧ t.res2 = s.res2 ∧
      ((t.fi.error = 0 ∧ t.work.ds.frame = s.work.ds.frame + 1 ∧ t.work.ds.postSeek = false) ∨
        (t.fi.error ≠ 0 ∧ (∃ c, t.fi.error = fiError s.par c) ∧ t.fi.samples = 0 ∧ t.fi.channels = 0 ∧
          t.outMem = s.outMem ∧ t.work.ds.frame = s.work.ds.frame ∧ t.work.ds.postSeek = s.work.ds.postSeek ∧
          t.work.ds.overlap = List.replicate s.par.maxChannels (List.replicate 1024 0) ∧
          t.work.ds.ltpHist = List.replicate s.par.maxChannels (List.replicate s.par.ltpHistLen 0)))

/-- R433: POST_SEEK_RESET sets DS.post_seek and, unless ARG0 is -1, the frame counter; it touches no history; where it is
refused nothing changes. -/
def Obligations.PostSeekReset : Prop :=
  ∀ s : State,
    ((s.orch = .opened ∨ s.orch = .initialized ∨ s.orch = .decoding) →
      exec .postSeekReset s = .next { s with work := { s.work with ds := { s.work.ds with
        postSeek := true
        frame := if s.ports.arg0.toInt = -1 then s.work.ds.frame else s.ports.arg0 } } }) ∧
    (s.orch = .unopened ∨ s.orch = .closed → exec .postSeekReset s = .next s)

/-- R409: CLOSE in Opened, Initialized or Decoding moves to Closed; elsewhere it has no effect. That it leaves no cursor, and that
the host's memory, ports and parameters stay, are the model's reading (log 26). -/
def Obligations.CloseMovesToClosed : Prop :=
  ∀ s : State,
    ((s.orch = .opened ∨ s.orch = .initialized ∨ s.orch = .decoding) →
      ∃ t, exec .close s = .next t ∧ t.orch = .closed ∧ t.work.eng.bc.live = false ∧ t.inMem = s.inMem ∧
        t.outMem = s.outMem ∧ t.ports = s.ports ∧ t.par = s.par) ∧
    (s.orch = .unopened ∨ s.orch = .closed → exec .close s = .next s)

/-- 30_encoding.md R130, R402, R435: GET_CONFIG has no effect on state, in any state; the reserved commands set RES0 to
-ERRCODE(E_ILLEGAL_CMD) in any state; the reserved Bit Reader and VLC operations change nothing; the refused commands change
nothing but RES0, or FI.error for DECODE. -/
def Obligations.RefusedCommands : Prop :=
  ∀ s : State,
    exec .getConfig s = .next s ∧
    (∀ i ∈ [Instr.cmdReserved8, .cmdReserved9, .cmdReserved10, .cmdReserved11, .cmdReserved12, .cmdReserved13,
        .cmdReserved14, .cmdReserved15],
      exec i s = .next { s with res0 := - BitVec.ofNat 32 (errCode s.par .illegalCmd) }) ∧
    (∀ i ∈ [Instr.brReserved14, .brReserved15, .vlcReserved7], exec i s = .next s) ∧
    (s.orch ≠ .unopened → exec .openHandle s =
      .next { s with res0 := - BitVec.ofNat 32 (errCode s.par .badState) }) ∧
    (s.orch ≠ .opened → (∀ i ∈ [Instr.init, .init2], exec i s =
        .next { s with res0 := - BitVec.ofNat 32 (errCode s.par .badState) }) ∧
      exec .setConfig s = .next { s with res0 := 0 }) ∧
    (s.orch ≠ .initialized → s.orch ≠ .decoding → exec .decode s =
      .next { s with fi := { s.fi with error := BitVec.ofNat 8 (errCode s.par .badState) } }) ∧
    (s.orch = .unopened ∨ s.orch = .closed → ∀ i ∈ [Instr.postSeekReset, .close], exec i s = .next s)

/-- R428: OUT_CONVERT of the five legal formats maps 0 to 0 and is monotone; the integer formats give an integer in the range
of the format, and format 4 passes the value through. -/
def Obligations.OutputConversion : Prop :=
  ∀ (f : Nat) (x y : Sample), 1 ≤ f → f ≤ 5 →
    outConvert f 0 = 0 ∧ (x ≤ y → outConvert f x ≤ outConvert f y) ∧
    (f = 1 → ∃ k : Int, outConvert f x = k ∧ -32768 ≤ k ∧ k ≤ 32767) ∧
    (f = 2 → ∃ k : Int, outConvert f x = k ∧ -8388608 ≤ k ∧ k ≤ 8388607) ∧
    (f = 3 → ∃ k : Int, outConvert f x = k ∧ -2147483648 ≤ k ∧ k ≤ 2147483647) ∧
    (f = 4 → outConvert f x = x)
end

