-- ==== Sys2Proof/Laws/State.lean ====
section
/-! SUPPORT. What each named update of State leaves in each field, true by definition, so that no later proof unfolds a
record update. -/

namespace Sys2Proof.Machine

/-! ## State.setBc -/

@[simp] theorem State.setBc_par (s : State) (k : Cursor) : (s.setBc k).par = s.par := rfl
@[simp] theorem State.setBc_cmd (s : State) (k : Cursor) : (s.setBc k).cmd = s.cmd := rfl
@[simp] theorem State.setBc_ports (s : State) (k : Cursor) : (s.setBc k).ports = s.ports := rfl
@[simp] theorem State.setBc_pending (s : State) (k : Cursor) : (s.setBc k).pending = s.pending := rfl
@[simp] theorem State.setBc_inMem (s : State) (k : Cursor) : (s.setBc k).inMem = s.inMem := rfl
@[simp] theorem State.setBc_outMem (s : State) (k : Cursor) : (s.setBc k).outMem = s.outMem := rfl
@[simp] theorem State.setBc_orch (s : State) (k : Cursor) : (s.setBc k).orch = s.orch := rfl
@[simp] theorem State.setBc_cfg (s : State) (k : Cursor) : (s.setBc k).cfg = s.cfg := rfl
@[simp] theorem State.setBc_fi (s : State) (k : Cursor) : (s.setBc k).fi = s.fi := rfl
@[simp] theorem State.setBc_res0 (s : State) (k : Cursor) : (s.setBc k).res0 = s.res0 := rfl
@[simp] theorem State.setBc_res1 (s : State) (k : Cursor) : (s.setBc k).res1 = s.res1 := rfl
@[simp] theorem State.setBc_res2 (s : State) (k : Cursor) : (s.setBc k).res2 = s.res2 := rfl
@[simp] theorem State.setBc_work (s : State) (k : Cursor) : (s.setBc k).work = { s.work with eng := { s.work.eng with bc := k } } := rfl
@[simp] theorem State.setBc_draws (s : State) (k : Cursor) : (s.setBc k).draws = s.draws := rfl

/-! ## State.setRet -/

@[simp] theorem State.setRet_par (s : State) (v : Int) : (s.setRet v).par = s.par := rfl
@[simp] theorem State.setRet_cmd (s : State) (v : Int) : (s.setRet v).cmd = s.cmd := rfl
@[simp] theorem State.setRet_ports (s : State) (v : Int) : (s.setRet v).ports = s.ports := rfl
@[simp] theorem State.setRet_pending (s : State) (v : Int) : (s.setRet v).pending = s.pending := rfl
@[simp] theorem State.setRet_inMem (s : State) (v : Int) : (s.setRet v).inMem = s.inMem := rfl
@[simp] theorem State.setRet_outMem (s : State) (v : Int) : (s.setRet v).outMem = s.outMem := rfl
@[simp] theorem State.setRet_orch (s : State) (v : Int) : (s.setRet v).orch = s.orch := rfl
@[simp] theorem State.setRet_cfg (s : State) (v : Int) : (s.setRet v).cfg = s.cfg := rfl
@[simp] theorem State.setRet_fi (s : State) (v : Int) : (s.setRet v).fi = s.fi := rfl
@[simp] theorem State.setRet_res0 (s : State) (v : Int) : (s.setRet v).res0 = s.res0 := rfl
@[simp] theorem State.setRet_res1 (s : State) (v : Int) : (s.setRet v).res1 = s.res1 := rfl
@[simp] theorem State.setRet_res2 (s : State) (v : Int) : (s.setRet v).res2 = s.res2 := rfl
@[simp] theorem State.setRet_work (s : State) (v : Int) : (s.setRet v).work = { s.work with eng := { s.work.eng with regs := { s.work.eng.regs with ret := v } } } := rfl
@[simp] theorem State.setRet_draws (s : State) (v : Int) : (s.setRet v).draws = s.draws := rfl

/-! ## State.setWindow -/

@[simp] theorem State.setWindow_par (s : State) (w : Nat) (v : Window) : (s.setWindow w v).par = s.par := rfl
@[simp] theorem State.setWindow_cmd (s : State) (w : Nat) (v : Window) : (s.setWindow w v).cmd = s.cmd := rfl
@[simp] theorem State.setWindow_ports (s : State) (w : Nat) (v : Window) : (s.setWindow w v).ports = s.ports := rfl
@[simp] theorem State.setWindow_pending (s : State) (w : Nat) (v : Window) : (s.setWindow w v).pending = s.pending := rfl
@[simp] theorem State.setWindow_inMem (s : State) (w : Nat) (v : Window) : (s.setWindow w v).inMem = s.inMem := rfl
@[simp] theorem State.setWindow_outMem (s : State) (w : Nat) (v : Window) : (s.setWindow w v).outMem = s.outMem := rfl
@[simp] theorem State.setWindow_orch (s : State) (w : Nat) (v : Window) : (s.setWindow w v).orch = s.orch := rfl
@[simp] theorem State.setWindow_cfg (s : State) (w : Nat) (v : Window) : (s.setWindow w v).cfg = s.cfg := rfl
@[simp] theorem State.setWindow_fi (s : State) (w : Nat) (v : Window) : (s.setWindow w v).fi = s.fi := rfl
@[simp] theorem State.setWindow_res0 (s : State) (w : Nat) (v : Window) : (s.setWindow w v).res0 = s.res0 := rfl
@[simp] theorem State.setWindow_res1 (s : State) (w : Nat) (v : Window) : (s.setWindow w v).res1 = s.res1 := rfl
@[simp] theorem State.setWindow_res2 (s : State) (w : Nat) (v : Window) : (s.setWindow w v).res2 = s.res2 := rfl
@[simp] theorem State.setWindow_work (s : State) (w : Nat) (v : Window) : (s.setWindow w v).work = { s.work with eng := s.work.eng.setWindow w v } := rfl
@[simp] theorem State.setWindow_draws (s : State) (w : Nat) (v : Window) : (s.setWindow w v).draws = s.draws := rfl

/-! ## State.withEngine -/

@[simp] theorem State.withEngine_par (s : State) (g : Engine) : (s.withEngine g).par = s.par := rfl
@[simp] theorem State.withEngine_cmd (s : State) (g : Engine) : (s.withEngine g).cmd = s.cmd := rfl
@[simp] theorem State.withEngine_ports (s : State) (g : Engine) : (s.withEngine g).ports = s.ports := rfl
@[simp] theorem State.withEngine_pending (s : State) (g : Engine) : (s.withEngine g).pending = s.pending := rfl
@[simp] theorem State.withEngine_inMem (s : State) (g : Engine) : (s.withEngine g).inMem = s.inMem := rfl
@[simp] theorem State.withEngine_outMem (s : State) (g : Engine) : (s.withEngine g).outMem = s.outMem := rfl
@[simp] theorem State.withEngine_orch (s : State) (g : Engine) : (s.withEngine g).orch = s.orch := rfl
@[simp] theorem State.withEngine_cfg (s : State) (g : Engine) : (s.withEngine g).cfg = s.cfg := rfl
@[simp] theorem State.withEngine_fi (s : State) (g : Engine) : (s.withEngine g).fi = s.fi := rfl
@[simp] theorem State.withEngine_res0 (s : State) (g : Engine) : (s.withEngine g).res0 = s.res0 := rfl
@[simp] theorem State.withEngine_res1 (s : State) (g : Engine) : (s.withEngine g).res1 = s.res1 := rfl
@[simp] theorem State.withEngine_res2 (s : State) (g : Engine) : (s.withEngine g).res2 = s.res2 := rfl
@[simp] theorem State.withEngine_work (s : State) (g : Engine) : (s.withEngine g).work = { s.work with eng := g } := rfl
@[simp] theorem State.withEngine_draws (s : State) (g : Engine) : (s.withEngine g).draws = s.draws := rfl

/-! ## State.presentCommand -/

@[simp] theorem State.presentCommand_par (s : State) (c : BitVec 4) (h : HostPorts) (l : List Host.Cell) : (s.presentCommand c h l).par = s.par := rfl
@[simp] theorem State.presentCommand_cmd (s : State) (c : BitVec 4) (h : HostPorts) (l : List Host.Cell) : (s.presentCommand c h l).cmd = c := rfl
@[simp] theorem State.presentCommand_ports (s : State) (c : BitVec 4) (h : HostPorts) (l : List Host.Cell) : (s.presentCommand c h l).ports = h := rfl
@[simp] theorem State.presentCommand_pending (s : State) (c : BitVec 4) (h : HostPorts) (l : List Host.Cell) : (s.presentCommand c h l).pending = s.pending := rfl
@[simp] theorem State.presentCommand_inMem (s : State) (c : BitVec 4) (h : HostPorts) (l : List Host.Cell) : (s.presentCommand c h l).inMem = s.inMem.writeAll l := rfl
@[simp] theorem State.presentCommand_outMem (s : State) (c : BitVec 4) (h : HostPorts) (l : List Host.Cell) : (s.presentCommand c h l).outMem = s.outMem := rfl
@[simp] theorem State.presentCommand_orch (s : State) (c : BitVec 4) (h : HostPorts) (l : List Host.Cell) : (s.presentCommand c h l).orch = s.orch := rfl
@[simp] theorem State.presentCommand_cfg (s : State) (c : BitVec 4) (h : HostPorts) (l : List Host.Cell) : (s.presentCommand c h l).cfg = s.cfg := rfl
@[simp] theorem State.presentCommand_fi (s : State) (c : BitVec 4) (h : HostPorts) (l : List Host.Cell) : (s.presentCommand c h l).fi = s.fi := rfl
@[simp] theorem State.presentCommand_res0 (s : State) (c : BitVec 4) (h : HostPorts) (l : List Host.Cell) : (s.presentCommand c h l).res0 = s.res0 := rfl
@[simp] theorem State.presentCommand_res1 (s : State) (c : BitVec 4) (h : HostPorts) (l : List Host.Cell) : (s.presentCommand c h l).res1 = s.res1 := rfl
@[simp] theorem State.presentCommand_res2 (s : State) (c : BitVec 4) (h : HostPorts) (l : List Host.Cell) : (s.presentCommand c h l).res2 = s.res2 := rfl
@[simp] theorem State.presentCommand_work (s : State) (c : BitVec 4) (h : HostPorts) (l : List Host.Cell) : (s.presentCommand c h l).work = s.work.returnCursor := rfl
@[simp] theorem State.presentCommand_draws (s : State) (c : BitVec 4) (h : HostPorts) (l : List Host.Cell) : (s.presentCommand c h l).draws = s.draws := rfl

/-! ## State.selectSource -/

@[simp] theorem State.selectSource_par (s : State) (b : BitSource) : (s.selectSource b).par = s.par := rfl
@[simp] theorem State.selectSource_cmd (s : State) (b : BitSource) : (s.selectSource b).cmd = s.cmd := rfl
@[simp] theorem State.selectSource_ports (s : State) (b : BitSource) : (s.selectSource b).ports = s.ports := rfl
@[simp] theorem State.selectSource_pending (s : State) (b : BitSource) : (s.selectSource b).pending = s.pending := rfl
@[simp] theorem State.selectSource_inMem (s : State) (b : BitSource) : (s.selectSource b).inMem = s.inMem := rfl
@[simp] theorem State.selectSource_outMem (s : State) (b : BitSource) : (s.selectSource b).outMem = s.outMem := rfl
@[simp] theorem State.selectSource_orch (s : State) (b : BitSource) : (s.selectSource b).orch = s.orch := rfl
@[simp] theorem State.selectSource_cfg (s : State) (b : BitSource) : (s.selectSource b).cfg = s.cfg := rfl
@[simp] theorem State.selectSource_fi (s : State) (b : BitSource) : (s.selectSource b).fi = s.fi := rfl
@[simp] theorem State.selectSource_res0 (s : State) (b : BitSource) : (s.selectSource b).res0 = s.res0 := rfl
@[simp] theorem State.selectSource_res1 (s : State) (b : BitSource) : (s.selectSource b).res1 = s.res1 := rfl
@[simp] theorem State.selectSource_res2 (s : State) (b : BitSource) : (s.selectSource b).res2 = s.res2 := rfl
@[simp] theorem State.selectSource_work (s : State) (b : BitSource) : (s.selectSource b).work = { s.work with eng := { s.work.eng with regs := { s.work.eng.regs with source := b } } } := rfl
@[simp] theorem State.selectSource_draws (s : State) (b : BitSource) : (s.selectSource b).draws = s.draws := rfl

/-! ## abandon -/

@[simp] theorem abandon_par (c : Cause) (w : Work) (s : State) : (abandon c w s).par = s.par := rfl
@[simp] theorem abandon_cmd (c : Cause) (w : Work) (s : State) : (abandon c w s).cmd = s.cmd := rfl
@[simp] theorem abandon_ports (c : Cause) (w : Work) (s : State) : (abandon c w s).ports = s.ports := rfl
@[simp] theorem abandon_pending (c : Cause) (w : Work) (s : State) : (abandon c w s).pending = s.pending := rfl
@[simp] theorem abandon_inMem (c : Cause) (w : Work) (s : State) : (abandon c w s).inMem = s.inMem := rfl
@[simp] theorem abandon_outMem (c : Cause) (w : Work) (s : State) : (abandon c w s).outMem = s.outMem := rfl
@[simp] theorem abandon_orch (c : Cause) (w : Work) (s : State) : (abandon c w s).orch = s.orch := rfl
@[simp] theorem abandon_cfg (c : Cause) (w : Work) (s : State) : (abandon c w s).cfg = s.cfg := rfl
@[simp] theorem abandon_fi (c : Cause) (w : Work) (s : State) : (abandon c w s).fi = abandonInfo s.par c s.work.frm.hdrBytes := rfl
@[simp] theorem abandon_res0 (c : Cause) (w : Work) (s : State) : (abandon c w s).res0 = s.res0 := rfl
@[simp] theorem abandon_res1 (c : Cause) (w : Work) (s : State) : (abandon c w s).res1 = s.res1 := rfl
@[simp] theorem abandon_res2 (c : Cause) (w : Work) (s : State) : (abandon c w s).res2 = s.res2 := rfl
@[simp] theorem abandon_work (c : Cause) (w : Work) (s : State) : (abandon c w s).work = 
    { eng := { bc := Cursor.none, bw := w.eng.bw, regs := freeRegs s.draws }
      frm := Frame.none
      ds := abandonDs s.par s.work.ds w.ds
      sc := s.work.sc } := rfl
@[simp] theorem abandon_draws (c : Cause) (w : Work) (s : State) : (abandon c w s).draws = s.draws + 1 := rfl

/-! ## refuseRes -/

@[simp] theorem refuseRes_par (c : Cause) (s : State) : (refuseRes c s).par = s.par := rfl
@[simp] theorem refuseRes_cmd (c : Cause) (s : State) : (refuseRes c s).cmd = s.cmd := rfl
@[simp] theorem refuseRes_ports (c : Cause) (s : State) : (refuseRes c s).ports = s.ports := rfl
@[simp] theorem refuseRes_pending (c : Cause) (s : State) : (refuseRes c s).pending = s.pending := rfl
@[simp] theorem refuseRes_inMem (c : Cause) (s : State) : (refuseRes c s).inMem = s.inMem := rfl
@[simp] theorem refuseRes_outMem (c : Cause) (s : State) : (refuseRes c s).outMem = s.outMem := rfl
@[simp] theorem refuseRes_orch (c : Cause) (s : State) : (refuseRes c s).orch = s.orch := rfl
@[simp] theorem refuseRes_cfg (c : Cause) (s : State) : (refuseRes c s).cfg = s.cfg := rfl
@[simp] theorem refuseRes_fi (c : Cause) (s : State) : (refuseRes c s).fi = s.fi := rfl
@[simp] theorem refuseRes_res0 (c : Cause) (s : State) : (refuseRes c s).res0 = negError s.par c := rfl
@[simp] theorem refuseRes_res1 (c : Cause) (s : State) : (refuseRes c s).res1 = s.res1 := rfl
@[simp] theorem refuseRes_res2 (c : Cause) (s : State) : (refuseRes c s).res2 = s.res2 := rfl
@[simp] theorem refuseRes_work (c : Cause) (s : State) : (refuseRes c s).work = s.work := rfl
@[simp] theorem refuseRes_draws (c : Cause) (s : State) : (refuseRes c s).draws = s.draws := rfl

/-! ## setConfigState -/

@[simp] theorem setConfigState_par (s : State) : (setConfigState s).par = s.par := rfl
@[simp] theorem setConfigState_cmd (s : State) : (setConfigState s).cmd = s.cmd := rfl
@[simp] theorem setConfigState_ports (s : State) : (setConfigState s).ports = s.ports := rfl
@[simp] theorem setConfigState_pending (s : State) : (setConfigState s).pending = s.pending := rfl
@[simp] theorem setConfigState_inMem (s : State) : (setConfigState s).inMem = s.inMem := rfl
@[simp] theorem setConfigState_outMem (s : State) : (setConfigState s).outMem = s.outMem := rfl
@[simp] theorem setConfigState_orch (s : State) : (setConfigState s).orch = s.orch := rfl
@[simp] theorem setConfigState_cfg (s : State) : (setConfigState s).cfg = s.ports.cfgw := rfl
@[simp] theorem setConfigState_fi (s : State) : (setConfigState s).fi = s.fi := rfl
@[simp] theorem setConfigState_res0 (s : State) : (setConfigState s).res0 = 1 := rfl
@[simp] theorem setConfigState_res1 (s : State) : (setConfigState s).res1 = s.res1 := rfl
@[simp] theorem setConfigState_res2 (s : State) : (setConfigState s).res2 = s.res2 := rfl
@[simp] theorem setConfigState_work (s : State) : (setConfigState s).work = { s.work with sc := defaultsFrom s.par s.ports.cfgw s.work.sc } := rfl
@[simp] theorem setConfigState_draws (s : State) : (setConfigState s).draws = s.draws := rfl

/-! ## initState -/

@[simp] theorem initState_par (r : InitResult) (w : Work) (s : State) : (initState r w s).par = s.par := rfl
@[simp] theorem initState_cmd (r : InitResult) (w : Work) (s : State) : (initState r w s).cmd = s.cmd := rfl
@[simp] theorem initState_ports (r : InitResult) (w : Work) (s : State) : (initState r w s).ports = s.ports := rfl
@[simp] theorem initState_pending (r : InitResult) (w : Work) (s : State) : (initState r w s).pending = s.pending := rfl
@[simp] theorem initState_inMem (r : InitResult) (w : Work) (s : State) : (initState r w s).inMem = s.inMem := rfl
@[simp] theorem initState_outMem (r : InitResult) (w : Work) (s : State) : (initState r w s).outMem = s.outMem := rfl
@[simp] theorem initState_orch (r : InitResult) (w : Work) (s : State) : (initState r w s).orch = .initialized := rfl
@[simp] theorem initState_cfg (r : InitResult) (w : Work) (s : State) : (initState r w s).cfg = s.cfg := rfl
@[simp] theorem initState_fi (r : InitResult) (w : Work) (s : State) : (initState r w s).fi = s.fi := rfl
@[simp] theorem initState_res0 (r : InitResult) (w : Work) (s : State) : (initState r w s).res0 = BitVec.ofNat 32 r.consumed := rfl
@[simp] theorem initState_res1 (r : InitResult) (w : Work) (s : State) : (initState r w s).res1 = BitVec.ofNat 32 r.rate := rfl
@[simp] theorem initState_res2 (r : InitResult) (w : Work) (s : State) : (initState r w s).res2 = BitVec.ofNat 32 r.channels := rfl
@[simp] theorem initState_work (r : InitResult) (w : Work) (s : State) : (initState r w s).work = w.returnCursor := rfl
@[simp] theorem initState_draws (r : InitResult) (w : Work) (s : State) : (initState r w s).draws = s.draws := rfl

/-! ## openState -/

@[simp] theorem openState_par (s : State) : (openState s).par = s.par := rfl
@[simp] theorem openState_cmd (s : State) : (openState s).cmd = s.cmd := rfl
@[simp] theorem openState_ports (s : State) : (openState s).ports = s.ports := rfl
@[simp] theorem openState_pending (s : State) : (openState s).pending = s.pending := rfl
@[simp] theorem openState_inMem (s : State) : (openState s).inMem = s.inMem := rfl
@[simp] theorem openState_outMem (s : State) : (openState s).outMem = s.outMem := rfl
@[simp] theorem openState_orch (s : State) : (openState s).orch = .opened := rfl
@[simp] theorem openState_cfg (s : State) : (openState s).cfg = s.par.cfgReset := rfl
@[simp] theorem openState_fi (s : State) : (openState s).fi = FrameInfo.zero s.par.maxChannels := rfl
@[simp] theorem openState_res0 (s : State) : (openState s).res0 = 0 := rfl
@[simp] theorem openState_res1 (s : State) : (openState s).res1 = 0 := rfl
@[simp] theorem openState_res2 (s : State) : (openState s).res2 = 0 := rfl
@[simp] theorem openState_work (s : State) : (openState s).work = 
    { eng := { bc := Cursor.none, bw := List.replicate s.par.nSeg Window.empty, regs := freeRegs s.draws }
      frm := Frame.none
      ds := openDs s.par
      sc := openStreamCfg s.par } := rfl
@[simp] theorem openState_draws (s : State) : (openState s).draws = s.draws + 1 := rfl

/-! ## beginDecode -/

@[simp] theorem beginDecode_par (s : State) : (beginDecode s).par = s.par := rfl
@[simp] theorem beginDecode_cmd (s : State) : (beginDecode s).cmd = s.cmd := rfl
@[simp] theorem beginDecode_ports (s : State) : (beginDecode s).ports = s.ports := rfl
@[simp] theorem beginDecode_pending (s : State) : (beginDecode s).pending = s.pending := rfl
@[simp] theorem beginDecode_inMem (s : State) : (beginDecode s).inMem = s.inMem := rfl
@[simp] theorem beginDecode_outMem (s : State) : (beginDecode s).outMem = s.outMem := rfl
@[simp] theorem beginDecode_orch (s : State) : (beginDecode s).orch = .decoding := rfl
@[simp] theorem beginDecode_cfg (s : State) : (beginDecode s).cfg = s.cfg := rfl
@[simp] theorem beginDecode_fi (s : State) : (beginDecode s).fi = FrameInfo.zero s.par.maxChannels := rfl
@[simp] theorem beginDecode_res0 (s : State) : (beginDecode s).res0 = s.res0 := rfl
@[simp] theorem beginDecode_res1 (s : State) : (beginDecode s).res1 = s.res1 := rfl
@[simp] theorem beginDecode_res2 (s : State) : (beginDecode s).res2 = s.res2 := rfl
@[simp] theorem beginDecode_work (s : State) : (beginDecode s).work = { s.work.returnCursor with frm := Frame.none, ds := { s.work.ds with firstElementDone := false, channelsSeen := 0, elementsSeen := 0 } } := rfl
@[simp] theorem beginDecode_draws (s : State) : (beginDecode s).draws = s.draws := rfl

/-! ## deliver -/

@[simp] theorem deliver_par (o : FrameOut) (w : Work) (s : State) : (deliver o w s).par = s.par := rfl
@[simp] theorem deliver_cmd (o : FrameOut) (w : Work) (s : State) : (deliver o w s).cmd = s.cmd := rfl
@[simp] theorem deliver_ports (o : FrameOut) (w : Work) (s : State) : (deliver o w s).ports = s.ports := rfl
@[simp] theorem deliver_pending (o : FrameOut) (w : Work) (s : State) : (deliver o w s).pending = s.pending := rfl
@[simp] theorem deliver_inMem (o : FrameOut) (w : Work) (s : State) : (deliver o w s).inMem = s.inMem := rfl
@[simp] theorem deliver_outMem (o : FrameOut) (w : Work) (s : State) : (deliver o w s).outMem = s.outMem.writeFrom s.ports.outBase o.samples := rfl
@[simp] theorem deliver_orch (o : FrameOut) (w : Work) (s : State) : (deliver o w s).orch = s.orch := rfl
@[simp] theorem deliver_cfg (o : FrameOut) (w : Work) (s : State) : (deliver o w s).cfg = s.cfg := rfl
@[simp] theorem deliver_fi (o : FrameOut) (w : Work) (s : State) : (deliver o w s).fi = frameInfo s.par o w := rfl
@[simp] theorem deliver_res0 (o : FrameOut) (w : Work) (s : State) : (deliver o w s).res0 = s.res0 := rfl
@[simp] theorem deliver_res1 (o : FrameOut) (w : Work) (s : State) : (deliver o w s).res1 = s.res1 := rfl
@[simp] theorem deliver_res2 (o : FrameOut) (w : Work) (s : State) : (deliver o w s).res2 = s.res2 := rfl
@[simp] theorem deliver_work (o : FrameOut) (w : Work) (s : State) : (deliver o w s).work = { w.returnCursor with ds := { w.ds with frame := w.ds.frame + 1, postSeek := false } } := rfl
@[simp] theorem deliver_draws (o : FrameOut) (w : Work) (s : State) : (deliver o w s).draws = s.draws := rfl

/-! ## closeState -/

@[simp] theorem closeState_par (s : State) : (closeState s).par = s.par := rfl
@[simp] theorem closeState_cmd (s : State) : (closeState s).cmd = s.cmd := rfl
@[simp] theorem closeState_ports (s : State) : (closeState s).ports = s.ports := rfl
@[simp] theorem closeState_pending (s : State) : (closeState s).pending = s.pending := rfl
@[simp] theorem closeState_inMem (s : State) : (closeState s).inMem = s.inMem := rfl
@[simp] theorem closeState_outMem (s : State) : (closeState s).outMem = s.outMem := rfl
@[simp] theorem closeState_orch (s : State) : (closeState s).orch = .closed := rfl
@[simp] theorem closeState_cfg (s : State) : (closeState s).cfg = freeCfg s.draws := rfl
@[simp] theorem closeState_fi (s : State) : (closeState s).fi = freeFi s.draws := rfl
@[simp] theorem closeState_res0 (s : State) : (closeState s).res0 = freeRes (3 * s.draws) := rfl
@[simp] theorem closeState_res1 (s : State) : (closeState s).res1 = freeRes (3 * s.draws + 1) := rfl
@[simp] theorem closeState_res2 (s : State) : (closeState s).res2 = freeRes (3 * s.draws + 2) := rfl
@[simp] theorem closeState_work (s : State) : (closeState s).work = 
    { eng := { bc := Cursor.none, bw := closedWindows s.draws s.work.eng.bw.length, regs := freeRegs s.draws }
      frm := Frame.none
      ds := freeDs s.draws
      sc := freeSc s.draws } := rfl
@[simp] theorem closeState_draws (s : State) : (closeState s).draws = s.draws + 1 := rfl

/-! ## The working state after abandonment, and what a program reads -/

@[simp] theorem Work.returnCursor_frm (w : Work) : w.returnCursor.frm = w.frm := rfl
@[simp] theorem Work.returnCursor_ds (w : Work) : w.returnCursor.ds = w.ds := rfl
@[simp] theorem Work.returnCursor_sc (w : Work) : w.returnCursor.sc = w.sc := rfl
@[simp] theorem Work.returnCursor_bc (w : Work) : w.returnCursor.eng.bc = Cursor.none := rfl
@[simp] theorem Work.returnCursor_bw (w : Work) : w.returnCursor.eng.bw = w.eng.bw := rfl
@[simp] theorem Work.returnCursor_regs (w : Work) : w.returnCursor.eng.regs = w.eng.regs := rfl
@[simp] theorem abandonDs_overlap (p : Params) (d a : DecoderState) : (abandonDs p d a).overlap = silentOverlap p := rfl
@[simp] theorem abandonDs_windowShapePrev (p : Params) (d a : DecoderState) : (abandonDs p d a).windowShapePrev = a.windowShapePrev := rfl
@[simp] theorem abandonDs_ltpHist (p : Params) (d a : DecoderState) : (abandonDs p d a).ltpHist = silentLtp p := rfl
@[simp] theorem abandonDs_ltpLagPrev (p : Params) (d a : DecoderState) : (abandonDs p d a).ltpLagPrev = d.ltpLagPrev := rfl
@[simp] theorem abandonDs_rng1 (p : Params) (d a : DecoderState) : (abandonDs p d a).rng1 = a.rng1 := rfl
@[simp] theorem abandonDs_rng2 (p : Params) (d a : DecoderState) : (abandonDs p d a).rng2 = a.rng2 := rfl
@[simp] theorem abandonDs_frame (p : Params) (d a : DecoderState) : (abandonDs p d a).frame = d.frame := rfl
@[simp] theorem abandonDs_postSeek (p : Params) (d a : DecoderState) : (abandonDs p d a).postSeek = d.postSeek := rfl
@[simp] theorem abandonDs_sbr (p : Params) (d a : DecoderState) : (abandonDs p d a).sbr = keptSbr p d.sbr a.sbr := rfl
@[simp] theorem abandonDs_sbrFree (p : Params) (d a : DecoderState) : (abandonDs p d a).sbrFree = d.sbrFree := rfl
@[simp] theorem abandonDs_firstElementDone (p : Params) (d a : DecoderState) : (abandonDs p d a).firstElementDone = d.firstElementDone := rfl
@[simp] theorem abandonDs_channelsSeen (p : Params) (d a : DecoderState) : (abandonDs p d a).channelsSeen = d.channelsSeen := rfl
@[simp] theorem abandonDs_elementsSeen (p : Params) (d a : DecoderState) : (abandonDs p d a).elementsSeen = d.elementsSeen := rfl
@[simp] theorem abandonDs_pce (p : Params) (d a : DecoderState) : (abandonDs p d a).pce = d.pce := rfl
@[simp] theorem State.env_par (s : State) : s.env.par = s.par := rfl
@[simp] theorem State.env_mem (s : State) : s.env.mem = s.inMem := rfl
@[simp] theorem State.env_cfg (s : State) : s.env.cfg = s.cfg := rfl
@[simp] theorem Engine.setWindow_bc (g : Engine) (w : Nat) (v : Window) : (g.setWindow w v).bc = g.bc := rfl
@[simp] theorem Engine.setWindow_regs (g : Engine) (w : Nat) (v : Window) : (g.setWindow w v).regs = g.regs := rfl
@[simp] theorem Engine.setWindow_bw (g : Engine) (w : Nat) (v : Window) : (g.setWindow w v).bw = g.bw.set w v := rfl

/-! ## The SBR presence policy: it writes sbr_present, ps_present and upsample alone (41_parsers.md R184, 48_orchestrator.md R407) -/

@[simp] theorem sbrPolicy_objectType (c : Cap) (g : CfgRegs) (x : SbrSignal) (sc : StreamCfg) :
    (sbrPolicy c g x sc).objectType = sc.objectType := by cases x <;> rfl
@[simp] theorem sbrPolicy_sfIndex (c : Cap) (g : CfgRegs) (x : SbrSignal) (sc : StreamCfg) :
    (sbrPolicy c g x sc).sfIndex = sc.sfIndex := by cases x <;> rfl
@[simp] theorem sbrPolicy_sampleRate (c : Cap) (g : CfgRegs) (x : SbrSignal) (sc : StreamCfg) :
    (sbrPolicy c g x sc).sampleRate = sc.sampleRate := by cases x <;> rfl
@[simp] theorem sbrPolicy_channelConfig (c : Cap) (g : CfgRegs) (x : SbrSignal) (sc : StreamCfg) :
    (sbrPolicy c g x sc).channelConfig = sc.channelConfig := by cases x <;> rfl
@[simp] theorem sbrPolicy_frameLen (c : Cap) (g : CfgRegs) (x : SbrSignal) (sc : StreamCfg) :
    (sbrPolicy c g x sc).frameLen = sc.frameLen := by cases x <;> rfl
@[simp] theorem sbrPolicy_headerType (c : Cap) (g : CfgRegs) (x : SbrSignal) (sc : StreamCfg) :
    (sbrPolicy c g x sc).headerType = sc.headerType := by cases x <;> rfl
@[simp] theorem sbrPolicy_erFlags (c : Cap) (g : CfgRegs) (x : SbrSignal) (sc : StreamCfg) :
    (sbrPolicy c g x sc).erFlags = sc.erFlags := by cases x <;> rfl
@[simp] theorem sbrPolicy_latm (c : Cap) (g : CfgRegs) (x : SbrSignal) (sc : StreamCfg) :
    (sbrPolicy c g x sc).latm = sc.latm := by cases x <;> rfl

end Sys2Proof.Machine
end

