-- ==== Sys2Proof/Laws/Memory.lean ====
section
/-! SUPPORT. The laws of the two memory spaces: every write keeps the canonical form, a read after a write gives the value
written and leaves every other address alone (20_memory.md R70). -/

namespace Sys2Proof.Machine

variable {β : Type} [DecidableEq β]

/-- An entry of a written memory is the new one or an old one. -/
theorem mem_sparseWrite {d : β} {m : List (Nat × β)} {a : Nat} {v : β} {x : Nat × β}
    (h : x ∈ sparseWrite d m a v) : x = (a, v) ∧ v ≠ d ∨ x ∈ m := by
  induction m with
  | nil =>
    simp only [sparseWrite] at h
    split at h <;> simp_all
  | cons y r ih =>
    obtain ⟨k, w⟩ := y
    simp only [sparseWrite] at h
    split at h
    · split at h
      · exact .inr h
      · rcases List.mem_cons.1 h with rfl | h
        · exact .inl ⟨rfl, ‹_›⟩
        · exact .inr h
    · split at h
      · split at h
        · exact .inr (List.mem_cons_of_mem _ h)
        · rcases List.mem_cons.1 h with rfl | h
          · exact .inl ⟨rfl, ‹_›⟩
          · exact .inr (List.mem_cons_of_mem _ h)
      · rcases List.mem_cons.1 h with rfl | h
        · exact .inr List.mem_cons_self
        · rcases ih h with h | h
          · exact .inl h
          · exact .inr (List.mem_cons_of_mem _ h)

/-- A write keeps the canonical form. -/
theorem sparseWrite_wf {d : β} {m : List (Nat × β)} (a : Nat) (v : β) (h : sparseWf d m) :
    sparseWf d (sparseWrite d m a v) := by
  induction m with
  | nil =>
    simp only [sparseWrite]
    split
    · exact h
    · exact ⟨by simp, by simpa using ‹v ≠ d›⟩
  | cons y r ih =>
    obtain ⟨k, w⟩ := y
    obtain ⟨hp, hv⟩ := h
    rw [List.pairwise_cons] at hp
    have hr : sparseWf d r := ⟨hp.2, fun x hx => hv x (List.mem_cons_of_mem _ hx)⟩
    have hw : w ≠ d := hv (k, w) List.mem_cons_self
    simp only [sparseWrite]
    split
    · rename_i hlt
      split
      · exact ⟨List.pairwise_cons.2 hp, hv⟩
      · rename_i hne
        refine ⟨List.pairwise_cons.2 ⟨?_, List.pairwise_cons.2 hp⟩, ?_⟩
        · intro x hx
          rcases List.mem_cons.1 hx with rfl | hx
          · exact hlt
          · exact Nat.lt_trans hlt (hp.1 x hx)
        · intro x hx
          rcases List.mem_cons.1 hx with rfl | hx
          · exact hne
          · exact hv x hx
    · split
      · rename_i hk
        subst hk
        split
        · exact hr
        · rename_i hne
          refine ⟨List.pairwise_cons.2 ⟨fun x hx => hp.1 x hx, hp.2⟩, ?_⟩
          intro x hx
          rcases List.mem_cons.1 hx with rfl | hx
          · exact hne
          · exact hr.2 x hx
      · rename_i hlt hk
        obtain ⟨ip, iv⟩ := ih hr
        refine ⟨List.pairwise_cons.2 ⟨?_, ip⟩, ?_⟩
        · intro x hx
          rcases mem_sparseWrite hx with ⟨rfl, -⟩ | hx
          · show k < a
            omega
          · exact hp.1 x hx
        · intro x hx
          rcases List.mem_cons.1 hx with rfl | hx
          · exact hw
          · exact iv x hx

omit [DecidableEq β] in
/-- Below every key of a memory nothing is listed. -/
theorem sparseRead_of_lt {d : β} {m : List (Nat × β)} {a : Nat} (h : ∀ x ∈ m, a < x.1) : sparseRead d m a = d := by
  induction m with
  | nil => rfl
  | cons y r ih =>
    obtain ⟨k, w⟩ := y
    have hk : a < k := h (k, w) List.mem_cons_self
    simp only [sparseRead]
    rw [if_neg (by omega)]
    exact ih (fun x hx => h x (List.mem_cons_of_mem _ hx))

/-- A read after a write. -/
theorem sparseRead_sparseWrite {d : β} {m : List (Nat × β)} (h : sparseWf d m) (a : Nat) (v : β) (b : Nat) :
    sparseRead d (sparseWrite d m a v) b = if b = a then v else sparseRead d m b := by
  induction m with
  | nil =>
    simp only [sparseWrite]
    split
    · simp_all [sparseRead]
    · simp only [sparseRead]
      by_cases hb : a = b
      · simp [hb]
      · simp [hb, Ne.symm hb]
  | cons y r ih =>
    obtain ⟨k, w⟩ := y
    obtain ⟨hp, hv⟩ := h
    rw [List.pairwise_cons] at hp
    have hr : sparseWf d r := ⟨hp.2, fun x hx => hv x (List.mem_cons_of_mem _ hx)⟩
    have below : ∀ c, c ≤ k → sparseRead d r c = d := fun c hc =>
      sparseRead_of_lt (fun x hx => Nat.lt_of_le_of_lt hc (hp.1 x hx))
    simp only [sparseWrite]
    split
    · rename_i hlt
      split
      · rename_i hd
        by_cases hb : b = a
        · subst hb
          simp only [sparseRead, if_pos]
          rw [if_neg (by omega), below b (by omega), hd]
        · rw [if_neg hb]
      · simp only [sparseRead]
        by_cases hb : b = a
        · simp [hb]
        · rw [if_neg (Ne.symm hb), if_neg hb]
    · split
      · rename_i hk
        subst hk
        split
        · rename_i hd
          by_cases hb : b = k
          · subst hb
            rw [if_pos rfl, below b (Nat.le_refl b), hd]
          · simp only [sparseRead]
            rw [if_neg hb, if_neg (Ne.symm hb)]
        · simp only [sparseRead]
          by_cases hb : b = k
          · simp [hb]
          · simp [hb, Ne.symm hb]
      · rename_i hlt hk
        simp only [sparseRead, ih hr]
        by_cases hb : k = b
        · subst hb
          rw [if_pos rfl, if_neg hk, if_pos rfl]
        · rw [if_neg hb, if_neg hb]

/-- Every store to IN keeps the canonical form. -/
theorem Memory.write_wf {m : Memory} (h : m.wf) (a : Nat) (v : Byte) : (m.write a v).wf := sparseWrite_wf a v h

theorem Memory.read_write {m : Memory} (h : m.wf) (a : Nat) (v : Byte) (b : Nat) :
    (m.write a v).read b = if b = a then v else m.read b := sparseRead_sparseWrite h a v b

theorem Memory.writeAll_wf {m : Memory} (h : m.wf) (l : List Host.Cell) : (m.writeAll l).wf := by
  induction l generalizing m with
  | nil => exact h
  | cons x r ih => exact ih (Memory.write_wf h x.1 x.2)

theorem Memory.setBit_wf {m : Memory} (h : m.wf) (base b : Nat) (v : Bool) : (m.setBit base b v).wf :=
  Memory.write_wf h _ _

theorem Memory.setBits_wf {m : Memory} (h : m.wf) (base b : Nat) (l : List Bool) : (m.setBits base b l).wf := by
  induction l generalizing m b with
  | nil => exact h
  | cons v r ih => exact ih (Memory.setBit_wf h base b v) (b + 1)

theorem SampleMemory.write_wf {m : SampleMemory} (h : m.wf) (a : Nat) (v : Rat) : (m.write a v).wf :=
  sparseWrite_wf a v h

theorem SampleMemory.read_write {m : SampleMemory} (h : m.wf) (a : Nat) (v : Rat) (b : Nat) :
    (m.write a v).read b = if b = a then v else m.read b := sparseRead_sparseWrite h a v b

theorem SampleMemory.writeFrom_wf {m : SampleMemory} (h : m.wf) (a : Nat) (l : List Rat) : (m.writeFrom a l).wf := by
  induction l generalizing m a with
  | nil => exact h
  | cons v r ih => exact ih (SampleMemory.write_wf h a v) (a + 1)

/-- What OUT holds after a run of samples: the run where it was written, else what was there. -/
theorem SampleMemory.read_writeFrom {m : SampleMemory} (h : m.wf) (a : Nat) (l : List Rat) (b : Nat) :
    (m.writeFrom a l).read b = if a ≤ b ∧ b < a + l.length then l.getD (b - a) 0 else m.read b := by
  induction l generalizing m a with
  | nil =>
    simp only [SampleMemory.writeFrom, List.length_nil, Nat.add_zero]
    rw [if_neg (by omega)]
  | cons v r ih =>
    simp only [SampleMemory.writeFrom, ih (SampleMemory.write_wf h a v), SampleMemory.read_write h,
      List.length_cons]
    by_cases h1 : b = a
    · subst h1
      rw [if_neg (by omega), if_pos rfl, if_pos (by omega)]
      simp
    · by_cases h2 : a + 1 ≤ b ∧ b < a + 1 + r.length
      · rw [if_pos h2, if_pos (by omega), show b - a = (b - (a + 1)) + 1 by omega, List.getD_cons_succ]
      · rw [if_neg h2, if_neg h1, if_neg (by omega)]

end Sys2Proof.Machine
end

