-- ==== Sys2Proof/Laws/Bits.lean ====
section
/-! SUPPORT. The laws of bit fields, of the cursor and of the windows (00_scope.md R14, 40_bitreader.md R141 to R163). -/

namespace Sys2Proof.Machine

/-! ## Bit strings as numbers -/

theorem bitsToNat_append (a b : List Bool) : bitsToNat (a ++ b) = bitsToNat a * 2 ^ b.length + bitsToNat b := by
  induction b using List.reverseRecOn with
  | nil => simp [bitsToNat]
  | append_singleton b x ih =>
    rw [← List.append_assoc]
    have step : ∀ l : List Bool, bitsToNat (l ++ [x]) = 2 * bitsToNat l + x.toNat := by
      intro l
      simp [bitsToNat, List.foldl_append]
    rw [step, step, ih]
    simp only [List.length_append, List.length_singleton, Nat.pow_succ]
    ring

theorem bitsToNat_snoc (a : List Bool) (x : Bool) : bitsToNat (a ++ [x]) = 2 * bitsToNat a + x.toNat := by
  simp [bitsToNat, List.foldl_append]

theorem bitsToNat_lt (l : List Bool) : bitsToNat l < 2 ^ l.length := by
  induction l using List.reverseRecOn with
  | nil => simp [bitsToNat]
  | append_singleton l x ih =>
    rw [bitsToNat_snoc, List.length_append, List.length_singleton, Nat.pow_succ]
    cases x <;> simp <;> omega

theorem bitList_length (m : Memory) (base b n : Nat) : (bitList m base b n).length = n := by simp [bitList]

theorem bitList_succ (m : Memory) (base b n : Nat) :
    bitList m base b (n + 1) = bitList m base b n ++ [bitAt m base (b + n)] := by
  simp [bitList, List.range_succ]

theorem bitList_cons (m : Memory) (base b n : Nat) :
    bitList m base b (n + 1) = bitAt m base b :: bitList m base (b + 1) n := by
  simp only [bitList, List.range_succ_eq_map, List.map_cons, List.map_map, Nat.add_zero, List.cons.injEq, true_and]
  apply List.map_congr_left
  intro i _
  simp only [Function.comp_apply]
  congr 1
  omega

theorem bitList_add (m : Memory) (base b n k : Nat) :
    bitList m base b (n + k) = bitList m base b n ++ bitList m base (b + n) k := by
  induction n generalizing b with
  | zero => simp [bitList]
  | succ n ih =>
    rw [show n + 1 + k = (n + k) + 1 by omega, bitList_cons, bitList_cons, ih (b + 1)]
    simp [Nat.add_assoc, Nat.add_comm 1 n]

/-- bits(b, n) is the number its bit string makes. -/
theorem bitsAt_eq (m : Memory) (base b n : Nat) : bitsAt m base b n = bitsToNat (bitList m base b n) := by
  induction n with
  | zero => simp [bitsAt, bitList, bitsToNat]
  | succ n ih => rw [bitsAt, bitList_succ, bitsToNat_snoc, ih]

theorem bitsAt_lt (m : Memory) (base b n : Nat) : bitsAt m base b n < 2 ^ n := by
  have h := bitsToNat_lt (bitList m base b n)
  rwa [bitList_length, ← bitsAt_eq] at h

/-- A field split in two. -/
theorem bitsAt_add (m : Memory) (base b n k : Nat) :
    bitsAt m base b (n + k) = bitsAt m base b n * 2 ^ k + bitsAt m base (b + n) k := by
  simp only [bitsAt_eq, bitList_add, bitsToNat_append, bitList_length]

theorem natToBits_length (n v : Nat) : (natToBits n v).length = n := by simp [natToBits]

theorem natToBits_succ (n v : Nat) : natToBits (n + 1) v = natToBits n (v / 2) ++ [v.testBit 0] := by
  simp only [natToBits, List.range_succ, List.map_append, List.map_cons, List.map_nil, Nat.add_sub_cancel,
    Nat.sub_self]
  congr 1
  apply List.map_congr_left
  intro i hi
  have hi := List.mem_range.1 hi
  rw [show n - i = (n - 1 - i) + 1 by omega, Nat.testBit_succ]

/-- A number of n bits is what its bits make. -/
theorem bitsToNat_natToBits (n v : Nat) (h : v < 2 ^ n) : bitsToNat (natToBits n v) = v := by
  induction n generalizing v with
  | zero => simp at h; subst h; rfl
  | succ n ih =>
    rw [natToBits_succ, bitsToNat_snoc, ih (v / 2) (by rw [Nat.pow_succ] at h; omega)]
    rw [Nat.testBit_zero]
    have := Nat.mod_two_eq_zero_or_one v
    rcases this with h0 | h0 <;> simp [h0] <;> omega

theorem bitsToNat_injective {a b : List Bool} (hl : a.length = b.length) (h : bitsToNat a = bitsToNat b) : a = b := by
  induction a using List.reverseRecOn generalizing b with
  | nil => exact (List.length_eq_zero_iff.1 hl.symm).symm
  | append_singleton a x ih =>
    rcases List.eq_nil_or_concat b with rfl | ⟨b', y, rfl⟩
    · simp at hl
    · simp only [List.concat_eq_append] at hl h ⊢
      rw [bitsToNat_snoc, bitsToNat_snoc] at h
      have hl' : a.length = b'.length := by simpa using hl
      have hx : x = y := by cases x <;> cases y <;> simp at h ⊢ <;> omega
      subst hx
      rw [ih hl' (by omega)]

/-- The bits a window load keeps are the bits of IN. -/
theorem natToBits_bitsAt (m : Memory) (base b n : Nat) : natToBits n (bitsAt m base b n) = bitList m base b n := by
  apply bitsToNat_injective
  · rw [natToBits_length, bitList_length]
  · rw [bitsToNat_natToBits n _ (bitsAt_lt m base b n), bitsAt_eq]

/-! ## The cursor -/

theorem Cursor.canRead_iff (c : Cursor) (n : Nat) :
    c.canRead n = true ↔ c.err = false ∧ n ≤ 32 ∧ c.pos + n ≤ c.limit := by
  simp [Cursor.canRead, and_assoc]

theorem Cursor.get_eq {c : Cursor} {n : Nat} (m : Memory) (h : c.canRead n = true) :
    c.get m n = (bitsAt m c.base c.pos n, { c with pos := c.pos + n }) := by simp [Cursor.get, h]

theorem Cursor.get_fail {c : Cursor} {n : Nat} (m : Memory) (h : c.canRead n = false) :
    c.get m n = (0, c.fail) := by simp [Cursor.get, h]

theorem Cursor.peek_eq {c : Cursor} {n : Nat} (m : Memory) (h : c.canRead n = true) :
    c.peek m n = (bitsAt m c.base c.pos n, c) := by simp [Cursor.peek, h]

theorem Cursor.flush_eq {c : Cursor} {n : Nat} (h : c.canRead n = true) :
    c.flush n = { c with pos := c.pos + n } := by simp [Cursor.flush, h]

/-- A read of n bits and a flush of n bits leave the same cursor. -/
theorem Cursor.get_snd (m : Memory) (n : Nat) (c : Cursor) : (c.get m n).2 = c.flush n := by
  unfold Cursor.get Cursor.flush
  split <;> rfl

theorem Cursor.ok_iff (c : Cursor) : c.ok = true ↔ c.pos ≤ c.limit := by simp [Cursor.ok]

theorem Cursor.fail_ok {c : Cursor} (h : c.ok = true) : c.fail.ok = true := h

theorem Cursor.get_ok {c : Cursor} (m : Memory) (n : Nat) (h : c.ok = true) : (c.get m n).2.ok = true := by
  rw [Cursor.get]
  split
  · rename_i hr
    rw [Cursor.canRead_iff] at hr
    rw [Cursor.ok_iff]
    exact hr.2.2
  · exact Cursor.fail_ok h

theorem Cursor.peek_ok {c : Cursor} (m : Memory) (n : Nat) (h : c.ok = true) : (c.peek m n).2.ok = true := by
  rw [Cursor.peek]
  split
  · exact h
  · exact Cursor.fail_ok h

theorem Cursor.flush_ok {c : Cursor} (n : Nat) (h : c.ok = true) : (c.flush n).ok = true := by
  rw [← Cursor.get_snd [] n c]
  exact Cursor.get_ok [] n h

theorem Cursor.byteAlign_ok {c : Cursor} (h : c.ok = true) : c.byteAlign.ok = true := by
  rw [Cursor.ok_iff] at h ⊢
  simp only [Cursor.byteAlign, Cursor.alignCount, Cursor.limit] at h ⊢
  split <;> omega

theorem Cursor.rewind_ok (c : Cursor) : c.rewind.ok = true := by simp [Cursor.ok_iff, Cursor.rewind]

theorem Cursor.seek_ok {c : Cursor} (b : Nat) (h : c.ok = true) : (c.seek b).ok = true := by
  rw [Cursor.seek]
  split
  · exact Cursor.fail_ok h
  · rw [Cursor.ok_iff]
    exact Nat.le_of_not_lt ‹_›

theorem Cursor.create_ok (base len : Nat) : (Cursor.create base len).ok = true := by
  simp [Cursor.ok_iff, Cursor.create]

theorem Cursor.none_ok : Cursor.none.ok = true := rfl

/-! ## The windows -/

theorem Window.ok_iff (w : Window) : w.ok = true ↔ w.bits.length ≤ 64 := by simp [Window.ok]

theorem Window.empty_ok : Window.empty.ok = true := rfl

theorem Window.consume_ok {w : Window} (n : Nat) (h : w.ok = true) : (w.consume n).ok = true := by
  rw [Window.ok_iff] at h ⊢
  unfold Window.consume
  split
  · simp
  · simp only [List.length_drop]
    omega

theorem Window.concat_ok {w : Window} (v : Window) (h : w.ok = true) : (w.concat v).ok = true := by
  rw [Window.ok_iff] at h ⊢
  unfold Window.concat
  split
  · exact h
  · simp only [List.length_append]
    omega

theorem Window.reverse_ok {w : Window} (h : w.ok = true) : w.reverse.ok = true := by
  rw [Window.ok_iff] at h ⊢
  simpa [Window.reverse] using h

theorem Window.load_ok (m : Memory) (n : Nat) (c : Cursor) : (Window.load m n c).ok = true := by
  rw [Window.ok_iff]
  unfold Window.load
  split
  · rename_i h
    rw [Cursor.canRead_iff] at h
    simp only [natToBits_length]
    omega
  · simp

theorem windowsOk_set {l : List Window} (h : windowsOk l) (i : Nat) {v : Window} (hv : v.ok = true) :
    windowsOk (l.set i v) := by
  intro w hw
  rcases List.mem_or_eq_of_mem_set hw with hw | rfl
  · exact h w hw
  · exact hv

theorem Engine.window_ok {g : Engine} (h : windowsOk g.bw) (i : Nat) : (g.window i).ok = true := by
  unfold Engine.window
  rw [List.getD_eq_getElem?_getD]
  cases hi : g.bw[i]? with
  | none => exact Window.empty_ok
  | some v => exact h v (List.mem_of_getElem? hi)

end Sys2Proof.Machine
end

