-- ==== Sys2Proof/Laws/Source.lean ====
section
/-! SUPPORT. Programs as functions of the state they run in, and what the reads of a VLC operation do to its bit source: the
laws behind every codeword, sign and escape (42_huffman_spectral.md R211 to R219). -/

namespace Sys2Proof.Machine

/-! ## Programs -/

theorem run_bind {ε σ α β : Type} (x : EStateM ε σ α) (f : α → EStateM ε σ β) (s : σ) :
    (x >>= f) s = match x s with
      | .ok a t => f a t
      | .error c t => .error c t := rfl

theorem run_pure {ε σ α : Type} (a : α) (s : σ) : (pure a : EStateM ε σ α) s = .ok a s := rfl

theorem run_bind_ok {ε σ α β : Type} {x : EStateM ε σ α} {f : α → EStateM ε σ β} {s t : σ} {a : α}
    (h : x s = .ok a t) : (x >>= f) s = f a t := by rw [run_bind, h]

theorem run_bind_error {ε σ α β : Type} {x : EStateM ε σ α} {f : α → EStateM ε σ β} {s t : σ} {c : ε}
    (h : x s = .error c t) : (x >>= f) s = .error c t := by rw [run_bind, h]

/-- The state a program leaves, whether it ends or raises. -/
def finalState {ε σ α : Type} : EStateM.Result ε σ α → σ
  | .ok _ s => s
  | .error _ s => s

/-- Where a program can end. -/
theorem bind_ok_inv {ε σ α β : Type} {x : EStateM ε σ α} {f : α → EStateM ε σ β} {s u : σ} {b : β}
    (h : (x >>= f) s = .ok b u) : ∃ a t, x s = .ok a t ∧ f a t = .ok b u := by
  rw [run_bind] at h
  cases hx : x s with
  | ok a t => exact ⟨a, t, rfl, by rwa [hx] at h⟩
  | error c t => rw [hx] at h; cases h

/-! ## Running an operation -/

theorem runWork_ok {p : Env → Wk Unit} {s : State} {w : Work} {u : Unit} (h : p s.env s.work = .ok u w) :
    runWork p s = .next { s with work := w } := by rw [runWork, h]

theorem runWork_error {p : Env → Wk Unit} {s : State} {w : Work} {c : Cause} (h : p s.env s.work = .error c w) :
    runWork p s = .next (abandon c w s) := by rw [runWork, h]

/-- Everything an operation of the block can do. -/
theorem runWork_cases (p : Env → Wk Unit) (s : State) :
    (∃ w, p s.env s.work = .ok () w ∧ runWork p s = .next { s with work := w }) ∨
      (∃ c w, p s.env s.work = .error c w ∧ runWork p s = .next (abandon c w s)) := by
  cases h : p s.env s.work with
  | ok u w => exact .inl ⟨w, rfl, runWork_ok h⟩
  | error c w => exact .inr ⟨c, w, rfl, runWork_error h⟩

theorem runLive_of_live {p : Env → Wk Unit} {s : State} (h : s.work.eng.bc.live = true) : runLive p s = runWork p s := by
  simp [runLive, h]

theorem runLive_of_dead {p : Env → Wk Unit} {s : State} (h : s.work.eng.bc.live = false) :
    runLive p s = .fault .noCursor := by simp [runLive, h]

/-- A VLC operation inside Work: only the engine can change. -/
theorem ofVx_ok {α : Type} {p : Vx α} {w : Work} {g : Engine} {a : α} (h : p w.eng = .ok a g) :
    Wk.ofVx p w = .ok a { w with eng := g } := by rw [Wk.ofVx, h]

theorem ofVx_error {α : Type} {p : Vx α} {w : Work} {g : Engine} {c : Cause} (h : p w.eng = .error c g) :
    Wk.ofVx p w = .error c { w with eng := g } := by rw [Wk.ofVx, h]

theorem vxOfRd_ok {α : Type} {p : Rd α} {g : Engine} {k : Cursor} {a : α} (h : p g.bc = .ok a k) :
    Vx.ofRd p g = .ok a { g with bc := k } := by rw [Vx.ofRd, h]

theorem vxOfRd_error {α : Type} {p : Rd α} {g : Engine} {k : Cursor} {c : Cause} (h : p g.bc = .error c k) :
    Vx.ofRd p g = .error c { g with bc := k } := by rw [Vx.ofRd, h]

theorem wkOfRd_ok {α : Type} {p : Rd α} {w : Work} {k : Cursor} {a : α} (h : p w.eng.bc = .ok a k) :
    Wk.ofRd p w = .ok a { w with eng := { w.eng with bc := k } } := ofVx_ok (vxOfRd_ok h)

theorem wkOfRd_error {α : Type} {p : Rd α} {w : Work} {k : Cursor} {c : Cause} (h : p w.eng.bc = .error c k) :
    Wk.ofRd p w = .error c { w with eng := { w.eng with bc := k } } := ofVx_error (vxOfRd_error h)

/-- runBits of a program that ends, its source existing. -/
theorem runBits_ok {p : Env → Vx Unit} {s : State} {g : Engine} (hr : s.sourceReady = true)
    (h : p s.env s.work.eng = .ok () g) : runBits p s = .next (s.withEngine g) := by
  unfold State.sourceReady at hr
  unfold runBits
  cases hs : s.work.eng.regs.source with
  | main =>
    rw [hs] at hr
    simp only
    rw [runLive_of_live hr]
    exact runWork_ok (ofVx_ok h)
  | window w =>
    rw [hs, Bool.and_eq_true, decide_eq_true_eq] at hr
    simp only
    rw [if_neg (by omega), runLive_of_live hr.1]
    exact runWork_ok (ofVx_ok h)

/-- runBits of a program that raises. -/
theorem runBits_error {p : Env → Vx Unit} {s : State} {g : Engine} {c : Cause} (hr : s.sourceReady = true)
    (h : p s.env s.work.eng = .error c g) : runBits p s = .next (abandon c { s.work with eng := g } s) := by
  unfold State.sourceReady at hr
  unfold runBits
  cases hs : s.work.eng.regs.source with
  | main =>
    rw [hs] at hr
    simp only
    rw [runLive_of_live hr]
    exact runWork_error (ofVx_error h)
  | window w =>
    rw [hs, Bool.and_eq_true, decide_eq_true_eq] at hr
    simp only
    rw [if_neg (by omega), runLive_of_live hr.1]
    exact runWork_error (ofVx_error h)

/-! ## The bit source -/

@[simp] theorem Engine.setRegs_regs (g : Engine) (r : VlcRegs) : (g.setRegs r).regs = r := rfl
@[simp] theorem Engine.setRegs_bc (g : Engine) (r : VlcRegs) : (g.setRegs r).bc = g.bc := rfl
@[simp] theorem Engine.setRegs_bw (g : Engine) (r : VlcRegs) : (g.setRegs r).bw = g.bw := rfl
@[simp] theorem Engine.setRegs_setRegs (g : Engine) (r r' : VlcRegs) : (g.setRegs r).setRegs r' = g.setRegs r' := rfl

theorem setRegs_run (f : VlcRegs → VlcRegs) (g : Engine) : Vx.setRegs f g = .ok () (g.setRegs (f g.regs)) := rfl
theorem regs_run (g : Engine) : Vx.regs g = .ok g.regs g := rfl

@[simp] theorem Engine.afterBits_regs (n : Nat) (g : Engine) : (g.afterBits n).regs = g.regs := by
  unfold Engine.afterBits
  split <;> rfl

theorem Engine.setRegs_self (g : Engine) : g.setRegs g.regs = g := rfl

theorem Engine.sourceBits_setRegs (m : Memory) (g : Engine) (r : VlcRegs) (h : r.source = g.regs.source) :
    (g.setRegs r).sourceBits m = g.sourceBits m := by
  unfold Engine.sourceBits
  simp only [Engine.setRegs_regs, h]
  rfl

theorem Engine.afterBits_setRegs (n : Nat) (g : Engine) (r : VlcRegs) (h : r.source = g.regs.source) :
    (g.setRegs r).afterBits n = (g.afterBits n).setRegs r := by
  unfold Engine.afterBits
  simp only [Engine.setRegs_regs, h]
  split <;> rfl

theorem Engine.afterBits_zero (g : Engine) : g.afterBits 0 = g := by
  unfold Engine.afterBits
  split
  · simp
  · rename_i w _
    simp only [List.drop_zero]
    show g.setWindow w (g.window w) = g
    unfold Engine.setWindow Engine.window
    rw [List.getD_eq_getElem?_getD]
    cases hw : g.bw[w]? with
    | none =>
      rw [List.set_eq_of_length_le (List.getElem?_eq_none_iff.1 hw)]
    | some v =>
      obtain ⟨hlt, hv⟩ := List.getElem?_eq_some_iff.1 hw
      subst hv
      simp

theorem Engine.afterBits_add (n k : Nat) (g : Engine) : (g.afterBits n).afterBits k = g.afterBits (n + k) := by
  have hr : (g.afterBits n).regs.source = g.regs.source := by rw [Engine.afterBits_regs]
  cases hs : g.regs.source with
  | main => simp [Engine.afterBits, hs, Nat.add_assoc]
  | window w =>
    simp only [Engine.afterBits, hs, Engine.setWindow, Engine.window]
    by_cases hw : w < g.bw.length
    · simp [List.getD_eq_getElem?_getD, hw]
    · have hle := Nat.le_of_not_lt hw
      simp [List.getD_eq_getElem?_getD, hle, Window.empty]

/-- The bits left after some of them. -/
theorem Engine.sourceBits_afterBits (m : Memory) (n : Nat) (g : Engine) (h : n ≤ (g.sourceBits m).length) :
    (g.afterBits n).sourceBits m = (g.sourceBits m).drop n := by
  cases hs : g.regs.source with
  | main =>
    simp only [Engine.sourceBits, Engine.afterBits, hs] at h ⊢
    by_cases he : g.bc.err = true
    · simp [he]
    · simp only [he] at h ⊢
      simp only [Bool.false_eq_true, if_false] at h ⊢
      rw [bitList_length] at h
      have hl : g.bc.bitsLeft = n + (g.bc.bitsLeft - n) := by omega
      rw [hl, bitList_add, List.drop_left' (bitList_length ..)]
      show bitList m g.bc.base (g.bc.pos + n) _ = _
      congr 1
      simp only [Cursor.bitsLeft, Cursor.limit]
      omega
  | window w =>
    simp only [Engine.sourceBits, Engine.afterBits, hs, Engine.setWindow_regs] at h ⊢
    by_cases hw : w < g.bw.length
    · simp [Engine.window, Engine.setWindow, List.getD_eq_getElem?_getD, hw]
    · have hle := Nat.le_of_not_lt hw
      simp [Engine.window, Engine.setWindow, List.getD_eq_getElem?_getD, hle, Window.empty]

/-- A read of the bits l that the source holds next. -/
theorem getN_eq {e : Env} {g : Engine} {l r : List Bool} (h : g.sourceBits e.mem = l ++ r) (hne : l ≠ [])
    (hl : l.length ≤ 32) : Vx.getN e l.length g = .ok (bitsToNat l) (g.afterBits l.length) := by
  have hb := congrArg List.length h
  rw [List.length_append] at hb
  have hpos : 0 < l.length := List.length_pos_iff.2 hne
  cases hs : g.regs.source with
  | main =>
    simp only [Engine.sourceBits, hs] at h hb
    by_cases he : g.bc.err = true
    · simp [he] at h
      exact absurd h.1 hne
    · simp only [he, Bool.false_eq_true, if_false] at h hb
      rw [bitList_length] at hb
      have hc : g.bc.canRead l.length = true := by
        rw [Cursor.canRead_iff]
        refine ⟨by simpa using he, hl, ?_⟩
        simp only [Cursor.bitsLeft] at hb
        omega
      have hlist : bitList e.mem g.bc.base g.bc.pos l.length = l := by
        rw [show g.bc.bitsLeft = l.length + r.length from hb, bitList_add] at h
        exact (List.append_inj h (bitList_length ..)).1
      simp only [Vx.getN, hs, Engine.afterBits]
      rw [vxOfRd_ok (show Rd.get e l.length g.bc = .ok _ _ from rfl), Cursor.get_eq e.mem hc, bitsAt_eq, hlist]
  | window w =>
    simp only [Engine.sourceBits, hs] at h hb
    simp only [Vx.getN, hs, Engine.afterBits, Window.peek, Window.consume]
    rw [if_neg (by omega), if_neg (by omega), h]
    simp

theorem get1_eq {e : Env} {g : Engine} {b : Bool} {r : List Bool} (h : g.sourceBits e.mem = b :: r) :
    Vx.get1 e g = .ok b (g.afterBits 1) := by
  have h1 : Vx.getN e 1 g = .ok (bitsToNat [b]) (g.afterBits 1) :=
    getN_eq (l := [b]) (r := r) h (by simp) (by simp)
  rw [Vx.get1, run_bind_ok h1, run_pure]
  cases b <;> rfl

theorem sourceBits_after {m : Memory} {g : Engine} {l r : List Bool} (h : g.sourceBits m = l ++ r) :
    (g.afterBits l.length).sourceBits m = r := by
  rw [Engine.sourceBits_afterBits m _ g (by rw [h, List.length_append]; omega), h, List.drop_left]

/-! ## Codewords (R211) -/

theorem maxCodeLen_le {b : Book} {en : Entry} (h : en ∈ b) : en.code.length ≤ maxCodeLen b := by
  induction b with
  | nil => cases h
  | cons x r ih =>
    simp only [maxCodeLen, List.foldr_cons]
    rcases List.mem_cons.1 h with rfl | h
    · omega
    · exact Nat.le_trans (ih h) (Nat.le_max_right _ _)

/-- No entry of a prefix-free book is found before a codeword is complete. -/
theorem findEntry_proper {b : Book} {en : Entry} {s t : List Bool} (hp : b.prefixFree) (h : en ∈ b)
    (hc : en.code = s ++ t) (ht : t ≠ []) : findEntry b s = none := by
  rw [findEntry, List.find?_eq_none]
  intro x hx hxs
  have hxs : x.code = s := by simpa using hxs
  have hsub : ∀ {l : Book}, l.prefixFree → en ∈ l → x ∈ l → False := by
    intro l
    induction l with
    | nil => intro _ h; cases h
    | cons y r ih =>
      intro hp he hx
      simp only [Book.prefixFree, Book.codes, List.map_cons, List.pairwise_cons] at hp
      rcases List.mem_cons.1 he with he | he <;> rcases List.mem_cons.1 hx with hx | hx
      · rw [← he] at hx
        rw [hx, hc] at hxs
        have := congrArg List.length hxs
        rw [List.length_append] at this
        exact ht (List.length_eq_zero_iff.1 (by omega))
      · have := (hp.1 x.code (List.mem_map_of_mem hx)).2
        rw [← he] at this
        exact this ⟨t, by rw [hc, hxs]⟩
      · have := (hp.1 en.code (List.mem_map_of_mem he)).1
        rw [← hx] at this
        exact this ⟨t, by rw [hc, hxs]⟩
      · exact ih hp.2 he hx
  exact hsub hp h hx

/-- A complete codeword of a prefix-free book is found. -/
theorem findEntry_code {b : Book} {en : Entry} (hp : b.prefixFree) (h : en ∈ b) : findEntry b en.code = some en := by
  induction b with
  | nil => cases h
  | cons x r ih =>
    simp only [Book.prefixFree, Book.codes, List.map_cons, List.pairwise_cons] at hp
    simp only [findEntry, List.find?_cons]
    by_cases hx : x.code = en.code
    · rcases List.mem_cons.1 h with he | he
      · simp [hx, he]
      · exact absurd (hx ▸ List.prefix_refl x.code) (hp.1 en.code (List.mem_map_of_mem he)).1
    · rcases List.mem_cons.1 h with he | he
      · exact absurd (he ▸ rfl) hx
      · have : (x.code == en.code) = false := by simpa using hx
        rw [this]
        exact ih hp.2 he

theorem codewordWalk_eq {e : Env} {book : Book} {miss : Cause} {en : Entry} {r : List Bool} (hp : book.prefixFree)
    (he : en ∈ book) :
    ∀ (t s : List Bool) (k : Nat) (g : Engine), en.code = s ++ t → t ≠ [] → t.length ≤ k →
      g.sourceBits e.mem = t ++ r →
      codewordWalk e book miss k s g =
        .ok en.value ((g.afterBits t.length).setRegs { g.regs with cwLen := en.code.length }) := by
  intro t
  induction t with
  | nil => intro s k g _ h; exact absurd rfl h
  | cons b t ih =>
    intro s k g hc _ hk hg
    obtain ⟨k, rfl⟩ : ∃ j, k = j + 1 := ⟨k - 1, by simp at hk; omega⟩
    have h1 := get1_eq (e := e) (show g.sourceBits e.mem = b :: (t ++ r) from hg)
    simp only [codewordWalk]
    rw [run_bind_ok h1]
    have hc' : en.code = (s ++ [b]) ++ t := by simpa using hc
    by_cases ht : t = []
    · subst ht
      rw [List.append_nil] at hc'
      rw [← hc', findEntry_code hp he]
      show EStateM.Result.ok en.value
        ((g.afterBits 1).setRegs { (g.afterBits 1).regs with cwLen := en.code.length }) = _
      rw [Engine.afterBits_regs]
      rfl
    · rw [findEntry_proper hp he hc' ht]
      have hlen : ¬ maxCodeLen book ≤ (s ++ [b]).length := by
        have := maxCodeLen_le he
        have h2 := congrArg List.length hc'
        rw [List.length_append] at h2
        have := List.length_pos_iff.2 ht
        omega
      simp only [hlen, if_false]
      have hg' : (g.afterBits 1).sourceBits e.mem = t ++ r := sourceBits_after (l := [b]) hg
      rw [ih (s ++ [b]) k (g.afterBits 1) hc' ht (by simpa using hk) hg', Engine.afterBits_add]
      simp [Nat.add_comm]

/-- CODEWORD on the code of an entry: its value, its bits consumed, its length recorded. -/
theorem codeword_eq {e : Env} {book : Book} {miss : Cause} {en : Entry} {g : Engine} {r : List Bool}
    (hp : book.prefixFree) (he : en ∈ book) (hne : en.code ≠ []) (hg : g.sourceBits e.mem = en.code ++ r) :
    codeword e book miss g =
      .ok en.value ((g.afterBits en.code.length).setRegs { g.regs with cwLen := en.code.length }) :=
  codewordWalk_eq hp he en.code [] _ g rfl hne (by have := maxCodeLen_le he; omega) hg

/-- A table miss: enough bits, and no entry begins them. -/
theorem codewordWalk_miss {e : Env} {book : Book} {miss : Cause} :
    ∀ (t s : List Bool) (k : Nat) (g : Engine) (r : List Bool), (s ++ t).length = maxCodeLen book → t ≠ [] →
      t.length ≤ k → g.sourceBits e.mem = t ++ r → (∀ x ∈ book, ¬ x.code <+: s ++ t) →
      ∃ g', codewordWalk e book miss k s g = .error (adjust g'.bc.err miss) g' ∧ g' = g.afterBits t.length := by
  intro t
  induction t with
  | nil => intro s k g r _ h; exact absurd rfl h
  | cons b t ih =>
    intro s k g r hlen _ hk hg hno
    obtain ⟨k, rfl⟩ : ∃ j, k = j + 1 := ⟨k - 1, by simp at hk; omega⟩
    have h1 := get1_eq (e := e) (show g.sourceBits e.mem = b :: (t ++ r) from hg)
    have hsplit : s ++ b :: t = (s ++ [b]) ++ t := by simp
    simp only [codewordWalk]
    rw [run_bind_ok h1]
    have hf : findEntry book (s ++ [b]) = none := by
      rw [findEntry, List.find?_eq_none]
      intro x hx hxs
      apply hno x hx
      rw [hsplit]
      have : x.code = s ++ [b] := by simpa using hxs
      rw [this]
      exact List.prefix_append _ _
    rw [hf]
    by_cases ht : t = []
    · subst ht
      have : maxCodeLen book ≤ (s ++ [b]).length := by rw [← hlen]
      simp only [this, if_true]
      exact ⟨g.afterBits 1, rfl, rfl⟩
    · have hnot : ¬ maxCodeLen book ≤ (s ++ [b]).length := by
        have := List.length_pos_iff.2 ht
        rw [← hlen, hsplit, List.length_append]
        omega
      simp only [hnot, if_false]
      obtain ⟨g', hg', rfl⟩ := ih (s ++ [b]) k (g.afterBits 1) r (by rw [← hsplit]; exact hlen) ht (by simpa using hk)
        (sourceBits_after (l := [b]) hg) (by rw [← hsplit]; exact hno)
      refine ⟨_, hg', ?_⟩
      rw [Engine.afterBits_add]
      simp [Nat.add_comm]

/-- CODEWORD on bits no entry begins: the cause of a miss, after as many bits as the longest code has. -/
theorem codeword_miss {e : Env} {book : Book} {miss : Cause} {g : Engine} {t r : List Bool}
    (hlen : t.length = maxCodeLen book) (hne : t ≠ []) (hg : g.sourceBits e.mem = t ++ r)
    (hno : ∀ x ∈ book, ¬ x.code <+: t) :
    codeword e book miss g =
      .error (adjust (g.afterBits t.length).bc.err miss) (g.afterBits t.length) := by
  obtain ⟨g', h, rfl⟩ := codewordWalk_miss (miss := miss) t [] (maxCodeLen book + 1) g r hlen hne (by omega) hg hno
  exact h

/-! ## Signs (R218) -/

theorem setQ_source (r : VlcRegs) (j : Nat) (v : Int) : (r.setQ j v).source = r.source := by
  unfold VlcRegs.setQ
  split <;> rfl

theorem setQ_q (r : VlcRegs) (j k : Nat) (v : Int) (hj : j < 4) (hk : k < 4) :
    (r.setQ j v).q k = if k = j then v else r.q k := by
  match j, hj, k, hk with
  | 0, _, 0, _ | 0, _, 1, _ | 0, _, 2, _ | 0, _, 3, _ => rfl
  | 1, _, 0, _ | 1, _, 1, _ | 1, _, 2, _ | 1, _, 3, _ => rfl
  | 2, _, 0, _ | 2, _, 1, _ | 2, _, 2, _ | 2, _, 3, _ => rfl
  | 3, _, 0, _ | 3, _, 1, _ | 3, _, 2, _ | 3, _, 3, _ => rfl

theorem setQ_self (r : VlcRegs) (j : Nat) : r.setQ j (r.q j) = r := by
  match j with
  | 0 | 1 | 2 => rfl
  | _ + 3 => rfl

theorem sgnLane_zero {e : Env} {g : Engine} {j : Nat} (h : g.regs.q j = 0) : sgnLane e j g = .ok () g := by
  rw [sgnLane, run_bind_ok (regs_run g), if_pos h]
  rfl

theorem sgnLane_sign {e : Env} {g : Engine} {j : Nat} {b : Bool} {r : List Bool} (h : g.regs.q j ≠ 0)
    (hg : g.sourceBits e.mem = b :: r) :
    sgnLane e j g = .ok () ((g.afterBits 1).setRegs
      (g.regs.setQ j (if b then - g.regs.q j else g.regs.q j))) := by
  rw [sgnLane, run_bind_ok (regs_run g), if_neg h, run_bind_ok (get1_eq hg)]
  cases b
  · simp only [Bool.false_eq_true, if_false, run_pure, setQ_self]
    rw [← Engine.afterBits_regs 1 g, Engine.setRegs_self]
  · simp only [if_true, setRegs_run, Engine.afterBits_regs]

/-- Values written to the lanes from j on. -/
def setLanes (r : VlcRegs) (j : Nat) : List Int → VlcRegs
  | [] => r
  | v :: t => setLanes (r.setQ j v) (j + 1) t

/-- The n lanes from j on. -/
def lanesFrom (r : VlcRegs) (j n : Nat) : List Int := (List.range n).map (fun i => r.q (j + i))

theorem lanesFrom_succ (r : VlcRegs) (j n : Nat) : lanesFrom r j (n + 1) = r.q j :: lanesFrom r (j + 1) n := by
  simp only [lanesFrom, List.range_succ_eq_map, List.map_cons, List.map_map, Nat.add_zero, List.cons.injEq, true_and]
  apply List.map_congr_left
  intro i _
  simp only [Function.comp_apply]
  congr 1
  omega

theorem lanesFrom_setQ (r : VlcRegs) (j n : Nat) (v : Int) (h : j + 1 + n ≤ 4) :
    lanesFrom (r.setQ j v) (j + 1) n = lanesFrom r (j + 1) n := by
  apply List.map_congr_left
  intro i hi
  have := List.mem_range.1 hi
  rw [setQ_q _ _ _ _ (by omega) (by omega), if_neg (by omega)]

theorem setLanes_source (r : VlcRegs) (j : Nat) (l : List Int) : (setLanes r j l).source = r.source := by
  induction l generalizing r j with
  | nil => rfl
  | cons v t ih => rw [setLanes, ih, setQ_source]

/-- SGN over lanes j to j + n - 1: one bit for each value that is not 0, in tuple order. -/
theorem sgnFrom_eq {e : Env} (n : Nat) : ∀ (j : Nat) (g : Engine) (signs r : List Bool), j + n ≤ 4 →
    signs.length = signCount (lanesFrom g.regs j n) → g.sourceBits e.mem = signs ++ r →
    sgnFrom e j n g = .ok () ((g.afterBits signs.length).setRegs
      (setLanes g.regs j (applySigns (lanesFrom g.regs j n) signs))) := by
  induction n with
  | zero =>
    intro j g signs r _ hl _
    have : signs = [] := List.length_eq_zero_iff.1 (by simpa [lanesFrom, signCount] using hl)
    subst this
    rw [List.length_nil, Engine.afterBits_zero]
    rfl
  | succ n ih =>
    intro j g signs r hj hl hg
    rw [lanesFrom_succ] at hl ⊢
    by_cases hz : g.regs.q j = 0
    · rw [sgnFrom, run_bind_ok (sgnLane_zero hz)]
      have hl' : signs.length = signCount (lanesFrom g.regs (j + 1) n) := by
        simpa [signCount, hz] using hl
      rw [ih (j + 1) g signs r (by omega) hl' hg]
      simp only [applySigns, hz, if_true, setLanes]
      have : g.regs.setQ j 0 = g.regs := by rw [← hz, setQ_self]
      rw [this]
    · have hc : signCount (g.regs.q j :: lanesFrom g.regs (j + 1) n) =
          signCount (lanesFrom g.regs (j + 1) n) + 1 := by simp [signCount, hz]
      rw [hc] at hl
      cases signs with
      | nil => simp at hl
      | cons b signs =>
        have hs := setQ_source g.regs j (if b then - g.regs.q j else g.regs.q j)
        have hla := lanesFrom_setQ g.regs j n (if b then - g.regs.q j else g.regs.q j) (by omega)
        rw [sgnFrom, run_bind_ok (sgnLane_sign hz (show g.sourceBits e.mem = b :: (signs ++ r) from hg))]
        have hg' : Engine.sourceBits e.mem ((g.afterBits 1).setRegs
            (g.regs.setQ j (if b then - g.regs.q j else g.regs.q j))) = signs ++ r := by
          rw [Engine.sourceBits_setRegs _ _ _ (by rw [hs, Engine.afterBits_regs])]
          exact sourceBits_after (l := [b]) hg
        rw [ih (j + 1) _ signs r (by omega) (by simpa [hla] using hl) hg',
          Engine.afterBits_setRegs _ _ _ (by rw [hs, Engine.afterBits_regs]), Engine.afterBits_add]
        simp only [Engine.setRegs_regs, Engine.setRegs_setRegs, hla, applySigns, hz, if_false, setLanes,
          List.length_cons, Nat.add_comm 1]

theorem applySigns_length (l : List Int) (s : List Bool) : (applySigns l s).length = l.length := by
  induction l generalizing s with
  | nil => rfl
  | cons v r ih =>
    simp only [applySigns]
    split
    · simp [ih]
    · split <;> simp [ih]

theorem setLanes_pair (r : VlcRegs) (l : List Int) (h : l.length = 2) : setLanes r 0 l = r.setPair l := by
  match l, h with
  | [a, b], _ => rfl

theorem setLanes_quad (r : VlcRegs) (l : List Int) (h : l.length = 4) : setLanes r 0 l = r.setQuad l := by
  match l, h with
  | [a, b, c, d], _ => rfl

/-! ## Escapes (R219) -/

/-- The unary prefix: k ones and a zero. -/
theorem escPrefix_eq {e : Env} : ∀ (k f n : Nat) (g : Engine) (r : List Bool), k < f → n + k ≤ e.par.escMaxN →
    g.sourceBits e.mem = List.replicate k true ++ false :: r →
    escPrefix e f n g = .ok (n + k) (g.afterBits (k + 1)) := by
  intro k
  induction k with
  | zero =>
    intro f n g r hf hn hg
    obtain ⟨f, rfl⟩ : ∃ j, f = j + 1 := ⟨f - 1, by omega⟩
    rw [escPrefix, run_bind_ok (get1_eq (show g.sourceBits e.mem = false :: r from hg))]
    rfl
  | succ k ih =>
    intro f n g r hf hn hg
    obtain ⟨f, rfl⟩ : ∃ j, f = j + 1 := ⟨f - 1, by omega⟩
    have hg1 : g.sourceBits e.mem = true :: (List.replicate k true ++ false :: r) := by
      simpa [List.replicate_succ] using hg
    rw [escPrefix, run_bind_ok (get1_eq hg1)]
    simp only [if_true]
    rw [if_neg (by omega), ih f (n + 1) (g.afterBits 1) r (by omega) (by omega) (sourceBits_after (l := [true]) hg1),
      Engine.afterBits_add]
    congr 1
    · omega
    · congr 1
      omega

/-- ESC i on a value that is no escape. -/
theorem escOp_none {e : Env} {g : Engine} {i : Nat} (h : |g.regs.q i| ≠ 16) : escOp e i g = .ok () g := by
  rw [escOp, run_bind_ok (regs_run g)]
  simp [isEscape, h, run_pure]

theorem escapeBits_length {n off : Nat} (h : 4 ≤ n) : (escapeBits n off).length = n - 3 + n := by
  simp [escapeBits, natToBits_length]
  omega

/-- The magnitude an escape gives a value of sign s. -/
theorem escape_sign {v : Int} {x : Nat} (h : |v| = 16) :
    Int.sign v * (x : Int) = if v < 0 then -(x : Int) else (x : Int) := by
  rcases (abs_eq (by norm_num : (0 : Int) ≤ 16)).1 h with h | h <;> subst h
  · rw [show Int.sign (16 : Int) = 1 from rfl]
    simp
  · rw [show Int.sign (-16 : Int) = -1 from rfl]
    simp

/-- ESC i on an escape: the sign of the value, the magnitude 2^N + offset. -/
theorem escOp_eq {e : Env} {g : Engine} {i n off : Nat} {r : List Bool} (h : |g.regs.q i| = 16) (h4 : 4 ≤ n)
    (hn : n ≤ e.par.escMaxN) (h32 : n ≤ 32) (ho : off < 2 ^ n)
    (hg : g.sourceBits e.mem = escapeBits n off ++ r) :
    escOp e i g = .ok () ((g.afterBits (escapeBits n off).length).setRegs
      ({ g.regs with escN := n }.setQ i
        (if g.regs.q i < 0 then -((2 ^ n + off : Nat) : Int) else ((2 ^ n + off : Nat) : Int)))) := by
  have hsplit : g.sourceBits e.mem = List.replicate (n - 4) true ++ false :: (natToBits n off ++ r) := by
    rw [hg, escapeBits]
    simp
  have he : isEscape (g.regs.q i) = true := by simpa [isEscape] using h
  have hpre := escPrefix_eq (e := e) (n - 4) (e.par.escMaxN + 1) 4 g _ (by omega) (by omega) hsplit
  rw [show 4 + (n - 4) = n by omega, show n - 4 + 1 = n - 3 by omega] at hpre
  have h1 : (g.afterBits (n - 3)).sourceBits e.mem = natToBits n off ++ r := by
    have := sourceBits_after (l := List.replicate (n - 4) true ++ [false]) (r := natToBits n off ++ r)
      (m := e.mem) (g := g) (by rw [hsplit]; simp)
    rw [show n - 3 = (List.replicate (n - 4) true ++ [false]).length by simp; omega]
    exact this
  have h2 : ((g.afterBits (n - 3)).setRegs { g.regs with escN := n }).sourceBits e.mem = natToBits n off ++ r := by
    rw [Engine.sourceBits_setRegs _ _ _ (by rw [Engine.afterBits_regs]), h1]
  have h3 := getN_eq h2 (by rw [Ne, ← List.length_eq_zero_iff, natToBits_length]; omega)
    (by rw [natToBits_length]; exact h32)
  rw [natToBits_length, bitsToNat_natToBits n off ho,
    Engine.afterBits_setRegs _ _ _ (by rw [Engine.afterBits_regs]), Engine.afterBits_add] at h3
  have hq : VlcRegs.q { g.regs with escN := n } i = g.regs.q i := by
    match i with
    | 0 | 1 | 2 => rfl
    | _ + 3 => rfl
  rw [escOp, run_bind_ok (regs_run g)]
  simp only [he, if_true]
  rw [run_bind_ok hpre, run_bind_ok (setRegs_run _ _), Engine.afterBits_regs, run_bind_ok h3, setRegs_run,
    escapeBits_length h4]
  simp only [Engine.setRegs_regs, Engine.setRegs_setRegs, hq, escape_sign h]

/-! ## Operations on windows -/

/-- All that `withWindow` does: it stops without a cursor, then without the window, else hands over the window. -/
theorem withWindow_cases (w : Nat) (f : Window → Host.Outcome State Fault Refusal) (s : State) :
    (s.work.eng.bc.live = false ∧ withWindow w f s = .fault .noCursor) ∨
    (s.work.eng.bc.live = true ∧ s.work.eng.bw[w]? = none ∧ withWindow w f s = .fault .noWindow) ∨
    (∃ v, s.work.eng.bc.live = true ∧ s.work.eng.bw[w]? = some v ∧ withWindow w f s = f v) := by
  unfold withWindow
  cases hl : s.work.eng.bc.live
  · exact .inl ⟨rfl, rfl⟩
  · cases hv : s.work.eng.bw[w]? with
    | none => exact .inr (.inl ⟨rfl, rfl, rfl⟩)
    | some v => exact .inr (.inr ⟨v, rfl, rfl, rfl⟩)

theorem windowOp_of_window {w : Nat} {f : Window → State} {s : State} {v : Window} (hl : s.work.eng.bc.live = true)
    (hv : s.work.eng.bw[w]? = some v) : windowOp w f s = .next (f v) := by
  simp [windowOp, withWindow, hl, hv]

end Sys2Proof.Machine
end

