-- ==== Sys2Proof/Laws/Keeps.lean ====
section
/-! SUPPORT. Every program of the block keeps the invariants of the bit-level engine, whether it ends or raises: BC.pos stays
within the buffer (10_state.md R22), no window exceeds 64 bits, and no window appears or goes (R23). One lemma for each
program, each by the lemmas of its parts. -/

namespace Sys2Proof.Machine

/-- A program keeps a property of the state it runs in. -/
structure Keeps {ε σ α : Type} (P : σ → Prop) (p : EStateM ε σ α) : Prop where
  run : ∀ s, P s → P (finalState (p s))

/-- The cursor's invariant, the engine's with n windows, and the same inside the working state. -/
def CurOk (k : Cursor) : Prop := k.ok = true
def EngOk (n : Nat) (g : Engine) : Prop := g.Inv ∧ g.bw.length = n
def WorkOk (n : Nat) (w : Work) : Prop := EngOk n w.eng

theorem keeps_pure {ε σ α : Type} (P : σ → Prop) (a : α) : Keeps P (pure a : EStateM ε σ α) := ⟨fun _ h => h⟩

theorem keeps_bind {ε σ α β : Type} {P : σ → Prop} {x : EStateM ε σ α} {f : α → EStateM ε σ β} (hx : Keeps P x)
    (hf : ∀ a, Keeps P (f a)) : Keeps P (x >>= f) := by
  refine ⟨fun s hs => ?_⟩
  have h := hx.run s hs
  rw [run_bind]
  cases hxs : x s with
  | ok a t =>
    rw [hxs] at h
    exact (hf a).run t h
  | error c t =>
    rw [hxs] at h
    exact h

/-! ## The primitives -/

theorem rdRaise_keeps {α : Type} (c : Cause) : Keeps CurOk (Rd.raise c : Rd α) := ⟨fun _ h => h⟩
theorem rdRaiseAsIs_keeps {α : Type} (c : Cause) : Keeps CurOk (Rd.raiseAsIs c : Rd α) := ⟨fun _ h => h⟩
theorem rdSample_keeps : Keeps CurOk Rd.sample := by
  refine ⟨fun k h => ?_⟩
  unfold Rd.sample
  split <;> exact h
theorem rdPeek_keeps (e : Env) (n : Nat) : Keeps CurOk (Rd.peek e n) := ⟨fun _ h => Cursor.peek_ok e.mem n h⟩
theorem rdGet_keeps (e : Env) (n : Nat) : Keeps CurOk (Rd.get e n) := ⟨fun _ h => Cursor.get_ok e.mem n h⟩
theorem rdFlush_keeps (n : Nat) : Keeps CurOk (Rd.flush n) := ⟨fun _ h => Cursor.flush_ok n h⟩
theorem rdByteAlign_keeps : Keeps CurOk Rd.byteAlign := ⟨fun _ h => Cursor.byteAlign_ok h⟩
theorem rdSeek_keeps (b : Nat) : Keeps CurOk (Rd.seek b) := ⟨fun _ h => Cursor.seek_ok b h⟩
theorem rdCursor_keeps : Keeps CurOk Rd.cursor := ⟨fun _ h => h⟩
theorem rdSpeculate_keeps {α : Type} {p : Rd α} (h : Keeps CurOk p) : Keeps CurOk (Rd.speculate p) := by
  refine ⟨fun k hk => ?_⟩
  have hp := h.run k hk
  unfold Rd.speculate
  split
  · rename_i hx
    rw [hx] at hp
    exact hp
  · exact hk

theorem vxOfRd_keeps {α : Type} {n : Nat} {p : Rd α} (h : Keeps CurOk p) : Keeps (EngOk n) (Vx.ofRd p) := by
  refine ⟨fun g hg => ?_⟩
  have hp := h.run g.bc hg.1.1
  unfold Vx.ofRd
  split
  · rename_i hx
    rw [hx] at hp
    exact ⟨⟨hp, hg.1.2⟩, hg.2⟩
  · rename_i hx
    rw [hx] at hp
    exact ⟨⟨hp, hg.1.2⟩, hg.2⟩

theorem vxRaise_keeps {α : Type} {n : Nat} (c : Cause) : Keeps (EngOk n) (Vx.raise c : Vx α) := ⟨fun _ h => h⟩
theorem vxRegs_keeps {n : Nat} : Keeps (EngOk n) Vx.regs := ⟨fun _ h => h⟩
theorem vxSetRegs_keeps {n : Nat} (f : VlcRegs → VlcRegs) : Keeps (EngOk n) (Vx.setRegs f) := ⟨fun _ h => h⟩
theorem vxGetN_keeps {n : Nat} (e : Env) (k : Nat) : Keeps (EngOk n) (Vx.getN e k) := by
  refine ⟨fun g hg => ?_⟩
  unfold Vx.getN
  split
  · exact (vxOfRd_keeps (rdGet_keeps e k)).run g hg
  · rename_i w _
    refine ⟨⟨hg.1.1, windowsOk_set hg.1.2 w (Window.consume_ok k (Engine.window_ok hg.1.2 w))⟩, ?_⟩
    show (g.bw.set w _).length = n
    rw [List.length_set]
    exact hg.2

theorem wkOfVx_keeps {α : Type} {n : Nat} {p : Vx α} (h : Keeps (EngOk n) p) : Keeps (WorkOk n) (Wk.ofVx p) := by
  refine ⟨fun w hw => ?_⟩
  have hp := h.run w.eng hw
  unfold Wk.ofVx
  split
  · rename_i hx
    rw [hx] at hp
    exact hp
  · rename_i hx
    rw [hx] at hp
    exact hp

theorem wkOfRd_keeps {α : Type} {n : Nat} {p : Rd α} (h : Keeps CurOk p) : Keeps (WorkOk n) (Wk.ofRd p) :=
  wkOfVx_keeps (vxOfRd_keeps h)
theorem wkRaise_keeps {α : Type} {n : Nat} (c : Cause) : Keeps (WorkOk n) (Wk.raise c : Wk α) := ⟨fun _ h => h⟩
theorem wkFrm_keeps {n : Nat} : Keeps (WorkOk n) Wk.frm := ⟨fun _ h => h⟩
theorem wkDs_keeps {n : Nat} : Keeps (WorkOk n) Wk.ds := ⟨fun _ h => h⟩
theorem wkSc_keeps {n : Nat} : Keeps (WorkOk n) Wk.sc := ⟨fun _ h => h⟩
theorem wkSetFrm_keeps {n : Nat} (f : Frame → Frame) : Keeps (WorkOk n) (Wk.setFrm f) := ⟨fun _ h => h⟩
theorem wkSetDs_keeps {n : Nat} (f : DecoderState → DecoderState) : Keeps (WorkOk n) (Wk.setDs f) := ⟨fun _ h => h⟩
theorem wkSetSc_keeps {n : Nat} (f : StreamCfg → StreamCfg) : Keeps (WorkOk n) (Wk.setSc f) := ⟨fun _ h => h⟩
theorem wkChan_keeps {n : Nat} (c : Nat) : Keeps (WorkOk n) (Wk.chan c) := ⟨fun _ h => h⟩
theorem wkSetChan_keeps {n : Nat} (c : Nat) (f : Chan → Chan) : Keeps (WorkOk n) (Wk.setChan c f) := ⟨fun _ h => h⟩
theorem createCursor_keeps {n : Nat} (base len : Nat) : Keeps (WorkOk n) (createCursor base len) :=
  wkOfRd_keeps ⟨fun _ _ => Cursor.create_ok base len⟩

/-- A bounded parse keeps the invariant of the working state, whose own cursor it does not move. -/
theorem wkBounded_keeps {α : Type} {n : Nat} {p : Env → Wk α} (e : Env) (start count : Nat)
    (h : ∀ e, Keeps (WorkOk n) (p e)) : Keeps (WorkOk n) (Wk.bounded e start count p) := by
  refine ⟨fun w hw => ?_⟩
  unfold Wk.bounded
  split
  · have hc : WorkOk n { w with eng := { w.eng with
        bc := ⟨true, 0, count, min (w.eng.bc.pos - start) (8 * count), false⟩ } } :=
      ⟨⟨decide_eq_true (Nat.min_le_right _ _), hw.1.2⟩, hw.2⟩
    have hp := (h { e with mem := Wk.payloadBytes e.mem w.eng.bc.base start count }).run _ hc
    split
    · rename_i hx
      rw [hx] at hp
      dsimp only
      split <;> exact ⟨⟨hw.1.1, hp.1.2⟩, hp.2⟩
    · rename_i hx
      rw [hx] at hp
      exact ⟨⟨hw.1.1, hp.1.2⟩, hp.2⟩
  · exact (h e).run w hw

/-! ## Field readers -/

theorem rdBit_keeps (e : Env) : Keeps CurOk (Rd.bit e) := by
  unfold Rd.bit
  with_reducible repeat' first
    | exact keeps_pure _ _ | apply keeps_bind | assumption | intro _ | apply rdGet_keeps

theorem rdMany_keeps (e : Env) (w n : Nat) : Keeps CurOk (Rd.many e w n) := by
  induction n with
  | zero =>
    unfold Rd.many
    with_reducible repeat' first
      | exact keeps_pure _ _
  | succ _ ih =>
    unfold Rd.many
    with_reducible repeat' first
      | exact keeps_pure _ _ | apply keeps_bind | assumption | intro _ | apply ih | apply rdGet_keeps

theorem rdManyBits_keeps (e : Env) (n : Nat) : Keeps CurOk (Rd.manyBits e n) := by
  induction n with
  | zero =>
    unfold Rd.manyBits
    with_reducible repeat' first
      | exact keeps_pure _ _
  | succ _ ih =>
    unfold Rd.manyBits
    with_reducible repeat' first
      | exact keeps_pure _ _ | apply keeps_bind | assumption | intro _ | apply ih | apply rdBit_keeps

theorem rdFlushMany_keeps (w n : Nat) : Keeps CurOk (Rd.flushMany w n) := by
  induction n with
  | zero =>
    unfold Rd.flushMany
    with_reducible repeat' first
      | exact keeps_pure _ _
  | succ _ ih =>
    unfold Rd.flushMany
    with_reducible repeat' first
      | exact keeps_pure _ _ | apply keeps_bind | assumption | intro _ | apply ih | apply rdFlush_keeps

theorem vxGet1_keeps {n : Nat} (e : Env) : Keeps (EngOk n) (Vx.get1 e) := by
  unfold Vx.get1
  with_reducible repeat' first
    | exact keeps_pure _ _ | apply keeps_bind | assumption | intro _ | apply vxGetN_keeps

theorem wkForEach_keeps {n : Nat} (l : List Nat) (f : Nat → Wk Unit) (hf : ∀ c, Keeps (WorkOk n) (f c)) : Keeps
    (WorkOk n) (Wk.forEach l f) := by
  induction l with
  | nil =>
    unfold Wk.forEach
    with_reducible repeat' first
      | exact keeps_pure _ _
  | cons _ _ ih =>
    unfold Wk.forEach
    with_reducible repeat' first
      | exact keeps_pure _ _ | apply keeps_bind | assumption | intro _ | apply ih | apply hf

/-! ## The VLC engine -/

theorem codewordWalk_keeps {n : Nat} (e : Env) (b : Book) (m : Cause) (k : Nat) (s : List Bool) : Keeps (EngOk
    n) (codewordWalk e b m k s) := by
  induction k generalizing s with
  | zero =>
    unfold codewordWalk
    with_reducible repeat' first
      | exact keeps_pure _ _ | apply keeps_bind | assumption | intro _ | apply vxRaise_keeps
  | succ _ ih =>
    unfold codewordWalk
    with_reducible repeat' first
      | exact keeps_pure _ _ | apply keeps_bind | assumption | intro _ | apply ih | apply vxRaise_keeps
      | apply vxSetRegs_keeps | apply vxGet1_keeps | split | dsimp only

theorem codeword_keeps {n : Nat} (e : Env) (b : Book) (m : Cause) : Keeps (EngOk n) (codeword e b m) := by
  unfold codeword
  with_reducible repeat' first
    | exact keeps_pure _ _ | apply keeps_bind | assumption | intro _ | apply codewordWalk_keeps

theorem codewordIndex_keeps {n : Nat} (e : Env) (b : Book) (m : Cause) : Keeps (EngOk n) (codewordIndex e b m) := by
  unfold codewordIndex
  with_reducible repeat' first
    | exact keeps_pure _ _ | apply keeps_bind | assumption | intro _ | apply codeword_keeps

theorem sgnLane_keeps {n : Nat} (e : Env) (j : Nat) : Keeps (EngOk n) (sgnLane e j) := by
  unfold sgnLane
  with_reducible repeat' first
    | exact keeps_pure _ _ | apply keeps_bind | assumption | intro _ | apply vxRegs_keeps | apply vxSetRegs_keeps
    | apply vxGet1_keeps | split

theorem sgnFrom_keeps {n : Nat} (e : Env) (j k : Nat) : Keeps (EngOk n) (sgnFrom e j k) := by
  induction k generalizing j with
  | zero =>
    unfold sgnFrom
    with_reducible repeat' first
      | exact keeps_pure _ _
  | succ _ ih =>
    unfold sgnFrom
    with_reducible repeat' first
      | exact keeps_pure _ _ | apply keeps_bind | assumption | intro _ | apply ih | apply sgnLane_keeps

theorem sgnOp_keeps {n : Nat} (e : Env) (d : Nat) : Keeps (EngOk n) (sgnOp e d) := by
  unfold sgnOp
  with_reducible repeat' first
    | exact keeps_pure _ _ | apply keeps_bind | assumption | intro _ | apply sgnFrom_keeps

theorem escPrefix_keeps {n : Nat} (e : Env) (k i : Nat) : Keeps (EngOk n) (escPrefix e k i) := by
  induction k generalizing i with
  | zero =>
    unfold escPrefix
    with_reducible repeat' first
      | exact keeps_pure _ _ | apply keeps_bind | assumption | intro _ | apply vxRaise_keeps
  | succ _ ih =>
    unfold escPrefix
    with_reducible repeat' first
      | exact keeps_pure _ _ | apply keeps_bind | assumption | intro _ | apply ih | apply vxRaise_keeps
      | apply vxGet1_keeps | split

theorem escOp_keeps {n : Nat} (e : Env) (i : Nat) : Keeps (EngOk n) (escOp e i) := by
  unfold escOp
  with_reducible repeat' first
    | exact keeps_pure _ _ | apply keeps_bind | assumption | intro _ | apply vxRegs_keeps | apply vxSetRegs_keeps
    | apply vxGetN_keeps | apply escPrefix_keeps | split

theorem lavCheck_keeps {n : Nat} (e : Env) (i : Nat) : Keeps (EngOk n) (lavCheck e i) := by
  unfold lavCheck
  with_reducible repeat' first
    | exact keeps_pure _ _ | apply keeps_bind | assumption | intro _ | apply vxSetRegs_keeps

theorem quadCodeword_keeps {n : Nat} (e : Env) (t : Nat) : Keeps (EngOk n) (quadCodeword e t) := by
  unfold quadCodeword
  with_reducible repeat' first
    | exact keeps_pure _ _ | apply keeps_bind | assumption | intro _ | apply vxSetRegs_keeps | apply codeword_keeps

theorem pairCodeword_keeps {n : Nat} (e : Env) (t : Nat) : Keeps (EngOk n) (pairCodeword e t) := by
  unfold pairCodeword
  with_reducible repeat' first
    | exact keeps_pure _ _ | apply keeps_bind | assumption | intro _ | apply vxSetRegs_keeps | apply codeword_keeps

theorem escapeCodeword_keeps {n : Nat} (e : Env) (t : Nat) : Keeps (EngOk n) (escapeCodeword e t) := by
  unfold escapeCodeword
  with_reducible repeat' first
    | exact keeps_pure _ _ | apply keeps_bind | assumption | intro _ | apply sgnOp_keeps | apply escOp_keeps
    | apply pairCodeword_keeps

theorem hcw_keeps {n : Nat} (e : Env) (cb : Nat) : Keeps (EngOk n) (hcw e cb) := by
  unfold hcw
  with_reducible repeat' first
    | exact keeps_pure _ _ | apply keeps_bind | assumption | intro _ | apply vxRaise_keeps | apply sgnOp_keeps
    | apply lavCheck_keeps | apply quadCodeword_keeps | apply pairCodeword_keeps | apply escapeCodeword_keeps
    | split

theorem sfdOp_keeps {n : Nat} (e : Env) : Keeps (EngOk n) (sfdOp e) := by
  unfold sfdOp
  with_reducible repeat' first
    | exact keeps_pure _ _ | apply keeps_bind | assumption | intro _ | apply codewordIndex_keeps

theorem npcmOp_keeps {n : Nat} (e : Env) : Keeps (EngOk n) (npcmOp e) := by
  unfold npcmOp
  with_reducible repeat' first
    | exact keeps_pure _ _ | apply keeps_bind | assumption | intro _ | apply vxGetN_keeps

theorem rvlcEscdOp_keeps {n : Nat} (e : Env) : Keeps (EngOk n) (rvlcEscdOp e) := by
  refine ⟨fun g hg => ?_⟩
  unfold rvlcEscdOp
  split <;> exact hg

theorem rvlcIndex_keeps {n : Nat} (e : Env) : Keeps (EngOk n) (rvlcIndex e) := by
  refine ⟨fun g hg => ?_⟩
  unfold rvlcIndex
  split <;> exact hg

theorem rvlcSfdOp_keeps {n : Nat} (e : Env) : Keeps (EngOk n) (rvlcSfdOp e) := by
  unfold rvlcSfdOp
  with_reducible repeat' first
    | exact keeps_pure _ _ | apply keeps_bind | assumption | intro _ | apply rvlcEscdOp_keeps
    | apply rvlcIndex_keeps | split

theorem returning_keeps {n : Nat} (p : Env → Vx Int) (e : Env) (hp : Keeps (EngOk n) (p e)) : Keeps (EngOk n)
    (returning p e) := by
  unfold returning
  with_reducible repeat' first
    | exact keeps_pure _ _ | apply keeps_bind | assumption | intro _ | apply vxSetRegs_keeps

/-! ## The parsers -/

theorem adtsSync_keeps (e : Env) (k i : Nat) : Keeps CurOk (adtsSync e k i) := by
  induction k generalizing i with
  | zero =>
    unfold adtsSync
    with_reducible repeat' first
      | exact keeps_pure _ _ | apply keeps_bind | assumption | intro _ | apply rdRaiseAsIs_keeps
  | succ _ ih =>
    unfold adtsSync
    with_reducible repeat' first
      | exact keeps_pure _ _ | apply keeps_bind | assumption | intro _ | apply ih | apply rdRaiseAsIs_keeps
      | apply rdPeek_keeps | apply rdFlush_keeps | apply rdCursor_keeps | split

theorem adtsFixed_keeps (e : Env) (a : Adts) : Keeps CurOk (adtsFixed e a) := by
  unfold adtsFixed
  with_reducible repeat' first
    | exact keeps_pure _ _ | apply keeps_bind | assumption | intro _ | apply rdRaise_keeps | apply rdGet_keeps
    | apply rdBit_keeps | split

theorem adtsVariable_keeps (e : Env) (a : Adts) : Keeps CurOk (adtsVariable e a) := by
  unfold adtsVariable
  with_reducible repeat' first
    | exact keeps_pure _ _ | apply keeps_bind | assumption | intro _ | apply rdGet_keeps

theorem adtsCrc_keeps (e : Env) (a : Adts) : Keeps CurOk (adtsCrc e a) := by
  unfold adtsCrc
  with_reducible repeat' first
    | exact keeps_pure _ _ | apply keeps_bind | assumption | intro _ | apply rdGet_keeps | split

theorem adtsHeader_keeps (e : Env) : Keeps CurOk (adtsHeader e) := by
  unfold adtsHeader
  with_reducible repeat' first
    | exact keeps_pure _ _ | apply keeps_bind | assumption | intro _ | apply rdSample_keeps | apply adtsSync_keeps
    | apply adtsFixed_keeps | apply adtsVariable_keeps | apply adtsCrc_keeps

theorem pceElems_keeps (e : Env) (n : Nat) : Keeps CurOk (pceElems e n) := by
  induction n with
  | zero =>
    unfold pceElems
    with_reducible repeat' first
      | exact keeps_pure _ _
  | succ _ ih =>
    unfold pceElems
    with_reducible repeat' first
      | exact keeps_pure _ _ | apply keeps_bind | assumption | intro _ | apply ih | apply rdGet_keeps
      | apply rdBit_keeps

theorem optional4_keeps (e : Env) : Keeps CurOk (optional4 e) := by
  unfold optional4
  with_reducible repeat' first
    | exact keeps_pure _ _ | apply keeps_bind | assumption | intro _ | apply rdGet_keeps | apply rdBit_keeps | split

theorem pceMatrix_keeps (e : Env) : Keeps CurOk (pceMatrix e) := by
  unfold pceMatrix
  with_reducible repeat' first
    | exact keeps_pure _ _ | apply keeps_bind | assumption | intro _ | apply rdGet_keeps | apply rdBit_keeps | split

theorem pceParse_keeps (e : Env) : Keeps CurOk (pceParse e) := by
  unfold pceParse
  with_reducible repeat' first
    | exact keeps_pure _ _ | apply keeps_bind | assumption | intro _ | apply rdRaise_keeps | apply rdSample_keeps
    | apply rdGet_keeps | apply rdByteAlign_keeps | apply rdMany_keeps | apply pceElems_keeps
    | apply optional4_keeps | apply pceMatrix_keeps | split | dsimp only

theorem adifPces_keeps (e : Env) (t : Bool) (n : Nat) : Keeps CurOk (adifPces e t n) := by
  induction n with
  | zero =>
    unfold adifPces
    with_reducible repeat' first
      | exact keeps_pure _ _
  | succ _ ih =>
    unfold adifPces
    with_reducible repeat' first
      | exact keeps_pure _ _ | apply keeps_bind | assumption | intro _ | apply ih | apply rdMany_keeps
      | apply pceParse_keeps | split

theorem adifHeader_keeps (e : Env) : Keeps CurOk (adifHeader e) := by
  unfold adifHeader
  with_reducible repeat' first
    | exact keeps_pure _ _ | apply keeps_bind | assumption | intro _ | apply rdSample_keeps | apply rdGet_keeps
    | apply rdFlush_keeps | apply rdByteAlign_keeps | apply rdBit_keeps | apply rdMany_keeps | apply adifPces_keeps

theorem ascRate_keeps (e : Env) : Keeps CurOk (ascRate e) := by
  unfold ascRate
  with_reducible repeat' first
    | exact keeps_pure _ _ | apply keeps_bind | assumption | intro _ | apply rdRaise_keeps | apply rdGet_keeps
    | split

theorem ascExplicit_keeps (e : Env) (ot : Nat) : Keeps CurOk (ascExplicit e ot) := by
  unfold ascExplicit
  with_reducible repeat' first
    | exact keeps_pure _ _ | apply keeps_bind | assumption | intro _ | apply rdRaise_keeps | apply rdGet_keeps
    | apply ascRate_keeps | split

theorem ascErFlags_keeps (e : Env) (x : Bool) (ot : Nat) : Keeps CurOk (ascErFlags e x ot) := by
  unfold ascErFlags
  with_reducible repeat' first
    | exact keeps_pure _ _ | apply keeps_bind | assumption | intro _ | apply rdGet_keeps | split

theorem ascSyncExtension_keeps (e : Env) (s : SbrSignal) : Keeps CurOk (ascSyncExtension e s) := by
  unfold ascSyncExtension
  with_reducible repeat' first
    | exact keeps_pure _ _ | apply keeps_bind | assumption | intro _ | apply rdPeek_keeps | apply rdGet_keeps
    | apply rdFlush_keeps | apply rdCursor_keeps | apply rdBit_keeps | apply ascRate_keeps | split

theorem ascChannels_keeps (e : Env) (b : Bool) : Keeps CurOk (ascChannels e b) := by
  unfold ascChannels
  with_reducible repeat' first
    | exact keeps_pure _ _ | apply keeps_bind | assumption | intro _ | apply rdRaise_keeps | apply rdGet_keeps
    | split

theorem ascParse_keeps (e : Env) (b : Bool) : Keeps CurOk (ascParse e b) := by
  unfold ascParse
  with_reducible repeat' first
    | exact keeps_pure _ _ | apply keeps_bind | assumption | intro _ | apply rdRaise_keeps | apply rdSample_keeps
    | apply rdGet_keeps | apply rdBit_keeps | apply pceParse_keeps | apply ascRate_keeps | apply ascChannels_keeps
    | apply ascExplicit_keeps | apply ascErFlags_keeps | apply ascSyncExtension_keeps | split

theorem latmAsc_keeps (e : Env) (b : Bool) : Keeps CurOk (latmAsc e b) := by
  unfold latmAsc
  with_reducible repeat' first
    | exact keeps_pure _ _ | apply keeps_bind | assumption | intro _ | apply rdRaiseAsIs_keeps
    | apply rdSpeculate_keeps | apply ascParse_keeps | split

theorem latmMuxParse_keeps (e : Env) (b : Bool) : Keeps CurOk (latmMuxParse e b) := by
  unfold latmMuxParse
  with_reducible repeat' first
    | exact keeps_pure _ _ | apply keeps_bind | assumption | intro _ | apply rdSeek_keeps | apply rdCursor_keeps
    | apply rdBit_keeps | apply latmAsc_keeps | split

theorem latmFrame_keeps (e : Env) (b : Bool) : Keeps CurOk (latmFrame e b) := by
  unfold latmFrame
  with_reducible repeat' first
    | exact keeps_pure _ _ | apply keeps_bind | assumption | intro _ | apply rdRaise_keeps | apply rdSample_keeps
    | apply rdPeek_keeps | apply rdGet_keeps | apply rdFlush_keeps | apply latmMuxParse_keeps | split

/-! ## Side information and spectral data -/

theorem ltpData_keeps (e : Env) (ot fl : Nat) (short : Bool) (m lag : Nat) : Keeps CurOk (ltpData e ot fl short
    m lag) := by
  unfold ltpData
  with_reducible repeat' first
    | exact keeps_pure _ _ | apply keeps_bind | assumption | intro _ | apply rdRaise_keeps | apply rdGet_keeps
    | apply rdBit_keeps | apply rdManyBits_keeps | split

theorem optionalLtp_keeps (e : Env) (ot fl : Nat) (short : Bool) (m lag : Nat) : Keeps CurOk (optionalLtp e ot
    fl short m lag) := by
  unfold optionalLtp
  with_reducible repeat' first
    | exact keeps_pure _ _ | apply keeps_bind | assumption | intro _ | apply rdBit_keeps | apply ltpData_keeps
    | split

theorem predictorData_keeps (e : Env) (ot fl : Nat) (shared : Bool) (m a b : Nat) : Keeps CurOk (predictorData
    e ot fl shared m a b) := by
  unfold predictorData
  with_reducible repeat' first
    | exact keeps_pure _ _ | apply keeps_bind | assumption | intro _ | apply rdRaise_keeps | apply rdBit_keeps
    | apply optionalLtp_keeps | split

theorem icsInfoBody_keeps (e : Env) (ot fl : Nat) (short shared : Bool) (a b : Nat) : Keeps CurOk (icsInfoBody
    e ot fl short shared a b) := by
  unfold icsInfoBody
  with_reducible repeat' first
    | exact keeps_pure _ _ | apply keeps_bind | assumption | intro _ | apply rdGet_keeps | apply rdManyBits_keeps
    | apply predictorData_keeps | split

theorem icsInfo_keeps (e : Env) (sc : StreamCfg) (shared : Bool) (a b : Nat) : Keeps CurOk (icsInfo e sc shared
    a b) := by
  unfold icsInfo
  with_reducible repeat' first
    | exact keeps_pure _ _ | apply keeps_bind | assumption | intro _ | apply rdRaise_keeps | apply rdGet_keeps
    | apply rdBit_keeps | apply icsInfoBody_keeps | split | dsimp only

theorem sectionLength_keeps (e : Env) (w k acc : Nat) : Keeps CurOk (sectionLength e w k acc) := by
  induction k generalizing acc with
  | zero =>
    unfold sectionLength
    with_reducible repeat' first
      | exact keeps_pure _ _
  | succ _ ih =>
    unfold sectionLength
    with_reducible repeat' first
      | exact keeps_pure _ _ | apply keeps_bind | assumption | intro _ | apply ih | apply rdGet_keeps | split

theorem sectionGroup_keeps (e : Env) (cw lw lim m f k : Nat) : Keeps CurOk (sectionGroup e cw lw lim m f k) := by
  induction f generalizing k with
  | zero =>
    unfold sectionGroup
    with_reducible repeat' first
      | exact keeps_pure _ _ | apply keeps_bind | assumption | intro _ | apply rdRaise_keeps | apply rdSample_keeps
      | apply rdGet_keeps | apply rdCursor_keeps | apply sectionLength_keeps | split
  | succ _ ih =>
    unfold sectionGroup
    with_reducible repeat' first
      | exact keeps_pure _ _ | apply keeps_bind | assumption | intro _ | apply ih | apply rdRaise_keeps
      | apply rdSample_keeps | apply rdGet_keeps | apply rdCursor_keeps | apply sectionLength_keeps | split

theorem sectionGroups_keeps (e : Env) (cw lw lim m n : Nat) : Keeps CurOk (sectionGroups e cw lw lim m n) := by
  induction n with
  | zero =>
    unfold sectionGroups
    with_reducible repeat' first
      | exact keeps_pure _ _
  | succ _ ih =>
    unfold sectionGroups
    with_reducible repeat' first
      | exact keeps_pure _ _ | apply keeps_bind | assumption | intro _ | apply ih | apply sectionGroup_keeps

theorem sectionData_keeps (e : Env) (sc : StreamCfg) (info : IcsInfo) : Keeps CurOk (sectionData e sc info) := by
  unfold sectionData
  with_reducible repeat' first
    | exact keeps_pure _ _ | apply keeps_bind | assumption | intro _ | apply rdRaise_keeps
    | apply sectionGroups_keeps | split

theorem sfSpectral_keeps {n : Nat} (e : Env) : Keeps (EngOk n) (sfSpectral e) := by
  unfold sfSpectral
  with_reducible repeat' first
    | exact keeps_pure _ _ | apply keeps_bind | assumption | intro _ | apply vxRaise_keeps | apply vxRegs_keeps
    | apply vxSetRegs_keeps | apply sfdOp_keeps | split

theorem sfIntensity_keeps {n : Nat} (e : Env) : Keeps (EngOk n) (sfIntensity e) := by
  unfold sfIntensity
  with_reducible repeat' first
    | exact keeps_pure _ _ | apply keeps_bind | assumption | intro _ | apply vxRaise_keeps | apply vxRegs_keeps
    | apply vxSetRegs_keeps | apply sfdOp_keeps | split

theorem sfNoise_keeps {n : Nat} (e : Env) : Keeps (EngOk n) (sfNoise e) := by
  unfold sfNoise
  with_reducible repeat' first
    | exact keeps_pure _ _ | apply keeps_bind | assumption | intro _ | apply vxRaise_keeps | apply vxRegs_keeps
    | apply vxSetRegs_keeps | apply sfdOp_keeps | apply npcmOp_keeps | split

theorem sfBand_keeps {n : Nat} (e : Env) (cb : Nat) : Keeps (EngOk n) (sfBand e cb) := by
  unfold sfBand
  with_reducible repeat' first
    | exact keeps_pure _ _ | apply keeps_bind | assumption | intro _ | apply sfSpectral_keeps
    | apply sfIntensity_keeps | apply sfNoise_keeps | split

theorem mapBands_keeps {n : Nat} (f : Nat → Vx Int) (l : List Nat) (hf : ∀ c, Keeps (EngOk n) (f c)) : Keeps
    (EngOk n) (mapBands f l) := by
  induction l with
  | nil =>
    unfold mapBands
    with_reducible repeat' first
      | exact keeps_pure _ _
  | cons _ _ ih =>
    unfold mapBands
    with_reducible repeat' first
      | exact keeps_pure _ _ | apply keeps_bind | assumption | intro _ | apply ih | apply hf

theorem mapGroups_keeps {n : Nat} (f : Nat → Vx Int) (l : List (List Nat)) (hf : ∀ c, Keeps (EngOk n) (f c)) :
    Keeps (EngOk n) (mapGroups f l) := by
  induction l with
  | nil =>
    unfold mapGroups
    with_reducible repeat' first
      | exact keeps_pure _ _
  | cons _ _ ih =>
    unfold mapGroups
    with_reducible repeat' first
      | exact keeps_pure _ _ | apply keeps_bind | assumption | intro _ | apply ih | apply hf | apply mapBands_keeps

theorem scaleFactorData_keeps {n : Nat} (e : Env) (g : Nat) (l : List (List Nat)) : Keeps (EngOk n)
    (scaleFactorData e g l) := by
  unfold scaleFactorData
  with_reducible repeat' first
    | exact keeps_pure _ _ | apply keeps_bind | assumption | intro _ | apply rdSample_keeps | apply vxOfRd_keeps
    | apply vxSetRegs_keeps | apply sfBand_keeps | apply mapGroups_keeps

theorem rvlcSideInfo_keeps (e : Env) (short noise : Bool) : Keeps CurOk (rvlcSideInfo e short noise) := by
  unfold rvlcSideInfo
  with_reducible repeat' first
    | exact keeps_pure _ _ | apply keeps_bind | assumption | intro _ | apply rdGet_keeps | apply rdBit_keeps | split

theorem rvlcMiss_keeps {n : Nat} : Keeps (EngOk n) (rvlcMiss ) := by
  unfold rvlcMiss
  with_reducible repeat' first
    | exact keeps_pure _ _ | apply keeps_bind | assumption | intro _ | apply vxSetRegs_keeps

theorem rvlcSpectral_keeps {n : Nat} (e : Env) : Keeps (EngOk n) (rvlcSpectral e) := by
  unfold rvlcSpectral
  with_reducible repeat' first
    | exact keeps_pure _ _ | apply keeps_bind | assumption | intro _ | apply vxRaise_keeps | apply vxRegs_keeps
    | apply vxSetRegs_keeps | apply rvlcSfdOp_keeps | apply rvlcMiss_keeps | split

theorem rvlcIntensity_keeps {n : Nat} (e : Env) : Keeps (EngOk n) (rvlcIntensity e) := by
  unfold rvlcIntensity
  with_reducible repeat' first
    | exact keeps_pure _ _ | apply keeps_bind | assumption | intro _ | apply vxRaise_keeps | apply vxRegs_keeps
    | apply vxSetRegs_keeps | apply rvlcSfdOp_keeps | apply rvlcMiss_keeps | split

theorem rvlcNoise_keeps {n : Nat} (e : Env) (d : Nat) : Keeps (EngOk n) (rvlcNoise e d) := by
  unfold rvlcNoise
  with_reducible repeat' first
    | exact keeps_pure _ _ | apply keeps_bind | assumption | intro _ | apply vxRaise_keeps | apply vxRegs_keeps
    | apply vxSetRegs_keeps | apply rvlcSfdOp_keeps | apply rvlcMiss_keeps | split

theorem rvlcBand_keeps {n : Nat} (e : Env) (d cb : Nat) : Keeps (EngOk n) (rvlcBand e d cb) := by
  unfold rvlcBand
  with_reducible repeat' first
    | exact keeps_pure _ _ | apply keeps_bind | assumption | intro _ | apply vxRegs_keeps | apply rvlcSpectral_keeps
    | apply rvlcIntensity_keeps | apply rvlcNoise_keeps | split

theorem rvlcRuns_keeps {n : Nat} (side : RvlcSide) : Keeps (EngOk n) (rvlcRuns side) :=
  ⟨fun _ h => ⟨⟨Cursor.seek_ok _ h.1.1, h.1.2⟩, h.2⟩⟩

theorem rvlcScaleFactors_keeps {n : Nat} (e : Env) (g : Nat) (side : RvlcSide) (l : List (List Nat)) : Keeps
    (EngOk n) (rvlcScaleFactors e g side l) := by
  unfold rvlcScaleFactors
  with_reducible repeat' first
    | exact keeps_pure _ _ | apply keeps_bind | assumption | intro _ | apply rdSample_keeps | apply vxOfRd_keeps
    | apply vxRaise_keeps | apply vxRegs_keeps | apply vxSetRegs_keeps | apply mapGroups_keeps
    | apply rvlcBand_keeps | apply rvlcRuns_keeps | split

theorem pulseList_keeps (e : Env) (n : Nat) : Keeps CurOk (pulseList e n) := by
  induction n with
  | zero =>
    unfold pulseList
    with_reducible repeat' first
      | exact keeps_pure _ _
  | succ _ ih =>
    unfold pulseList
    with_reducible repeat' first
      | exact keeps_pure _ _ | apply keeps_bind | assumption | intro _ | apply ih | apply rdGet_keeps

theorem pulseData_keeps (e : Env) (k : Nat) : Keeps CurOk (pulseData e k) := by
  unfold pulseData
  with_reducible repeat' first
    | exact keeps_pure _ _ | apply keeps_bind | assumption | intro _ | apply rdRaise_keeps | apply rdGet_keeps
    | apply pulseList_keeps | split

theorem tnsFilterData_keeps (e : Env) (a b : Nat) (r : Bool) : Keeps CurOk (tnsFilterData e a b r) := by
  unfold tnsFilterData
  with_reducible repeat' first
    | exact keeps_pure _ _ | apply keeps_bind | assumption | intro _ | apply rdGet_keeps | apply rdBit_keeps
    | apply rdMany_keeps | split

theorem tnsFilters_keeps (e : Env) (a b : Nat) (r : Bool) (n : Nat) : Keeps CurOk (tnsFilters e a b r n) := by
  induction n with
  | zero =>
    unfold tnsFilters
    with_reducible repeat' first
      | exact keeps_pure _ _
  | succ _ ih =>
    unfold tnsFilters
    with_reducible repeat' first
      | exact keeps_pure _ _ | apply keeps_bind | assumption | intro _ | apply ih | apply tnsFilterData_keeps

theorem tnsWindows_keeps (e : Env) (short : Bool) (n : Nat) : Keeps CurOk (tnsWindows e short n) := by
  induction n with
  | zero =>
    unfold tnsWindows
    with_reducible repeat' first
      | exact keeps_pure _ _
  | succ _ ih =>
    unfold tnsWindows
    with_reducible repeat' first
      | exact keeps_pure _ _ | apply keeps_bind | assumption | intro _ | apply ih | apply rdGet_keeps
      | apply rdBit_keeps | apply tnsFilters_keeps | split

theorem tnsData_keeps (e : Env) (info : IcsInfo) : Keeps CurOk (tnsData e info) := by
  unfold tnsData
  with_reducible repeat' first
    | exact keeps_pure _ _ | apply keeps_bind | assumption | intro _ | apply tnsWindows_keeps

theorem spectralSection_keeps {n : Nat} (e : Env) (fl cb stop f k : Nat) (q : List Int) : Keeps (EngOk n)
    (spectralSection e fl cb stop f k q) := by
  induction f generalizing k q with
  | zero =>
    unfold spectralSection
    with_reducible repeat' first
      | exact keeps_pure _ _
  | succ _ ih =>
    unfold spectralSection
    with_reducible repeat' first
      | exact keeps_pure _ _ | apply keeps_bind | assumption | intro _ | apply ih | apply vxRaise_keeps
      | apply vxRegs_keeps | apply hcw_keeps | split

theorem spectralGroup_keeps {n : Nat} (e : Env) (fl base : Nat) (o : List Nat) (l : List Section) (q : List
    Int) : Keeps (EngOk n) (spectralGroup e fl base o l q) := by
  induction l generalizing q with
  | nil =>
    unfold spectralGroup
    with_reducible repeat' first
      | exact keeps_pure _ _
  | cons _ _ ih =>
    unfold spectralGroup
    with_reducible repeat' first
      | exact keeps_pure _ _ | apply keeps_bind | assumption | intro _ | apply ih | apply spectralSection_keeps
      | split

theorem spectralGroups_keeps {n : Nat} (e : Env) (fl base : Nat) (l : List (List Section × List Nat × Nat)) (q
    : List Int) : Keeps (EngOk n) (spectralGroups e fl base l q) := by
  induction l generalizing base q with
  | nil =>
    unfold spectralGroups
    with_reducible repeat' first
      | exact keeps_pure _ _
  | cons _ _ ih =>
    unfold spectralGroups
    with_reducible repeat' first
      | exact keeps_pure _ _ | apply keeps_bind | assumption | intro _ | apply ih | apply spectralGroup_keeps

theorem spectralData_keeps {n : Nat} (e : Env) (fl : Nat) (info : IcsInfo) (l : List (List Section)) : Keeps
    (EngOk n) (spectralData e fl info l) := by
  unfold spectralData
  with_reducible repeat' first
    | exact keeps_pure _ _ | apply keeps_bind | assumption | intro _ | apply rdSample_keeps | apply vxOfRd_keeps
    | apply spectralGroups_keeps

theorem chanIcs_keeps {n : Nat} (c : Nat) : Keeps (WorkOk n) (chanIcs c) := by
  unfold chanIcs
  with_reducible repeat' first
    | exact keeps_pure _ _ | apply keeps_bind | assumption | intro _ | apply wkChan_keeps

theorem rememberLag_keeps {n : Nat} (c : Nat) (l : Option Ltp) : Keeps (WorkOk n) (rememberLag c l) := by
  unfold rememberLag
  with_reducible repeat' first
    | exact keeps_pure _ _ | apply keeps_bind | assumption | intro _ | apply wkSetDs_keeps | split

theorem icsInfoOne_keeps {n : Nat} (e : Env) (c : Nat) : Keeps (WorkOk n) (icsInfoOne e c) := by
  unfold icsInfoOne
  with_reducible repeat' first
    | exact keeps_pure _ _ | apply keeps_bind | assumption | intro _ | apply wkOfRd_keeps | apply wkDs_keeps
    | apply wkSc_keeps | apply wkSetChan_keeps | apply icsInfo_keeps | apply rememberLag_keeps

theorem icsInfoPair_keeps {n : Nat} (e : Env) (a b : Nat) : Keeps (WorkOk n) (icsInfoPair e a b) := by
  unfold icsInfoPair
  with_reducible repeat' first
    | exact keeps_pure _ _ | apply keeps_bind | assumption | intro _ | apply wkOfRd_keeps | apply wkDs_keeps
    | apply wkSc_keeps | apply wkSetChan_keeps | apply icsInfo_keeps | apply rememberLag_keeps

theorem scaleFactorPart_keeps {n : Nat} (e : Env) (sc : StreamCfg) (g : Nat) (short noise : Bool) (l : List
    (List Nat)) : Keeps (WorkOk n) (scaleFactorPart e sc g short noise l) := by
  unfold scaleFactorPart
  with_reducible repeat' first
    | exact keeps_pure _ _ | apply keeps_bind | assumption | intro _ | apply wkOfRd_keeps | apply wkOfVx_keeps
    | apply wkRaise_keeps | apply scaleFactorData_keeps | apply rvlcSideInfo_keeps | split

theorem optionalPart_keeps {α : Type} (e : Env) (p : Rd α) (hp : Keeps CurOk p) : Keeps CurOk (optionalPart e p) := by
  unfold optionalPart
  with_reducible repeat' first
    | exact keeps_pure _ _ | apply keeps_bind | assumption | intro _ | apply rdBit_keeps | split

theorem rvlcPart_keeps {n : Nat} (e : Env) (g : Nat) (l : List (List Nat)) (x : List (List Int) × Option
    RvlcSide) : Keeps (WorkOk n) (rvlcPart e g l x) := by
  unfold rvlcPart
  with_reducible repeat' first
    | exact keeps_pure _ _ | apply keeps_bind | assumption | intro _ | apply wkOfVx_keeps
    | apply rvlcScaleFactors_keeps | split

theorem icsParse_keeps {n : Nat} (e : Env) (c : Nat) (common : Bool) : Keeps (WorkOk n) (icsParse e c common) := by
  unfold icsParse
  with_reducible repeat' first
    | exact keeps_pure _ _ | apply keeps_bind | assumption | intro _ | apply rdGet_keeps | apply wkOfRd_keeps
    | apply wkOfVx_keeps | apply wkRaise_keeps | apply wkSc_keeps | apply wkSetChan_keeps | apply rdBit_keeps
    | apply sectionData_keeps | apply pulseData_keeps | apply tnsData_keeps | apply spectralData_keeps
    | apply chanIcs_keeps | apply icsInfoOne_keeps | apply scaleFactorPart_keeps | apply optionalPart_keeps
    | apply rvlcPart_keeps | split

/-! ## Reconstruction -/

theorem setSpec_keeps {n : Nat} (c : Nat) (v : List Sample) : Keeps (WorkOk n) (setSpec c v) := by
  unfold setSpec
  with_reducible repeat' first
    | exact keeps_pure _ _ | apply keeps_bind | assumption | intro _ | apply wkSetChan_keeps

theorem stageDequant_keeps {n : Nat} (c : Nat) : Keeps (WorkOk n) (stageDequant c) := by
  unfold stageDequant
  with_reducible repeat' first
    | exact keeps_pure _ _ | apply keeps_bind | assumption | intro _ | apply wkRaise_keeps | apply wkSc_keeps
    | apply wkChan_keeps | apply chanIcs_keeps | apply setSpec_keeps | split

theorem stagePulsePre_keeps {n : Nat} (c : Nat) : Keeps (WorkOk n) (stagePulsePre c) := by
  unfold stagePulsePre
  with_reducible repeat' first
    | exact keeps_pure _ _ | apply keeps_bind | assumption | intro _ | apply wkRaise_keeps | apply wkSc_keeps
    | apply wkChan_keeps | apply wkSetChan_keeps | apply chanIcs_keeps | split

theorem stagePulsePost_keeps {n : Nat} (c : Nat) : Keeps (WorkOk n) (stagePulsePost c) := by
  unfold stagePulsePost
  with_reducible repeat' first
    | exact keeps_pure _ _ | apply keeps_bind | assumption | intro _ | apply wkRaise_keeps | apply wkSc_keeps
    | apply wkChan_keeps | apply chanIcs_keeps | apply setSpec_keeps | split

theorem stageDequantPulse_keeps {n : Nat} (e : Env) (c : Nat) : Keeps (WorkOk n) (stageDequantPulse e c) := by
  unfold stageDequantPulse
  with_reducible repeat' first
    | exact keeps_pure _ _ | apply keeps_bind | assumption | intro _ | apply stageDequant_keeps
    | apply stagePulsePre_keeps | apply stagePulsePost_keeps | split

theorem stageTns_keeps {n : Nat} (e : Env) (c : Nat) : Keeps (WorkOk n) (stageTns e c) := by
  unfold stageTns
  with_reducible repeat' first
    | exact keeps_pure _ _ | apply keeps_bind | assumption | intro _ | apply wkSc_keeps | apply wkChan_keeps
    | apply chanIcs_keeps | apply setSpec_keeps | split

theorem stageLtp_keeps {n : Nat} (e : Env) (c : Nat) : Keeps (WorkOk n) (stageLtp e c) := by
  unfold stageLtp
  with_reducible repeat' first
    | exact keeps_pure _ _ | apply keeps_bind | assumption | intro _ | apply wkDs_keeps | apply wkSc_keeps
    | apply wkChan_keeps | apply chanIcs_keeps | apply setSpec_keeps | split

theorem stagePnsOne_keeps {n : Nat} (c : Nat) : Keeps (WorkOk n) (stagePnsOne c) := by
  unfold stagePnsOne
  with_reducible repeat' first
    | exact keeps_pure _ _ | apply keeps_bind | assumption | intro _ | apply wkDs_keeps | apply wkSc_keeps
    | apply wkSetDs_keeps | apply wkChan_keeps | apply chanIcs_keeps | apply setSpec_keeps

theorem stagePnsPair_keeps {n : Nat} (c d : Nat) : Keeps (WorkOk n) (stagePnsPair c d) := by
  unfold stagePnsPair
  with_reducible repeat' first
    | exact keeps_pure _ _ | apply keeps_bind | assumption | intro _ | apply wkDs_keeps | apply wkSc_keeps
    | apply wkSetDs_keeps | apply wkChan_keeps | apply chanIcs_keeps | apply setSpec_keeps

theorem stageStereo_keeps {n : Nat} (c d : Nat) : Keeps (WorkOk n) (stageStereo c d) := by
  unfold stageStereo
  with_reducible repeat' first
    | exact keeps_pure _ _ | apply keeps_bind | assumption | intro _ | apply wkSc_keeps | apply wkChan_keeps
    | apply chanIcs_keeps | apply setSpec_keeps

theorem stageFilterbank_keeps {n : Nat} (e : Env) (c : Nat) : Keeps (WorkOk n) (stageFilterbank e c) := by
  unfold stageFilterbank
  with_reducible repeat' first
    | exact keeps_pure _ _ | apply keeps_bind | assumption | intro _ | apply wkDs_keeps | apply wkSc_keeps
    | apply wkSetDs_keeps | apply wkChan_keeps | apply wkSetChan_keeps | apply chanIcs_keeps

theorem reconstructCore_keeps {n : Nat} (e : Env) (cs : List Nat) (pns stereo : Wk Unit) (hp : Keeps (WorkOk n)
    pns) (hs : Keeps (WorkOk n) stereo) : Keeps (WorkOk n) (reconstructCore e cs pns stereo) := by
  unfold reconstructCore
  with_reducible repeat' first
    | exact keeps_pure _ _ | apply keeps_bind | assumption | intro _ | apply wkForEach_keeps
    | apply stageDequantPulse_keeps | apply stageTns_keeps | apply stageLtp_keeps | apply stageFilterbank_keeps
    | split

/-! ## The PS and SBR payloads -/

theorem psMode_keeps (e : Env) (o : Nat) : Keeps CurOk (psMode e o) := by
  unfold psMode
  with_reducible repeat' first
    | exact keeps_pure _ _ | apply keeps_bind | assumption | intro _ | apply rdGet_keeps | apply rdBit_keeps | split

theorem psHeader_keeps (e : Env) (c : PsCfg) : Keeps CurOk (psHeader e c) := by
  unfold psHeader
  with_reducible repeat' first
    | exact keeps_pure _ _ | apply keeps_bind | assumption | intro _ | apply rdBit_keeps | apply psMode_keeps
    | split

theorem psBorders_keeps (e : Env) (ts : Nat) : Keeps CurOk (psBorders e ts) := by
  unfold psBorders
  with_reducible repeat' first
    | exact keeps_pure _ _ | apply keeps_bind | assumption | intro _ | apply rdGet_keeps | apply rdBit_keeps
    | apply rdMany_keeps | split

theorem psDeltas_keeps {n : Nat} (e : Env) (b : Book) (kind mode : Nat) (t : Bool) (p : List Int) (k i : Nat)
    (v : Int) : Keeps (EngOk n) (psDeltas e b kind mode t p k i v) := by
  induction k generalizing i v with
  | zero =>
    unfold psDeltas
    with_reducible repeat' first
      | exact keeps_pure _ _
  | succ _ ih =>
    unfold psDeltas
    with_reducible repeat' first
      | exact keeps_pure _ _ | apply keeps_bind | assumption | intro _ | apply ih | apply codewordIndex_keeps

theorem psEnvelope_keeps {n : Nat} (e : Env) (kind mode k : Nat) (p : List Int) : Keeps (EngOk n) (psEnvelope e
    kind mode k p) := by
  unfold psEnvelope
  with_reducible repeat' first
    | exact keeps_pure _ _ | apply keeps_bind | assumption | intro _ | apply vxOfRd_keeps | apply rdBit_keeps
    | apply psDeltas_keeps

theorem psOptional_keeps {n : Nat} (e : Env) (on : Bool) (kind mode k : Nat) (p : List Int) : Keeps (EngOk n)
    (psOptional e on kind mode k p) := by
  unfold psOptional
  with_reducible repeat' first
    | exact keeps_pure _ _ | apply keeps_bind | assumption | intro _ | apply psEnvelope_keeps | split

theorem psLevels_keeps {n : Nat} (e : Env) (h : PsHeader) (k : Nat) (a b : List Int) : Keeps (EngOk n)
    (psLevels e h k a b) := by
  induction k generalizing a b with
  | zero =>
    unfold psLevels
    with_reducible repeat' first
      | exact keeps_pure _ _
  | succ _ ih =>
    unfold psLevels
    with_reducible repeat' first
      | exact keeps_pure _ _ | apply keeps_bind | assumption | intro _ | apply ih | apply psOptional_keeps

theorem psPhases_keeps {n : Nat} (e : Env) (h : PsHeader) (k : Nat) (a b : List Int) : Keeps (EngOk n)
    (psPhases e h k a b) := by
  induction k generalizing a b with
  | zero =>
    unfold psPhases
    with_reducible repeat' first
      | exact keeps_pure _ _
  | succ _ ih =>
    unfold psPhases
    with_reducible repeat' first
      | exact keeps_pure _ _ | apply keeps_bind | assumption | intro _ | apply ih | apply psEnvelope_keeps

theorem psExtension_keeps {n : Nat} (e : Env) (h : PsHeader) (k : Nat) (s : PsState) : Keeps (EngOk n)
    (psExtension e h k s) := by
  unfold psExtension
  with_reducible repeat' first
    | exact keeps_pure _ _ | apply keeps_bind | assumption | intro _ | apply vxOfRd_keeps | apply rdBit_keeps
    | apply psPhases_keeps | split

theorem psParse_keeps {n : Nat} (e : Env) (ts : Nat) (s : PsState) : Keeps (EngOk n) (psParse e ts s) := by
  unfold psParse
  with_reducible repeat' first
    | exact keeps_pure _ _ | apply keeps_bind | assumption | intro _ | apply vxOfRd_keeps | apply psHeader_keeps
    | apply psBorders_keeps | apply psLevels_keeps | apply psExtension_keeps

theorem sbrExtra1_keeps (e : Env) (b : Bool) : Keeps CurOk (sbrExtra1 e b) := by
  unfold sbrExtra1
  with_reducible repeat' first
    | exact keeps_pure _ _ | apply keeps_bind | assumption | intro _ | apply rdGet_keeps | split

theorem sbrExtra2_keeps (e : Env) (b : Bool) : Keeps CurOk (sbrExtra2 e b) := by
  unfold sbrExtra2
  with_reducible repeat' first
    | exact keeps_pure _ _ | apply keeps_bind | assumption | intro _ | apply rdGet_keeps | split

theorem sbrHeader_keeps (e : Env) : Keeps CurOk (sbrHeader e) := by
  unfold sbrHeader
  with_reducible repeat' first
    | exact keeps_pure _ _ | apply keeps_bind | assumption | intro _ | apply rdGet_keeps | apply rdBit_keeps
    | apply sbrExtra1_keeps | apply sbrExtra2_keeps

theorem sbrRebuild_keeps (e : Env) (r : Nat) (s : SbrState) : Keeps CurOk (sbrRebuild e r s) := by
  unfold sbrRebuild
  with_reducible repeat' first
    | exact keeps_pure _ _ | apply rdRaise_keeps | split

theorem sbrHeaderPart_keeps (e : Env) (b : Bool) : Keeps CurOk (sbrHeaderPart e b) := by
  unfold sbrHeaderPart
  with_reducible repeat' first
    | exact keeps_pure _ _ | apply keeps_bind | assumption | intro _ | apply rdGet_keeps | apply rdBit_keeps
    | apply sbrHeader_keeps | split

theorem sbrGridParse_keeps (e : Env) (ts : Nat) (c : SbrChan) : Keeps CurOk (sbrGridParse e ts c) := by
  unfold sbrGridParse
  with_reducible repeat' first
    | exact keeps_pure _ _ | apply keeps_bind | assumption | intro _ | apply rdRaise_keeps | apply rdGet_keeps
    | apply rdSeek_keeps | apply rdCursor_keeps | split | dsimp only

theorem sbrDeltas_keeps {n : Nat} (e : Env) (b : Book) (t : Bool) (p : SbrVector) (l : List Nat) (v : Int) : Keeps
    (EngOk n) (sbrDeltas e b t p l v) := by
  induction l generalizing v with
  | nil =>
    unfold sbrDeltas
    with_reducible repeat' first
      | exact keeps_pure _ _
  | cons _ _ ih =>
    unfold sbrDeltas
    with_reducible repeat' first
      | exact keeps_pure _ _ | apply keeps_bind | assumption | intro _ | apply ih | apply codewordIndex_keeps

theorem sbrVector_keeps {n : Nat} (e : Env) (x y : Bool) (a : Nat) (t : Bool) (p : SbrVector) (l : List Nat) : Keeps
    (EngOk n) (sbrVector e x y a t p l) := by
  unfold sbrVector
  with_reducible repeat' first
    | exact keeps_pure _ _ | apply keeps_bind | assumption | intro _ | apply rdGet_keeps | apply vxOfRd_keeps
    | apply sbrDeltas_keeps | split

theorem sbrVectors_keeps {n : Nat} (e : Env) (x y : Bool) (a : Nat) (l : List (Bool × List Nat)) (p : SbrVector) :
    Keeps (EngOk n) (sbrVectors e x y a l p) := by
  induction l generalizing p with
  | nil =>
    unfold sbrVectors
    with_reducible repeat' first
      | exact keeps_pure _ _
  | cons _ _ ih =>
    unfold sbrVectors
    with_reducible repeat' first
      | exact keeps_pure _ _ | apply keeps_bind | assumption | intro _ | apply ih | apply sbrVector_keeps

theorem sbrDirections_keeps (e : Env) (d : SbrChanData) : Keeps CurOk (sbrDirections e d) := by
  unfold sbrDirections
  with_reducible repeat' first
    | exact keeps_pure _ _ | apply keeps_bind | assumption | intro _ | apply rdManyBits_keeps

theorem sbrHarmonics_keeps (e : Env) (t : SbrTables) : Keeps CurOk (sbrHarmonics e t) := by
  unfold sbrHarmonics
  with_reducible repeat' first
    | exact keeps_pure _ _ | apply keeps_bind | assumption | intro _ | apply rdBit_keeps | apply rdManyBits_keeps
    | split

theorem sbrExtension_keeps {n : Nat} (e : Env) (ts k : Nat) (on : Bool) (ps : PsState) (f : Nat) (acc : Option
    PsData) : Keeps (EngOk n) (sbrExtension e ts k on ps f acc) := by
  induction f generalizing acc with
  | zero =>
    unfold sbrExtension
    with_reducible repeat' first
      | exact keeps_pure _ _
  | succ _ ih =>
    unfold sbrExtension
    with_reducible repeat' first
      | exact keeps_pure _ _ | apply keeps_bind | assumption | intro _ | apply ih | apply rdGet_keeps
      | apply rdCursor_keeps | apply vxOfRd_keeps | apply psParse_keeps | split

theorem sbrExtended_keeps {n : Nat} (e : Env) (ts : Nat) (on : Bool) (ps : PsState) : Keeps (EngOk n)
    (sbrExtended e ts on ps) := by
  unfold sbrExtended
  with_reducible repeat' first
    | exact keeps_pure _ _ | apply keeps_bind | assumption | intro _ | apply rdGet_keeps | apply rdSeek_keeps
    | apply rdCursor_keeps | apply vxOfRd_keeps | apply rdBit_keeps | apply sbrExtension_keeps | split

theorem sbrGrids_keeps (e : Env) (ts : Nat) (s : SbrState) (pair coupling : Bool) : Keeps CurOk (sbrGrids e
    ts s pair coupling) := by
  unfold sbrGrids
  with_reducible repeat' first
    | exact keeps_pure _ _ | apply keeps_bind | assumption | intro _ | apply sbrGridParse_keeps | split

theorem sbrEach_keeps {n : Nat} {α : Type} (f : Nat → SbrChanData → Vx α) (i : Nat) (l : List SbrChanData) (hf
    : ∀ i d, Keeps (EngOk n) (f i d)) : Keeps (EngOk n) (sbrEach f i l) := by
  induction l generalizing i with
  | nil =>
    unfold sbrEach
    with_reducible repeat' first
      | exact keeps_pure _ _
  | cons _ _ ih =>
    unfold sbrEach
    with_reducible repeat' first
      | exact keeps_pure _ _ | apply keeps_bind | assumption | intro _ | apply ih | apply hf

theorem sbrEnvData_keeps {n : Nat} (e : Env) (a : Nat) (t : SbrTables) (c : Bool) (s : SbrState)
    (ds : List (List Bool × List Bool)) (i : Nat) (d : SbrChanData) : Keeps (EngOk n) (sbrEnvData e a t c s ds i d) := by
  unfold sbrEnvData
  with_reducible repeat' first
    | exact keeps_pure _ _ | apply keeps_bind | assumption | intro _ | apply sbrVectors_keeps

theorem sbrNoiseData_keeps {n : Nat} (e : Env) (a : Nat) (t : SbrTables) (c : Bool) (s : SbrState)
    (ds : List (List Bool × List Bool)) (i : Nat) (d : SbrChanData) :
    Keeps (EngOk n) (sbrNoiseData e a t c s ds i d) := by
  unfold sbrNoiseData
  with_reducible repeat' first
    | exact keeps_pure _ _ | apply keeps_bind | assumption | intro _ | apply sbrVectors_keeps

theorem sbrElementData_keeps {n : Nat} (e : Env) (ts : Nat) (pair : Bool) (s : SbrState) (a : Nat) :
    Keeps (EngOk n) (sbrElementData e ts pair s a) := by
  unfold sbrElementData
  with_reducible repeat' first
    | exact keeps_pure _ _ | apply keeps_bind | assumption | intro _ | apply vxOfRd_keeps | apply rdBit_keeps
    | apply rdMany_keeps | apply sbrDirections_keeps | apply sbrHarmonics_keeps | apply sbrExtended_keeps
    | apply sbrGrids_keeps | apply sbrEach_keeps | apply sbrEnvData_keeps | apply sbrNoiseData_keeps | split

theorem sbrDataPart_keeps {n : Nat} (e : Env) (ts : Nat) (pair : Bool) (s : SbrState) :
    Keeps (EngOk n) (sbrDataPart e ts pair s) := by
  unfold sbrDataPart
  with_reducible repeat' first
    | exact keeps_pure _ _ | apply keeps_bind | assumption | intro _ | apply rdSample_keeps
    | apply vxOfRd_keeps | apply sbrElementData_keeps | split

/-! ## The elements -/

theorem fillCount_keeps (e : Env) : Keeps CurOk (fillCount e) := by
  unfold fillCount
  with_reducible repeat' first
    | exact keeps_pure _ _ | apply keeps_bind | assumption | intro _ | apply rdGet_keeps | split

theorem sbrFill_keeps (e : Env) : Keeps CurOk (sbrFill e) := by
  unfold sbrFill
  with_reducible repeat' first
    | exact keeps_pure _ _ | apply keeps_bind | assumption | intro _ | apply rdPeek_keeps | apply rdFlush_keeps
    | apply rdSeek_keeps | apply rdCursor_keeps | apply fillCount_keeps | split

theorem sbrSlot_keeps {n : Nat} (e : Env) (i : Nat) : Keeps (WorkOk n) (sbrSlot e i) := by
  unfold sbrSlot
  with_reducible repeat' first
    | exact keeps_pure _ _ | apply keeps_bind | assumption | intro _ | apply wkDs_keeps | apply wkSetDs_keeps
    | split

theorem setSbr_keeps {n : Nat} (i : Nat) (s : SbrState) : Keeps (WorkOk n) (setSbr i s) := by
  unfold setSbr
  with_reducible repeat' first
    | exact keeps_pure _ _ | apply keeps_bind | assumption | intro _ | apply wkSetDs_keeps

theorem setSbrData_keeps {n : Nat} (b : Bool) : Keeps (WorkOk n) (setSbrData b) := by
  unfold setSbrData
  with_reducible repeat' first
    | exact keeps_pure _ _ | apply keeps_bind | assumption | intro _ | apply wkSetFrm_keeps

theorem sbrParse_keeps {n : Nat} (e : Env) (i : Nat) (pair crc : Bool) (s : SbrState) : Keeps (WorkOk n)
    (sbrParse e i pair crc s) := by
  unfold sbrParse
  with_reducible repeat' first
    | exact keeps_pure _ _ | apply keeps_bind | assumption | intro _ | apply wkOfRd_keeps | apply wkOfVx_keeps
    | apply wkSc_keeps | apply wkSetFrm_keeps | apply setSbr_keeps | apply sbrHeaderPart_keeps | apply sbrRebuild_keeps
    | apply sbrDataPart_keeps

theorem sbrAttachTo_keeps {n : Nat} (e : Env) (i : Nat) (pair : Bool) (x : FillPayload) : Keeps (WorkOk n)
    (sbrAttachTo e i pair x) := by
  unfold sbrAttachTo
  with_reducible repeat' first
    | exact keeps_pure _ _ | apply keeps_bind | assumption | intro _ | apply wkBounded_keeps | apply wkSetSc_keeps
    | apply sbrParse_keeps | apply sbrSlot_keeps | apply setSbrData_keeps | split

theorem attachSbr_keeps {n : Nat} (e : Env) (i : Nat) (pair : Bool) : Keeps (WorkOk n) (attachSbr e i pair) := by
  unfold attachSbr
  with_reducible repeat' first
    | exact keeps_pure _ _ | apply keeps_bind | assumption | intro _ | apply rdSeek_keeps | apply wkOfRd_keeps
    | apply wkSetFrm_keeps | apply sbrFill_keeps | apply setSbrData_keeps | apply sbrAttachTo_keeps | split

theorem chanTimes_keeps {n : Nat} (l : List Nat) : Keeps (WorkOk n) (chanTimes l) := by
  induction l with
  | nil =>
    unfold chanTimes
    with_reducible repeat' first
      | exact keeps_pure _ _
  | cons _ _ ih =>
    unfold chanTimes
    with_reducible repeat' first
      | exact keeps_pure _ _ | apply keeps_bind | assumption | intro _ | apply ih | apply wkChan_keeps

theorem setTime2_keeps {n : Nat} (c : Nat) (l : List (List Sample)) : Keeps (WorkOk n) (setTime2 c l) := by
  induction l generalizing c with
  | nil =>
    unfold setTime2
    with_reducible repeat' first
      | exact keeps_pure _ _
  | cons _ _ ih =>
    unfold setTime2
    with_reducible repeat' first
      | exact keeps_pure _ _ | apply keeps_bind | assumption | intro _ | apply ih | apply wkSetChan_keeps

theorem keepSbr_keeps {n : Nat} (i : Nat) (s : SbrState) : Keeps (WorkOk n) (keepSbr i s) := by
  unfold keepSbr
  with_reducible repeat' first
    | exact keeps_pure _ _ | apply keeps_bind | assumption | intro _ | apply wkDs_keeps | apply setSbr_keeps | split

theorem storeTime2_keeps {n : Nat} (e : Env) (c : Nat) (l : List (List Sample)) : Keeps (WorkOk n)
    (storeTime2 e c l) := by
  unfold storeTime2
  with_reducible repeat' first
    | exact keeps_pure _ _ | apply keeps_bind | assumption | intro _ | apply wkRaise_keeps | apply setTime2_keeps
    | split

theorem stageSbr_keeps {n : Nat} (e : Env) (i c : Nat) (cs : List Nat) (pair : Bool) : Keeps (WorkOk n)
    (stageSbr e i c cs pair) := by
  unfold stageSbr
  with_reducible repeat' first
    | exact keeps_pure _ _ | apply keeps_bind | assumption | intro _ | apply wkFrm_keeps | apply wkDs_keeps
    | apply wkSc_keeps | apply wkSetFrm_keeps | apply sbrSlot_keeps | apply keepSbr_keeps | apply chanTimes_keeps
    | apply storeTime2_keeps
    | split | dsimp only

theorem reconstructOne_keeps {n : Nat} (e : Env) (i c : Nat) : Keeps (WorkOk n) (reconstructOne e i c) := by
  unfold reconstructOne
  with_reducible repeat' first
    | exact keeps_pure _ _ | apply keeps_bind | assumption | intro _ | apply stagePnsOne_keeps
    | apply reconstructCore_keeps | apply stageSbr_keeps

theorem reconstructPair_keeps {n : Nat} (e : Env) (i c : Nat) (common : Bool) : Keeps (WorkOk n)
    (reconstructPair e i c common) := by
  unfold reconstructPair
  with_reducible repeat' first
    | exact keeps_pure _ _ | apply keeps_bind | assumption | intro _ | apply stagePnsPair_keeps
    | apply stageStereo_keeps | apply reconstructCore_keeps | apply stageSbr_keeps | split

theorem beginElement_keeps {n : Nat} (e : Env) (id : BitVec 3) (k : Nat) (pair : Bool) : Keeps (WorkOk n)
    (beginElement e id k pair) := by
  unfold beginElement
  with_reducible repeat' first
    | exact keeps_pure _ _ | apply keeps_bind | assumption | intro _ | apply rdGet_keeps | apply vxSetRegs_keeps
    | apply wkOfRd_keeps | apply wkOfVx_keeps | apply wkRaise_keeps | apply wkDs_keeps | apply wkSetFrm_keeps
    | split

theorem endElement_keeps {n : Nat} (k : Nat) : Keeps (WorkOk n) (endElement k) := by
  unfold endElement
  with_reducible repeat' first
    | exact keeps_pure _ _ | apply keeps_bind | assumption | intro _ | apply wkSetDs_keeps

theorem sceBody_keeps {n : Nat} (e : Env) : Keeps (WorkOk n) (sceBody e) := by
  unfold sceBody
  with_reducible repeat' first
    | exact keeps_pure _ _ | apply keeps_bind | assumption | intro _ | apply wkFrm_keeps | apply wkDs_keeps
    | apply icsParse_keeps | apply attachSbr_keeps | apply reconstructOne_keeps | apply beginElement_keeps
    | apply endElement_keeps

theorem lfeBody_keeps {n : Nat} (e : Env) : Keeps (WorkOk n) (lfeBody e) := by
  unfold lfeBody
  with_reducible repeat' first
    | exact keeps_pure _ _ | apply keeps_bind | assumption | intro _ | apply wkDs_keeps | apply icsParse_keeps
    | apply reconstructOne_keeps | apply beginElement_keeps | apply endElement_keeps

theorem msRows_keeps (e : Env) (m n : Nat) : Keeps CurOk (msRows e m n) := by
  induction n with
  | zero =>
    unfold msRows
    with_reducible repeat' first
      | exact keeps_pure _ _
  | succ _ ih =>
    unfold msRows
    with_reducible repeat' first
      | exact keeps_pure _ _ | apply keeps_bind | assumption | intro _ | apply ih | apply rdManyBits_keeps

theorem msMask_keeps (e : Env) (info : IcsInfo) : Keeps CurOk (msMask e info) := by
  unfold msMask
  with_reducible repeat' first
    | exact keeps_pure _ _ | apply keeps_bind | assumption | intro _ | apply rdRaise_keeps | apply rdGet_keeps
    | apply msRows_keeps | split

theorem commonWindow_keeps {n : Nat} (e : Env) (a b : Nat) : Keeps (WorkOk n) (commonWindow e a b) := by
  unfold commonWindow
  with_reducible repeat' first
    | exact keeps_pure _ _ | apply keeps_bind | assumption | intro _ | apply wkOfRd_keeps | apply wkSetChan_keeps
    | apply chanIcs_keeps | apply icsInfoPair_keeps | apply msMask_keeps

theorem cpeBody_keeps {n : Nat} (e : Env) : Keeps (WorkOk n) (cpeBody e) := by
  unfold cpeBody
  with_reducible repeat' first
    | exact keeps_pure _ _ | apply keeps_bind | assumption | intro _ | apply wkOfRd_keeps | apply wkDs_keeps
    | apply wkSetFrm_keeps | apply rdBit_keeps | apply icsParse_keeps | apply attachSbr_keeps
    | apply reconstructPair_keeps | apply beginElement_keeps | apply endElement_keeps | apply commonWindow_keeps
    | split

theorem cceBody_keeps {n : Nat} : Keeps (WorkOk n) (cceBody ) := by
  unfold cceBody
  with_reducible repeat' first
    | exact keeps_pure _ _ | apply keeps_bind | assumption | intro _ | apply wkRaise_keeps

theorem dseBody_keeps (e : Env) : Keeps CurOk (dseBody e) := by
  unfold dseBody
  with_reducible repeat' first
    | exact keeps_pure _ _ | apply keeps_bind | assumption | intro _ | apply rdGet_keeps | apply rdByteAlign_keeps
    | apply rdBit_keeps | apply rdFlushMany_keeps | split

theorem pceBody_keeps {n : Nat} (e : Env) : Keeps (WorkOk n) (pceBody e) := by
  unfold pceBody
  with_reducible repeat' first
    | exact keeps_pure _ _ | apply keeps_bind | assumption | intro _ | apply wkOfRd_keeps | apply wkDs_keeps
    | apply wkSc_keeps | apply wkSetDs_keeps | apply pceParse_keeps | split

theorem filBody_keeps (e : Env) : Keeps CurOk (filBody e) := by
  unfold filBody
  with_reducible repeat' first
    | exact keeps_pure _ _ | apply keeps_bind | assumption | intro _ | apply rdSeek_keeps | apply rdCursor_keeps
    | apply fillCount_keeps

theorem endBody_keeps {n : Nat} : Keeps (WorkOk n) (endBody ) := by
  unfold endBody
  with_reducible repeat' first
    | exact keeps_pure _ _ | apply keeps_bind | assumption | intro _ | apply wkSetFrm_keeps

theorem elementBody_keeps {n : Nat} (e : Env) (id : Nat) : Keeps (WorkOk n) (elementBody e id) := by
  unfold elementBody
  with_reducible repeat' first
    | exact keeps_pure _ _ | apply keeps_bind | assumption | intro _ | apply wkOfRd_keeps | apply sceBody_keeps
    | apply lfeBody_keeps | apply cpeBody_keeps | apply cceBody_keeps | apply dseBody_keeps | apply pceBody_keeps
    | apply filBody_keeps | apply endBody_keeps | split

theorem rawLoop_keeps {n : Nat} (e : Env) (k : Nat) : Keeps (WorkOk n) (rawLoop e k) := by
  induction k with
  | zero =>
    unfold rawLoop
    with_reducible repeat' first
      | exact keeps_pure _ _ | apply keeps_bind | assumption | intro _ | apply rdSample_keeps | apply rdGet_keeps
      | apply wkOfRd_keeps
  | succ _ ih =>
    unfold rawLoop
    with_reducible repeat' first
      | exact keeps_pure _ _ | apply keeps_bind | assumption | intro _ | apply ih | apply rdSample_keeps
      | apply rdGet_keeps | apply wkOfRd_keeps | apply wkFrm_keeps | apply elementBody_keeps | split

theorem rawDataBlock_keeps {n : Nat} (e : Env) : Keeps (WorkOk n) (rawDataBlock e) := by
  unfold rawDataBlock
  with_reducible repeat' first
    | exact keeps_pure _ _ | apply keeps_bind | assumption | intro _ | apply rdCursor_keeps | apply wkOfRd_keeps
    | apply wkSetFrm_keeps | apply rawLoop_keeps

/-! ## The commands -/

theorem initCommon_keeps {n : Nat} (e : Env) (ok : Bool) (sig : SbrSignal) : Keeps (WorkOk n) (initCommon e ok
    sig) := by
  unfold initCommon
  with_reducible repeat' first
    | exact keeps_pure _ _ | apply keeps_bind | assumption | intro _ | apply wkRaise_keeps | apply wkDs_keeps
    | apply wkSc_keeps | apply wkSetDs_keeps | apply wkSetSc_keeps | split

theorem commitAsc_keeps {n : Nat} (c : Cap) (a : Asc) : Keeps (WorkOk n) (commitAsc c a) := by
  unfold commitAsc
  with_reducible repeat' first
    | exact keeps_pure _ _ | apply keeps_bind | assumption | intro _ | apply wkSetDs_keeps | apply wkSetSc_keeps

theorem initAdif_keeps {n : Nat} (e : Env) : Keeps (WorkOk n) (initAdif e) := by
  unfold initAdif
  with_reducible repeat' first
    | exact keeps_pure _ _ | apply keeps_bind | assumption | intro _ | apply rdCursor_keeps | apply wkOfRd_keeps
    | apply wkSetFrm_keeps | apply wkSetDs_keeps | apply wkSetSc_keeps | apply adifHeader_keeps

theorem initAdts_keeps {n : Nat} (e : Env) : Keeps (WorkOk n) (initAdts e) := by
  unfold initAdts
  with_reducible repeat' first
    | exact keeps_pure _ _ | apply keeps_bind | assumption | intro _ | apply wkOfRd_keeps | apply wkSetFrm_keeps
    | apply wkSetSc_keeps | apply adtsHeader_keeps

theorem initLatm_keeps {n : Nat} (e : Env) : Keeps (WorkOk n) (initLatm e) := by
  unfold initLatm
  with_reducible repeat' first
    | exact keeps_pure _ _ | apply keeps_bind | assumption | intro _ | apply wkOfRd_keeps | apply wkSetSc_keeps
    | apply latmFrame_keeps | apply commitAsc_keeps | split

theorem initHeader_keeps {n : Nat} (e : Env) (b l : Nat) : Keeps (WorkOk n) (initHeader e b l) := by
  unfold initHeader
  with_reducible repeat' first
    | exact keeps_pure _ _ | apply keeps_bind | assumption | intro _ | apply rdCursor_keeps | apply wkOfRd_keeps
    | apply wkSetSc_keeps | apply initAdif_keeps | apply initAdts_keeps | apply initLatm_keeps | split

theorem initBody_keeps {n : Nat} (e : Env) (h : HostPorts) : Keeps (WorkOk n) (initBody e h) := by
  unfold initBody
  with_reducible repeat' first
    | exact keeps_pure _ _ | apply keeps_bind | assumption | intro _ | apply createCursor_keeps
    | apply initCommon_keeps | apply initHeader_keeps

theorem init2Body_keeps {n : Nat} (e : Env) (h : HostPorts) : Keeps (WorkOk n) (init2Body e h) := by
  unfold init2Body
  with_reducible repeat' first
    | exact keeps_pure _ _ | apply keeps_bind | assumption | intro _ | apply wkOfRd_keeps | apply wkSetSc_keeps
    | apply createCursor_keeps | apply ascParse_keeps | apply initCommon_keeps | apply commitAsc_keeps

theorem decodeAdts_keeps {n : Nat} (e : Env) : Keeps (WorkOk n) (decodeAdts e) := by
  unfold decodeAdts
  with_reducible repeat' first
    | exact keeps_pure _ _ | apply keeps_bind | assumption | intro _ | apply wkOfRd_keeps | apply wkRaise_keeps
    | apply wkSc_keeps | apply wkSetFrm_keeps | apply wkSetSc_keeps | apply adtsHeader_keeps | split

theorem decodeLatm_keeps {n : Nat} (e : Env) : Keeps (WorkOk n) (decodeLatm e) := by
  unfold decodeLatm
  with_reducible repeat' first
    | exact keeps_pure _ _ | apply keeps_bind | assumption | intro _ | apply wkOfRd_keeps | apply latmFrame_keeps
    | apply wkSetSc_keeps | apply commitAsc_keeps | split

theorem markHeader_keeps {n : Nat} : Keeps (WorkOk n) (markHeader ) := by
  unfold markHeader
  with_reducible repeat' first
    | exact keeps_pure _ _ | apply keeps_bind | assumption | intro _ | apply rdCursor_keeps | apply wkOfRd_keeps
    | apply wkSetFrm_keeps

theorem decodeHeader_keeps {n : Nat} (e : Env) : Keeps (WorkOk n) (decodeHeader e) := by
  unfold decodeHeader
  with_reducible repeat' first
    | exact keeps_pure _ _ | apply keeps_bind | assumption | intro _ | apply wkSc_keeps | apply decodeAdts_keeps
    | apply decodeLatm_keeps | apply markHeader_keeps | split

theorem decodeOutput_keeps {n : Nat} (e : Env) (k : Nat) : Keeps (WorkOk n) (decodeOutput e k) := by
  unfold decodeOutput
  with_reducible repeat' first
    | exact keeps_pure _ _ | apply keeps_bind | assumption | intro _ | apply rdByteAlign_keeps
    | apply rdCursor_keeps | apply wkOfRd_keeps | apply wkRaise_keeps | apply wkFrm_keeps | apply wkDs_keeps
    | apply wkSc_keeps | split | dsimp only

theorem decodeStart_keeps {n : Nat} (e : Env) (h : HostPorts) : Keeps (WorkOk n) (decodeStart e h) := by
  unfold decodeStart
  with_reducible repeat' first
    | exact keeps_pure _ _ | apply keeps_bind | assumption | intro _ | apply createCursor_keeps
    | apply decodeHeader_keeps

theorem decodeBlock_keeps {n : Nat} (e : Env) (h : HostPorts) : Keeps (WorkOk n) (decodeBlock e h) := by
  unfold decodeBlock
  with_reducible repeat' first
    | exact keeps_pure _ _ | apply keeps_bind | assumption | intro _ | apply rawDataBlock_keeps
    | apply decodeOutput_keeps

end Sys2Proof.Machine
end

