-- ==== Sys2Proof/Laws/Silent.lean ====
section
/-! SUPPORT. Field reads one after another in the working state, arrays of channels, and the laws of a silent channel: what
its stream parses to and what each reconstruction stage does to it (44_noiseless.md R281 to R304, 45_filterbank.md R330). -/

namespace Sys2Proof.Machine

/-- The working state n bits further on. -/
def Work.at (w : Work) (n : Nat) : Work :=
  { w with eng := { w.eng with bc := { w.eng.bc with pos := w.eng.bc.pos + n } } }

theorem rdGet_run {e : Env} {k : Cursor} {n : Nat} (h : k.canRead n = true) :
    Rd.get e n k = .ok (bitsAt e.mem k.base k.pos n) { k with pos := k.pos + n } := by
  show EStateM.Result.ok (k.get e.mem n).1 (k.get e.mem n).2 = _
  rw [Cursor.get_eq _ h]

/-- Whether n bits can be read one field after another. -/
def Work.hasBits (w : Work) (n : Nat) : Prop := w.eng.bc.err = false ∧ w.eng.bc.pos + n ≤ 8 * w.eng.bc.len

theorem readAt {e : Env} {w : Work} {n : Nat} (j : Nat) {k : Nat} (h : w.hasBits n) (hk : k ≤ 32) (hj : j + k ≤ n) :
    Wk.ofRd (Rd.get e k) (w.at j) = .ok (bitsAt e.mem w.eng.bc.base (w.eng.bc.pos + j) k) (w.at (j + k)) := by
  have hc : (w.at j).eng.bc.canRead k = true := by
    rw [Cursor.canRead_iff]
    obtain ⟨h1, h2⟩ := h
    exact ⟨h1, hk, by simp only [Work.at, Cursor.limit]; omega⟩
  rw [wkOfRd_ok (rdGet_run hc)]
  simp only [Work.at]
  congr 4
  omega

/-- Sequencing under ofRd. -/
theorem ofRd_bind {α β : Type} (p : Rd α) (f : α → Rd β) : Wk.ofRd (p >>= f) = (Wk.ofRd p >>= fun a => Wk.ofRd (f a)) := by
  funext w
  rw [run_bind]
  simp only [Wk.ofRd, Wk.ofVx, Vx.ofRd, run_bind]
  cases h : p w.eng.bc with
  | ok a k => rfl
  | error c k => rfl

theorem ofRd_pure {α : Type} (a : α) : Wk.ofRd (pure a : Rd α) = (pure a : Wk α) := rfl

theorem bitFieldAt {e : Env} {w : Work} {n : Nat} (j : Nat) {v : Nat} (h : w.hasBits n) (hj : j + 1 ≤ n)
   (hv : bitsAt e.mem w.eng.bc.base (w.eng.bc.pos + j) 1 = v) :
    Wk.ofRd (Rd.bit e) (w.at j) = .ok (v == 1) (w.at (j + 1)) := by
  rw [Rd.bit, ofRd_bind, run_bind_ok (readAt j h (by omega) hj), hv]
  rfl

/-- The ics_info of a silent stream (44_noiseless.md R281). -/
def silentInfo (e : Env) (sc : StreamCfg) (shape : Bool) : IcsInfo where
  windowSequence := 0
  windowShape := shape
  maxSfb := 0
  numWindows := 1
  groupLens := [1]
  numSwb := (swbTable e.par (tableIndex e.par sc) sc.frameLen.toNat false).1
  swbOffset := (swbTable e.par (tableIndex e.par sc) sc.frameLen.toNat false).2
  sectSfbOffset := [slice 0 (swbTable e.par (tableIndex e.par sc) sc.frameLen.toNat false).2 0 1]

theorem icsInfo_silent {e : Env} {w : Work} {n : Nat} (j : Nat) (sc : StreamCfg) (a b : Nat) (h : w.hasBits n) (hj : j + 11 ≤ n)
    (h0 : bitsAt e.mem w.eng.bc.base (w.eng.bc.pos + j) 1 = 0)
    (h1 : bitsAt e.mem w.eng.bc.base (w.eng.bc.pos + (j + 1)) 2 = 0)
    (h2 : bitsAt e.mem w.eng.bc.base (w.eng.bc.pos + (j + 4)) 6 = 0)
    (h3 : bitsAt e.mem w.eng.bc.base (w.eng.bc.pos + (j + 10)) 1 = 0) :
    Wk.ofRd (icsInfo e sc false a b) (w.at j) =
      .ok (silentInfo e sc (bitsAt e.mem w.eng.bc.base (w.eng.bc.pos + (j + 3)) 1 == 1), none, none) (w.at (j + 11)) := by
  have r0 := bitFieldAt j h (by omega) h0
  have r1 := readAt (e := e) (j + 1) (k := 2) h (by omega) (by omega)
  have r2 := bitFieldAt (e := e) (j + 3) h (by omega) rfl
  have r3 := readAt (e := e) (j + 4) (k := 6) h (by omega) (by omega)
  have r4 := bitFieldAt (j + 10) h (by omega) h3
  rw [h1] at r1
  rw [h2] at r3
  have body : Wk.ofRd (icsInfoBody e sc.objectType.toNat sc.frameLen.toNat false false a b) (w.at (j + 4)) = .ok (0, [1], none, none) (w.at (j + 11)) := by
    unfold icsInfoBody
    simp only [Bool.false_eq_true, if_false]
    rw [ofRd_bind, run_bind_ok r3, ofRd_bind]
    unfold predictorData
    rw [ofRd_bind, run_bind_ok (a := (none, none)) (t := w.at (j+11)) (by rw [run_bind_ok r4]; rfl)]
    rfl
  unfold icsInfo
  rw [ofRd_bind, run_bind_ok r0]
  simp only [show ((0 : Nat) == 1) = false from rfl, Bool.false_eq_true, if_false]
  rw [ofRd_bind, run_bind_ok (t := w.at (j + 3)) r1, ofRd_bind, run_bind_ok (t := w.at (j + 4)) r2]
  rw [if_neg (by simp), ofRd_bind]
  simp only [show ((0 : Nat) == 2) = false from rfl]
  rw [run_bind_ok body, if_neg (by simp)]
  rfl

theorem chan_run (c : Nat) (w : Work) : Wk.chan c w = .ok (w.frm.chans.getD c Wk.noChan) w := rfl

theorem getD_setPad {α : Type} (d : α) (l : List α) (i : Nat) (v x : α) : (setPad d l i v).getD i x = v := by
  induction l generalizing i with
  | nil =>
    induction i with
    | zero => rfl
    | succ i ih => simpa [setPad] using ih
  | cons y r ih =>
    cases i with
    | zero => rfl
    | succ i => simpa [setPad] using ih i

theorem getD_setPad_ne {α : Type} (d : α) (l : List α) (i k : Nat) (v : α) (h : k ≠ i) : (setPad d l i v).getD k d = l.getD k d := by
  induction l generalizing i k with
  | nil =>
    induction i generalizing k with
    | zero => cases k with
      | zero => exact absurd rfl h
      | succ k => simp [setPad]
    | succ i ih => cases k with
      | zero => simp [setPad]
      | succ k => simpa [setPad] using ih k (by omega)
  | cons y r ih =>
    cases i with
    | zero => cases k with
      | zero => exact absurd rfl h
      | succ k => rfl
    | succ i => cases k with
      | zero => rfl
      | succ k => simpa [setPad] using ih i k (by omega)

/-- The working state with the channel stream of channel c. -/
def Work.putChan (w : Work) (c : Nat) (f : Chan → Chan) : Work :=
  { w with frm := { w.frm with chans := setPad Wk.noChan w.frm.chans c (f (w.frm.chans.getD c Wk.noChan)) } }

/-- The channel stream a silent stream leaves (44_noiseless.md R284). -/
def silentIcs (e : Env) (sc : StreamCfg) (gain : Nat) (shape : Bool) : Ics :=
  { Ics.start (silentInfo e sc shape) none with globalGain := gain, sections := [[]], sfbCb := [[]], scaleFactors := [[]] }

theorem icsInfoOne_silent {e : Env} {w : Work} {n : Nat} (j c : Nat) (h : w.hasBits n) (hj : j + 11 ≤ n)
    (h0 : bitsAt e.mem w.eng.bc.base (w.eng.bc.pos + j) 1 = 0)
    (h1 : bitsAt e.mem w.eng.bc.base (w.eng.bc.pos + (j + 1)) 2 = 0)
    (h2 : bitsAt e.mem w.eng.bc.base (w.eng.bc.pos + (j + 4)) 6 = 0)
    (h3 : bitsAt e.mem w.eng.bc.base (w.eng.bc.pos + (j + 10)) 1 = 0) :
    icsInfoOne e c (w.at j) = .ok () ((w.at (j + 11)).putChan c (fun ch => { ch with ics := some (Ics.start
      (silentInfo e w.sc (bitsAt e.mem w.eng.bc.base (w.eng.bc.pos + (j + 3)) 1 == 1)) none) })) := by
  unfold icsInfoOne
  rw [run_bind_ok (show Wk.sc (w.at j) = .ok w.sc (w.at j) from rfl), run_bind_ok (show Wk.ds (w.at j) = .ok w.ds (w.at j) from rfl),
    run_bind_ok (icsInfo_silent j w.sc _ _ h hj h0 h1 h2 h3)]
  rfl

/-- The error-resilience flags a channel stream is read under without RVLC and HCR (43_scalefactor_rvlc.md R262). -/
def PlainFlags (p : Params) (sc : StreamCfg) : Prop :=
  (sc.erFlag 0 = true → p.cap.er = true) ∧ sc.erFlag 1 = false ∧ sc.erFlag 2 = false

theorem plainFlags_zero {p : Params} {sc : StreamCfg} (h : sc.erFlags = 0) : PlainFlags p sc := by
  simp [PlainFlags, StreamCfg.erFlag, h]

theorem sectionData_silent (e : Env) (sc : StreamCfg) (shape : Bool) (w : Work) (h : PlainFlags e.par sc) (sc' : StreamCfg) :
    Wk.ofRd (sectionData e sc (silentInfo e sc' shape)) w = .ok [[]] w := by
  have hc : ¬ (sc.erFlag 0 && !e.par.cap.er) = true := by
    intro hx
    simp only [Bool.and_eq_true, Bool.not_eq_true'] at hx
    exact absurd (h.1 hx.1) (by simp [hx.2])
  simp only [sectionData, hc]
  rfl

theorem scaleFactorData_silent (e : Env) (gain : Nat) (g : Engine) (h : g.bc.err = false) :
    scaleFactorData e gain [[]] g = .ok [[]] (g.setRegs (sfStart gain g.regs)) := by
  unfold scaleFactorData
  rw [run_bind_ok (setRegs_run _ _), run_bind_ok (a := [[]]) (t := g.setRegs (sfStart gain g.regs)) (by rfl)]
  rw [run_bind_ok (a := ()) (t := g.setRegs (sfStart gain g.regs)) (by simp [Vx.ofRd, Rd.sample, h]; rfl)]
  rfl

theorem spectralData_silent (e : Env) (fl : Nat) (sc : StreamCfg) (shape : Bool) (g : Engine) (h : g.bc.err = false) :
    spectralData e fl (silentInfo e sc shape) [[]] g = .ok (List.replicate fl 0) g := by
  unfold spectralData
  rw [run_bind_ok (a := List.replicate fl 0) (t := g) (by rfl)]
  rw [run_bind_ok (a := ()) (t := g) (by simp [Vx.ofRd, Rd.sample, h])]
  rfl

theorem optionalPart_none {α : Type} {e : Env} {p : Rd α} {w : Work} {n : Nat} (j : Nat) (h : w.hasBits n) (hj : j + 1 ≤ n)
   (hv : bitsAt e.mem w.eng.bc.base (w.eng.bc.pos + j) 1 = 0) : Wk.ofRd (optionalPart e p) (w.at j) = .ok none (w.at (j+1)) := by
  unfold optionalPart
  rw [ofRd_bind, run_bind_ok (bitFieldAt j h hj hv)]
  rfl

theorem setPad_setPad {α : Type} (d : α) (l : List α) (i : Nat) (v x : α) : setPad d (setPad d l i v) i x = setPad d l i x := by
  induction l generalizing i with
  | nil =>
    induction i with
    | zero => rfl
    | succ i ih => simp [setPad, ih]
  | cons y r ih =>
    cases i with
    | zero => rfl
    | succ i => simp [setPad, ih]

theorem putChan_putChan {w : Work} (c : Nat) (f g : Chan → Chan) : (w.putChan c f).putChan c g = w.putChan c (fun x => g (f x)) := by
  simp only [Work.putChan, setPad_setPad, getD_setPad]

theorem icsParse_silent {e : Env} {w : Work} {n : Nat} (j c : Nat) (hsc : PlainFlags e.par w.sc) (h : w.hasBits n) (hj : j + 22 ≤ n)
    (h0 : bitsAt e.mem w.eng.bc.base (w.eng.bc.pos + (j + 8)) 1 = 0)
    (h1 : bitsAt e.mem w.eng.bc.base (w.eng.bc.pos + (j + 9)) 2 = 0)
    (h2 : bitsAt e.mem w.eng.bc.base (w.eng.bc.pos + (j + 12)) 6 = 0)
    (h3 : bitsAt e.mem w.eng.bc.base (w.eng.bc.pos + (j + 18)) 1 = 0)
    (h4 : bitsAt e.mem w.eng.bc.base (w.eng.bc.pos + (j + 19)) 1 = 0)
    (h5 : bitsAt e.mem w.eng.bc.base (w.eng.bc.pos + (j + 20)) 1 = 0)
    (h6 : bitsAt e.mem w.eng.bc.base (w.eng.bc.pos + (j + 21)) 1 = 0) :
    ∃ r, icsParse e c false (w.at j) = .ok () (({ w with eng := { w.eng with regs := r } }.at (j + 22)).putChan c (fun ch =>
      { ch with qspec := List.replicate w.sc.frameLen.toNat 0, ics := some (silentIcs e w.sc (bitsAt e.mem w.eng.bc.base (w.eng.bc.pos + j) 8) (bitsAt e.mem w.eng.bc.base (w.eng.bc.pos + (j + 11)) 1 == 1)) })) := by
  refine ⟨sfStart (bitsAt e.mem w.eng.bc.base (w.eng.bc.pos + j) 8) w.eng.regs, ?_⟩
  unfold icsParse
  rw [run_bind_ok (show Wk.sc (w.at j) = .ok w.sc (w.at j) from rfl), run_bind_ok (readAt j h (by omega) (by omega))]
  simp only [Bool.not_false, if_true]
  rw [run_bind_ok (icsInfoOne_silent (j + 8) c h (by omega) h0 h1 h2 h3)]
  set g0 := bitsAt e.mem w.eng.bc.base (w.eng.bc.pos + j) 8 with hg0
  set sh := bitsAt e.mem w.eng.bc.base (w.eng.bc.pos + (j + 11)) 1 == 1 with hsh
  set W := w.putChan c (fun ch => { ch with ics := some (Ics.start (silentInfo e w.sc sh) none) }) with hW
  change _ = _ at *
  have hch : chanIcs c (W.at (j + 19)) = .ok (Ics.start (silentInfo e w.sc sh) none) (W.at (j + 19)) := by
    unfold chanIcs
    rw [run_bind_ok (chan_run c _)]
    show EStateM.Result.ok (Option.getD ((setPad Wk.noChan w.frm.chans c _).getD c Wk.noChan).ics _) _ = _
    rw [getD_setPad]
    rfl
  change (chanIcs c >>= _) (W.at (j + 19)) = _
  rw [run_bind_ok hch]
  dsimp only [Ics.start]
  rw [run_bind_ok (sectionData_silent e w.sc sh _ hsc w.sc)]
  dsimp only [List.map]
  set V : Work := { W with eng := { W.eng with regs := sfStart g0 w.eng.regs } } with hV
  have hs : scaleFactorPart e w.sc g0 ((silentInfo e w.sc sh).windowSequence == eightShort) (sectionsNoise [[]]) [sectionCodebooks []] (W.at (j + 19)) = .ok ([[]], none) (V.at (j + 19)) := by
    unfold scaleFactorPart
    rw [hsc.2.1]
    simp only [Bool.false_eq_true, if_false]
    refine (run_bind_ok (ofVx_ok (scaleFactorData_silent e g0 (W.at (j + 19)).eng h.1))).trans ?_
    rfl
  rw [run_bind_ok hs]
  have hV' : V.hasBits n := h
  rw [run_bind_ok (optionalPart_none (w := V) (j + 19) hV' (by omega) h4)]
  rw [run_bind_ok (t := V.at (j + 21)) (optionalPart_none (w := V) (j + 20) hV' (by omega) h5)]
  rw [run_bind_ok (t := V.at (j + 22)) (bitFieldAt (w := V) (j + 21) hV' (by omega) h6)]
  simp only [show ((0 : Nat) == 1) = false from rfl, Bool.false_eq_true, if_false]
  rw [run_bind_ok (show rvlcPart e g0 [sectionCodebooks []] ([[]], none) (V.at (j + 22)) = .ok [[]] (V.at (j + 22)) from rfl)]
  simp only [hsc.2.2, Bool.false_eq_true, if_false]
  refine (run_bind_ok (ofVx_ok (spectralData_silent e w.sc.frameLen.toNat w.sc sh (V.at (j + 22)).eng h.1))).trans ?_
  simp only [Option.isSome_none, Bool.false_and, Bool.false_eq_true, if_false]
  have key := putChan_putChan (w := { w with eng := { w.eng with regs := sfStart g0 w.eng.regs } }.at (j + 22)) c
    (fun ch => { ch with ics := some (Ics.start (silentInfo e w.sc sh) none) })
    (fun ch => { ch with qspec := List.replicate w.sc.frameLen.toNat 0, ics := some (silentIcs e w.sc g0 sh) })
  exact congrArg (EStateM.Result.ok ()) key

/-! ## The stages on a silent channel -/

/-- What the stages know of a channel that carries a silent stream. -/
def SilentChan (e : Env) (w : Work) (c : Nat) (gain : Nat) (shape : Bool) : Prop :=
  (w.frm.chans.getD c Wk.noChan).ics = some (silentIcs e w.sc gain shape) ∧
    (w.frm.chans.getD c Wk.noChan).qspec = List.replicate w.sc.frameLen.toNat 0

theorem chanIcs_silent {e : Env} {w : Work} {c gain : Nat} {shape : Bool} (h : SilentChan e w c gain shape) :
    chanIcs c w = .ok (silentIcs e w.sc gain shape) w := by
  unfold chanIcs
  rw [run_bind_ok (chan_run c w), h.1]
  rfl

theorem stageDequantPulse_silent {e : Env} {w : Work} {c gain : Nat} {shape : Bool} (h : SilentChan e w c gain shape) :
    stageDequantPulse e c w =
      .ok () (w.putChan c (fun ch => { ch with spec := List.replicate w.sc.frameLen.toNat 0 })) := by
  have hd : stageDequant c w = .ok () (w.putChan c (fun ch => { ch with spec := List.replicate w.sc.frameLen.toNat 0 })) := by
    unfold stageDequant
    rw [run_bind_ok (chanIcs_silent h), run_bind_ok (chan_run c w), run_bind_ok (show Wk.sc w = .ok w.sc w from rfl)]
    rfl
  unfold stageDequantPulse
  have h' : SilentChan e (w.putChan c (fun ch => { ch with spec := List.replicate w.sc.frameLen.toNat 0 })) c gain shape := by
    refine ⟨?_, ?_⟩ <;> simp only [Work.putChan] <;> rw [getD_setPad] <;> [exact h.1; exact h.2]
  cases e.par.pulseStage with
  | preDequant =>
    have hp : stagePulsePre c w = .ok () w := by
      unfold stagePulsePre
      rw [run_bind_ok (chanIcs_silent h)]
      rfl
    exact (run_bind_ok hp).trans hd
  | postDequant =>
    refine (run_bind_ok hd).trans ?_
    unfold stagePulsePost
    rw [run_bind_ok (chanIcs_silent h')]
    rfl

theorem stageTns_silent {e : Env} {w : Work} {c gain : Nat} {shape : Bool} (h : SilentChan e w c gain shape) :
    stageTns e c w = .ok () w := by
  unfold stageTns
  rw [run_bind_ok (chanIcs_silent h)]
  rfl

theorem stageLtp_silent {e : Env} {w : Work} {c gain : Nat} {shape : Bool} (h : SilentChan e w c gain shape) :
    stageLtp e c w = .ok () w := by
  unfold stageLtp
  rw [run_bind_ok (chanIcs_silent h)]
  rfl

theorem imdct_zero (M n : Nat) : imdct M (List.replicate n 0) = List.replicate M 0 := by
  unfold imdct
  have : (fun k : Fin (M / 2) => (List.replicate n (0 : Sample)).getD k 0) = 0 := by
    funext k
    simp [List.getD_eq_getElem?_getD, List.getElem?_replicate]
    split <;> rfl
  rw [this, map_zero]
  apply List.ext_getElem
  · simp
  · intro i h1 h2
    simp

/-- The filterbank on a zero spectrum passes the overlap buffer out and clears it (45_filterbank.md R330). -/
theorem filterbank_silent (p : Params) (ld : Bool) (e : Env) (sc : StreamCfg) (shape prev : Bool) (fl : Nat) (ov : List Sample) :
    filterbank p ld (silentInfo e sc shape) prev fl ov (List.replicate fl 0) =
      ((List.range fl).map (fun n => ov.getD n 0), List.replicate fl 0 ++ ov.drop fl) := by
  have hz : windowedFrame p ld (silentInfo e sc shape) prev fl (List.replicate fl 0) = List.replicate (fl + fl) 0 := by
    unfold windowedFrame
    rw [if_neg (by show ¬ ((0 : BitVec 2) == eightShort) = true; decide)]
    unfold longFrame
    simp only [imdct_zero]
    apply List.ext_getElem
    · simp
    · intro i h1 h2
      rw [List.getElem_append]
      split
      all_goals
        simp only [List.getElem_map, List.getD_eq_getElem?_getD, List.getElem?_replicate, List.getElem_replicate]
        split <;> simp
  unfold filterbank
  rw [hz]
  unfold overlapAdd
  congr 1
  · apply List.map_congr_left
    intro n hn
    simp only [List.getD_eq_getElem?_getD, List.getElem?_replicate]
    split <;> simp
  · congr 1
    apply List.ext_getElem
    · simp
    · intro i h1 h2
      simp only [List.getElem_map, List.getD_eq_getElem?_getD, List.getElem?_replicate, List.getElem_replicate]
      split <;> simp

theorem setPad_self {α : Type} (d : α) (l : List α) (i : Nat) (h : i < l.length) : setPad d l i (l.getD i d) = l := by
  induction l generalizing i with
  | nil => simp at h
  | cons y r ih =>
    cases i with
    | zero => rfl
    | succ i =>
      show y :: setPad d r i (r.getD i d) = _
      rw [ih i (by simpa using h)]

theorem putChan_self {e : Env} {w : Work} {c gain : Nat} {shape : Bool} (h : SilentChan e w c gain shape) :
    w.putChan c (fun ch => ch) = w := by
  have hc : c < w.frm.chans.length := by
    by_contra hn
    have := h.1
    rw [List.getD_eq_default _ _ (Nat.le_of_not_lt hn)] at this
    exact absurd this (by simp [Wk.noChan])
  unfold Work.putChan
  rw [setPad_self _ _ _ hc]

theorem stagePnsOne_silent {e : Env} {w : Work} {c gain : Nat} {shape : Bool} (h : SilentChan e w c gain shape) :
    stagePnsOne c w = .ok () w := by
  unfold stagePnsOne
  rw [run_bind_ok (chanIcs_silent h), run_bind_ok (chan_run c w), run_bind_ok (show Wk.sc w = .ok w.sc w from rfl),
    run_bind_ok (show Wk.ds w = .ok w.ds w from rfl)]
  have hn : ∀ (fl : Nat) (n : NoiseState), pnsApply (silentIcs e w.sc gain shape) (Ics.start IcsInfo.none none) fl n = n :=
    fun _ _ => rfl
  rw [hn]
  exact congrArg (EStateM.Result.ok ()) (putChan_self h)

theorem stagePnsPair_silent {e : Env} {w : Work} {c d gain gain' : Nat} {shape shape' : Bool}
    (h : SilentChan e w c gain shape) (h' : SilentChan e w d gain' shape') : stagePnsPair c d w = .ok () w := by
  unfold stagePnsPair
  rw [run_bind_ok (chanIcs_silent h), run_bind_ok (chanIcs_silent h'), run_bind_ok (chan_run c w),
    run_bind_ok (chan_run d w), run_bind_ok (show Wk.sc w = .ok w.sc w from rfl),
    run_bind_ok (show Wk.ds w = .ok w.ds w from rfl)]
  have hn : ∀ (fl : Nat) (n : NoiseState),
      pnsApply (silentIcs e w.sc gain shape) (silentIcs e w.sc gain' shape') fl n = n := fun _ _ => rfl
  rw [hn]
  have h1 : setSpec c (w.frm.chans.getD c Wk.noChan).spec w = .ok () w :=
    congrArg (EStateM.Result.ok ()) (putChan_self h)
  have h2 : setSpec d (w.frm.chans.getD d Wk.noChan).spec w = .ok () w :=
    congrArg (EStateM.Result.ok ()) (putChan_self h')
  rw [run_bind_ok h1, run_bind_ok h2]
  rfl

theorem stageFilterbank_silent {e : Env} {w : Work} {c gain : Nat} {shape : Bool} (h : SilentChan e w c gain shape)
    (hs : (w.frm.chans.getD c Wk.noChan).spec = List.replicate w.sc.frameLen.toNat 0) :
    ∃ l, stageFilterbank e c w = .ok () ({ w with ds := { w.ds with
      overlap := setPad [] w.ds.overlap c
        (List.replicate w.sc.frameLen.toNat 0 ++ (w.ds.overlap.getD c []).drop w.sc.frameLen.toNat)
      windowShapePrev := setPad false w.ds.windowShapePrev c shape
      ltpHist := l } }.putChan c (fun ch => { ch with
        time := (List.range w.sc.frameLen.toNat).map (fun n => (w.ds.overlap.getD c []).getD n 0) })) := by
  refine ⟨?_, ?_⟩
  rotate_left
  · unfold stageFilterbank
    rw [run_bind_ok (chanIcs_silent h), run_bind_ok (chan_run c w), run_bind_ok (show Wk.sc w = .ok w.sc w from rfl),
      run_bind_ok (show Wk.ds w = .ok w.ds w from rfl), hs]
    have hf := filterbank_silent e.par (w.sc.objectType == 23) e w.sc shape (w.ds.windowShapePrev.getD c false)
      w.sc.frameLen.toNat (w.ds.overlap.getD c [])
    change filterbank e.par (w.sc.objectType == 23) (silentIcs e w.sc gain shape).info _ _ _ _ = _ at hf
    dsimp only
    rw [hf]
    rfl

/-- RECONSTRUCT of one silent channel up to the SBR engine, in either stage order (48_orchestrator.md R424). -/
theorem reconstructCore_silent {e : Env} {w : Work} {c gain : Nat} {shape : Bool} (h : SilentChan e w c gain shape) :
    ∃ l, reconstructCore e [c] (stagePnsOne c) (return ()) w = .ok () ({ w with ds := { w.ds with
      overlap := setPad [] w.ds.overlap c
        (List.replicate w.sc.frameLen.toNat 0 ++ (w.ds.overlap.getD c []).drop w.sc.frameLen.toNat)
      windowShapePrev := setPad false w.ds.windowShapePrev c shape
      ltpHist := l } }.putChan c (fun ch => { ch with
        spec := List.replicate w.sc.frameLen.toNat 0
        time := (List.range w.sc.frameLen.toNat).map (fun n => (w.ds.overlap.getD c []).getD n 0) })) := by
  set v := w.putChan c (fun ch => { ch with spec := List.replicate w.sc.frameLen.toNat 0 }) with hv
  have hs : SilentChan e v c gain shape := by
    refine ⟨?_, ?_⟩ <;> simp only [hv, Work.putChan] <;> rw [getD_setPad] <;> [exact h.1; exact h.2]
  have hsp : (v.frm.chans.getD c Wk.noChan).spec = List.replicate v.sc.frameLen.toNat 0 := by
    simp only [hv, Work.putChan]
    rw [getD_setPad]
  obtain ⟨l, hl⟩ := stageFilterbank_silent hs hsp
  refine ⟨l, ?_⟩
  have one : ∀ {f : Nat → Wk Unit} {a b : Work}, f c a = .ok () b → Wk.forEach [c] f a = .ok () b := by
    intro f a b hf
    exact (run_bind_ok hf).trans rfl
  have e1 := one (stageDequantPulse_silent h)
  have e2 := one (stageTns_silent hs)
  have e3 := one (stageLtp_silent hs)
  have e4 := one hl
  have fin : ({ v with ds := { v.ds with
      overlap := setPad [] v.ds.overlap c
        (List.replicate v.sc.frameLen.toNat 0 ++ (v.ds.overlap.getD c []).drop v.sc.frameLen.toNat)
      windowShapePrev := setPad false v.ds.windowShapePrev c shape
      ltpHist := l } }.putChan c (fun ch => { ch with
        time := (List.range v.sc.frameLen.toNat).map (fun n => (v.ds.overlap.getD c []).getD n 0) })) = _ :=
    putChan_putChan (w := { w with ds := { w.ds with
      overlap := setPad [] w.ds.overlap c
        (List.replicate w.sc.frameLen.toNat 0 ++ (w.ds.overlap.getD c []).drop w.sc.frameLen.toNat)
      windowShapePrev := setPad false w.ds.windowShapePrev c shape
      ltpHist := l } }) c (fun ch => { ch with spec := List.replicate w.sc.frameLen.toNat 0 }) _
  rw [fin] at e4
  unfold reconstructCore
  cases e.par.stageOrder with
  | source =>
    refine (run_bind_ok e1).trans ((run_bind_ok e2).trans ((run_bind_ok e3).trans ((run_bind_ok (stagePnsOne_silent hs)).trans ?_)))
    exact (run_bind_ok (a := ()) (t := v) rfl).trans e4
  | standard =>
    refine (run_bind_ok e1).trans ((run_bind_ok (stagePnsOne_silent hs)).trans ?_)
    refine (run_bind_ok (a := ()) (t := v) rfl).trans ((run_bind_ok e3).trans ((run_bind_ok e2).trans e4))

/-! ## Around a channel element -/

/-- No fill element follows: nothing is attached and nothing is read (48_orchestrator.md R423). -/
theorem attachSbr_none {e : Env} {w : Work} (n : Nat) (p : Bool)
    (h : e.par.cap.sbr = true → 3 ≤ w.eng.bc.bitsLeft → w.eng.bc.canRead 3 = true →
      bitsAt e.mem w.eng.bc.base w.eng.bc.pos 3 ≠ 6)
    (he : w.eng.bc.err = false) :
    attachSbr e n p w = .ok () { w with frm := { w.frm with el := w.frm.el.map (fun x => { x with sbrData := false }), sbr := none } } := by
  unfold attachSbr
  rw [run_bind_ok (show setSbrData false w = .ok () { w with frm := { w.frm with el := w.frm.el.map (fun x => { x with sbrData := false }) } } from rfl)]
  refine (run_bind_ok (show Wk.setFrm _ _ = .ok () _ from rfl)).trans ?_
  split
  · rename_i hs
    set v : Work := { w with frm := { w.frm with el := w.frm.el.map (fun x => { x with sbrData := false }), sbr := none } } with hv
    have : Wk.ofRd (sbrFill e) v = .ok none v := by
      have h0 : sbrFill e w.eng.bc = .ok none w.eng.bc := by
        unfold sbrFill
        rw [run_bind_ok (show Rd.cursor w.eng.bc = .ok w.eng.bc w.eng.bc from rfl)]
        split
        · rename_i h3
          have hc : w.eng.bc.canRead 3 = true := by
            rw [Cursor.canRead_iff]; refine ⟨he, by omega, ?_⟩
            simp only [Cursor.bitsLeft] at h3; omega
          have hp : Rd.peek e 3 w.eng.bc = .ok (bitsAt e.mem w.eng.bc.base w.eng.bc.pos 3) w.eng.bc := by
            show EStateM.Result.ok (w.eng.bc.peek e.mem 3).1 (w.eng.bc.peek e.mem 3).2 = _
            rw [Cursor.peek_eq _ hc]
          rw [run_bind_ok hp, if_neg (h hs h3 hc)]
          rfl
        · rfl
      rw [wkOfRd_ok (show sbrFill e v.eng.bc = _ from h0)]
    exact (run_bind_ok this).trans rfl
  · rfl

/-- Without SBR data and upsampling the SBR stage does nothing (48_orchestrator.md R424). -/
theorem stageSbr_none {e : Env} {w : Work} (n c : Nat) (cs : List Nat) (p : Bool) (hu : w.sc.upsample = false) (hd : (w.frm.el.map (·.sbrData)).getD false = false) :
   stageSbr e n c cs p w = .ok () w := by
  unfold stageSbr
  rw [run_bind_ok (show Wk.frm w = .ok w.frm w from rfl), run_bind_ok (show Wk.sc w = .ok w.sc w from rfl)]
  simp [hd, hu]
  rfl

/-- The start of a channel element within capacity: its tag read, EL and its record set. -/
theorem beginElement_run {e : Env} {w : Work} (id : BitVec 3) (k : Nat) (p : Bool) (h : w.hasBits 4)
   (h1 : w.ds.channelsSeen + k ≤ e.par.maxChannels) (h2 : w.ds.elementsSeen + 1 ≤ e.par.maxElements) :
   beginElement e id k p w = .ok () ({ w with eng := { w.eng with regs := { w.eng.regs with source := .main } }, frm := { w.frm with el := some ⟨id, BitVec.ofNat 4 (bitsAt e.mem w.eng.bc.base w.eng.bc.pos 4), w.ds.channelsSeen, p, false, false⟩, elems := w.frm.elems ++ [(⟨id, BitVec.ofNat 4 (bitsAt e.mem w.eng.bc.base w.eng.bc.pos 4), false⟩ : ElemRec)] } }.at 4) := by
  unfold beginElement
  rw [run_bind_ok (show Wk.ds w = .ok w.ds w from rfl)]
  rw [if_neg (by omega)]
  refine (run_bind_ok (show Wk.ofVx (Vx.setRegs _) w = .ok () { w with eng := { w.eng with regs := { w.eng.regs with source := .main } } } from rfl)).trans ?_
  have := readAt (e := e) (w := { w with eng := { w.eng with regs := { w.eng.regs with source := .main } } }) 0 (k := 4) (n := 4) h (by omega) (by omega)
  refine (run_bind_ok this).trans ?_
  rfl

end Sys2Proof.Machine
end

