-- ==== Sys2Proof/Laws/Parse.lean ====
section
/-! SUPPORT. Parsers on known bits: what a program over the cursor answers when the buffer goes on with the bits of its fields,
and how much it consumes; the program config element and the ADIF header as wholes (41_parsers.md R179, R181). -/

namespace Sys2Proof.Machine

/-- The cursor without an error, with l the bits from it to the end of its slice. -/
def Cursor.reads (m : Memory) (k : Cursor) (l : List Bool) : Prop :=
  k.err = false ∧ k.pos ≤ k.limit ∧ bitList m k.base k.pos k.bitsLeft = l

/-- The cursor n bits further on. -/
def Cursor.fwd (k : Cursor) (n : Nat) : Cursor := { k with pos := k.pos + n }

theorem Cursor.fwd_fwd (k : Cursor) (a b : Nat) : (k.fwd a).fwd b = k.fwd (a + b) := by simp [Cursor.fwd, Nat.add_assoc]
theorem Cursor.fwd_zero (k : Cursor) : k.fwd 0 = k := rfl

theorem Cursor.reads_split {m : Memory} {k : Cursor} {l r : List Bool} (h : k.reads m (l ++ r)) :
    k.pos + l.length ≤ k.limit ∧ bitList m k.base k.pos l.length = l ∧ (k.fwd l.length).reads m r := by
  obtain ⟨he, hp, hb⟩ := h
  have hl := congrArg List.length hb
  rw [bitList_length, List.length_append, Cursor.bitsLeft] at hl
  have hsplit : k.bitsLeft = l.length + r.length := by simpa [Cursor.bitsLeft] using hl
  rw [hsplit, bitList_add] at hb
  obtain ⟨h1, h2⟩ := List.append_inj hb (bitList_length _ _ _ _)
  refine ⟨by omega, h1, he, ?_, ?_⟩
  · show k.pos + l.length ≤ 8 * k.len
    have : k.limit = 8 * k.len := rfl
    omega
  · show bitList m k.base (k.pos + l.length) (k.limit - (k.pos + l.length)) = r
    rw [show k.limit - (k.pos + l.length) = r.length by omega, h2]

/-- Program p, started pos bits into the buffer, takes the bits l and answers a. -/
def Takes {α : Type} (m : Memory) (pos : Nat) (p : Rd α) (l : List Bool) (a : α) : Prop :=
  ∀ (k : Cursor) (r : List Bool), k.pos = pos → k.reads m (l ++ r) → p k = .ok a (k.fwd l.length)

theorem takes_congr {α : Type} {m : Memory} {pos : Nat} {p : Rd α} {l l' : List Bool} {a : α} (h : Takes m pos p l a)
    (hl : l = l') : Takes m pos p l' a := hl ▸ h

theorem takes_pure {α : Type} (m : Memory) (pos : Nat) (a : α) : Takes m pos (pure a : Rd α) [] a := fun _ _ _ _ => rfl

theorem takes_bind {α β : Type} {m : Memory} {pos : Nat} {p : Rd α} {f : α → Rd β} {l l' : List Bool} {a : α} {b : β}
    (hp : Takes m pos p l a) (hf : Takes m (pos + l.length) (f a) l' b) : Takes m pos (p >>= f) (l ++ l') b := by
  intro k r hk hr
  rw [List.append_assoc] at hr
  rw [run_bind_ok (hp k _ hk hr), hf _ r (by simp [Cursor.fwd, hk]) (Cursor.reads_split hr).2.2, Cursor.fwd_fwd,
    List.length_append]

theorem takes_sample (m : Memory) (pos : Nat) : Takes m pos Rd.sample [] () := by
  intro k r _ hr
  simp [Rd.sample, hr.1, Cursor.fwd_zero]

theorem takes_get {e : Env} {pos n v : Nat} (h32 : n ≤ 32) (hv : v < 2 ^ n) :
    Takes e.mem pos (Rd.get e n) (natToBits n v) v := by
  intro k r _ hr
  have hs := Cursor.reads_split hr
  rw [natToBits_length] at hs ⊢
  rw [rdGet_run ((Cursor.canRead_iff _ _).2 ⟨hr.1, h32, hs.1⟩), bitsAt_eq, hs.2.1, bitsToNat_natToBits n v hv]
  rfl

theorem takes_bit {e : Env} {pos : Nat} (b : Bool) : Takes e.mem pos (Rd.bit e) [b] b := by
  have h := takes_get (e := e) (pos := pos) (n := 1) (v := b.toNat) (by omega) (by cases b <;> decide)
  have hb : natToBits 1 b.toNat = [b] := by cases b <;> rfl
  rw [hb] at h
  refine takes_congr (takes_bind h (b := b) (l' := []) ?_) (by simp)
  have : (b.toNat == 1) = b := by cases b <;> rfl
  rw [this]
  exact takes_pure _ _ _

theorem takes_many {e : Env} {n : Nat} (h32 : n ≤ 32) (l : List Nat) (h : ∀ v ∈ l, v < 2 ^ n) (pos : Nat) :
    Takes e.mem pos (Rd.many e n l.length) (l.flatMap (natToBits n)) l := by
  induction l generalizing pos with
  | nil => exact takes_pure _ _ _
  | cons v r ih =>
    refine takes_bind (takes_get h32 (h v (by simp))) ?_
    refine takes_congr (takes_bind (ih (fun x hx => h x (by simp [hx])) _) (takes_pure _ _ _)) (List.append_nil _)

/-- BYTE_ALIGN takes the padding up to the next byte boundary (40_bitreader.md R147). -/
theorem takes_align {m : Memory} {pos : Nat} {pad : List Bool} (h8 : pad.length < 8) (hp : (pos + pad.length) % 8 = 0) :
    Takes m pos Rd.byteAlign pad () := by
  intro k r hk hr
  show EStateM.Result.ok () k.byteAlign = _
  have : k.alignCount = pad.length := by
    simp only [Cursor.alignCount, hr.1, Bool.false_eq_true, if_false]
    omega
  simp [Cursor.byteAlign, Cursor.fwd, this]

/-! ## The program config element (R181) -/

theorem takes_elems {e : Env} (l : List PceElem) (h : ∀ x ∈ l, x.tag < 16) (pos : Nat) :
    Takes e.mem pos (pceElems e l.length) (pceElemBits l) l := by
  induction l generalizing pos with
  | nil => exact takes_pure _ _ _
  | cons x r ih =>
    refine takes_congr (takes_bind (takes_bit x.isCpe) (takes_bind (takes_get (n := 4) (by omega) (h x (by simp)))
      (takes_bind (ih (fun y hy => h y (by simp [hy])) _) (takes_pure _ _ _)))) ?_
    simp [pceElemBits]

theorem takes_optional4 {e : Env} (o : Option Nat) (h : ∀ v ∈ o, v < 16) (pos : Nat) :
    Takes e.mem pos (optional4 e) (optionalBits (natToBits 4) o) o := by
  cases o with
  | none => exact takes_congr (takes_bind (takes_bit false) (takes_pure _ _ _)) (by rfl)
  | some v =>
    exact takes_congr (takes_bind (takes_bit true) (takes_bind (takes_get (n := 4) (by omega) (h v rfl)) (takes_pure _ _ _)))
      (by simp [optionalBits])

theorem takes_matrix {e : Env} (o : Option (Nat × Bool)) (h : ∀ v ∈ o, v.1 < 4) (pos : Nat) :
    Takes e.mem pos (pceMatrix e) (optionalBits (fun x => natToBits 2 x.1 ++ [x.2]) o) o := by
  cases o with
  | none => exact takes_congr (takes_bind (takes_bit false) (takes_pure _ _ _)) (by rfl)
  | some v =>
    exact takes_congr (takes_bind (takes_bit true) (takes_bind (takes_get (n := 2) (by omega) (h v rfl))
      (takes_bind (takes_bit v.2) (takes_pure _ _ _)))) (by simp [optionalBits])

/-- The fields of a PCE in order, without its alignment. -/
theorem takes_pce {e : Env} {pos : Nat} {p : Pce} {bits : List Bool} (h : isPce pos p bits) (hc : p.channels ≤ e.par.maxChannels) :
    Takes e.mem pos (pceParse e) bits p := by
  obtain ⟨hfit, pad, hp8, hpa, hb⟩ := h
  rw [hb]
  obtain ⟨h1, h2, h3, h4, h5, h6, h7, h8, h9, h10, h11, h12, h13, h14, h15, h16⟩ := id hfit
  have hf : ∀ l, l ⊆ p.front ++ p.side ++ p.back ++ p.cc → ∀ x ∈ l, x.tag < 16 := fun l hl x hx => h14 x (hl hx)
  have hn : ¬ p.channels > e.par.maxChannels := by omega
  refine takes_congr (l := natToBits 4 p.tag ++ (natToBits 2 p.objectType ++ (natToBits 4 p.sfIndex ++
    (natToBits 4 p.front.length ++ (natToBits 4 p.side.length ++ (natToBits 4 p.back.length ++ (natToBits 2 p.lfe.length ++
    (natToBits 3 p.assoc.length ++ (natToBits 4 p.cc.length ++ (optionalBits (natToBits 4) p.monoMixdown ++
    (optionalBits (natToBits 4) p.stereoMixdown ++ (optionalBits (fun x => natToBits 2 x.1 ++ [x.2]) p.matrixMixdown ++
    (pceElemBits p.front ++ (pceElemBits p.side ++ (pceElemBits p.back ++ (p.lfe.flatMap (natToBits 4) ++
    (p.assoc.flatMap (natToBits 4) ++ (pceElemBits p.cc ++ (pad ++ (natToBits 8 p.comment.length ++
    (p.comment.flatMap (natToBits 8) ++ []))))))))))))))))))))) ?_ (by simp [Pce.headBits, Pce.commentBits])
  refine takes_bind (takes_get (by omega) h1) ?_
  refine takes_bind (takes_get (by omega) h2) ?_
  refine takes_bind (takes_get (by omega) h3) ?_
  refine takes_bind (takes_get (by omega) h4) ?_
  refine takes_bind (takes_get (by omega) h5) ?_
  refine takes_bind (takes_get (by omega) h6) ?_
  refine takes_bind (takes_get (by omega) h7) ?_
  refine takes_bind (takes_get (by omega) h8) ?_
  refine takes_bind (takes_get (by omega) h9) ?_
  refine takes_bind (takes_optional4 p.monoMixdown h11 _) ?_
  refine takes_bind (takes_optional4 p.stereoMixdown h12 _) ?_
  refine takes_bind (takes_matrix p.matrixMixdown h13 _) ?_
  refine takes_bind (takes_elems p.front (hf _ (by intro x hx; simp [hx])) _) ?_
  refine takes_bind (takes_elems p.side (hf _ (by intro x hx; simp [hx])) _) ?_
  refine takes_bind (takes_elems p.back (hf _ (by intro x hx; simp [hx])) _) ?_
  refine takes_bind (takes_many (by omega) p.lfe (fun v hv => h15 v (by simp [hv])) _) ?_
  refine takes_bind (takes_many (by omega) p.assoc (fun v hv => h15 v (by simp [hv])) _) ?_
  refine takes_bind (takes_elems p.cc (hf _ (by intro x hx; simp [hx])) _) ?_
  refine takes_bind (takes_align hp8 ?_) ?_
  · simp only [Pce.headBits, List.length_append, Nat.add_assoc] at hpa ⊢
    exact hpa
  refine takes_bind (takes_get (by omega) h10) ?_
  refine takes_bind (takes_many (by omega) p.comment h16 _) ?_
  dsimp only
  rw [if_neg (show ¬ Pce.channels _ > e.par.maxChannels from hn)]
  exact takes_bind (l := []) (takes_sample _ _) (takes_pure _ _ _)

end Sys2Proof.Machine
end

