-- ==== Sys2Proof/Laws/PerInstr.lean ====
section
/-! SUPPORT. One lemma for each instruction: the word the encoder writes fits the port it is presented on (30_encoding.md
R100 to R105). The case split over the instructions is the host's. -/

namespace Sys2Proof.Laws

open Sys2Proof Sys2Proof.Machine

/-- The encoded word of a well-formed instruction is one its port can carry. -/
def Encoding.Statement (i : Instr) : Prop := i.wellFormed = true → (encode i).word < portWords (encode i).port

/-- A Bit Reader word with a 6-bit count fits ten bits. -/
theorem brWord_lt {code n : Nat} (hc : code < 16) (hn : n < 64) : brWord code n < 1024 := by
  unfold brWord
  omega

/-- A VLC word with a 5-bit field fits eight bits. -/
theorem vlcWord_lt {code cb : Nat} (hc : code < 8) (hn : cb < 32) : vlcWord code cb < 256 := by
  unfold vlcWord
  omega

theorem Encoding.openHandle : Encoding.Statement .openHandle := fun _ => by decide
theorem Encoding.getConfig : Encoding.Statement .getConfig := fun _ => by decide
theorem Encoding.setConfig : Encoding.Statement .setConfig := fun _ => by decide
theorem Encoding.init : Encoding.Statement .init := fun _ => by decide
theorem Encoding.init2 : Encoding.Statement .init2 := fun _ => by decide
theorem Encoding.decode : Encoding.Statement .decode := fun _ => by decide
theorem Encoding.postSeekReset : Encoding.Statement .postSeekReset := fun _ => by decide
theorem Encoding.close : Encoding.Statement .close := fun _ => by decide
theorem Encoding.cmdReserved8 : Encoding.Statement .cmdReserved8 := fun _ => by decide
theorem Encoding.cmdReserved9 : Encoding.Statement .cmdReserved9 := fun _ => by decide
theorem Encoding.cmdReserved10 : Encoding.Statement .cmdReserved10 := fun _ => by decide
theorem Encoding.cmdReserved11 : Encoding.Statement .cmdReserved11 := fun _ => by decide
theorem Encoding.cmdReserved12 : Encoding.Statement .cmdReserved12 := fun _ => by decide
theorem Encoding.cmdReserved13 : Encoding.Statement .cmdReserved13 := fun _ => by decide
theorem Encoding.cmdReserved14 : Encoding.Statement .cmdReserved14 := fun _ => by decide
theorem Encoding.cmdReserved15 : Encoding.Statement .cmdReserved15 := fun _ => by decide
theorem Encoding.peek (n : Nat) : Encoding.Statement (.peek n) :=
  fun h => brWord_lt (by decide) (by simpa [Instr.wellFormed] using h)
theorem Encoding.get (n : Nat) : Encoding.Statement (.get n) :=
  fun h => brWord_lt (by decide) (by simpa [Instr.wellFormed] using h)
theorem Encoding.get1 : Encoding.Statement .get1 := fun _ => by decide
theorem Encoding.flush (n : Nat) : Encoding.Statement (.flush n) :=
  fun h => brWord_lt (by decide) (by simpa [Instr.wellFormed] using h)
theorem Encoding.byteAlign : Encoding.Statement .byteAlign := fun _ => by decide
theorem Encoding.processedBits : Encoding.Statement .processedBits := fun _ => by decide
theorem Encoding.rewind : Encoding.Statement .rewind := fun _ => by decide
theorem Encoding.resetTo (bitpos : Nat) : Encoding.Statement (.resetTo bitpos) := fun _ => brWord_lt (by decide) (by decide)
theorem Encoding.seek (bitpos : Nat) : Encoding.Statement (.seek bitpos) := fun _ => brWord_lt (by decide) (by decide)
theorem Encoding.wPeek (n w : Nat) : Encoding.Statement (.wPeek n w) :=
  fun h => brWord_lt (by decide) (by simpa [Instr.wellFormed] using h)
theorem Encoding.wConsume (n w : Nat) : Encoding.Statement (.wConsume n w) :=
  fun h => brWord_lt (by decide) (by simpa [Instr.wellFormed] using h)
theorem Encoding.wConcat (w v : Nat) : Encoding.Statement (.wConcat w v) := fun _ => brWord_lt (by decide) (by decide)
theorem Encoding.wReverse (w : Nat) : Encoding.Statement (.wReverse w) := fun _ => brWord_lt (by decide) (by decide)
theorem Encoding.wLoad (n w : Nat) : Encoding.Statement (.wLoad n w) :=
  fun h => brWord_lt (by decide) (by simpa [Instr.wellFormed] using h)
theorem Encoding.brReserved14 : Encoding.Statement .brReserved14 := fun _ => by decide
theorem Encoding.brReserved15 : Encoding.Statement .brReserved15 := fun _ => by decide
theorem Encoding.hcw0 : Encoding.Statement .hcw0 := fun _ => by decide
theorem Encoding.hcw1 : Encoding.Statement .hcw1 := fun _ => by decide
theorem Encoding.hcw2 : Encoding.Statement .hcw2 := fun _ => by decide
theorem Encoding.hcw3 : Encoding.Statement .hcw3 := fun _ => by decide
theorem Encoding.hcw4 : Encoding.Statement .hcw4 := fun _ => by decide
theorem Encoding.hcw5 : Encoding.Statement .hcw5 := fun _ => by decide
theorem Encoding.hcw6 : Encoding.Statement .hcw6 := fun _ => by decide
theorem Encoding.hcw7 : Encoding.Statement .hcw7 := fun _ => by decide
theorem Encoding.hcw8 : Encoding.Statement .hcw8 := fun _ => by decide
theorem Encoding.hcw9 : Encoding.Statement .hcw9 := fun _ => by decide
theorem Encoding.hcw10 : Encoding.Statement .hcw10 := fun _ => by decide
theorem Encoding.hcw11 : Encoding.Statement .hcw11 := fun _ => by decide
theorem Encoding.hcw12 : Encoding.Statement .hcw12 := fun _ => by decide
theorem Encoding.hcw13 : Encoding.Statement .hcw13 := fun _ => by decide
theorem Encoding.hcw14 : Encoding.Statement .hcw14 := fun _ => by decide
theorem Encoding.hcw15 : Encoding.Statement .hcw15 := fun _ => by decide
theorem Encoding.hcw16 : Encoding.Statement .hcw16 := fun _ => by decide
theorem Encoding.hcw17 : Encoding.Statement .hcw17 := fun _ => by decide
theorem Encoding.hcw18 : Encoding.Statement .hcw18 := fun _ => by decide
theorem Encoding.hcw19 : Encoding.Statement .hcw19 := fun _ => by decide
theorem Encoding.hcw20 : Encoding.Statement .hcw20 := fun _ => by decide
theorem Encoding.hcw21 : Encoding.Statement .hcw21 := fun _ => by decide
theorem Encoding.hcw22 : Encoding.Statement .hcw22 := fun _ => by decide
theorem Encoding.hcw23 : Encoding.Statement .hcw23 := fun _ => by decide
theorem Encoding.hcw24 : Encoding.Statement .hcw24 := fun _ => by decide
theorem Encoding.hcw25 : Encoding.Statement .hcw25 := fun _ => by decide
theorem Encoding.hcw26 : Encoding.Statement .hcw26 := fun _ => by decide
theorem Encoding.hcw27 : Encoding.Statement .hcw27 := fun _ => by decide
theorem Encoding.hcw28 : Encoding.Statement .hcw28 := fun _ => by decide
theorem Encoding.hcw29 : Encoding.Statement .hcw29 := fun _ => by decide
theorem Encoding.hcw30 : Encoding.Statement .hcw30 := fun _ => by decide
theorem Encoding.hcw31 : Encoding.Statement .hcw31 := fun _ => by decide
theorem Encoding.sfd : Encoding.Statement .sfd := fun _ => by decide
theorem Encoding.esc (i : Nat) : Encoding.Statement (.esc i) := fun h => by
  have : i < 2 := by simpa [Instr.wellFormed, Nat.lt_succ_iff] using h
  exact vlcWord_lt (by decide) (by omega)
theorem Encoding.sgn (p : Nat) : Encoding.Statement (.sgn p) := fun h => by
  have : p < 2 := by simpa [Instr.wellFormed, Nat.lt_succ_iff] using h
  exact vlcWord_lt (by decide) (by omega)
theorem Encoding.rvlcSfd : Encoding.Statement .rvlcSfd := fun _ => by decide
theorem Encoding.rvlcEscd : Encoding.Statement .rvlcEscd := fun _ => by decide
theorem Encoding.npcm : Encoding.Statement .npcm := fun _ => by decide
theorem Encoding.vlcReserved7 : Encoding.Statement .vlcReserved7 := fun _ => by decide
theorem Encoding.sce : Encoding.Statement .sce := fun _ => by decide
theorem Encoding.cpe : Encoding.Statement .cpe := fun _ => by decide
theorem Encoding.cce : Encoding.Statement .cce := fun _ => by decide
theorem Encoding.lfe : Encoding.Statement .lfe := fun _ => by decide
theorem Encoding.dse : Encoding.Statement .dse := fun _ => by decide
theorem Encoding.pce : Encoding.Statement .pce := fun _ => by decide
theorem Encoding.fil : Encoding.Statement .fil := fun _ => by decide
theorem Encoding.endMarker : Encoding.Statement .endMarker := fun _ => by decide

end Sys2Proof.Laws
end

