-- ==== Sys2Proof/Laws/Sbr.lean ====
section
/-! SUPPORT. Plain upsampling (46_sbr.md R352, R364): the filter banks on silence, and the SBR stage of an upsampled channel
element that carries no SBR data. -/

namespace Sys2Proof.Machine

/-- Plain upsampling of an element of one channel. -/
theorem sbrPlain_state (p : Params) (b : Bool) (ts : Nat) (s : SbrState) (x : List Sample) :
    sbrPlainElement p b ts s [x] = ⟨[(sbrPlain p b ts (s.chan p 0) x).1], false, { s with chans := (sbrPlain p b ts (s.chan p 0) x).2 :: s.chans.drop 1 }⟩ := rfl
/-- A write within an array. -/
theorem set_eq_setPad {α} (d : α) (l : List α) (i : Nat) (v : α) (h : i < l.length) : setPad d l i v = l.set i v := by
  induction l generalizing i with
  | nil => simp at h
  | cons x r ih => cases i with
    | zero => rfl
    | succ i => simp [setPad, ih i (by simpa using h)]

/-- An element's own SbrState is kept. -/
theorem keepSbr_run {n : Nat} {b : SbrState} {w : Work} (hg : w.ds.sbr.getD n none = some b) (s : SbrState) :
    keepSbr n s w = .ok () { w with ds := { w.ds with sbr := setPad none w.ds.sbr n (some s) } } := by
  unfold keepSbr
  rw [run_bind_ok (show Wk.ds w = .ok w.ds w from rfl), hg]
  rfl

/-- An element that has its own SbrState takes no slot. -/
theorem sbrSlot_own {n : Nat} {b : SbrState} {w : Work} (e : Env) (hg : w.ds.sbr.getD n none = some b) :
    sbrSlot e n w = .ok (some b) w := by
  unfold sbrSlot
  rw [run_bind_ok (show Wk.ds w = .ok w.ds w from rfl), hg]
  rfl

/-- An element without one takes a free slot, which is fresh. -/
theorem sbrSlot_free {n : Nat} {w : Work} (e : Env) (hg : w.ds.sbr.getD n none = none) (hf : 0 < w.ds.sbrFree) :
    sbrSlot e n w = .ok (some (SbrState.fresh e.par)) { w with ds := { w.ds with
      sbrFree := w.ds.sbrFree - 1
      sbr := setPad none w.ds.sbr n (some (SbrState.fresh e.par)) } } := by
  unfold sbrSlot
  rw [run_bind_ok (show Wk.ds w = .ok w.ds w from rfl), hg]
  simp only [hf, if_true]
  rfl

/-- Without a free slot there is none, and nothing changes. -/
theorem sbrSlot_none {n : Nat} {w : Work} (e : Env) (hg : w.ds.sbr.getD n none = none) (hf : w.ds.sbrFree = 0) :
    sbrSlot e n w = .ok none w := by
  unfold sbrSlot
  rw [run_bind_ok (show Wk.ds w = .ok w.ds w from rfl), hg]
  simp only [hf, Nat.lt_irrefl, if_false]
  rfl

theorem getD_replicate_zero {α : Type} (d : α) (n i : Nat) : (List.replicate n d).getD i d = d := by
  simp only [List.getD_eq_getElem?_getD, List.getElem?_replicate]
  split <;> rfl

theorem lastN_replicate {α : Type} (n m : Nat) (d : α) : lastN n (List.replicate m d) = List.replicate (min n m) d := by
  simp only [lastN, List.length_replicate, List.drop_replicate]
  congr 1
  omega

/-- The filter banks answer silence with silence (46_sbr.md R360, R363). -/
theorem qmfAnalysisSlot_zero (a b : Nat) : qmfAnalysisSlot (List.replicate a 0) (List.replicate b 0) =
    (List.replicate 32 Cx.zero, List.replicate (min 320 (a + b)) 0) := by
  unfold qmfAnalysisSlot
  simp only [List.replicate_append_replicate, lastN_replicate, getD_replicate_zero]
  congr 1
  rw [show (fun _ : Fin 320 => (0 : Sample)) = 0 from rfl, map_zero]
  rfl

theorem qmfAnalysis_zero (n : Nat) : ∀ a b : Nat, ∃ k, qmfAnalysis n (List.replicate a 0) (List.replicate b 0) =
    (List.replicate n (List.replicate 32 Cx.zero), List.replicate k 0) := by
  induction n with
  | zero => exact fun a b => ⟨a, rfl⟩
  | succ n ih =>
    intro a b
    simp only [qmfAnalysis, List.take_replicate, List.drop_replicate, qmfAnalysisSlot_zero]
    obtain ⟨k, hk⟩ := ih (min 320 (a + min 32 b)) (b - 32)
    exact ⟨k, by rw [hk]; rfl⟩

theorem qmfSynthesisSlot_zero (a b : Nat) : qmfSynthesisSlot false (List.replicate a 0) (List.replicate b Cx.zero) =
    (List.replicate 64 0, List.replicate 1280 0) := by
  have h0 : ((fun _ : Fin 1280 => (0 : Sample)), (fun _ : Fin 64 => ((Cx.zero).re, (Cx.zero).im))) = 0 := rfl
  unfold qmfSynthesisSlot
  simp only [Bool.false_and, Bool.false_eq_true, if_false, getD_replicate_zero, h0, map_zero]
  have h1 : List.ofFn ((0 : (Fin 1280 → Sample) × (Fin 64 → Sample)).1) = List.replicate 1280 0 := by
    rw [Prod.fst_zero]
    exact List.ofFn_const _ _
  have h2 : List.ofFn ((0 : (Fin 1280 → Sample) × (Fin 64 → Sample)).2) = List.replicate 64 0 := by
    rw [Prod.snd_zero]
    exact List.ofFn_const _ _
  rw [h1, h2, List.take_replicate, Nat.min_self]

theorem qmfSynthesis_zero (n b : Nat) : ∀ a : Nat, ∃ k, qmfSynthesis false (List.replicate a 0) (List.replicate n (List.replicate b Cx.zero)) =
    (List.replicate (64 * n) 0, List.replicate k 0) := by
  induction n with
  | zero => exact fun a => ⟨a, rfl⟩
  | succ n ih =>
    intro a
    obtain ⟨k, hk⟩ := ih 1280
    refine ⟨k, ?_⟩
    rw [List.replicate_succ, qmfSynthesis, qmfSynthesisSlot_zero]
    dsimp only
    rw [hk]
    dsimp only
    rw [List.replicate_append_replicate, show 64 + 64 * n = 64 * (n + 1) by omega]

/-- Plain upsampling of silence with silent histories (46_sbr.md R364). -/
theorem sbrPlain_zero (p : Params) (ts fl : Nat) :
    (sbrPlain p false ts (SbrChan.silent p) (List.replicate fl 0)).1 = List.replicate (64 * ts) 0 := by
  unfold sbrPlain sbrAnalyse
  obtain ⟨k, hk⟩ := qmfAnalysis_zero ts 320 fl
  have hr : (List.range ts).map (qmfRow p ((SbrChan.silent p).xlowHist ++ List.replicate ts (List.replicate 32 Cx.zero))
      (SbrChan.silent p).xlowHist.length 32 []) = List.replicate ts (List.replicate 64 Cx.zero) := by
    rw [List.eq_replicate_iff]
    refine ⟨by simp, fun x hx => ?_⟩
    obtain ⟨n, -, rfl⟩ := List.mem_map.1 hx
    unfold qmfRow
    rw [List.eq_replicate_iff]
    refine ⟨by simp, fun y hy => ?_⟩
    obtain ⟨j, -, rfl⟩ := List.mem_map.1 hy
    dsimp only [SbrChan.silent]
    split
    · rw [List.replicate_append_replicate]
      simp only [grid, List.getD_eq_getElem?_getD, List.getElem?_replicate]
      split
      · simp only [Option.getD_some, List.getElem?_replicate]
        split <;> rfl
      · rfl
    · rfl
  obtain ⟨j, hj⟩ := qmfSynthesis_zero ts 64 1280
  have hq : (SbrChan.silent p).qmfa = List.replicate 320 0 := rfl
  rw [hq, hk]
  dsimp only
  rw [hr]
  have hq' : (SbrChan.silent p).qmfs = List.replicate 1280 0 := rfl
  rw [hq', hj]

/-- The SBR stage of an upsampled channel element without SBR data (48_orchestrator.md R424). -/
theorem stageSbr_up {e : Env} {w : Work} {n c : Nat} {b : SbrState} (hc : c + 1 ≤ e.par.maxChannels) (hu : w.sc.upsample = true)
   (hd : (w.frm.el.map (·.sbrData)).getD false = false) (hb : w.ds.sbr[n]? = some (some b)) {init : List ElemRec} {x : ElemRec} (hx : w.frm.elems = init ++ [x]) :
   stageSbr e n c [c] false w = .ok ()
     { w.putChan c (fun ch => { ch with time2 := (sbrPlain e.par false (timeSlots w.sc.frameLen.toNat) (b.chan e.par 0) (w.frm.chans.getD c Wk.noChan).time).1 }) with
       ds := { w.ds with sbr := w.ds.sbr.set n (some { b with chans := (sbrPlain e.par false (timeSlots w.sc.frameLen.toNat) (b.chan e.par 0) (w.frm.chans.getD c Wk.noChan).time).2 :: b.chans.drop 1 }) }
       frm := { (w.putChan c (fun ch => { ch with time2 := (sbrPlain e.par false (timeSlots w.sc.frameLen.toNat) (b.chan e.par 0) (w.frm.chans.getD c Wk.noChan).time).1 })).frm with elems := init ++ [{ x with ps := false }] } } := by
  have hl : n < w.ds.sbr.length := (List.getElem?_eq_some_iff.1 hb).1
  have hg : w.ds.sbr.getD n none = some b := by rw [List.getD_eq_getElem?_getD, hb]; rfl
  unfold stageSbr
  rw [run_bind_ok (show Wk.frm w = .ok w.frm w from rfl), run_bind_ok (show Wk.sc w = .ok w.sc w from rfl)]
  simp only [hd, hu, Bool.false_or, if_true]
  refine (run_bind_ok (show chanTimes [c] w = .ok [(w.frm.chans.getD c Wk.noChan).time] w from rfl)).trans ?_
  refine (run_bind_ok (sbrSlot_own e hg)).trans ?_
  simp only [Option.getD_some, Bool.false_eq_true, if_false, sbrResult, hu, Bool.not_true, sbrPlain_state]
  unfold storeTime2
  rw [if_neg (by simp; omega)]
  refine (run_bind_ok (show setTime2 c _ w = .ok () _ from rfl)).trans ?_
  refine (run_bind_ok (keepSbr_run (b := b) (by exact hg) _)).trans ?_
  refine (show Wk.setFrm _ _ = .ok () _ from rfl).trans ?_
  simp only [hx, List.getLast?_append, List.getLast?_singleton, Option.some_or, List.dropLast_concat, set_eq_setPad _ _ _ _ hl]
  simp [Work.putChan, hx]

end Sys2Proof.Machine
end

