-- ==== Sys2Proof/Laws/Vlc.lean ====
section
/-! SUPPORT. The VLC operations as wholes: a codeword with its signs and escapes, what a raise leaves, and which parts of the
engine an operation leaves alone (42_huffman_spectral.md R212 to R220, 43_scalefactor_rvlc.md R251 to R264). -/

namespace Sys2Proof.Machine

/-! ## Raising -/

/-- What frame abandonment leaves (60_exceptions.md R460), in the terms of the statements. -/
theorem abandon_abandonedWith (c : Cause) (w : Work) (s : State) :
    abandonedWith c s.work.frm.hdrBytes w.ds s (abandon c w s) :=
  ⟨rfl, rfl, rfl, rfl, rfl, rfl, rfl, rfl, rfl, rfl, rfl, rfl, rfl, rfl, rfl, rfl, rfl, rfl, rfl, rfl, rfl, rfl, rfl, rfl,
    rfl, rfl, rfl, rfl, rfl, rfl, rfl⟩

/-- A raise of a VLC operation leaves all but the engine as it was before the operation. -/
theorem abandon_engine_abandonedWith (c : Cause) (g : Engine) (s : State) :
    abandonedWith c s.work.frm.hdrBytes s.work.ds s (abandon c { s.work with eng := g } s) :=
  ⟨rfl, rfl, rfl, rfl, rfl, rfl, rfl, rfl, rfl, rfl, rfl, rfl, rfl, rfl, rfl, rfl, rfl, rfl, rfl, rfl, rfl, rfl, rfl, rfl,
    rfl, rfl, rfl, rfl, rfl, rfl, rfl⟩

/-- Everything an operation over the engine can do, from the port. -/
theorem runWork_ofVx_cases (p : Env → Vx Unit) (s : State) :
    (∃ g, p s.env s.work.eng = .ok () g ∧ runWork (fun e => Wk.ofVx (p e)) s = .next (s.withEngine g)) ∨
      (∃ c g, p s.env s.work.eng = .error c g ∧
        runWork (fun e => Wk.ofVx (p e)) s = .next (abandon c { s.work with eng := g } s)) := by
  cases h : p s.env s.work.eng with
  | ok u g => exact .inl ⟨g, rfl, runWork_ok (ofVx_ok h)⟩
  | error c g => exact .inr ⟨c, g, rfl, runWork_error (ofVx_error h)⟩

/-! ## Codewords with signs and escapes -/

/-- A quad codeword without signs. -/
theorem quadCodeword_eq {e : Env} {t : Nat} {en : Entry} {g : Engine} {r : List Bool}
    (hp : (spectralBook e.par t).prefixFree) (he : en ∈ (spectralBook e.par t)) (hne : en.code ≠ []) (hg : g.sourceBits e.mem = en.code ++ r) :
    quadCodeword e t g = .ok () ((g.afterBits en.code.length).setRegs ({ g.regs with cwLen := en.code.length }.setQuad en.value)) := by
  rw [quadCodeword, run_bind_ok (codeword_eq hp he hne hg)]; rfl
/-- A pair codeword without signs. -/
theorem pairCodeword_eq {e : Env} {t : Nat} {en : Entry} {g : Engine} {r : List Bool}
    (hp : (spectralBook e.par t).prefixFree) (he : en ∈ (spectralBook e.par t)) (hne : en.code ≠ []) (hg : g.sourceBits e.mem = en.code ++ r) :
    pairCodeword e t g = .ok () ((g.afterBits en.code.length).setRegs ({ g.regs with cwLen := en.code.length }.setPair en.value)) := by
  rw [pairCodeword, run_bind_ok (codeword_eq hp he hne hg)]; rfl

/-- A quad codeword and its signs. -/
theorem quadSigned_eq {e : Env} {t : Nat} {en : Entry} {g : Engine} {signs r : List Bool}
    (hp : (spectralBook e.par t).prefixFree) (he : en ∈ (spectralBook e.par t)) (hne : en.code ≠ []) (hl : en.value.length = 4)
    (hs : signs.length = signCount en.value)
    (hg : g.sourceBits e.mem = en.code ++ signs ++ r) :
    (do quadCodeword e t; sgnOp e 4 : Vx Unit) g = .ok () ((g.afterBits (en.code.length + signs.length)).setRegs ({ g.regs with cwLen := en.code.length }.setQuad (applySigns en.value signs))) := by
  rw [List.append_assoc] at hg
  rw [run_bind_ok (quadCodeword_eq hp he hne hg), sgnOp]
  obtain ⟨a,b,c,d,hv⟩ : ∃ a b c d, en.value = [a,b,c,d] := by
    match hh : en.value, hl with
    | [a,b,c,d], _ => exact ⟨a,b,c,d,rfl⟩
  have hla : lanesFrom ({ g.regs with cwLen := en.code.length }.setQuad en.value) 0 4 = en.value := by rw [hv]; rfl
  have hg2 : Engine.sourceBits e.mem ((g.afterBits en.code.length).setRegs ({ g.regs with cwLen := en.code.length }.setQuad en.value)) = signs ++ r := by
    rw [Engine.sourceBits_setRegs]; exact sourceBits_after hg
    simp [VlcRegs.setQuad]
  rw [sgnFrom_eq 4 0 _ signs r (by omega) (by rw [Engine.setRegs_regs, hla]; exact hs) hg2]
  rw [Engine.afterBits_setRegs _ _ _ (by simp [VlcRegs.setQuad]), Engine.afterBits_add]
  simp only [Engine.setRegs_regs, Engine.setRegs_setRegs, hla]
  rw [setLanes_quad _ _ (by rw [applySigns_length]; exact hl)]
  rfl
/-- A pair codeword and its signs. -/
theorem pairSigned_eq {e : Env} {t : Nat} {en : Entry} {g : Engine} {signs r : List Bool}
    (hp : (spectralBook e.par t).prefixFree) (he : en ∈ (spectralBook e.par t)) (hne : en.code ≠ []) (hl : en.value.length = 2)
    (hs : signs.length = signCount en.value)
    (hg : g.sourceBits e.mem = en.code ++ signs ++ r) :
    (do pairCodeword e t; sgnOp e 2 : Vx Unit) g = .ok () ((g.afterBits (en.code.length + signs.length)).setRegs ({ g.regs with cwLen := en.code.length }.setPair (applySigns en.value signs))) := by
  rw [List.append_assoc] at hg
  rw [run_bind_ok (pairCodeword_eq hp he hne hg), sgnOp]
  obtain ⟨a,b,hv⟩ : ∃ a b, en.value = [a,b] := by
    match hh : en.value, hl with
    | [a,b], _ => exact ⟨a,b,rfl⟩
  have hla : lanesFrom ({ g.regs with cwLen := en.code.length }.setPair en.value) 0 2 = en.value := by rw [hv]; rfl
  have hg2 : Engine.sourceBits e.mem ((g.afterBits en.code.length).setRegs ({ g.regs with cwLen := en.code.length }.setPair en.value)) = signs ++ r := by
    rw [Engine.sourceBits_setRegs]; exact sourceBits_after hg
    simp [VlcRegs.setPair]
  rw [sgnFrom_eq 2 0 _ signs r (by omega) (by rw [Engine.setRegs_regs, hla]; exact hs) hg2]
  rw [Engine.afterBits_setRegs _ _ _ (by simp [VlcRegs.setPair]), Engine.afterBits_add]
  simp only [Engine.setRegs_regs, Engine.setRegs_setRegs, hla]
  rw [setLanes_pair _ _ (by rw [applySigns_length]; exact hl)]
  rfl

/-- ESC i on any value: nothing, or the escape. -/
theorem escOp_run {e : Env} {g : Engine} {i : Nat} {v w : Int} {len : Option Nat} {ea r : List Bool} (hq : g.regs.q i = v)
    (h32 : e.par.escMaxN ≤ 32) (h : isEscapeOf e.par v w len ea) (hg : g.sourceBits e.mem = ea ++ r) :
    escOp e i g =
      .ok () ((g.afterBits ea.length).setRegs ({ g.regs with escN := len.getD g.regs.escN }.setQ i w)) := by
  unfold isEscapeOf at h
  split at h
  · rename_i h16
    obtain ⟨n, off, rfl, h4, hn, ho, rfl, rfl⟩ := h
    rw [escOp_eq (by rw [hq]; exact h16) h4 hn (by omega) ho hg, hq]
    rfl
  · rename_i h16
    obtain ⟨rfl, rfl, rfl⟩ := h
    rw [escOp_none (by rw [hq]; exact h16), List.length_nil, Engine.afterBits_zero, Option.getD_none]
    rw [show ({ g.regs with escN := g.regs.escN } : VlcRegs) = g.regs from rfl, ← hq, setQ_self, Engine.setRegs_self]

/-- The whole of HCW 11: codeword, signs, both escapes. -/
theorem escapeCodeword_eq {e : Env} {en : Entry} {g : Engine} {na nb : Option Nat} {signs ea eb r : List Bool} {a b v w : Int}
    (h32 : e.par.escMaxN ≤ 32)
    (hp : (spectralBook e.par 11).prefixFree) (he : en ∈ (spectralBook e.par 11)) (hne : en.code ≠ []) (hl : en.value.length = 2)
    (hs : signs.length = signCount en.value) (ha : applySigns en.value signs = [a, b])
    (h1 : isEscapeOf e.par a v na ea) (h2 : isEscapeOf e.par b w nb eb)
    (hg : g.sourceBits e.mem = en.code ++ signs ++ ea ++ eb ++ r) :
    escapeCodeword e 11 g = .ok () ((g.afterBits (en.code.length + signs.length + ea.length + eb.length)).setRegs
        { g.regs with cwLen := en.code.length, escN := (nb.or na).getD g.regs.escN, q0 := v, q1 := w }) := by
  have hg1 : g.sourceBits e.mem = en.code ++ signs ++ (ea ++ (eb ++ r)) := by rw [hg]; simp
  have hps := pairSigned_eq hp he hne hl hs hg1
  rw [ha] at hps
  have he1 := escOp_run (e := e) (i := 0) (g := (g.afterBits (en.code.length + signs.length)).setRegs (VlcRegs.setPair { g.regs with cwLen := en.code.length } [a, b])) (r := eb ++ r) (v := a) (ea := ea) rfl h32 h1 (by
    rw [Engine.sourceBits_setRegs _ _ _ (by simp [VlcRegs.setPair])]
    have := sourceBits_after (l := en.code ++ signs) hg1
    rw [List.length_append] at this
    exact this)
  have he2 := escOp_run (e := e) (i := 1) (g := (g.afterBits (en.code.length + signs.length + ea.length)).setRegs (VlcRegs.setQ { VlcRegs.setPair { g.regs with cwLen := en.code.length } [a, b] with escN := na.getD g.regs.escN } 0 v)) (r := r) (v := b) (ea := eb) rfl h32 h2 (by
    rw [Engine.sourceBits_setRegs _ _ _ (by simp [VlcRegs.setPair, VlcRegs.setQ])]
    have := sourceBits_after (l := en.code ++ signs ++ ea) (r := eb ++ r) (g := g) (m := e.mem) (by rw [hg]; simp)
    rw [List.length_append, List.length_append] at this
    exact this)
  have : escapeCodeword e 11 = (do (do pairCodeword e 11; sgnOp e 2 : Vx Unit); escOp e 0; escOp e 1) := by
    simp [escapeCodeword]
  rw [this, run_bind_ok hps, run_bind_ok he1, Engine.afterBits_setRegs _ _ _ (by simp [VlcRegs.setPair]), Engine.afterBits_add]
  simp only [Engine.setRegs_setRegs, Engine.setRegs_regs]
  refine he2.trans ?_
  rw [Engine.afterBits_setRegs _ _ _ (by simp [VlcRegs.setPair, VlcRegs.setQ]), Engine.afterBits_add]
  cases na <;> cases nb <;> rfl

/-! ## Codewords of a bounded run (43_scalefactor_rvlc.md R263) -/

/-- The bits of a run, one read at a time. -/
theorem Run.next_cons {m : Memory} {c : Cursor} {r : Run} {b : Bool} {t : List Bool} (h : Run.bits m c r = b :: t) :
    Run.next m c r = (some b, { r with pos := r.pos + 1 }) ∧ Run.bits m c { r with pos := r.pos + 1 } = t := by
  unfold Run.bits at *
  have hl := congrArg List.length h
  rw [bitList_length, List.length_cons] at hl
  rw [hl, bitList_cons, List.cons.injEq] at h
  constructor
  · rw [Run.next, if_pos (by omega), h.1]
  · show bitList m c.base (r.pos + 1) (min r.stop c.limit - (r.pos + 1)) = t
    rw [show min r.stop c.limit - (r.pos + 1) = t.length by omega, h.2]

theorem Run.next_nil {m : Memory} {c : Cursor} {r : Run} (h : Run.bits m c r = []) : Run.next m c r = (none, r) := by
  unfold Run.bits at h
  have hl := congrArg List.length h
  rw [bitList_length, List.length_nil] at hl
  rw [Run.next, if_neg (by omega)]

theorem runWalk_eq {m : Memory} {c : Cursor} {book : Book} {en : Entry} {rest : List Bool} (hp : book.prefixFree) (he : en ∈ book) :
    ∀ (t s : List Bool) (k : Nat) (r : Run), en.code = s ++ t → t ≠ [] → t.length ≤ k → Run.bits m c r = t ++ rest →
      runWalk m c book k s r = (some (en.value.getD 0 0, en.code.length), { r with pos := r.pos + t.length }) := by
  intro t
  induction t with
  | nil => intro s k r _ h; exact absurd rfl h
  | cons b t ih =>
    intro s k r hc _ hk hr
    obtain ⟨k, rfl⟩ : ∃ j, k = j + 1 := ⟨k - 1, by simp at hk; omega⟩
    obtain ⟨h1, h2⟩ := Run.next_cons (show Run.bits m c r = b :: (t ++ rest) from hr)
    have hc' : en.code = (s ++ [b]) ++ t := by simpa using hc
    rw [runWalk, h1]
    by_cases ht : t = []
    · subst ht
      rw [List.append_nil] at hc'
      dsimp only
      rw [← hc', findEntry_code hp he]
      rfl
    · dsimp only
      rw [findEntry_proper hp he hc' ht]
      have hlen : ¬ maxCodeLen book ≤ (s ++ [b]).length := by
        have := maxCodeLen_le he
        have h3 := congrArg List.length hc'
        rw [List.length_append] at h3
        have := List.length_pos_iff.2 ht
        omega
      simp only [hlen, if_false]
      rw [ih (s ++ [b]) k _ hc' ht (by simpa using hk) h2]
      simp only [List.length_cons]
      congr 2
      omega

/-- CODEWORD_OR_99 on the code of an entry (R263). -/
theorem runCodeword_eq {m : Memory} {c : Cursor} {book : Book} {en : Entry} {rest : List Bool} {r : Run} (hp : book.prefixFree)
    (he : en ∈ book) (hne : en.code ≠ []) (hr : Run.bits m c r = en.code ++ rest) :
    runCodeword m c book r =
      (some (en.value.getD 0 0, en.code.length), { r with pos := r.pos + en.code.length }) :=
  runWalk_eq hp he en.code [] _ r rfl hne (by have := maxCodeLen_le he; omega) hr

theorem runWalk_miss {m : Memory} {c : Cursor} {book : Book} :
    ∀ (k : Nat) (t s : List Bool) (r : Run), Run.bits m c r = t → maxCodeLen book < s.length + k → s.length < maxCodeLen book →
      (∀ x ∈ book, ¬ x.code <+: s ++ t) →
      runWalk m c book k s r = (none, { r with pos := r.pos + min t.length (maxCodeLen book - s.length) }) := by
  intro k
  induction k with
  | zero => intro t s r _ h1 h2; omega
  | succ k ih =>
    intro t s r hr h1 h2 hno
    cases t with
    | nil =>
      rw [runWalk, Run.next_nil hr]
      simp
    | cons b t =>
      obtain ⟨h3, h4⟩ := Run.next_cons hr
      have hsplit : s ++ b :: t = (s ++ [b]) ++ t := by simp
      have hf : findEntry book (s ++ [b]) = none := by
        rw [findEntry, List.find?_eq_none]
        intro x hx hxs
        have : x.code = s ++ [b] := by simpa using hxs
        exact hno x hx (by rw [hsplit, this]; exact List.prefix_append _ _)
      rw [runWalk, h3]
      dsimp only
      rw [hf]
      by_cases hm : maxCodeLen book ≤ (s ++ [b]).length
      · simp only [hm, if_true]
        rw [List.length_append] at hm
        simp only [List.length_cons, List.length_nil] at hm ⊢
        congr 2
        omega
      · simp only [hm, if_false]
        rw [List.length_append] at hm
        simp only [List.length_cons, List.length_nil] at hm
        rw [ih t (s ++ [b]) _ h4 (by simp; omega) (by simp; omega) (by rw [← hsplit]; exact hno)]
        simp only [List.length_append, List.length_cons, List.length_nil]
        congr 2
        omega

theorem maxCodeLen_pos {b : Book} {x : Entry} (h : x ∈ b) (hx : x.code ≠ []) : 0 < maxCodeLen b :=
  Nat.lt_of_lt_of_le (List.length_pos_iff.2 hx) (maxCodeLen_le h)

/-- CODEWORD_OR_99 on bits no entry begins: a miss, after as many bits as the longest code has or the run holds (R263). -/
theorem runCodeword_miss {m : Memory} {c : Cursor} {book : Book} {r : Run} (hb : book ≠ [])
    (hno : ∀ x ∈ book, ¬ x.code <+: Run.bits m c r) :
    runCodeword m c book r = (none, { r with pos := r.pos + min (Run.bits m c r).length (maxCodeLen book) }) := by
  have hpos : 0 < maxCodeLen book := by
    obtain ⟨x, hx⟩ := List.exists_mem_of_ne_nil book hb
    refine maxCodeLen_pos hx (fun h => hno x hx ?_)
    rw [h]
    exact List.nil_prefix
  exact runWalk_miss (maxCodeLen book + 1) (Run.bits m c r) [] r rfl (by simp) (by simpa using hpos) hno
/-! ## Which parts of the engine an operation leaves alone -/

/-- The same bit source, and every window but the source as in l. -/
def OnlySource (src : BitSource) (l : List Window) (g : Engine) : Prop :=
  g.regs.source = src ∧ ∀ w, src ≠ .window w → g.bw[w]? = l[w]?

theorem vxGetN_only {src : BitSource} {l : List Window} (e : Env) (n : Nat) : Keeps (OnlySource src l) (Vx.getN e n) := by
  refine ⟨fun g hg => ?_⟩
  unfold Vx.getN
  split
  · exact hg
  · rename_i w hw
    refine ⟨hg.1, fun x hx => ?_⟩
    show (g.bw.set w _)[x]? = _
    rw [List.getElem?_set_ne, hg.2 x hx]
    rintro rfl
    exact hx (hg.1 ▸ hw)

theorem vxSetRegs_only {src : BitSource} {l : List Window} {f : VlcRegs → VlcRegs} (h : ∀ r, (f r).source = r.source) :
    Keeps (OnlySource src l) (Vx.setRegs f) := ⟨fun g hg => ⟨(h g.regs).trans hg.1, hg.2⟩⟩
theorem vxRegs_only {src : BitSource} {l : List Window} : Keeps (OnlySource src l) Vx.regs := ⟨fun _ h => h⟩
theorem vxRaise_only {α : Type} {src : BitSource} {l : List Window} (c : Cause) :
    Keeps (OnlySource src l) (Vx.raise c : Vx α) := ⟨fun _ h => h⟩

theorem vxGet1_only {src : BitSource} {l : List Window} (e : Env) : Keeps (OnlySource src l) (Vx.get1 e) :=
  keeps_bind (vxGetN_only e 1) (fun _ => keeps_pure _ _)

theorem codewordWalk_only {src : BitSource} {l : List Window} (e : Env) (b : Book) (c : Cause) (k : Nat) (s : List Bool) :
    Keeps (OnlySource src l) (codewordWalk e b c k s) := by
  induction k generalizing s with
  | zero => exact vxRaise_only c
  | succ k ih =>
    refine keeps_bind (vxGet1_only e) (fun x => ?_)
    dsimp only
    split
    · exact keeps_bind (vxSetRegs_only (fun _ => rfl)) (fun _ => keeps_pure _ _)
    · split
      · exact vxRaise_only c
      · exact ih _

theorem codeword_only {src : BitSource} {l : List Window} (e : Env) (b : Book) (c : Cause) :
    Keeps (OnlySource src l) (codeword e b c) := codewordWalk_only e b c _ _

theorem sgnLane_only {src : BitSource} {l : List Window} (e : Env) (j : Nat) : Keeps (OnlySource src l) (sgnLane e j) := by
  refine keeps_bind vxRegs_only (fun r => ?_)
  split
  · exact keeps_pure _ _
  · refine keeps_bind (vxGet1_only e) (fun b => ?_)
    split
    · exact vxSetRegs_only (fun r => setQ_source r j _)
    · exact keeps_pure _ _

theorem sgnFrom_only {src : BitSource} {l : List Window} (e : Env) (j n : Nat) : Keeps (OnlySource src l) (sgnFrom e j n) := by
  induction n generalizing j with
  | zero => exact keeps_pure _ _
  | succ n ih => exact keeps_bind (sgnLane_only e j) (fun _ => ih _)

theorem escPrefix_only {src : BitSource} {l : List Window} (e : Env) (k n : Nat) :
    Keeps (OnlySource src l) (escPrefix e k n) := by
  induction k generalizing n with
  | zero => exact vxRaise_only _
  | succ k ih =>
    refine keeps_bind (vxGet1_only e) (fun b => ?_)
    split
    · split
      · exact vxRaise_only _
      · exact ih _
    · exact keeps_pure _ _

theorem escOp_only {src : BitSource} {l : List Window} (e : Env) (i : Nat) : Keeps (OnlySource src l) (escOp e i) := by
  refine keeps_bind vxRegs_only (fun r => ?_)
  split
  · exact keeps_bind (escPrefix_only e _ _) (fun n => keeps_bind (vxSetRegs_only (fun _ => rfl)) (fun _ =>
      keeps_bind (vxGetN_only e n) (fun _ => vxSetRegs_only (fun r => setQ_source r i _))))
  · exact keeps_pure _ _

theorem lavCheck_only {src : BitSource} {l : List Window} (e : Env) (i : Nat) : Keeps (OnlySource src l) (lavCheck e i) := by
  refine vxSetRegs_only (fun r => ?_)
  split <;> rfl

theorem quadCodeword_only {src : BitSource} {l : List Window} (e : Env) (t : Nat) :
    Keeps (OnlySource src l) (quadCodeword e t) :=
  keeps_bind (codeword_only e _ _) (fun _ => vxSetRegs_only (fun _ => rfl))
theorem pairCodeword_only {src : BitSource} {l : List Window} (e : Env) (t : Nat) :
    Keeps (OnlySource src l) (pairCodeword e t) :=
  keeps_bind (codeword_only e _ _) (fun _ => vxSetRegs_only (fun _ => rfl))
theorem escapeCodeword_only {src : BitSource} {l : List Window} (e : Env) (t : Nat) :
    Keeps (OnlySource src l) (escapeCodeword e t) :=
  keeps_bind (pairCodeword_only e t) (fun _ => keeps_bind (sgnFrom_only e 0 2) (fun _ =>
    keeps_bind (escOp_only e 0) (fun _ => escOp_only e 1)))

theorem hcw_only {src : BitSource} {l : List Window} (e : Env) (cb : Nat) : Keeps (OnlySource src l) (hcw e cb) := by
  unfold hcw
  split
  · exact keeps_pure _ _
  · exact keeps_pure _ _
  · exact keeps_pure _ _
  · exact vxRaise_only _
  · exact quadCodeword_only e _
  · exact keeps_bind (quadCodeword_only e _) (fun _ => sgnFrom_only e 0 4)
  · exact pairCodeword_only e _
  · exact keeps_bind (pairCodeword_only e _) (fun _ => sgnFrom_only e 0 2)
  · exact escapeCodeword_only e _
  · exact keeps_bind (escapeCodeword_only e _) (fun _ => lavCheck_only e _)

theorem returning_only {src : BitSource} {l : List Window} {p : Env → Vx Int} {e : Env} (h : Keeps (OnlySource src l) (p e)) :
    Keeps (OnlySource src l) (returning p e) := keeps_bind h (fun _ => vxSetRegs_only (fun _ => rfl))

theorem sfdOp_only {src : BitSource} {l : List Window} (e : Env) : Keeps (OnlySource src l) (sfdOp e) :=
  keeps_bind (keeps_bind (codeword_only e _ _) (fun _ => keeps_pure _ _)) (fun _ => keeps_pure _ _)
theorem npcmOp_only {src : BitSource} {l : List Window} (e : Env) : Keeps (OnlySource src l) (npcmOp e) :=
  keeps_bind (vxGetN_only e 9) (fun _ => keeps_pure _ _)
theorem rvlcEscdOp_only {src : BitSource} {l : List Window} (e : Env) : Keeps (OnlySource src l) (rvlcEscdOp e) := by
  refine ⟨fun g hg => ?_⟩
  unfold rvlcEscdOp
  split <;> exact hg
theorem rvlcIndex_only {src : BitSource} {l : List Window} (e : Env) : Keeps (OnlySource src l) (rvlcIndex e) := by
  refine ⟨fun g hg => ?_⟩
  unfold rvlcIndex
  split <;> exact hg
theorem rvlcSfdOp_only {src : BitSource} {l : List Window} (e : Env) : Keeps (OnlySource src l) (rvlcSfdOp e) := by
  refine keeps_bind (rvlcIndex_only e) (fun i => ?_)
  split
  · exact keeps_pure _ _
  · split
    · exact keeps_bind (rvlcEscdOp_only e) (fun _ => keeps_pure _ _)
    · split
      · exact keeps_bind (rvlcEscdOp_only e) (fun _ => keeps_pure _ _)
      · exact keeps_pure _ _

end Sys2Proof.Machine
end

