-- ==== Sys2Proof/Tests/Slice0.lean ====
section
/-! SUPPORT. Tests. Expected values come from 95_test_vectors.md (the T- names and the programs P1, P2), from
30_encoding.md's tables, or by hand from the rule named; the books are the fixtures of 95_test_vectors.md. The witness_
theorems at the end show, for each statement with hypotheses, a state and operands that meet them together. -/

open Sys2Proof Sys2Proof.Machine

namespace Sys2Proof.Tests

-- one check after another: many at once ask for more threads than the sandbox gives
set_option Elab.async false

/-! ## Fixtures -/

/-- An entry whose code is the n low bits of c, first-read bit most significant. -/
def en (n c : Nat) (v : List Int) : Entry := ⟨natToBits n c, v⟩

def fixS : Book := [en 1 0 [0, 0, 0, 0], en 2 0b10 [1, 0, 0, -1], en 3 0b110 [0, -1, 1, 0], en 3 0b111 [-1, 1, 1, 1]]
def fixQ : Book := [en 1 0 [0, 0, 0, 0], en 2 0b10 [1, 0, 2, 1], en 3 0b110 [0, 1, 2, 0], en 3 0b111 [2, 2, 2, 2]]
def fixP : Book := [en 1 0 [0, 0], en 2 0b10 [-3, 4], en 2 0b11 [4, -4]]
def fixU : Book := [en 1 0 [0, 0], en 2 0b10 [1, 0], en 3 0b110 [0, 3], en 4 0b1110 [2, 5], en 4 0b1111 [7, 7]]
def fixE : Book := [en 1 0 [0, 0], en 2 0b10 [1, 1], en 3 0b110 [16, 0], en 4 0b1110 [3, 16], en 4 0b1111 [16, 16]]
def fixSf : Book :=
  [en 1 0 [60], en 3 0b100 [59], en 3 0b101 [61], en 4 0b1100 [58], en 4 0b1101 [62], en 4 0b1110 [0], en 4 0b1111 [120]]
def fixRvlcSf : Book := [en 1 0 [0], en 3 0b101 [1], en 3 0b111 [-1], en 4 0b1001 [7]]
def fixRvlcEsc : Book := [en 1 0 [0], en 2 0b10 [1], en 2 0b11 [2]]

/-- The configuration of 95_test_vectors.md, with a short LTP history. -/
def fixPar : Params := { Config.params with
  hcb := [[], fixS, fixS, fixQ, fixQ, fixP, fixP, fixU, fixU, fixU, fixU, fixE]
  sfcb := fixSf
  rvlcSf := fixRvlcSf
  rvlcEsc := fixRvlcEsc
  ltpHistLen := 2
  rngSeed1 := 1
  rngSeed2 := 2
  swb := [⟨4, 1024, false, 49, (List.range 49).map (fun k => 4 * k) ++ [1024]⟩] }

/-- fixPar with SBR. -/
def sbrPar : Params := { fixPar with cap := { Config.lcOnly with sbr := true } }

/-- Bytes of IN from address 0 on. -/
def cells (l : List Nat) : List Host.Cell := (List.range l.length).map (fun i => (i, BitVec.ofNat 8 (l.getD i 0)))
def bytes (l : List Nat) : Memory := Memory.writeAll [] (cells l)

/-- The machine at reset under fixPar. -/
def blank : State := { State.reset with par := fixPar, fi := FrameInfo.zero 2 }

/-- A cursor over bytes l, at position pos. -/
def at' (l : List Nat) (pos : Nat) : State :=
  { blank with inMem := bytes l }.setBc { Cursor.create 0 l.length with pos := pos }

/-- The buffer B4 of 95_test_vectors.md. -/
def b4 (pos : Nat) : State := at' [0xA5, 0x3C, 0xFF, 0x01] pos

/-- A cursor over 8 bytes that begin with the n bits v. -/
def next' (n v : Nat) : State :=
  { blank with inMem := Memory.setBits [] 0 0 (natToBits n v) }.setBc (Cursor.create 0 8)

/-- B4 with window 0 holding the n bits v. -/
def win (n v : Nat) : State := (b4 0).setWindow 0 ⟨natToBits n v, false⟩

/-- The working registers set to r. -/
def withQ (s : State) (r : VlcRegs) : State := s.withEngine (s.work.eng.setRegs r)
def quad (a b c d : Int) : VlcRegs := { VlcRegs.zero with q0 := a, q1 := b, q2 := c, q3 := d }

/-- The two RVLC runs of a cursor over 8 bytes: n bits v for the first, then m bits w for the escapes. -/
def runs (n v m w : Nat) : State :=
  withQ ({ blank with inMem := Memory.setBits [] 0 0 (natToBits n v ++ natToBits m w) }.setBc (Cursor.create 0 8))
    { VlcRegs.zero with sfRun := ⟨0, n⟩, escRun := ⟨n, n + m⟩ }

/-- What f says of the next state, none when the instruction stops. -/
def after {α : Type} (o : Host.Outcome State Fault Refusal) (f : State → α) : Option α :=
  match o with
  | .next t => some (f t)
  | _ => none

/-- Returned value, position, error flag. -/
def br (t : State) : Int × Nat × Bool := (t.work.eng.regs.ret, t.work.eng.bc.pos, t.work.eng.bc.err)

/-- The four tuple registers and the position. -/
def vlc (t : State) : List Int × Nat := (t.work.eng.regs.lanes 4, t.work.eng.bc.pos)

/-- FI.error. -/
def err (t : State) : Nat := t.fi.error.toNat

/-! ## Bit Reader (T-BR) -/

theorem test_peek : after (exec (.peek 8) (b4 0)) br = some (0xA5, 0, false) ∧
    after (exec (.peek 8) (b4 4)) br = some (0x53, 4, false) ∧
    after (exec (.peek 5) (b4 28)) br = some (0, 28, true) := by decide +kernel
theorem test_get : after (exec (.get 12) (b4 4)) br = some (0x53C, 16, false) ∧
    after (exec (.get 32) (b4 0)) br = some (0xA53CFF01, 32, false) ∧
    after (exec (.get 33) (b4 0)) br = some (0, 0, true) ∧
    after (exec (.get 1) (b4 32)) br = some (0, 32, true) ∧
    after (exec (.get 0) (b4 32)) br = some (0, 32, false) := by decide +kernel
theorem test_get1 : after (exec .get1 (b4 0)) br = some (1, 1, false) ∧
    after (exec .get1 (b4 1)) br = some (0, 2, false) := by decide +kernel
theorem test_flush : after (exec (.flush 7) (b4 3)) br = some (0, 10, false) ∧
    after (exec (.flush 3) (b4 30)) br = some (0, 30, true) := by decide +kernel
theorem test_byteAlign : after (exec .byteAlign (b4 10)) br = some (6, 16, false) ∧
    after (exec .byteAlign (b4 16)) br = some (0, 16, false) := by decide +kernel
theorem test_processedBits : after (exec .processedBits (b4 32)) br = some (32, 32, false) := by decide +kernel
theorem test_rewind : after (exec .rewind (b4 8)) br = some (0, 0, false) := by decide +kernel
theorem test_seek : after (exec (.seek 24) (b4 0)) br = some (0, 24, false) ∧
    after (exec (.seek 33) (b4 0)) br = some (0, 0, true) := by decide +kernel
theorem test_resetTo : after (exec (.resetTo 32) (b4 5)) br = some (0, 32, false) ∧
    after (exec (.resetTo 33) (b4 5)) br = some (0, 5, true) := by decide +kernel

/-! ## Bit windows (T-BW) -/

/-- Window 0 and the position. -/
def bw (t : State) : Window × Nat := (t.work.eng.window 0, t.work.eng.bc.pos)

theorem test_wLoad : after (exec (.wLoad 6 0) (b4 0)) bw = some (⟨natToBits 6 0b101001, false⟩, 6) ∧
    after (exec (.wLoad 6 0) (b4 28)) bw = some (⟨[], false⟩, 28) := by decide +kernel
theorem test_wPeek : after (exec (.wPeek 4 0) (win 6 0b101001)) br = some (0b1010, 0, false) ∧
    after (exec (.wPeek 8 0) (win 6 0b101001)) br = some (0b10100100, 0, false) := by decide +kernel
theorem test_wConsume : after (exec (.wConsume 4 0) (win 6 0b101001)) bw = some (⟨natToBits 2 0b01, false⟩, 0) ∧
    after (exec (.wConsume 3 0) (win 2 0b01)) bw = some (⟨[], true⟩, 0) := by decide +kernel
theorem test_wConcat :
    after (exec (.wConcat 0 1) ((win 2 0b01).setWindow 1 ⟨natToBits 3 0b110, false⟩)) bw =
      some (⟨natToBits 5 0b01110, false⟩, 0) := by decide +kernel
theorem test_wReverse : after (exec (.wReverse 0) (win 6 0b101001)) bw = some (⟨natToBits 6 0b100101, false⟩, 0) := by
  decide +kernel

/-! ## VLC engine (T-HC, T-SF, T-RV) -/

theorem test_hcw1 : after (exec .hcw1 (next' 2 0b10)) vlc = some ([1, 0, 0, -1], 2) ∧
    after (exec .hcw1 (next' 3 0b110)) vlc = some ([0, -1, 1, 0], 3) := by decide +kernel
theorem test_hcw2 : after (exec .hcw2 (next' 3 0b111)) vlc = some ([-1, 1, 1, 1], 3) := by decide +kernel
theorem test_hcw3 : after (exec .hcw3 (next' 5 0b10011)) vlc = some ([1, 0, -2, -1], 5) ∧
    after (exec .hcw3 (next' 5 0b11010)) vlc = some ([0, -1, 2, 0], 5) := by decide +kernel
theorem test_hcw4 : after (exec .hcw4 (next' 1 0)) vlc = some ([0, 0, 0, 0], 1) := by decide +kernel
theorem test_hcw5 : after (exec .hcw5 (withQ (next' 2 0b10) (quad 0 0 8 9))) vlc = some ([-3, 4, 8, 9], 2) := by
  decide +kernel
theorem test_hcw6 : after (exec .hcw6 (next' 2 0b11)) vlc = some ([4, -4, 0, 0], 2) := by decide +kernel
theorem test_hcw7 : after (exec .hcw7 (next' 4 0b1101)) vlc = some ([0, -3, 0, 0], 4) ∧
    after (exec .hcw7 (at' [0x03] 6)) vlc = some ([0, 3, 0, 0], 8) := by decide +kernel
theorem test_hcw8 : after (exec .hcw8 (next' 6 0b111110)) vlc = some ([-7, 7, 0, 0], 6) := by decide +kernel
theorem test_hcw9 : after (exec .hcw9 (at' [0x02] 6)) (fun t => (vlc t, t.work.eng.bc.err)) =
    some (([1, 0, 0, 0], 8), true) := by decide +kernel
theorem test_hcw10 : after (exec .hcw10 (at' [0] 7)) (fun t => (vlc t, t.work.eng.bc.err)) =
    some (([0, 0, 0, 0], 8), false) := by decide +kernel
theorem test_hcw11 : after (exec .hcw11 (next' 13 0b1110011001010)) vlc = some ([3, -42, 0, 0], 13) ∧
    after (exec .hcw11 (next' 20 0b11110100001110111111)) vlc = some ([17, -127, 0, 0], 20) ∧
    after (exec .hcw11 (next' 25 0b1101111111110111111111111)) vlc = some ([-8191, 0, 0, 0], 25) ∧
    after (exec .hcw11 (next' 13 0b1100111111111)) err = some 10 := by decide +kernel
theorem test_hcw17 : after (exec .hcw17 (next' 13 0b1110011001010)) vlc = some ([0, 0, 0, 0], 13) ∧
    after (exec .hcw17 (next' 4 0b1001)) vlc = some ([1, -1, 0, 0], 4) := by decide +kernel
/-- VCB11_LAV[16] is 15 and VCB11_LAV[31] is 2047 (42_huffman_spectral.md R220). -/
theorem test_hcw16 : after (exec .hcw16 (next' 9 0b110000000)) vlc = some ([0, 0, 0, 0], 9) := by decide +kernel
theorem test_hcw31 : after (exec .hcw31 (next' 9 0b110000000)) vlc = some ([16, 0, 0, 0], 9) := by decide +kernel
theorem test_hcw12 : after (exec .hcw12 (next' 4 0)) err = some 32 := by decide +kernel
theorem test_hcw0 : after (exec .hcw0 (withQ (next' 4 0xF) (quad 5 6 7 8))) vlc = some ([5, 6, 7, 8], 0) := by
  decide +kernel
theorem test_hcw15 : after (exec .hcw15 (withQ (next' 4 0xF) (quad 5 6 7 8))) vlc = some ([5, 6, 7, 8], 0) := by
  decide +kernel
theorem test_sgn : after (exec (.sgn 0) (withQ (next' 3 0b011) (quad 1 0 2 1))) vlc = some ([1, 0, -2, -1], 3) ∧
    after (exec (.sgn 1) (withQ (next' 3 0b111) (quad 1 0 2 1))) vlc = some ([-1, 0, 2, 1], 1) := by decide +kernel
theorem test_esc : after (exec (.esc 1) (withQ (next' 7 0b1001010) (quad 3 (-16) 0 0))) vlc =
    some ([3, -42, 0, 0], 7) ∧
    after (exec (.esc 0) (withQ (next' 7 0b1001010) (quad 3 (-16) 0 0))) vlc = some ([3, -16, 0, 0], 0) := by
  decide +kernel
theorem test_sfd : after (exec .sfd (next' 4 0b1100)) br = some (-2, 4, false) ∧
    after (exec .sfd (next' 1 0)) br = some (0, 1, false) := by decide +kernel
theorem test_npcm : after (exec .npcm (next' 9 0b100000101)) br = some (5, 9, false) ∧
    after (exec .npcm (next' 9 0)) br = some (-256, 9, false) := by decide +kernel
theorem test_rvlcSfd : after (exec .rvlcSfd (runs 3 0b101 0 0)) (·.work.eng.regs.ret) = some 1 ∧
    after (exec .rvlcSfd (runs 4 0b1000 0 0)) (·.work.eng.regs.ret) = some 99 ∧
    after (exec .rvlcSfd (runs 2 0b10 0 0)) (·.work.eng.regs.ret) = some 99 ∧
    after (exec .rvlcSfd (runs 4 0b1001 2 0b11)) (·.work.eng.regs.ret) = some 9 := by decide +kernel
theorem test_rvlcEscd : after (exec .rvlcEscd (runs 0 0 2 0b11)) (·.work.eng.regs.ret) = some 2 := by decide +kernel

/-! ## Host commands (T-OR, P1, P2) -/

/-- Ports with the input slice at 0, an output capacity, and everything else idle. -/
def slice (n cap : Nat) : HostPorts := { HostPorts.idle with inLen := n, outCap := cap, cfgw := Config.cfgReset }

def fixStream : StreamCfg where
  objectType := 2
  sfIndex := 4
  sampleRate := 44100
  channelConfig := 1
  sbrPresent := false
  psPresent := false
  frameLen := 1024
  headerType := 0
  erFlags := 0
  upsample := false
  latm := false

/-- The decoder in state o, its Config and StreamConfig as OPEN leaves them, with channel configuration 1, bytes of IN and
an output capacity of 1024. -/
def opened (o : Orch) (l : List Nat) : State :=
  { blank with
    orch := o
    cfg := Config.cfgReset
    ports := slice l.length 1024
    inMem := bytes l
    work := { blank.work with
      sc := fixStream
      ds := { DecoderState.zero with
        overlap := List.replicate 2 (List.replicate 1024 0)
        windowShapePrev := [false, false]
        ltpHist := [[], []]
        ltpLagPrev := [0, 0]
        rng1 := 1
        rng2 := 2 } } }

/-- The ADTS frame of program P1. -/
def p1 : List Nat := [0xFF, 0xF1, 0x50, 0x40, 0x01, 0x7F, 0xFC, 0, 0, 0, 7]

/-- The raw frame of program P2. -/
def p2 : List Nat := [0x21, 0x00, 0x4D, 0x90, 0x42, 0x13, 0x20, 0x84, 0x37]

theorem test_open : after (exec .openHandle blank) (fun t => (t.res0, t.orch, t.cfg.defSampleRate, t.cfg.outputFormat)) =
    some (0, .opened, 44100, 1) ∧
    after (exec .openHandle (opened .opened [])) (fun t => (t.res0.toInt, t.orch)) = some (-42, .opened) := by
  decide +kernel
/-- T-OR-3, T-OR-4, T-OR-5. -/
def setCfg (ot : BitVec 8) (rate : Word32) (f : BitVec 3) : State :=
  { opened .opened [] with ports := { slice 0 0 with cfgw := ⟨ot, rate, f, false, false, true⟩ } }
theorem test_setConfig : after (exec .setConfig (setCfg 2 48000 3)) (fun t =>
      (t.res0, t.cfg.defSampleRate, t.cfg.outputFormat, t.work.sc.sampleRate, t.work.sc.sfIndex)) =
      some (1, 48000, 3, 48000, 3) ∧
    after (exec .setConfig (setCfg 2 0 3)) (fun t => (t.res0, t.cfg)) = some (0, Config.cfgReset) ∧
    after (exec .setConfig (setCfg 2 48000 6)) (fun t => (t.res0, t.cfg)) = some (0, Config.cfgReset) ∧
    after (exec .setConfig (setCfg 3 48000 3)) (fun t => (t.res0, t.cfg)) = some (0, Config.cfgReset) := by
  decide +kernel
theorem test_getConfig : after (exec .getConfig (opened .opened [])) (fun t => (t.cfg, t.res0)) =
    some (Config.cfgReset, 0) := by decide +kernel
theorem test_init : after (exec .init (opened .opened p1)) (fun t =>
      (t.res0, t.res1, t.res2, t.orch, t.work.sc.headerType, t.work.sc.channelConfig)) =
    some (0, 44100, 1, .initialized, 2, 1) := by decide +kernel
theorem test_init2 : after (exec .init2 (opened .opened [0x12, 0x10])) (fun t =>
      (t.res0, t.res1, t.res2, t.work.sc.headerType)) = some (0, 44100, 2, 0) ∧
    after (exec .init2 (opened .opened [0x12, 0x50])) (fun t => (t.res0.toInt, t.orch)) = some (-12, .opened) := by
  decide +kernel
theorem test_decode : after (exec .decode (opened .opened [])) (fun t => (t.fi.error, t.orch)) = some (42, .opened) ∧
    after (exec .decode (opened .decoding [])) (fun t => (t.fi.error, t.fi.bytesConsumed)) = some (14, 0) := by
  decide +kernel
/-- 41_parsers.md R184 and R407 after an ADTS header in DECODE that changes the rate: 44100 to 24000 Hz in a stream in which SBR is
in CAP, and back. -/
theorem test_decode_rate_change :
    (∃ u w, decodeHeader ⟨sbrPar, bytes [0xFF, 0xF1, 0x58, 0x40, 0x01, 0x7F, 0xFC], Config.cfgReset⟩
        { (opened .initialized []).work with
          eng := { blank.work.eng with bc := Cursor.create 0 7 }
          sc := { fixStream with headerType := 2 } } = .ok u w ∧
      (w.sc.sampleRate, w.sc.sbrPresent, w.sc.upsample) = (24000, true, true)) ∧
    (∃ u w, decodeHeader ⟨sbrPar, bytes [0xFF, 0xF1, 0x50, 0x40, 0x01, 0x7F, 0xFC], Config.cfgReset⟩
        { (opened .initialized []).work with
          eng := { blank.work.eng with bc := Cursor.create 0 7 }
          sc := { fixStream with headerType := 2, sfIndex := 6, sampleRate := 24000, sbrPresent := true, upsample := true } } =
        .ok u w ∧
      (w.sc.sampleRate, w.sc.sbrPresent, w.sc.upsample) = (44100, false, false)) :=
  ⟨⟨_, _, rfl, by decide +kernel⟩, ⟨_, _, rfl, by decide +kernel⟩⟩
/-- P1, step 3. -/
theorem test_decode_p1 :
    after (exec .decode { opened .initialized p1 with
        work := { (opened .initialized p1).work with sc := { fixStream with headerType := 2 } } })
      (fun t => ([t.fi.error.toNat, t.fi.bytesConsumed.toNat, t.fi.samples.toNat, t.fi.channels.toNat], t.fi.channelPos,
        t.work.ds.frame, t.orch)) = some ([0, 11, 1024, 1], [1, 0], 1, .decoding) := by decide +kernel
theorem test_postSeekReset :
    after (exec .postSeekReset { opened .decoding [] with ports := { slice 0 0 with arg0 := 100 } })
      (fun t => (t.work.ds.frame, t.work.ds.postSeek)) = some (100, true) ∧
    after (exec .postSeekReset { opened .decoding [] with ports := { slice 0 0 with arg0 := 0xFFFFFFFF } })
      (fun t => (t.work.ds.frame, t.work.ds.postSeek)) = some (0, true) := by decide +kernel
theorem test_close : after (exec .close (opened .decoding [])) (·.orch) = some .closed := by decide +kernel
theorem test_cmdReserved9 : after (exec .cmdReserved9 blank) (·.res0.toInt) = some (-41) := by decide +kernel

/-! ## Elements (T-OR-16 to T-OR-18) -/

theorem test_dse : after (exec .dse (at' [0x80, 0x02, 7, 7] 3)) br = some (0, 32, false) := by decide +kernel
theorem test_fil : after (exec .fil (at' [0xC4, 1, 2, 3] 3)) br = some (0, 23, false) := by decide +kernel
theorem test_cce : after (exec .cce (at' [0x40, 0, 0, 0] 3)) err = some 45 := by decide +kernel
/-- The silent stream of P1, 26 bits after the selector: tag, global_gain, ics_info, three flags. -/
theorem test_sce : after (exec .sce { opened .decoding [0, 0, 0, 7] with work := { (opened .decoding []).work with
      eng := { blank.work.eng with bc := { Cursor.create 0 4 with pos := 3 } } } })
    (fun t => (t.work.eng.bc.pos, t.work.ds.channelsSeen, t.work.frm.elems)) = some (29, 1, [⟨0, 0, false⟩]) := by
  decide +kernel
theorem test_lfe : after (exec .lfe { opened .decoding [0x62, 0, 0, 7] with work := { (opened .decoding []).work with
      eng := { blank.work.eng with bc := { Cursor.create 0 4 with pos := 3 } } } })
    (fun t => (t.work.eng.bc.pos, t.work.ds.channelsSeen, t.work.frm.elems)) = some (29, 1, [⟨3, 1, false⟩]) := by
  decide +kernel
/-- The pair of P2: both quantised spectra, and END's selector next. -/
theorem test_cpe : after (exec .cpe { opened .decoding p2 with work := { (opened .decoding []).work with
      sc := { fixStream with channelConfig := 2 }
      eng := { blank.work.eng with bc := { Cursor.create 0 9 with pos := 3 } } } })
    (fun t => (t.work.eng.bc.pos, t.work.frm.chans.map (fun c => c.qspec.take 5))) =
      some (69, [[1, 0, 0, -1, 0], [0, -1, 1, 0, 0]]) := by decide +kernel
/-- tag 1, object type 2 - 1, index 4, every count 0, three flags 0, aligned to bit 40, a comment of one byte. -/
theorem test_pce : after (exec .pce ({ blank with
      inMem := Memory.setBits [] 0 0 (natToBits 13 0b1010001010100 ++ natToBits 27 0 ++ natToBits 16 0x0141) }.setBc
        { Cursor.create 0 8 with pos := 3 }))
    (fun t => (t.work.eng.bc.pos, t.work.ds.pce.map (fun p => (p.tag, p.objectType, p.sfIndex, p.comment)))) =
      some (56, some (1, 1, 4, [0x41])) := by decide +kernel
theorem test_endMarker : after (exec .endMarker (at' [0xE0] 3)) (fun t => (t.work.frm.inBlock, t.work.eng.bc.pos)) =
    some (false, 3) := by decide +kernel

/-! ## Decoding: words written out from the tables of 30_encoding.md R101 to R105 -/

/-- The instruction a word decodes to, none where the decoder refuses. -/
def dec (p : Port) (w : Nat) (side : Side) : Option Instr := (decodeWord p w side).toOption

theorem test_decode_cmd : ∀ x ∈ [
    (0b0000, Instr.openHandle), (0b0001, Instr.getConfig), (0b0010, Instr.setConfig), (0b0011, Instr.init),
    (0b0100, Instr.init2), (0b0101, Instr.decode), (0b0110, Instr.postSeekReset), (0b0111, Instr.close),
    (0b1000, Instr.cmdReserved8), (0b1001, Instr.cmdReserved9), (0b1010, Instr.cmdReserved10), (0b1011, Instr.cmdReserved11),
    (0b1100, Instr.cmdReserved12), (0b1101, Instr.cmdReserved13), (0b1110, Instr.cmdReserved14), (0b1111, Instr.cmdReserved15)],
    dec .cmd x.1 Side.none = some x.2 := by decide +kernel
theorem test_decode_bitReader : ∀ x ∈ [
    (0b0000010101, Instr.peek 21), (0b0001001100, Instr.get 12), (0b0010000000, Instr.get1), (0b0011111111, Instr.flush 63),
    (0b0100000000, Instr.byteAlign), (0b0101000000, Instr.processedBits), (0b0110000000, Instr.rewind), (0b0111000000, Instr.resetTo 40),
    (0b1000000000, Instr.seek 40), (0b1001000101, Instr.wPeek 5 3), (0b1010000101, Instr.wConsume 5 3), (0b1011000000, Instr.wConcat 3 2),
    (0b1100000000, Instr.wReverse 3), (0b1101100001, Instr.wLoad 33 3), (0b1110000000, Instr.brReserved14), (0b1111111111, Instr.brReserved15)],
    dec .bitReader x.1 ⟨40, 3, 2⟩ = some x.2 := by decide +kernel
theorem test_decode_hcw : ∀ x ∈ [
    (0b00000000, Instr.hcw0), (0b00000001, Instr.hcw1), (0b00000010, Instr.hcw2), (0b00000011, Instr.hcw3),
    (0b00000100, Instr.hcw4), (0b00000101, Instr.hcw5), (0b00000110, Instr.hcw6), (0b00000111, Instr.hcw7),
    (0b00001000, Instr.hcw8), (0b00001001, Instr.hcw9), (0b00001010, Instr.hcw10), (0b00001011, Instr.hcw11),
    (0b00001100, Instr.hcw12), (0b00001101, Instr.hcw13), (0b00001110, Instr.hcw14), (0b00001111, Instr.hcw15),
    (0b00010000, Instr.hcw16), (0b00010001, Instr.hcw17), (0b00010010, Instr.hcw18), (0b00010011, Instr.hcw19),
    (0b00010100, Instr.hcw20), (0b00010101, Instr.hcw21), (0b00010110, Instr.hcw22), (0b00010111, Instr.hcw23),
    (0b00011000, Instr.hcw24), (0b00011001, Instr.hcw25), (0b00011010, Instr.hcw26), (0b00011011, Instr.hcw27),
    (0b00011100, Instr.hcw28), (0b00011101, Instr.hcw29), (0b00011110, Instr.hcw30), (0b00011111, Instr.hcw31)],
    dec .vlc x.1 Side.none = some x.2 := by decide +kernel
theorem test_decode_vlc : ∀ x ∈ [(0b00100000, Instr.sfd), (0b01000000, .esc 0), (0b01000001, .esc 1), (0b01011110, .esc 0),
    (0b01100001, .sgn 1), (0b10000000, .rvlcSfd), (0b10100000, .rvlcEscd), (0b11000000, .npcm), (0b11100000, .vlcReserved7)],
    dec .vlc x.1 Side.none = some x.2 := by decide +kernel
theorem test_decode_element : ∀ x ∈ [(0b000, Instr.sce), (0b001, Instr.cpe), (0b010, Instr.cce), (0b011, Instr.lfe), (0b100, Instr.dse), (0b101, Instr.pce), (0b110, Instr.fil), (0b111, Instr.endMarker)],
    dec .element x.1 Side.none = some x.2 := by decide +kernel
theorem test_decode_refuses : dec .cmd 16 Side.none = none ∧ dec .bitReader 1024 Side.none = none ∧
    dec .vlc 256 Side.none = none ∧ dec .element 8 Side.none = none := by decide +kernel
theorem test_decodeTableWord : decodeTableWord 4 0b0101 = some .decode ∧ decodeTableWord 3 0b110 = some .fil ∧
    decodeTableWord 8 0b00100000 = some .sfd ∧ decodeTableWord 16 0b0001001100 = some (.get 12) := by decide +kernel

/-! ## WellFormed: an ill-formed term for each check -/

theorem test_refuses_operands : ∀ i ∈ [Instr.peek 64, .get 64, .flush 64, .wPeek 64 0, .wConsume 64 0, .wLoad 64 0,
    .esc 2, .sgn 2], i.wellFormed = false := by decide +kernel
/-- A code that begins another. -/
theorem test_refuses_prefix : ¬ Book.prefixFree [en 1 0 [0], en 2 0 [1]] := by decide +kernel
/-- A code space not filled, and one overfilled. -/
theorem test_refuses_incomplete : ¬ Book.complete [en 1 0 [0], en 2 0b10 [1]] ∧
    ¬ Book.walkable [en 1 0 [0], en 1 1 [1], en 2 0b10 [2]] := by decide +kernel
/-- One value twice; a value of the set that no entry has; an entry whose value is not in the set. -/
theorem test_refuses_values : ¬ Book.valuesDistinct [en 1 0 [0], en 1 1 [0]] ∧
    ¬ Book.covers [en 1 0 [0], en 1 1 [1]] [[0], [1], [2]] ∧ ¬ Book.covers [en 1 0 [0], en 1 1 [2]] [[0]] := by decide +kernel
theorem test_books_walkable : ∀ b ∈ [fixS, fixQ, fixP, fixU, fixE, fixSf], Book.walkable b ∧ Book.valuesDistinct b := by
  decide +kernel
/-- 121 entries: 7 codes of six bits and 114 of seven. -/
def sfBook : Book := (List.range 7).map (fun k => en 6 k [(k : Int)]) ++
  (List.range 114).map (fun k => en 7 (k + 14) [((k + 7 : Nat) : Int)])
theorem test_sfcb_entries : sfBook.complete ∧ sfBook.valuesDistinct ∧ sfBook.covers scaleFactorValues ∧ sfBook.length = 121 := by
  decide +kernel
/-- The fixture's seven entries are no scale-factor book. -/
theorem test_refuses_books : ¬ fixSf.covers scaleFactorValues ∧ ¬ fixS.covers (spectralValues 1) := by decide +kernel
theorem test_refuses_params : ¬ fixPar.wellFormed := fun h => test_refuses_books.1 h.2.1.2.2.2
/-- 81 quads, 81, 64, 169 and 289 pairs, 121 indexes. -/
theorem test_value_sets : [1, 3, 5, 7, 9, 11].map (fun t => (spectralValues t).length) = [81, 81, 81, 64, 169, 289] ∧
    scaleFactorValues.length = 121 := by decide +kernel
/-- Too few offsets; offsets that do not rise; a last one below the frame length; a first one that is not 0; a band that is no
multiple of 4 wide. -/
theorem test_refuses_bands : (∀ r ∈ fixPar.swb, SwbRow.ok r) ∧ SwbRow.ok ⟨4, 1024, true, 2, [0, 4, 128]⟩ ∧
    ∀ r ∈ [(⟨4, 1024, false, 3, [0, 4, 1024]⟩ : SwbRow), ⟨4, 1024, false, 2, [0, 0, 1024]⟩, ⟨4, 1024, false, 2, [0, 4, 960]⟩,
      ⟨4, 1024, false, 2, [4, 8, 1024]⟩, ⟨4, 1024, false, 2, [0, 6, 1024]⟩], ¬ SwbRow.ok r := by decide +kernel
/-- (3/5)^2 + (4/5)^2 is 1; twice (1/2)^2 is not. -/
theorem test_refuses_windows : WinRow.ok 0 ⟨.short, false, 16, [3 / 5, 4 / 5]⟩ ∧ ¬ WinRow.ok 0 ⟨.short, false, 16, [1 / 2, 1 / 2]⟩ ∧
    ¬ WinRow.ok 0 ⟨.short, false, 16, [3 / 5]⟩ := by decide +kernel
/-- A difference beyond the escape value; a negative escape; the fixtures are legal. -/
theorem test_refuses_rvlc : Params.rvlcCodesOk fixPar ∧ ¬ Params.rvlcCodesOk { fixPar with rvlcSf := [en 1 0 [8]] } ∧
    ¬ Params.rvlcCodesOk { fixPar with rvlcEsc := [en 1 0 [-1]] } := by decide +kernel
/-- An escape of 92, which makes 7 + 92 = 99, and one of 99, beside one of 91; the fixtures are legal. -/
theorem test_refuses_sentinel : 99 ∈ Params.rvlcResults { fixPar with rvlcEsc := [en 1 0 [92]] } ∧
    99 ∈ Params.rvlcResults { fixPar with rvlcEsc := [en 1 0 [99]] } ∧
    99 ∉ Params.rvlcResults { fixPar with rvlcEsc := [en 1 0 [91]] } ∧ 99 ∉ Params.rvlcResults fixPar := by
  decide +kernel
theorem test_refuses_sbrBooks : Params.sbrBooksOk { fixPar with sbrHcb := [[en 1 0 [0], en 1 1 [1]]], psHcb := [] } ∧
    ¬ Params.sbrBooksOk { fixPar with sbrHcb := [[en 1 0 [0]]], psHcb := [] } := by decide +kernel
theorem test_refuses_layout : Params.layoutOk { fixPar with windows := [] } ∧
    ¬ Params.layoutOk { fixPar with windows := [], swb := [⟨4, 1024, false, 1, [0, 4]⟩] } := by decide +kernel
theorem test_refuses_numbers : fixPar.numbersOk = true ∧ Params.numbersOk { fixPar with escMaxN := 13 } = false ∧
    Params.numbersOk { fixPar with maxChannels := 1 } = false ∧
    Params.numbersOk { fixPar with cap := { Config.lcOnly with ps := true } } = false ∧
    Params.numbersOk { fixPar with cap := { Config.lcOnly with lc := false } } = false := by decide +kernel
theorem test_refuses_unmodelled : fixPar.refusesUnmodelled = true ∧
    ∀ c ∈ [{ Config.lcOnly with hcr := true }, { Config.lcOnly with ssr := true }, { Config.lcOnly with cce := true },
      { Config.lcOnly with mainPred := true }], Params.refusesUnmodelled { fixPar with cap := c } = false := by
  decide +kernel
theorem test_refuses_errCodes : errCodesOk fixPar = true ∧ errCodesOk { fixPar with errCodes := [(.pce, 5)] } = false ∧
    errCodesOk { fixPar with errCodes := [(.pce, 0)] } = false := by decide +kernel
theorem test_refuses_states : Window.ok ⟨List.replicate 65 true, false⟩ = false ∧
    Cursor.ok { Cursor.create 0 4 with pos := 33 } = false ∧ ¬ Memory.wf [(1, 5), (0, 5)] ∧ ¬ Memory.wf [(1, 0)] := by
  decide +kernel

/-! ## The table's words, placed and run (70_reset_and_hazards.md R490) -/

theorem test_withFetchWord : after (step (State.reset.withFetchWord 4 0)) (·.orch) = some .opened ∧
    after (step ((b4 0).withFetchWord 16 0b0001001100)) br = some (0xA53, 12, false) ∧
    after (step ((b4 4).withFetchWord 3 0b111)) (·.work.eng.bc.pos) = some 7 := by decide +kernel

/-! ## Witnesses: states and operands that meet the hypotheses of each statement, its clauses at the ends of their ranges.
The other statements have no hypothesis. -/

theorem of_after {α : Type} {o : Host.Outcome State Fault Refusal} {f : State → α} {v : α} (h : after o f = some v) :
    ∃ t, o = .next t ∧ f t = v := by
  cases o with
  | next t => exact ⟨t, rfl, by simpa [after] using h⟩
  | fault x => simp [after] at h
  | refused x => simp [after] at h

/-- The state with operations queued. -/
def queued (s : State) (q : List Issue) : State := { s with pending := q }

theorem witness_DecodeUndoesEncode : ∀ i ∈ [Instr.decode, .peek 63, .seek 100000, .wConcat 3 9, .hcw31, .esc 1, .sgn 0,
    .endMarker], i.wellFormed = true := by decide +kernel

theorem witness_EveryWordDecodes : 15 < portWords .cmd ∧ portWords .cmd ≤ 16 ∧ 1023 < portWords .bitReader ∧
    portWords .bitReader ≤ 1024 ∧ 255 < portWords .vlc ∧ portWords .vlc ≤ 256 ∧ 7 < portWords .element ∧
    portWords .element ≤ 8 := by decide

theorem witness_StepRunsDecoded_ports :
    decodeWord .cmd (7#4).toNat Side.none = .ok .close ∧ (queued blank [.command 7 HostPorts.idle [(0, 5)]]).pending =
      .command 7 HostPorts.idle [(0, 5)] :: [] ∧
    decodeWord .bitReader 1023 Side.none = .ok .brReserved15 ∧ (1023 : Nat) < 1024 ∧
      (queued blank [.bitReader 1023 Side.none]).pending = .bitReader 1023 Side.none :: [] ∧
    decodeWord .vlc 255 Side.none = .ok .vlcReserved7 ∧ (255 : Nat) < 256 ∧
      (queued blank [.vlc 255 (.window 3)]).pending = .vlc 255 (.window 3) :: [] ∧
    (queued blank [.create 0 4]).pending = .create 0 4 :: [] ∧ (queued blank []).pending = [] :=
  ⟨rfl, rfl, rfl, by decide, rfl, rfl, by decide, rfl, rfl, rfl⟩

theorem witness_StepRunsDecoded_element :
    (queued (b4 29) [.element]).canRead 3 = true ∧ (queued (b4 29) [.element]).field 0 3 = 1 ∧
    (queued (b4 30) [.element]).canRead 3 = false ∧ (b4 30).work.eng.bc.live = true ∧ (b4 30).work.eng.bc.err = false ∧
    ((b4 30).setBc ⟨true, 0, 4, 30, true⟩).work.eng.bc.err = true ∧ (queued blank [.element]).work.eng.bc.live = false ∧
    decodeWord .element 1 Side.none = .ok .cpe :=
  ⟨by decide +kernel, by decide +kernel, by decide +kernel, rfl, rfl, rfl, rfl, rfl⟩

theorem b4_inv : Inv (b4 24) := ⟨by decide +kernel, by decide +kernel, by decide +kernel, by decide +kernel⟩

theorem witness_InvariantKept : Inv (queued (b4 24) [.bitReader 0b0001001000 Side.none]) ∧
    ∃ t, step (queued (b4 24) [.bitReader 0b0001001000 Side.none]) = .next t ∧ br t = (1, 32, false) :=
  ⟨⟨b4_inv.1, b4_inv.2, b4_inv.3, b4_inv.4⟩, of_after (by decide +kernel)⟩

/-- A run through the whole order of R400, one command a step. -/
theorem witness_CommandOrder :
    (∃ t, step (queued blank [.command 0 HostPorts.idle []]) = .next t ∧ t.orch = .opened) ∧
    (∃ t, step (queued (opened .opened [0x12, 0x10]) [.command 4 (slice 2 0) []]) = .next t ∧ t.orch = .initialized) ∧
    (∃ t, step (queued (opened .initialized []) [.command 5 (slice 0 0) []]) = .next t ∧ t.orch = .decoding) ∧
    (∃ t, step (queued (opened .decoding []) [.command 7 (slice 0 0) []]) = .next t ∧ t.orch = .closed) :=
  ⟨of_after (by decide +kernel), of_after (by decide +kernel), of_after (by decide +kernel), of_after (by decide +kernel)⟩

/-- An instruction that gives a next state, for the statements about every instruction. -/
theorem witness_ControlRegisterWriters : ∃ t, exec (.get 8) (b4 24) = .next t ∧ br t = (1, 32, false) :=
  of_after (by decide +kernel)

theorem witness_MemoryWriters_input : ∃ t, exec .hcw1 (next' 2 0b10) = .next t ∧ vlc t = ([1, 0, 0, -1], 2) :=
  of_after (by decide +kernel)

/-- FIL, and DECODE of the ADTS frame of P1 into samples 0 to 1023; sample 1024 is the first beyond the buffer. -/
theorem witness_MemoryWriters_output : Instr.fil ≠ .decode ∧
    (∃ t, exec .fil (at' [0xC4, 1, 2, 3] 3) = .next t ∧ br t = (0, 23, false)) ∧
    (opened .initialized p1).ports.outBase + (opened .initialized p1).ports.outCap ≤ 1024 :=
  ⟨by decide, of_after (by decide +kernel), by decide +kernel⟩

theorem witness_MemoryWriters_decode : (opened .initialized p1).outMem.wf ∧
    ∃ t, exec .decode { opened .initialized p1 with
        work := { (opened .initialized p1).work with sc := { fixStream with headerType := 2 } } } = .next t ∧
      ([t.fi.error.toNat, t.fi.samples.toNat], t.orch) = ([0, 1024], .decoding) :=
  ⟨by decide +kernel, of_after (by decide +kernel)⟩

/-! ### Bit Reader and windows -/

theorem witness_ReadBits : (b4 0).work.eng.bc.live = true ∧ (b4 0).work.eng.bc.err = false ∧
    0 + 32 ≤ 8 * (b4 0).work.eng.bc.len ∧ (b4 31).work.eng.bc.pos + 1 ≤ 8 * (b4 31).work.eng.bc.len ∧
    ¬ ((b4 0).work.eng.bc.err = false ∧ 33 ≤ 32) ∧ ¬ ((b4 32).work.eng.bc.pos + 1 ≤ 8 * (b4 32).work.eng.bc.len) ∧
    ¬ (((b4 0).setBc ⟨true, 0, 4, 0, true⟩).work.eng.bc.err = false) := by decide +kernel

theorem witness_ReadBits_align : (b4 32).work.eng.bc.live = true ∧ (b4 32).work.eng.bc.err = false ∧
    (b4 32).work.eng.bc.pos ≤ 8 * (b4 32).work.eng.bc.len ∧ (b4 25).work.eng.bc.pos ≤ 8 * (b4 25).work.eng.bc.len ∧
    ((b4 25).setBc ⟨true, 0, 4, 25, true⟩).work.eng.bc.live = true ∧
    ((b4 25).setBc ⟨true, 0, 4, 25, true⟩).work.eng.bc.err = true := by decide +kernel

theorem witness_PositionControl : (b4 7).work.eng.bc.live = true ∧ (b4 7).work.eng.bc.err = false ∧
    32 ≤ 8 * (b4 7).work.eng.bc.len ∧ 8 * (b4 7).work.eng.bc.len < 33 ∧
    ((b4 7).setBc ⟨true, 0, 4, 7, true⟩).work.eng.bc.err = true := by decide +kernel

/-- All bits, split at either end; and a rewind from the end of the buffer. -/
theorem witness_SplitReads : (b4 0).canRead 32 = true ∧ 0 ≤ 32 ∧ 32 ≤ 32 ∧ (b4 32).work.eng.bc.live = true ∧
    (b4 32).canRead 1 = false ∧ (b4 32).work.eng.bc.err = false := by decide +kernel

theorem witness_ErrorFlagIsSticky : ((b4 24).setBc ⟨true, 0, 4, 24, true⟩).work.eng.bc.err = true ∧
    ∃ t, exec (.seek 0) ((b4 24).setBc ⟨true, 0, 4, 24, true⟩) = .next t ∧ br t = (0, 0, true) :=
  ⟨rfl, of_after (by decide +kernel)⟩

/-- R37 and 93_unspecified.md U2: every bit reader operation but BC_CREATE faults while no cursor exists. -/
theorem test_wPeek_without_cursor : exec (.wPeek 4 0) blank = .fault .noCursor := rfl

theorem test_wConcat_without_cursor : exec (.wConcat 9 9) blank = .fault .noCursor := rfl

theorem witness_MissingCursorOrWindow : blank.work.eng.bc.live = false ∧ blank.work.eng.bw.length ≤ 4 ∧
    (b4 0).work.eng.bc.live = true ∧ (b4 0).work.eng.bw.length ≤ 4 := by decide +kernel

theorem witness_BitReaderFrame : ∃ t, exec (.wLoad 6 3) (b4 0) = .next t ∧ br t = (0, 6, false) :=
  of_after (by decide +kernel)

theorem witness_WindowLoad : (b4 0).work.eng.bc.live = true ∧ 3 < (b4 0).work.eng.bw.length ∧
    (b4 0).work.eng.bc.canRead 32 = true ∧ (b4 0).work.eng.bc.canRead 33 = false ∧
    (b4 32).work.eng.bc.canRead 1 = false := by decide +kernel

theorem witness_WindowPeekConsume : (win 6 0b101001).work.eng.bc.live = true ∧ (win 6 0b101001).work.eng.bw[0]? = some ⟨natToBits 6 0b101001, false⟩ ∧
    32 ≤ (natToBits 6 0b101001).length + 26 ∧ 6 ≤ (natToBits 6 0b101001).length ∧
    (natToBits 6 0b101001).length < 7 := by decide +kernel

/-- Window 0 holds 32 bits, window 1 holds n bits. -/
def twoWins (n : Nat) : State := (win 32 0xA53CFF01).setWindow 1 ⟨natToBits n 5, false⟩

theorem witness_WindowConcatReverse : (twoWins 32).work.eng.bc.live = true ∧ (twoWins 33).work.eng.bc.live = true ∧
    (twoWins 32).work.eng.bw[0]? = some ⟨natToBits 32 0xA53CFF01, false⟩ ∧
    (twoWins 32).work.eng.bw[1]? = some ⟨natToBits 32 5, false⟩ ∧
    (natToBits 32 0xA53CFF01).length + (natToBits 32 5).length ≤ 64 ∧
    (twoWins 33).work.eng.bw[1]? = some ⟨natToBits 33 5, false⟩ ∧
    64 < (natToBits 32 0xA53CFF01).length + (natToBits 33 5).length := by decide +kernel

/-- The concat laws with the same window twice, and three windows of 64 bits together. -/
theorem witness_WindowLaws : (twoWins 32).work.eng.bc.live = true ∧
    ((twoWins 20).setWindow 2 ⟨natToBits 12 7, false⟩).work.eng.bc.live = true ∧ (twoWins 32).work.eng.bw[0]? = some ⟨natToBits 32 0xA53CFF01, false⟩ ∧
    20 + 12 ≤ (natToBits 32 0xA53CFF01).length ∧ (twoWins 32).work.eng.bw[1]? = some ⟨natToBits 32 5, false⟩ ∧
    (natToBits 32 0xA53CFF01).length + (natToBits 32 5).length ≤ 64 ∧
    (natToBits 32 0xA53CFF01).length + (natToBits 32 0xA53CFF01).length ≤ 64 ∧ (1 : Nat) ≠ 0 ∧ (2 : Nat) ≠ 0 ∧
    ((twoWins 20).setWindow 2 ⟨natToBits 12 7, false⟩).work.eng.bw[0]? = some ⟨natToBits 32 0xA53CFF01, false⟩ ∧
    ((twoWins 20).setWindow 2 ⟨natToBits 12 7, false⟩).work.eng.bw[1]? = some ⟨natToBits 20 5, false⟩ ∧
    ((twoWins 20).setWindow 2 ⟨natToBits 12 7, false⟩).work.eng.bw[2]? = some ⟨natToBits 12 7, false⟩ ∧
    (natToBits 32 0xA53CFF01).length + (natToBits 20 5).length + (natToBits 12 7).length ≤ 64 := by decide +kernel

/-! ### VLC engine -/

/-- The bits after the first n the source holds. -/
def rest (s : State) (n : Nat) : List Bool := (s.work.eng.sourceBits s.inMem).drop n

theorem witness_SignedCodeword : (next' 3 0b110).sourceReady = true ∧ (spectralBook fixPar 1).prefixFree ∧
    en 3 0b110 [0, -1, 1, 0] ∈ spectralBook fixPar 1 ∧ (en 3 0b110 [0, -1, 1, 0]).code ≠ [] ∧
    (next' 3 0b110).work.eng.sourceBits (next' 3 0b110).inMem =
      (en 3 0b110 [0, -1, 1, 0]).code ++ rest (next' 3 0b110) 3 ∧
    en 2 0b10 [-3, 4] ∈ spectralBook fixPar 5 ∧ (spectralBook fixPar 5).prefixFree ∧
    (next' 2 0b10).work.eng.sourceBits (next' 2 0b10).inMem = (en 2 0b10 [-3, 4]).code ++ rest (next' 2 0b10) 2 := by
  decide +kernel

theorem witness_UnsignedCodeword : (next' 5 0b10011).sourceReady = true ∧ (spectralBook fixPar 3).prefixFree ∧
    en 2 0b10 [1, 0, 2, 1] ∈ spectralBook fixPar 3 ∧ (natToBits 3 0b011).length = signCount [1, 0, 2, 1] ∧
    (next' 5 0b10011).work.eng.sourceBits (next' 5 0b10011).inMem =
      (en 2 0b10 [1, 0, 2, 1]).code ++ natToBits 3 0b011 ++ rest (next' 5 0b10011) 5 ∧
    (spectralBook fixPar 7).prefixFree ∧ en 1 0 [0, 0] ∈ spectralBook fixPar 7 ∧ signCount [0, 0] = 0 ∧
    (next' 1 0).work.eng.sourceBits (next' 1 0).inMem = (en 1 0 [0, 0]).code ++ [] ++ rest (next' 1 0) 1 := by
  decide +kernel

/-- T-HC-10: the pair (16, -16), escapes 17 and -127. -/
def escState : State := next' 20 0b11110100001110111111

theorem witness_EscapeCodeword : escState.sourceReady = true ∧ escState.par.escMaxN ≤ 32 ∧
    (spectralBook escState.par 11).prefixFree ∧ en 4 0b1111 [16, 16] ∈ spectralBook escState.par 11 ∧
    [false, true].length = signCount [16, 16] ∧ applySigns [16, 16] [false, true] = [16, -16] ∧
    escState.work.eng.sourceBits escState.inMem =
      (en 4 0b1111 [16, 16]).code ++ [false, true] ++ escapeBits 4 1 ++ escapeBits 6 63 ++ rest escState 20 := by
  decide +kernel

theorem witness_EscapeCodeword_escapes : isEscapeOf escState.par 16 17 (some 4) (escapeBits 4 1) ∧
    isEscapeOf escState.par (-16) (-127) (some 6) (escapeBits 6 63) ∧ isEscapeOf escState.par 15 15 none [] := by
  refine ⟨?_, ?_, ?_⟩
  · rw [isEscapeOf, if_pos (by decide)]
    exact ⟨4, 1, rfl, by decide +kernel⟩
  · rw [isEscapeOf, if_pos (by decide)]
    exact ⟨6, 63, rfl, by decide +kernel⟩
  · rw [isEscapeOf, if_neg (by decide)]
    exact ⟨rfl, rfl, rfl⟩

theorem witness_CodewordWithoutTable : (next' 1 0).work.eng.bc.err = false := by decide +kernel

theorem witness_CompleteBooksNeverMiss : (b4 31).sourceReady = true ∧
    (Instr.hcw1, spectralBook (b4 31).par 1) ∈ [(Instr.hcw1, spectralBook (b4 31).par 1)] ∧
    (∀ b ∈ [1, 2, 3, 4, 5, 6, 7, 8, 9, 10], (spectralBook (b4 31).par b).walkable) ∧ (b4 31).par.sfcb.walkable ∧
    ∀ b ∈ [1, 2, 3, 4, 5, 6, 7, 8, 9, 10], ∀ e ∈ spectralBook (b4 31).par b, e.code ≠ [] := by decide +kernel

/-- Books that hold one code, so that a 1 is a miss. -/
def missState : State := { next' 1 1 with par := { fixPar with
  hcb := List.replicate 12 [en 1 0 [0, 0]]
  sfcb := [en 1 0 [60]] } }

theorem witness_TableMissRaises : missState.sourceReady = true ∧ [true] ≠ [] ∧
    [true].length = maxCodeLen (spectralBook missState.par 11) ∧ (∀ e ∈ spectralBook missState.par 11, ¬ e.code <+: [true]) ∧
    [true].length = maxCodeLen (spectralBook missState.par 6) ∧
    [true].length = maxCodeLen missState.par.sfcb ∧ (∀ e ∈ spectralBook missState.par 6, ¬ e.code <+: [true]) ∧
    (∀ e ∈ missState.par.sfcb, ¬ e.code <+: [true]) ∧ missState.work.eng.bc.err = false ∧
    missState.work.eng.sourceBits missState.inMem = [true] ++ rest missState 1 := by decide +kernel

theorem witness_ScaleFactorDifferences : (next' 4 0b1100).sourceReady = true ∧ fixPar.sfcb.prefixFree ∧
    en 4 0b1100 [58] ∈ fixPar.sfcb ∧ (next' 4 0b1100).work.eng.sourceBits (next' 4 0b1100).inMem =
      (en 4 0b1100 [58]).code ++ rest (next' 4 0b1100) 4 ∧ (natToBits 9 511).length = 9 ∧
    (next' 9 511).work.eng.sourceBits (next' 9 511).inMem = natToBits 9 511 ++ rest (next' 9 511) 9 := by decide +kernel

/-- The escape sequence of N and offset next, for Q[1] = -16. -/
def escNext (n off : Nat) : State :=
  withQ ({ blank with inMem := Memory.setBits [] 0 0 (escapeBits n off) }.setBc (Cursor.create 0 8)) (quad 3 (-16) 0 0)

theorem witness_EscapeSequence : |(escNext 4 0).work.eng.regs.q 0| ≠ 16 ∧ |(escNext 4 0).work.eng.regs.q 1| = 16 ∧
    (escNext 4 0).sourceReady = true ∧ (escNext 4 0).par.escMaxN = 12 ∧
    (escNext 4 0).work.eng.sourceBits (escNext 4 0).inMem = escapeBits 4 0 ++ rest (escNext 4 0) 5 ∧
    |(escNext 12 4095).work.eng.regs.q 1| = 16 ∧ 4095 < 2 ^ 12 ∧
    (escNext 12 4095).work.eng.sourceBits (escNext 12 4095).inMem = escapeBits 12 4095 ++ rest (escNext 12 4095) 21 := by
  decide +kernel

theorem witness_EscapeSequence_tooLong : |(escNext 13 0).work.eng.regs.q 1| = 16 ∧ (escNext 13 0).sourceReady = true ∧
    4 ≤ (escNext 13 0).par.escMaxN ∧ (escNext 13 0).work.eng.bc.err = false ∧
    (escNext 13 0).work.eng.sourceBits (escNext 13 0).inMem =
      List.replicate ((escNext 13 0).par.escMaxN - 3) true ++ rest (escNext 13 0) 9 := by decide +kernel

theorem witness_SignBits : (withQ (next' 3 0b011) (quad 1 0 2 1)).sourceReady = true ∧
    (natToBits 3 0b011).length = signCount ((withQ (next' 3 0b011) (quad 1 0 2 1)).work.eng.regs.lanes 4) ∧
    (withQ (next' 3 0b011) (quad 1 0 2 1)).work.eng.sourceBits (next' 3 0b011).inMem =
      natToBits 3 0b011 ++ rest (next' 3 0b011) 3 ∧
    (natToBits 1 1).length = signCount ((withQ (next' 1 1) (quad 1 0 2 1)).work.eng.regs.lanes 2) ∧
    (withQ (next' 1 1) (quad 1 0 2 1)).work.eng.sourceBits (next' 1 1).inMem = natToBits 1 1 ++ rest (next' 1 1) 1 := by
  decide +kernel

theorem witness_RvlcEscape : (runs 0 0 2 0b11).work.eng.bc.live = true ∧ fixPar.rvlcEsc.prefixFree ∧ en 2 0b11 [2] ∈ fixPar.rvlcEsc ∧
    Run.bits (runs 0 0 2 0b11).inMem (runs 0 0 2 0b11).work.eng.bc (runs 0 0 2 0b11).work.eng.regs.escRun = (en 2 0b11 [2]).code ++ [] ∧
    fixPar.rvlcEsc ≠ [] ∧
    ∀ e ∈ fixPar.rvlcEsc, ¬ e.code <+: Run.bits (runs 0 0 1 1).inMem (runs 0 0 1 1).work.eng.bc (runs 0 0 1 1).work.eng.regs.escRun := by decide +kernel

/-- T-RV-1, T-RV-4, T-RV-2 and T-RV-3, and an escape run that ends early. -/
theorem witness_RvlcDifference : (runs 3 0b101 0 0).work.eng.bc.live = true ∧ 0 < fixPar.rvlcEscVal ∧ fixPar.rvlcSf.prefixFree ∧
    en 3 0b101 [1] ∈ fixPar.rvlcSf ∧ (1 : Int) ≠ 99 ∧ (1 : Int) ≠ fixPar.rvlcEscVal ∧ (1 : Int) ≠ - fixPar.rvlcEscVal ∧
    Run.bits (runs 3 0b101 0 0).inMem (runs 3 0b101 0 0).work.eng.bc (runs 3 0b101 0 0).work.eng.regs.sfRun = (en 3 0b101 [1]).code ++ [] ∧
    en 4 0b1001 [7] ∈ fixPar.rvlcSf ∧ (7 : Int) = fixPar.rvlcEscVal ∧ fixPar.rvlcEsc.prefixFree ∧
    en 2 0b11 [2] ∈ fixPar.rvlcEsc ∧
    Run.bits (runs 4 0b1001 2 0b11).inMem (runs 4 0b1001 2 0b11).work.eng.bc (runs 4 0b1001 2 0b11).work.eng.regs.sfRun = (en 4 0b1001 [7]).code ++ [] ∧
    Run.bits (runs 4 0b1001 2 0b11).inMem (runs 4 0b1001 2 0b11).work.eng.bc (runs 4 0b1001 2 0b11).work.eng.regs.escRun = (en 2 0b11 [2]).code ++ [] ∧
    (∀ e ∈ fixPar.rvlcEsc, ¬ e.code <+: Run.bits (runs 4 0b1001 1 1).inMem (runs 4 0b1001 1 1).work.eng.bc (runs 4 0b1001 1 1).work.eng.regs.escRun) ∧
    (∀ e ∈ fixPar.rvlcSf, ¬ e.code <+: Run.bits (runs 4 0b1000 0 0).inMem (runs 4 0b1000 0 0).work.eng.bc (runs 4 0b1000 0 0).work.eng.regs.sfRun) ∧
    (∀ e ∈ fixPar.rvlcSf, ¬ e.code <+: Run.bits (runs 2 0b10 0 0).inMem (runs 2 0b10 0 0).work.eng.bc (runs 2 0b10 0 0).work.eng.regs.sfRun) := by
  decide +kernel

theorem witness_VlcFrame : decodeVlc 0b00100000 = some .sfd ∧
    ∃ t, exec .sfd (next' 4 0b1100) = .next t ∧ br t = (-2, 4, false) := ⟨rfl, of_after (by decide +kernel)⟩

/-- T-SF-2: three bands from global_gain 100. -/
theorem witness_ScaleFactorRange :
    ∃ g', scaleFactorData ⟨fixPar, (next' 8 0b01011100).inMem, Config.cfgReset⟩ 100 [[1, 1, 1]] (next' 8 0b01011100).work.eng =
      .ok [[100, 101, 99]] g' := by
  have h : (match scaleFactorData ⟨fixPar, (next' 8 0b01011100).inMem, Config.cfgReset⟩ 100 [[1, 1, 1]]
      (next' 8 0b01011100).work.eng with
    | .ok v _ => v
    | .error _ _ => []) = [[100, 101, 99]] := by decide +kernel
  revert h
  cases scaleFactorData ⟨fixPar, (next' 8 0b01011100).inMem, Config.cfgReset⟩ 100 [[1, 1, 1]]
      (next' 8 0b01011100).work.eng with
  | ok v g' => exact fun h => ⟨g', by simp only at h; rw [h]⟩
  | error c g' => intro h; simp at h

/-! ### Elements -/

/-- The n bits v after a selector, in a buffer of 300 bytes. -/
def long (n v : Nat) : State :=
  { blank with inMem := Memory.setBits [] 0 3 (natToBits n v) }.setBc { Cursor.create 0 300 with pos := 3 }

/-- Three bytes without alignment; 255 bytes with both; two bytes of which the buffer holds one. -/
theorem witness_DataStreamElement : (long 13 0b0000000000011).canRead 13 = true ∧
    (long 13 0b0000000000011).field 5 8 = 3 ∧ (long 13 0b0000000000011).field 4 1 = 0 ∧ 3 + 13 + 8 * 3 ≤ 8 * 300 ∧
    (long 21 0b000011111111100000000).canRead 21 = true ∧ (long 21 0b000011111111100000000).field 5 8 = 255 ∧
    (long 21 0b000011111111100000000).field 4 1 = 1 ∧ (long 21 0b000011111111100000000).field 13 8 = 0 ∧
    8 * ((3 + 21 + 7) / 8) + 8 * 255 ≤ 8 * (long 21 0b000011111111100000000).work.eng.bc.len ∧
    (at' [0x80, 0x02, 7] 3).canRead 13 = true ∧ (at' [0x80, 0x02, 7] 3).field 5 8 = 2 ∧
    (at' [0x80, 0x02, 7] 3).field 4 1 = 0 ∧ 8 * (at' [0x80, 0x02, 7] 3).work.eng.bc.len < 3 + 13 + 8 * 2 := by decide +kernel

/-- A header cut in its count, one cut in its escape, and a set error flag. -/
theorem witness_DataStreamElement_cut : (at' [0x80] 3).canRead 0 = true ∧ (at' [0x80] 3).canRead 13 = false ∧
    (at' [0x80, 0xFF] 3).canRead 13 = true ∧ (at' [0x80, 0xFF] 3).field 5 8 = 255 ∧ (at' [0x80, 0xFF] 3).canRead 21 = false ∧
    ((b4 3).setBc ⟨true, 0, 4, 3, true⟩).work.eng.bc.live = true ∧
    ((b4 3).setBc ⟨true, 0, 4, 3, true⟩).work.eng.bc.err = true := by decide +kernel

/-- No byte, at the end of the buffer; fourteen; the escape with 0, again fourteen; the escape with 255, 269 bytes, the most;
and two bytes that do not fit. -/
theorem witness_FillElement : (at' [0xC0] 3).canRead 4 = true ∧ (at' [0xC0] 3).field 0 4 = 0 ∧
    3 + 4 + 8 * 0 ≤ 8 * (at' [0xC0] 3).work.eng.bc.len ∧ (long 4 14).canRead 4 = true ∧ (long 4 14).field 0 4 = 14 ∧
    (long 12 0b111100000000).field 0 4 = 15 ∧ (long 12 0b111100000000).canRead 12 = true ∧
    (long 12 0b111100000000).field 4 8 = 0 ∧
    (long 12 0b111111111111).field 4 8 = 255 ∧ 3 + 12 + 8 * (15 + 255 - 1) ≤ 8 * (long 12 0xFFF).work.eng.bc.len ∧
    (at' [0xC4, 1] 3).canRead 4 = true ∧ (at' [0xC4, 1] 3).field 0 4 = 2 ∧
    8 * (at' [0xC4, 1] 3).work.eng.bc.len < 3 + 4 + 8 * 2 := by decide +kernel

/-- Three bits left; an escaped count cut by the end. -/
theorem witness_FillElement_cut : (at' [0xC0] 5).canRead 0 = true ∧ (at' [0xC0] 5).canRead 4 = false ∧
    (at' [0xDE] 3).canRead 4 = true ∧ (at' [0xDE] 3).field 0 4 = 15 ∧ (at' [0xDE] 3).canRead 12 = false := by decide +kernel

theorem witness_EndMarker : (b4 32).work.eng.bc.live = true := by decide +kernel

/-- A PCE of two channels with an auxiliary list of each kind, two of the mix-down fields, and a comment of one byte; with an
LFE it has three channels. -/
def somePce (lfe : List Nat) : Pce where
  tag := 15
  objectType := 1
  sfIndex := 4
  front := [⟨false, 1⟩]
  side := []
  back := [⟨false, 2⟩]
  lfe := lfe
  assoc := [3]
  cc := [⟨true, 4⟩]
  monoMixdown := some 5
  stereoMixdown := none
  matrixMixdown := some (3, true)
  comment := [0x41]

/-- Its bits when they begin start bits into the buffer. -/
def pceBits (start : Nat) (p : Pce) : List Bool :=
  p.headBits ++ List.replicate ((8 - (start + p.headBits.length) % 8) % 8) false ++ p.commentBits

theorem isPce_pceBits (start : Nat) (p : Pce) (h : p.fits) : isPce start p (pceBits start p) :=
  ⟨h, _, by simp only [List.length_replicate]; omega, by simp only [List.length_replicate]; omega, rfl⟩

theorem somePce_fits : (somePce []).fits ∧ (somePce [0]).fits := by
  unfold Pce.fits
  decide +kernel

/-- Bits after a selector, with a cursor on them, in the stream of P1 with k channels seen. -/
def elementBits (bits : List Bool) (k : Nat) : State :=
  { opened .decoding [] with
    inMem := Memory.setBits [] 0 3 bits
    work := { (opened .decoding []).work with
      eng := { blank.work.eng with bc := { Cursor.create 0 40 with pos := 3 } }
      ds := { (opened .decoding []).work.ds with channelsSeen := k } } }

/-- Two channels, the most there are, and three. -/
theorem witness_ProgramConfigElement : ∀ x ∈ [([], 2), ([0], 3)], ∀ s ∈ [elementBits (pceBits 3 (somePce x.1)) 0],
    s.work.eng.bc.live = true ∧ s.work.eng.bc.err = false ∧
    s.restBits = pceBits 3 (somePce x.1) ++ s.restBits.drop (pceBits 3 (somePce x.1)).length ∧
    (somePce x.1).channels = x.2 ∧ s.par.maxChannels = 2 := by decide +kernel

theorem witness_ProgramConfigElement_bits : isPce 3 (somePce []) (pceBits 3 (somePce [])) ∧
    isPce 3 (somePce [0]) (pceBits 3 (somePce [0])) :=
  ⟨isPce_pceBits 3 _ somePce_fits.1, isPce_pceBits 3 _ somePce_fits.2⟩

/-- An element of the stream of P1, its cursor after the selector, with k channels seen. -/
def element (l : List Nat) (k : Nat) : State :=
  { opened .decoding l with work := { (opened .decoding l).work with
      eng := { blank.work.eng with bc := { Cursor.create 0 l.length with pos := 3 } }
      ds := { (opened .decoding l).work.ds with channelsSeen := k } } }

/-- The last bit read is the last of the payload. -/
theorem witness_SilentSingleElement : (element [0, 0, 0, 7] 1).canRead 0 = true ∧
    3 + 26 ≤ 8 * (element [0, 0, 0, 7] 1).work.eng.bc.len ∧ (element [0, 0, 0, 7] 1).silentStream 4 ∧
    1 + 1 ≤ (element [0, 0, 0, 7] 1).par.maxChannels ∧ 0 + 1 ≤ (element [0, 0, 0, 7] 1).par.maxElements ∧
    (element [0, 0, 0, 7] 1).work.sc.erFlag 0 = false ∧ (element [0, 0, 0, 7] 1).work.sc.erFlag 1 = false ∧
    (element [0, 0, 0, 7] 1).work.sc.erFlag 2 = false ∧ (element [0, 0, 0, 7] 1).work.sc.upsample = false ∧
    (element [0, 0, 0, 7] 1).par.cap.sbr = false ∧ (element [0, 0, 0, 7] 1).field 26 3 ≠ 6 :=
  ⟨by decide +kernel, by decide +kernel, by unfold State.silentStream; decide +kernel, by decide +kernel,
    by decide +kernel, by decide +kernel, by decide +kernel, by decide +kernel, by decide +kernel⟩

theorem witness_SilentPairElement : (element [0x20, 0, 0, 0, 0, 0, 0, 0] 0).canRead 0 = true ∧
    3 + 49 ≤ 8 * (element [0x20, 0, 0, 0, 0, 0, 0, 0] 0).work.eng.bc.len ∧
    (element [0x20, 0, 0, 0, 0, 0, 0, 0] 0).field 4 1 = 0 ∧ (element [0x20, 0, 0, 0, 0, 0, 0, 0] 0).silentStream 5 ∧
    (element [0x20, 0, 0, 0, 0, 0, 0, 0] 0).silentStream 27 ∧
    0 + 2 ≤ (element [0x20, 0, 0, 0, 0, 0, 0, 0] 0).par.maxChannels ∧
    (element [0x20, 0, 0, 0, 0, 0, 0, 0] 0).work.sc.erFlag 0 = false ∧
    (element [0x20, 0, 0, 0, 0, 0, 0, 0] 0).work.sc.erFlag 1 = false ∧
    (element [0x20, 0, 0, 0, 0, 0, 0, 0] 0).work.sc.erFlag 2 = false ∧
    (element [0x20, 0, 0, 0, 0, 0, 0, 0] 0).work.sc.upsample = false ∧
    (element [0x20, 0, 0, 0, 0, 0, 0, 0] 0).field 49 3 ≠ 6 :=
  ⟨by decide +kernel, by decide +kernel, by decide +kernel, by unfold State.silentStream; decide +kernel,
    by unfold State.silentStream; decide +kernel, by decide +kernel, by decide +kernel, by decide +kernel,
    by decide +kernel⟩

/-- CCE; a channel too many; an element too many. -/
theorem witness_RefusedElements : (element [0, 0, 0, 7] 2).work.eng.bc.live = true ∧
    (element [0, 0, 0, 7] 2).work.eng.bc.err = false ∧
    (element [0, 0, 0, 7] 2).par.maxChannels < (element [0, 0, 0, 7] 2).work.ds.channelsSeen + 1 ∧
    (element [0, 0, 0, 7] 1).par.maxChannels < (element [0, 0, 0, 7] 1).work.ds.channelsSeen + 2 ∧
    ({ element [0, 0, 0, 7] 0 with par := { fixPar with maxElements := 0 } } : State).par.maxElements < 0 + 1 := by
  decide +kernel

/-- The stream of P1 upsampled, with the SbrState INIT allocated for its first element. -/
def upsampled : State :=
  { element [0, 0, 0, 7] 0 with work := { (element [0, 0, 0, 7] 0).work with
      sc := { fixStream with upsample := true }
      ds := { (element [0, 0, 0, 7] 0).work.ds with sbr := [some (SbrState.fresh fixPar)] } } }

/-- Silence read back sample by sample. -/
theorem silence_read (n : Nat) :
    (List.range n).map (fun i => (List.replicate n (0 : Sample)).getD i 0) = List.replicate n 0 :=
  List.ext_getElem (by simp) (by simp [List.getD_eq_getElem?_getD])

theorem witness_UpsampledElement : upsampled.canRead 0 = true ∧ 3 + 26 ≤ 8 * upsampled.work.eng.bc.len ∧
    upsampled.silentStream 4 ∧ 0 + 1 ≤ upsampled.par.maxChannels ∧ 0 + 1 ≤ upsampled.par.maxElements ∧
    upsampled.work.sc.erFlag 0 = false ∧ upsampled.work.sc.erFlag 1 = false ∧ upsampled.work.sc.erFlag 2 = false ∧
    upsampled.work.sc.upsample = true ∧
    upsampled.work.ds.sbr[upsampled.work.ds.elementsSeen]? = some (some (SbrState.fresh fixPar)) ∧
    upsampled.field 26 3 ≠ 6 ∧ (SbrState.fresh fixPar).chan fixPar 0 = SbrChan.silent fixPar ∧
    (List.range 1024).map (fun n => (upsampled.work.ds.overlap.getD 0 []).getD n 0) = List.replicate 1024 0 :=
  ⟨by decide +kernel, by decide +kernel, by unfold State.silentStream; decide +kernel, by decide +kernel,
    by decide +kernel, by decide +kernel, by decide +kernel, by decide +kernel, by decide +kernel, rfl,
    by decide +kernel, rfl, silence_read 1024⟩

/-- The stream of one band: gain 100, the difference to the gain k - 60, codebook 1 and one of its codewords. -/
def oneBand (f q : Entry) : List Bool :=
  natToBits 4 1 ++ natToBits 8 100 ++ oneBandInfoBits true ++ oneBandDataBits 1 f.code q.code

theorem witness_SpectralSingleElement : ∀ s ∈ [elementBits (oneBand (en 3 0b101 [61]) (en 2 0b10 [1, 0, 0, -1])) 1],
    s.work.eng.bc.live = true ∧ s.work.eng.bc.err = false ∧
    s.restBits = natToBits 4 1 ++ natToBits 8 100 ++ oneBandInfoBits true ++
      oneBandDataBits 1 (en 3 0b101 [61]).code (en 2 0b10 [1, 0, 0, -1]).code ++
      s.restBits.drop (oneBand (en 3 0b101 [61]) (en 2 0b10 [1, 0, 0, -1])).length ∧
    s.par.cap.sbr = false ∧ s.par.sfcb.prefixFree ∧ en 3 0b101 [61] ∈ s.par.sfcb ∧
    (spectralBook s.par 1).prefixFree ∧ en 2 0b10 [1, 0, 0, -1] ∈ spectralBook s.par 1 ∧
    (∀ v ∈ (en 2 0b10 [1, 0, 0, -1]).value, |v| ≤ 8191) ∧
    s.work.ds.channelsSeen + 1 ≤ s.par.maxChannels ∧ s.work.ds.elementsSeen + 1 ≤ s.par.maxElements ∧
    s.work.sc.erFlags = 0 ∧ s.work.sc.upsample = false := by decide +kernel

theorem witness_SpectralSingleElement_band : quadBand fixPar fixStream := by
  unfold quadBand
  decide +kernel

/-- The pair of the same band, its second channel of codebook 1 (mid and side) or 14 (intensity). -/
def bandPair (cb : Nat) (spectral : List Bool) : List Bool :=
  natToBits 4 0 ++ [true] ++ oneBandInfoBits false ++ [false, true, true] ++
    natToBits 8 100 ++ oneBandDataBits 1 (natToBits 1 0) (natToBits 2 0b10) ++
    natToBits 8 0 ++ oneBandDataBits cb (natToBits 4 0b1111) spectral

theorem witness_CommonWindowPair : ∀ x ∈ [(1, natToBits 3 0b110), (14, [])], ∀ s ∈ [elementBits (bandPair x.1 x.2) 0],
    s.work.eng.bc.live = true ∧ s.work.eng.bc.err = false ∧
    s.restBits = bandPair x.1 (if x.1 ≤ 2 then natToBits 3 0b110 else []) ++ s.restBits.drop (bandPair x.1 x.2).length ∧
    s.par.cap.sbr = false ∧ s.par.sfRangeCheckAll = false ∧
    s.work.ds.channelsSeen + 2 ≤ s.par.maxChannels ∧ s.work.ds.elementsSeen + 1 ≤ s.par.maxElements ∧
    s.work.sc.erFlags = 0 ∧ s.work.sc.upsample = false := by decide +kernel

theorem witness_CommonWindowPair_books : fixPar.sfcb.prefixFree ∧ en 1 0 [60] ∈ fixPar.sfcb ∧
    en 4 0b1111 [120] ∈ fixPar.sfcb ∧ (0 : Int) ≤ 0 + (120 - 60) ∧ (spectralBook fixPar 1).prefixFree ∧
    en 2 0b10 [1, 0, 0, -1] ∈ spectralBook fixPar 1 ∧ en 3 0b110 [0, -1, 1, 0] ∈ spectralBook fixPar 1 := by decide +kernel

theorem witness_ElementOutcome : (element [0, 0, 0, 7] 0).work.eng.bc.live = true := by decide +kernel

/-! ### SBR -/

/-- The first header, whose crossover band is x. -/
def header (x : Nat) : SbrHeader := ⟨0, 5, 3, x, 2, 1, 2, 2, 2, 1, 1⟩

/-- Legal tables of the same master table for the crossover bands 0 and 1. -/
theorem witness_SbrHeaderAndTables :
    sbrTablesLegal fixPar (header 0) ⟨[32, 36, 40, 44], [32, 36, 40, 44], [32, 40, 44], [32, 44], [32, 44], 32, 12, []⟩ = true ∧
    sbrTablesLegal fixPar { header 0 with xoverBand := 1 }
      ⟨[32, 36, 40, 44], [36, 40, 44], [36, 44], [36, 44], [36, 44], 36, 8, []⟩ = true ∧ 1 ≠ (header 0).xoverBand := by
  decide +kernel

/-! ### Host commands -/

theorem witness_OpenResets : blank.orch = .unopened ∧ blank.ports.allocOk = true ∧
    ({ blank with ports := { slice 0 0 with allocOk := false } } : State).ports.allocOk = false := by decide +kernel

/-- The least and the greatest legal format; then rate 0, formats 0 and 6, and object type 3. -/
theorem witness_SetConfigAllOrNothing : (setCfg 2 1 1).orch = .opened ∧
    (decodable (setCfg 2 1 1).par.cap (setCfg 2 1 1).ports.cfgw.defObjectType.toNat = true ∧
      (setCfg 2 1 1).ports.cfgw.defSampleRate ≠ 0 ∧ 1 ≤ (setCfg 2 1 1).ports.cfgw.outputFormat.toNat ∧
      (setCfg 2 1 5).ports.cfgw.outputFormat.toNat ≤ 5) ∧
    ¬ ((setCfg 2 0 1).ports.cfgw.defSampleRate ≠ 0) ∧ ¬ (1 ≤ (setCfg 2 1 0).ports.cfgw.outputFormat.toNat) ∧
    ¬ ((setCfg 2 1 6).ports.cfgw.outputFormat.toNat ≤ 5) ∧
    ¬ (decodable (setCfg 3 1 1).par.cap (setCfg 3 1 1).ports.cfgw.defObjectType.toNat = true) := by decide +kernel

/-- A stream without a header: no bytes at all, and four bytes of 0; above 24000 Hz no SBR. -/
theorem witness_InitRaw : ∀ s ∈ [opened .opened [], opened .opened [0, 0, 0, 0]], s.orch = .opened ∧
    adifTest s.inMem s.ports.inBase s.ports.inLen = false ∧
    (12 ≤ 8 * s.ports.inLen → bitsAt s.inMem s.ports.inBase 0 12 ≠ 0xFFF) ∧
    (11 ≤ 8 * s.ports.inLen → bitsAt s.inMem s.ports.inBase 0 11 ≠ 0x2B7) ∧
    decodable s.par.cap s.work.sc.objectType.toNat = true ∧ s.work.sc.sampleRate ≠ 0 ∧
    channelCount s.work.sc s.work.ds.pce = some 1 ∧ 1 ≤ s.par.maxChannels ∧
    false = (s.par.cap.sbr && decide (s.work.sc.sampleRate.toNat ≤ 24000)) := by decide +kernel

/-- The same at 24000 Hz with SBR: the stream is upsampled. -/
def initSbr : State :=
  { opened .opened [0, 0, 0, 0] with
    par := sbrPar
    work := { (opened .opened []).work with sc := { fixStream with sampleRate := 24000, sfIndex := 6 } } }

theorem witness_InitRaw_sbr : initSbr.orch = .opened ∧ adifTest initSbr.inMem 0 4 = false ∧
    bitsAt initSbr.inMem 0 0 12 ≠ 0xFFF ∧ bitsAt initSbr.inMem 0 0 11 ≠ 0x2B7 ∧
    true = (initSbr.par.cap.sbr && decide (initSbr.work.sc.sampleRate.toNat ≤ 24000)) ∧
    true = (true && !initSbr.cfg.noImplicitSbrUpsample) ∧ initSbr.ports.allocOk = true ∧
    channelCount initSbr.work.sc initSbr.work.ds.pce = some 1 := by decide +kernel

/-- The header of P1 tells 44100 Hz and one channel. -/
theorem witness_InitAdts : (opened .opened p1).orch = .opened ∧ 1 ≤ fixPar.syncWindowBytes ∧
    bitsAt (opened .opened p1).inMem 0 0 12 = 0xFFF ∧
    bitsAt (opened .opened p1).inMem 0 18 4 ≤ 12 ∧ (opened .opened p1).cfg.oldAdtsFormat = false ∧
    28 + 28 + (if bitsAt (opened .opened p1).inMem 0 15 1 = 0 then 16 else 0) ≤ 8 * (opened .opened p1).ports.inLen ∧
    { (opened .opened p1).work.sc with
      headerType := 2
      objectType := BitVec.ofNat 6 (bitsAt (opened .opened p1).inMem 0 16 2 + 1)
      sfIndex := BitVec.ofNat 4 (bitsAt (opened .opened p1).inMem 0 18 4)
      sampleRate := BitVec.ofNat 32 (sampleRate fixPar (bitsAt (opened .opened p1).inMem 0 18 4))
      channelConfig := BitVec.ofNat 4 (bitsAt (opened .opened p1).inMem 0 23 3) } = { fixStream with headerType := 2 } := by
  decide +kernel

theorem witness_InitAdts_accepts : (opened .opened p1).accepts .unknown { fixStream with headerType := 2 } none 1 := by
  unfold State.accepts
  decide +kernel

/-- An ADIF header with one PCE, of two channels, 20 bits after its fixed part. -/
def adifBits : List Bool :=
  natToBits 32 0x41444946 ++ [false] ++ [false, false, false] ++ natToBits 23 64000 ++ natToBits 4 0 ++
    (natToBits 20 9 ++ pceBits 83 (somePce []) ++ [])

def adifState : State :=
  { opened .opened [] with inMem := Memory.setBits [] 0 0 adifBits, ports := slice ((adifBits.length + 7) / 8) 1024 }

def adifStream : StreamCfg := { fixStream with headerType := 1, channelConfig := 0 }

theorem witness_InitAdif : adifState.orch = .opened ∧ 64000 < 2 ^ 23 ∧ (somePce []).channels ≤ adifState.par.maxChannels ∧
    bitList adifState.inMem adifState.ports.inBase 0 (8 * adifState.ports.inLen) = adifBits ++ [] ∧
    { adifState.work.sc with
      headerType := 1
      objectType := BitVec.ofNat 6 ((somePce []).objectType + 1)
      sfIndex := BitVec.ofNat 4 (somePce []).sfIndex
      sampleRate := BitVec.ofNat 32 (sampleRate fixPar (somePce []).sfIndex)
      channelConfig := 0 } = adifStream := by decide +kernel

theorem witness_InitAdif_pces : isPceList false 63 [(9, somePce [])] (natToBits 20 9 ++ pceBits 83 (somePce []) ++ []) :=
  ⟨natToBits 20 9, pceBits 83 (somePce []), [], by decide +kernel, by decide, isPce_pceBits 83 _ somePce_fits.1, rfl, rfl⟩

theorem witness_InitAdif_accepts : adifState.accepts .unknown adifStream (some (somePce [])) 2 := by
  unfold State.accepts
  decide +kernel

/-- The eleven bits of the LATM syncword at the start of two bytes. -/
theorem witness_InitLatm : (opened .opened [0x56, 0xE0]).orch = .opened ∧
    11 ≤ 8 * (opened .opened [0x56, 0xE0]).ports.inLen ∧ bitsAt (opened .opened [0x56, 0xE0]).inMem 0 0 11 = 0x2B7 ∧
    (opened .opened [0x56, 0xE0]).accepts .unknown { fixStream with latm := true } none 1 :=
  ⟨by decide +kernel, by decide +kernel, by decide +kernel, by unfold State.accepts; decide +kernel⟩

/-- T-PA-8: 12 10; and 13 08, index 6 with one channel. -/
theorem witness_Init2TwoBytes : ∀ x ∈ [([0x12, 0x10], 4, 2), ([0x13, 0x08], 6, 1)], ∀ s ∈ [opened .opened x.1],
    s.orch = .opened ∧ s.ports.inLen = 2 ∧ bitsAt s.inMem s.ports.inBase 0 5 = 2 ∧
    bitsAt s.inMem s.ports.inBase 5 4 = x.2.1 ∧ bitsAt s.inMem s.ports.inBase 9 4 = x.2.2 ∧
    bitsAt s.inMem s.ports.inBase 14 1 = 0 ∧ bitsAt s.inMem s.ports.inBase 15 1 = 0 ∧ decodable s.par.cap 2 = true ∧
    x.2.1 ≤ 12 ∧ 1 ≤ x.2.2 ∧ x.2.2 ≤ 7 ∧ 0 < sampleRate s.par x.2.1 ∧ sampleRate s.par x.2.1 < 2 ^ 31 ∧
    configChannels x.2.2 ≤ s.par.maxChannels ∧
    false = (s.par.cap.sbr && decide (sampleRate s.par x.2.1 ≤ 24000)) := by decide +kernel

/-- T-OR-15. -/
theorem witness_FailedInitRestores : (opened .opened [0x12, 0x50]).orch = .opened ∧
    ∃ t, exec .init2 (opened .opened [0x12, 0x50]) = .next t ∧ t.orch = .opened :=
  ⟨rfl, of_after (by decide +kernel)⟩

/-- The raw payload of P1. -/
theorem witness_SilentMonoFrame : ∀ s ∈ [opened .initialized [0, 0, 0, 7], opened .decoding [0, 0, 0, 7]],
    (s.orch = .initialized ∨ s.orch = .decoding) ∧ 4 ≤ s.ports.inLen ∧ s.work.sc.headerType = 0 ∧
    s.work.sc.latm = false ∧ s.work.sc.channelConfig = 1 ∧ s.work.sc.upsample = false ∧
    s.work.sc.erFlag 0 = false ∧ s.work.sc.erFlag 1 = false ∧ s.work.sc.erFlag 2 = false ∧
    1 ≤ s.par.maxChannels ∧ 1 ≤ s.par.maxElements ∧ 1024 = s.work.sc.frameLen.toNat ∧ 1024 ≤ s.ports.outCap ∧
    bitsAt s.inMem s.ports.inBase 0 3 = 0 ∧ bitsAt s.inMem s.ports.inBase 15 3 = 0 ∧
    bitsAt s.inMem s.ports.inBase 19 10 = 0 ∧ bitsAt s.inMem s.ports.inBase 29 3 = 7 := by decide +kernel

/-- T-OR-8, T-OR-11, T-OR-6. -/
theorem witness_DecodeBeforeTheBits : (opened .opened []).orch ≠ .initialized ∧ (opened .opened []).orch ≠ .decoding ∧
    (opened .decoding []).orch = .decoding ∧ (opened .decoding []).ports.inLen = 0 ∧
    128 ≤ (opened .initialized ([0x54, 0x41, 0x47] ++ List.replicate 125 9)).ports.inLen ∧
    (opened .initialized ([0x54, 0x41, 0x47] ++ List.replicate 125 9)).inMem.read 0 = 0x54 ∧
    (opened .initialized ([0x54, 0x41, 0x47] ++ List.replicate 125 9)).inMem.read 1 = 0x41 ∧
    (opened .initialized ([0x54, 0x41, 0x47] ++ List.replicate 125 9)).inMem.read 2 = 0x47 := by decide +kernel

/-- A frame that is delivered, and one byte, which is not enough. -/
theorem witness_DecodeDeliversOrAbandons : ∀ s ∈ [opened .initialized [0, 0, 0, 7], opened .decoding [1]],
    (s.orch = .initialized ∨ s.orch = .decoding) ∧ s.ports.inLen ≠ 0 ∧
    id3Test s.inMem s.ports.inBase s.ports.inLen = false ∧ errCodesOk s.par = true := by decide +kernel

theorem witness_PostSeekReset : (opened .opened []).orch = .opened ∧ blank.orch = .unopened ∧
    (0xFFFFFFFF : Word32).toInt = -1 ∧ (0xFFFFFFFE : Word32).toInt ≠ -1 := by decide +kernel

theorem witness_CloseMovesToClosed : (opened .initialized []).orch = .initialized ∧ (opened .closed []).orch = .closed := by
  decide +kernel

theorem witness_RefusedCommands : (opened .opened []).orch ≠ .unopened ∧ blank.orch ≠ .opened ∧
    (opened .opened []).orch ≠ .initialized ∧ (opened .opened []).orch ≠ .decoding ∧ (opened .closed []).orch = .closed := by
  decide +kernel

theorem witness_OutputConversion : (1 : Nat) ≤ 1 ∧ (5 : Nat) ≤ 5 ∧ (-40000 : Sample) ≤ 40000 := by decide +kernel

end Sys2Proof.Tests
end

section
/-! PROOFS. Fields of IN at a byte boundary (00_scope.md R14, 20_memory.md R72). -/

namespace Sys2Proof.Machine

theorem bitAt_within_byte (m : Memory) (base k : Nat) {i : Nat} (hi : i < 8) :
    bitAt m base (8 * k + i) = (m.read (base + k)).getLsbD (7 - i) := by
  rw [bitAt, show (8 * k + i) / 8 = k by omega, show (8 * k + i) % 8 = i by omega]

/-- The first n bits of a byte are its n most significant ones. -/
theorem bitsAt_byte_top (m : Memory) (base k : Nat) {n : Nat} (hn : n ≤ 8) :
    bitsAt m base (8 * k) n = (m.read (base + k)).toNat / 2 ^ (8 - n) := by
  induction n with
  | zero => exact (Nat.div_eq_of_lt (m.read (base + k)).isLt).symm
  | succ n ih =>
    have hbit : (bitAt m base (8 * k + n)).toNat = (m.read (base + k)).toNat / 2 ^ (7 - n) % 2 := by
      rw [bitAt_within_byte m base k (by omega), BitVec.getLsbD, Nat.toNat_testBit]
    rw [bitsAt, ih (by omega), hbit, show 8 - n = 7 - n + 1 by omega, Nat.pow_succ, ← Nat.div_div_eq_div_mul,
      show 8 - (n + 1) = 7 - n by omega, Nat.div_add_mod]

theorem bitsAt_byte (m : Memory) (base k : Nat) : bitsAt m base (8 * k) 8 = (m.read (base + k)).toNat := by
  rw [bitsAt_byte_top m base k le_rfl, Nat.sub_self, Nat.pow_zero, Nat.div_one]

theorem bitsAt_two_bytes (m : Memory) (base k : Nat) :
    bitsAt m base (8 * k) 16 = 256 * (m.read (base + k)).toNat + (m.read (base + k + 1)).toNat := by
  calc bitsAt m base (8 * k) 16
      = bitsAt m base (8 * k) 8 * 2 ^ 8 + bitsAt m base (8 * (k + 1)) 8 := bitsAt_add m base (8 * k) 8 8
    _ = 256 * (m.read (base + k)).toNat + (m.read (base + k + 1)).toNat := by
      rw [bitsAt_byte, bitsAt_byte, ← Nat.add_assoc]
      omega

/-- Settles O13: a bit of a byte is a binary digit of it, so eight of them make the byte, and a field of sixteen splits in
two bytes. -/
theorem bytesAreBigEndian : Obligations.BytesAreBigEndian :=
  fun m base k => ⟨bitsAt_byte m base k, bitsAt_two_bytes m base k⟩

end Sys2Proof.Machine
end

section
/-! PROOFS. What a step does with the oldest issue: the fetch of each kind of issue, and the step it gives (00_scope.md R2,
48_orchestrator.md R412). -/

namespace Sys2Proof.Machine

/-! ## From a fetch to the step -/

theorem fetch_cons {s : State} {x : Issue} {r : List Issue} (hq : s.pending = x :: r) :
    fetch s = fetchIssue x { s with pending := r } := by rw [fetch, hq]

theorem step_of_run {s t : State} {x : Issue} {r : List Issue} {i : Instr} (hq : s.pending = x :: r)
    (hf : fetchIssue x { s with pending := r } = .run i t) : step s = exec i t := by
  rw [step, fetch_cons hq, hf]

theorem step_of_stop {s : State} {x : Issue} {r : List Issue} {o : Host.Outcome State Fault Refusal}
    (hq : s.pending = x :: r) (hf : fetchIssue x { s with pending := r } = .stop o) : step s = o := by
  rw [step, fetch_cons hq, hf]

theorem step_of_empty {s : State} (hq : s.pending = []) : step s = .next s := by rw [step, fetch, hq]

/-! ## The fetch of one issue -/

theorem decoded_ok {a : Except DecodeError Instr} {i : Instr} (h : a = .ok i) (s : State) : decoded a s = .run i s := by
  rw [h, decoded]

theorem fetchIssue_command {code : BitVec 4} {i : Instr} (s : State) (ports : HostPorts) (stores : List Host.Cell)
    (hd : decodeWord .cmd code.toNat Side.none = .ok i) :
    fetchIssue (.command code ports stores) s = .run i (s.presentCommand code ports stores) := decoded_ok hd _

theorem fetchIssue_bitReader {word : Nat} {side : Side} {i : Instr} (s : State) (hw : word < 1024)
    (hd : decodeWord .bitReader word side = .ok i) : fetchIssue (.bitReader word side) s = .run i s := by
  rw [fetchIssue, Nat.mod_eq_of_lt hw, decoded_ok hd]

theorem fetchIssue_vlc {word : Nat} {i : Instr} (s : State) (source : BitSource) (hw : word < 256)
    (hd : decodeWord .vlc word Side.none = .ok i) :
    fetchIssue (.vlc word source) s = .run i (s.selectSource source) := by
  rw [fetchIssue, Nat.mod_eq_of_lt hw, decoded_ok hd]

/-! ## The fetch of an element (48_orchestrator.md R412) -/

theorem State.canRead_iff (s : State) (n : Nat) :
    s.canRead n = true ↔ s.work.eng.bc.live = true ∧ s.work.eng.bc.canRead n = true := by
  rw [State.canRead, Bool.and_eq_true]

theorem fetchElement_of_no_cursor {s : State} (hl : s.work.eng.bc.live = false) :
    fetchElement s = .stop (.fault .noCursor) := by simp [fetchElement, hl]

theorem fetchElement_of_err {s : State} (hl : s.work.eng.bc.live = true) (he : s.work.eng.bc.err = true) :
    fetchElement s = .stop (.next (abandon .inputTooSmall s.work s)) := by simp [fetchElement, hl, he]

/-- With a cursor and no error flag, the selector is whatever a GET of three bits returns. -/
theorem fetchElement_of_get {s : State} {v : Nat} {k : Cursor} (hl : s.work.eng.bc.live = true)
    (he : s.work.eng.bc.err = false) (hg : s.work.eng.bc.get s.inMem 3 = (v, k)) :
    fetchElement s = decoded (decodeWord .element v Side.none) (s.setBc k) := by simp [fetchElement, hl, he, hg]

theorem fetchElement_of_canRead {s : State} {i : Instr} (hr : s.canRead 3 = true)
    (hd : decodeWord .element (s.field 0 3) Side.none = .ok i) :
    fetchElement s = .run i (s.setBc { s.work.eng.bc with pos := s.work.eng.bc.pos + 3 }) := by
  obtain ⟨hl, hc⟩ := (s.canRead_iff 3).1 hr
  obtain ⟨he, -, -⟩ := (Cursor.canRead_iff _ 3).1 hc
  rw [fetchElement_of_get hl he (Cursor.get_eq s.inMem hc)]
  exact decoded_ok hd _

theorem fetchElement_of_short {s : State} (hl : s.work.eng.bc.live = true) (he : s.work.eng.bc.err = false)
    (hr : s.canRead 3 = false) :
    fetchElement s = .run .sce (s.setBc { s.work.eng.bc with err := true }) := by
  have hc : s.work.eng.bc.canRead 3 = false := by rwa [State.canRead, hl, Bool.true_and] at hr
  rw [fetchElement_of_get hl he (Cursor.get_fail s.inMem hc)]
  exact decoded_ok rfl _

/-- Settles O4: each clause is the fetch of its kind of issue, followed by the step that fetch gives. -/
theorem stepRunsDecoded : Obligations.StepRunsDecoded := by
  intro s r i
  refine ⟨?command, ?bitReader, ?vlc, ?element, ?short, ?err, ?noCursor, ?create, step_of_empty⟩
  case command =>
    intro code ports stores hq hd
    exact step_of_run hq (fetchIssue_command _ ports stores hd)
  case bitReader =>
    intro word side hq hw hd
    exact step_of_run hq (fetchIssue_bitReader _ hw hd)
  case vlc =>
    intro word source hq hw hd
    exact step_of_run hq (fetchIssue_vlc _ source hw hd)
  case element =>
    intro hq hr hd
    exact step_of_run hq (fetchElement_of_canRead hr hd)
  case short =>
    intro hq hl he hr
    exact step_of_run hq (fetchElement_of_short hl he hr)
  case err =>
    intro hq hl he
    exact step_of_stop hq (fetchElement_of_err hl he)
  case noCursor =>
    intro hq hl
    exact step_of_stop hq (fetchElement_of_no_cursor hl)
  case create =>
    intro base len hq
    exact step_of_stop hq rfl

end Sys2Proof.Machine
end

section
/-! PROOFS. What an instruction can do, said once for all of them: the outcomes of each port's operations and of each command
(40_bitreader.md, 42_huffman_spectral.md, 48_orchestrator.md), and what the engine's invariants are after each. -/

namespace Sys2Proof.Machine

/-! ## Programs that keep a property -/

theorem Keeps.of_ok {ε σ α : Type} {P : σ → Prop} {p : EStateM ε σ α} {s t : σ} {a : α} (hp : Keeps P p)
    (h : p s = .ok a t) (hs : P s) : P t := by
  have := hp.run s hs
  rwa [h] at this

theorem Keeps.of_error {ε σ α : Type} {P : σ → Prop} {p : EStateM ε σ α} {s t : σ} {c : ε} (hp : Keeps P p)
    (h : p s = .error c t) (hs : P s) : P t := by
  have := hp.run s hs
  rwa [h] at this

/-! ## The engine's invariants, under its updates -/

theorem EngOk.bc_ok {n : Nat} {g : Engine} (hg : EngOk n g) : g.bc.ok = true := hg.1.1

theorem EngOk.bw_ok {n : Nat} {g : Engine} (hg : EngOk n g) : windowsOk g.bw := hg.1.2

theorem EngOk.setBc {n : Nat} {g : Engine} {k : Cursor} (hg : EngOk n g) (hk : k.ok = true) :
    EngOk n { g with bc := k } := ⟨⟨hk, hg.bw_ok⟩, hg.2⟩

theorem EngOk.setWindow {n : Nat} {g : Engine} {v : Window} (hg : EngOk n g) (w : Nat) (hv : v.ok = true) :
    EngOk n (g.setWindow w v) := ⟨⟨hg.bc_ok, windowsOk_set hg.bw_ok w hv⟩, List.length_set.trans hg.2⟩

/-- No cursor, and n empty windows (70_reset_and_hazards.md R491). -/
theorem EngOk.empty (n : Nat) (r : VlcRegs) : EngOk n ⟨Cursor.none, List.replicate n Window.empty, r⟩ :=
  ⟨⟨Cursor.none_ok, fun _ hw => List.eq_of_mem_replicate hw ▸ Window.empty_ok⟩, List.length_replicate⟩

/-- CLOSE leaves windows of unknown contents, but as many and within capacity (log 26). -/
theorem EngOk.closed (d n : Nat) (r : VlcRegs) : EngOk n ⟨Cursor.none, closedWindows d n, r⟩ := by
  refine ⟨⟨Cursor.none_ok, fun w hw => ?_⟩, by simp [closedWindows]⟩
  obtain ⟨i, -, rfl⟩ := List.mem_map.1 hw
  exact (Window.ok_iff _).2 (List.length_take_le _ _)

/-- Whatever the number of windows, w meets the engine's invariants when v does. -/
def StaysOk (v w : Work) : Prop := ∀ n, WorkOk n v → WorkOk n w

theorem StaysOk.returnCursor {v w : Work} (h : StaysOk v w) : StaysOk v w.returnCursor :=
  fun n hv => (h n hv).setBc Cursor.none_ok

/-! ## What a VLC operation can do -/

/-- A program of the VLC engine keeps the engine's invariants, the selected bit source, and every other window. -/
structure VlcProgram (p : Env → Vx Unit) : Prop where
  ok : ∀ e n, Keeps (EngOk n) (p e)
  only : ∀ e src l, Keeps (OnlySource src l) (p e)

/-- What a VLC operation can leave of state s: nothing changed, another engine, or an abandoned frame. -/
inductive VlcResult (s : State) : State → Prop where
  | same : VlcResult s s
  | ran {g : Engine} (ok : ∀ n, EngOk n s.work.eng → EngOk n g)
      (only : OnlySource s.work.eng.regs.source s.work.eng.bw g) : VlcResult s (s.withEngine g)
  | raised {g : Engine} (c : Cause) (ok : ∀ n, EngOk n s.work.eng → EngOk n g) :
      VlcResult s (abandon c { s.work with eng := g } s)

theorem hcw_vlcProgram (cb : Nat) : VlcProgram (fun e => hcw e cb) :=
  ⟨fun e _ => hcw_keeps e cb, fun e _ _ => hcw_only e cb⟩

theorem escOp_vlcProgram (i : Nat) : VlcProgram (fun e => escOp e i) :=
  ⟨fun e _ => escOp_keeps e i, fun e _ _ => escOp_only e i⟩

theorem sgnOp_vlcProgram (d : Nat) : VlcProgram (fun e => sgnOp e d) :=
  ⟨fun e _ => sgnOp_keeps e d, fun e _ _ => sgnFrom_only e 0 d⟩

theorem returning_vlcProgram {p : Env → Vx Int} (hk : ∀ e n, Keeps (EngOk n) (p e))
    (ho : ∀ e src l, Keeps (OnlySource src l) (p e)) : VlcProgram (returning p) :=
  ⟨fun e n => returning_keeps p e (hk e n), fun e src l => returning_only (ho e src l)⟩

theorem runWork_vlcResult {p : Env → Vx Unit} {s t : State} (hp : VlcProgram p)
    (h : runWork (fun e => Wk.ofVx (p e)) s = .next t) : VlcResult s t := by
  rcases runWork_ofVx_cases p s with ⟨g, hg, hr⟩ | ⟨c, g, hg, hr⟩
  · cases hr.symm.trans h
    exact .ran (fun n => (hp.ok _ n).of_ok hg) ((hp.only _ _ _).of_ok hg ⟨rfl, fun _ _ => rfl⟩)
  · cases hr.symm.trans h
    exact .raised c (fun n => (hp.ok _ n).of_error hg)

/-- An operation that answers a next state had a cursor, and ran. -/
theorem runLive_next {p : Env → Wk Unit} {s t : State} (h : runLive p s = .next t) : runWork p s = .next t := by
  cases hl : s.work.eng.bc.live with
  | true => rwa [runLive_of_live hl] at h
  | false => rw [runLive_of_dead hl] at h; cases h

theorem runBits_next {p : Env → Vx Unit} {s t : State} (h : runBits p s = .next t) :
    runWork (fun e => Wk.ofVx (p e)) s = .next t := by
  rw [runBits] at h
  split at h
  · exact runLive_next h
  · split at h
    · cases h
    · exact runLive_next h

theorem runBits_vlcResult {p : Env → Vx Unit} {s t : State} (hp : VlcProgram p) (h : runBits p s = .next t) :
    VlcResult s t := runWork_vlcResult hp (runBits_next h)

theorem execEsc_vlcResult {k : Nat} {s t : State} (h : execEsc k s = .next t) : VlcResult s t := by
  rw [execEsc] at h
  split at h
  · exact runBits_vlcResult (escOp_vlcProgram _) h
  · cases h
    exact .same

theorem execSgn_vlcResult {k : Nat} {s t : State} (h : execSgn k s = .next t) : VlcResult s t := by
  rw [execSgn] at h
  split at h
  · cases h
    exact .same
  · exact runBits_vlcResult (sgnOp_vlcProgram _) h

theorem exec_vlcResult {s t : State} : ∀ {i : Instr}, (encode i).port = .vlc → exec i s = .next t → VlcResult s t
  | .hcw0, _, h => runWork_vlcResult (hcw_vlcProgram 0) h
  | .hcw12, _, h => runWork_vlcResult (hcw_vlcProgram 12) h
  | .hcw13, _, h => runWork_vlcResult (hcw_vlcProgram 13) h
  | .hcw14, _, h => runWork_vlcResult (hcw_vlcProgram 14) h
  | .hcw15, _, h => runWork_vlcResult (hcw_vlcProgram 15) h
  | .hcw1, _, h | .hcw2, _, h | .hcw3, _, h | .hcw4, _, h | .hcw5, _, h | .hcw6, _, h | .hcw7, _, h | .hcw8, _, h
  | .hcw9, _, h | .hcw10, _, h | .hcw11, _, h | .hcw16, _, h | .hcw17, _, h | .hcw18, _, h | .hcw19, _, h
  | .hcw20, _, h | .hcw21, _, h | .hcw22, _, h | .hcw23, _, h | .hcw24, _, h | .hcw25, _, h | .hcw26, _, h
  | .hcw27, _, h | .hcw28, _, h | .hcw29, _, h | .hcw30, _, h | .hcw31, _, h => runBits_vlcResult (hcw_vlcProgram _) h
  | .sfd, _, h => runBits_vlcResult (returning_vlcProgram (fun e _ => sfdOp_keeps e) (fun e _ _ => sfdOp_only e)) h
  | .esc _, _, h => execEsc_vlcResult h
  | .sgn _, _, h => execSgn_vlcResult h
  | .rvlcSfd, _, h => runWork_vlcResult
      (returning_vlcProgram (fun e _ => rvlcSfdOp_keeps e) (fun e _ _ => rvlcSfdOp_only e)) (runLive_next h)
  | .rvlcEscd, _, h => runWork_vlcResult
      (returning_vlcProgram (fun e _ => rvlcEscdOp_keeps e) (fun e _ _ => rvlcEscdOp_only e)) (runLive_next h)
  | .npcm, _, h => runBits_vlcResult (returning_vlcProgram (fun e _ => npcmOp_keeps e) (fun e _ _ => npcmOp_only e)) h
  | .vlcReserved7, _, h => by cases h; exact .same

/-! ## What any instruction can do -/

/-- The instructions that answer a refusal in RES0 (48_orchestrator.md R435, 30_encoding.md R130). -/
def refusing : List Instr :=
  [.openHandle, .init, .init2, .cmdReserved8, .cmdReserved9, .cmdReserved10, .cmdReserved11, .cmdReserved12,
    .cmdReserved13, .cmdReserved14, .cmdReserved15]

/-- What an instruction can leave of state s. An operation of an internal port ends with another working state
or abandons its frame (a command without effect, and POST_SEEK_RESET, end so too); the other commands have the outcomes
48_orchestrator.md gives them. -/
inductive Executes (s : State) : Instr → State → Prop where
  | worked {i : Instr} {w : Work} (hw : StaysOk s.work w) : Executes s i { s with work := w }
  | abandoned {i : Instr} {w : Work} (c : Cause) (hw : StaysOk s.work w) : Executes s i (abandon c w s)
  | refused {i : Instr} (hi : i ∈ refusing) (c : Cause) : Executes s i (refuseRes c s)
  | opened (hl : legalIn 0 s.orch = true) : Executes s .openHandle (openState s)
  | configSet (hl : legalIn 2 s.orch = true) (hc : configLegal s.par.cap s.ports.cfgw = true) :
      Executes s .setConfig (setConfigState s)
  | configRefused : Executes s .setConfig { s with res0 := 0 }
  | initialized {i : Instr} {w : Work} (hi : i ∈ [.init, .init2]) (hl : legalIn 3 s.orch = true) (r : InitResult)
      (hw : StaysOk s.work w) : Executes s i (initState r w s)
  | initFailed {i : Instr} {w : Work} (hi : i ∈ [.init, .init2]) (c : Cause) (hw : StaysOk s.work w) :
      Executes s i { s with res0 := negError s.par c, work := failedInit s.work w }
  | decodeRefused : Executes s .decode { s with fi := { s.fi with error := fiError s.par .badState } }
  | tagSkipped (hl : legalIn 5 s.orch = true) : Executes s .decode
      { beginDecode s with fi := { FrameInfo.zero s.par.maxChannels with bytesConsumed := 128 } }
  | headerRaised {w : Work} (hl : legalIn 5 s.orch = true) (c : Cause) (hw : StaysOk s.work w) :
      Executes s .decode (abandon c w (beginDecode s))
  | frameRaised {v w : Work} (hl : legalIn 5 s.orch = true) (c : Cause) (hw : StaysOk s.work w) :
      Executes s .decode (abandon c w { beginDecode s with work := v })
  | delivered {v w : Work} {o : FrameOut} (hl : legalIn 5 s.orch = true) (hw : StaysOk s.work w)
      (ho : decodeBlock (beginDecode s).env s.ports v = .ok o w) :
      Executes s .decode (deliver o w { beginDecode s with work := v })
  | closed (hl : legalIn 7 s.orch = true) : Executes s .close (closeState s)

theorem Executes.of_next {i : Instr} {s t u : State}
    (h : (.next u : Host.Outcome State Fault Refusal) = .next t) (hu : Executes s i u) : Executes s i t := by
  cases h
  exact hu

theorem Executes.same (i : Instr) (s : State) : Executes s i s := .worked (fun _ h => h)

theorem Executes.withEngine {i : Instr} {s : State} {g : Engine} (hg : ∀ n, EngOk n s.work.eng → EngOk n g) :
    Executes s i (s.withEngine g) := .worked hg

/-! ### Operations of the internal ports -/

theorem VlcResult.executes {s t : State} (i : Instr) : VlcResult s t → Executes s i t
  | .same => .same i s
  | .ran ok _ => .withEngine ok
  | .raised c ok => .abandoned c ok

theorem cursorOp_executes {f : Cursor → Cursor} {i : Instr} {s t : State} (hf : ∀ k, k.ok = true → (f k).ok = true)
    (h : cursorOp f s = .next t) : Executes s i t := by
  rw [cursorOp] at h
  split at h
  · exact .of_next h (.withEngine fun _ hs => hs.setBc (hf _ hs.bc_ok))
  · cases h

theorem cursorRead_executes {f : Cursor → Nat × Cursor} {i : Instr} {s t : State}
    (hf : ∀ k, k.ok = true → (f k).2.ok = true) (h : cursorRead f s = .next t) : Executes s i t := by
  rw [cursorRead] at h
  split at h
  · exact .of_next h (.withEngine fun _ hs => hs.setBc (hf _ hs.bc_ok))
  · cases h

theorem withWindow_next {f : Window → Host.Outcome State Fault Refusal} {w : Nat} {s t : State}
    (h : withWindow w f s = .next t) : ∃ v, s.work.eng.bw[w]? = some v ∧ f v = .next t := by
  rw [withWindow] at h
  split at h
  · split at h
    · exact ⟨_, ‹_›, h⟩
    · cases h
  · cases h

/-- An operation on a window within capacity leaves the engine's invariants, if its new engine meets them. -/
theorem windowOp_executes {f : Window → Engine} {w : Nat} {i : Instr} {s t : State}
    (hf : ∀ n v, EngOk n s.work.eng → v.ok = true → EngOk n (f v))
    (h : windowOp w (fun v => s.withEngine (f v)) s = .next t) : Executes s i t := by
  obtain ⟨v, hv, ht⟩ := withWindow_next h
  exact .of_next ht (.withEngine fun n hs => hf n v hs (hs.bw_ok v (List.mem_of_getElem? hv)))

theorem setWindow_executes {f : Window → Window} {w : Nat} {i : Instr} {s t : State}
    (hf : ∀ v, v.ok = true → (f v).ok = true) (h : windowOp w (fun v => s.setWindow w (f v)) s = .next t) :
    Executes s i t :=
  windowOp_executes (f := fun v => s.work.eng.setWindow w (f v)) (fun _ v hs hv => hs.setWindow w (hf v hv)) h

theorem wLoad_executes {n w : Nat} {i : Instr} {s t : State} (h : execWLoad n w s = .next t) : Executes s i t :=
  windowOp_executes
    (f := fun _ => { s.work.eng.setWindow w (Window.load s.inMem n s.work.eng.bc) with
      bc := (s.work.eng.bc.get s.inMem n).2 })
    (fun _ _ hs _ => (hs.setWindow w (Window.load_ok _ _ _)).setBc (Cursor.get_ok _ _ hs.bc_ok)) h

theorem exec_bitReader {s t : State} : ∀ {i : Instr}, (encode i).port = .bitReader → exec i s = .next t → Executes s i t
  | .peek n, _, h => cursorRead_executes (fun _ => Cursor.peek_ok s.inMem n) h
  | .get n, _, h => cursorRead_executes (fun _ => Cursor.get_ok s.inMem n) h
  | .get1, _, h => cursorRead_executes (fun _ => Cursor.get_ok s.inMem 1) h
  | .flush n, _, h => cursorOp_executes (fun _ => Cursor.flush_ok n) h
  | .byteAlign, _, h => cursorRead_executes (f := fun k => (k.alignCount, k.byteAlign)) (fun _ => Cursor.byteAlign_ok) h
  | .processedBits, _, h => cursorRead_executes (fun _ hk => hk) h
  | .rewind, _, h => cursorOp_executes (fun k _ => Cursor.rewind_ok k) h
  | .resetTo b, _, h => cursorOp_executes (fun _ => Cursor.seek_ok b) h
  | .seek b, _, h => cursorOp_executes (fun _ => Cursor.seek_ok b) h
  | .wPeek n _, _, h => windowOp_executes (f := fun v => s.work.eng.setRegs { s.work.eng.regs with ret := v.peek n })
      (fun _ _ hs _ => hs) h
  | .wConsume n _, _, h => setWindow_executes (fun _ => Window.consume_ok n) h
  | .wConcat _ _, _, h => by
    obtain ⟨b, -, hb⟩ := withWindow_next h
    exact setWindow_executes (fun _ => Window.concat_ok b) hb
  | .wReverse _, _, h => setWindow_executes (fun _ => Window.reverse_ok) h
  | .wLoad _ _, _, h => wLoad_executes h
  | .brReserved14, _, h | .brReserved15, _, h => .of_next h (.same _ s)

theorem runLive_executes {p : Env → Wk Unit} {i : Instr} {s t : State} (hp : ∀ e n, Keeps (WorkOk n) (p e))
    (h : runLive p s = .next t) : Executes s i t := by
  rcases runWork_cases p s with ⟨w, hw, hr⟩ | ⟨c, w, hw, hr⟩
  · exact .of_next (hr.symm.trans (runLive_next h)) (.worked fun n => (hp _ n).of_ok hw)
  · exact .of_next (hr.symm.trans (runLive_next h)) (.abandoned c fun n => (hp _ n).of_error hw)

theorem exec_element {s t : State} : ∀ {i : Instr}, (encode i).port = .element → exec i s = .next t → Executes s i t
  | .sce, _, h => runLive_executes (fun e _ => sceBody_keeps e) h
  | .cpe, _, h => runLive_executes (fun e _ => cpeBody_keeps e) h
  | .cce, _, h => runLive_executes (fun _ _ => cceBody_keeps) h
  | .lfe, _, h => runLive_executes (fun e _ => lfeBody_keeps e) h
  | .dse, _, h => runLive_executes (fun e _ => wkOfRd_keeps (dseBody_keeps e)) h
  | .pce, _, h => runLive_executes (fun e _ => pceBody_keeps e) h
  | .fil, _, h => runLive_executes (fun e _ => wkOfRd_keeps (filBody_keeps e)) h
  | .endMarker, _, h => runLive_executes (fun _ _ => endBody_keeps) h

/-! ### Host commands -/

theorem execOpen_executes {s t : State} (h : execOpen s = .next t) : Executes s .openHandle t := by
  rw [execOpen] at h
  split at h
  next => exact .of_next h (.refused (by decide) _)
  next hl =>
    split at h
    · exact .of_next h (.opened (by simpa using hl))
    · exact .of_next h (.refused (by decide) _)

theorem execSetConfig_executes {s t : State} (h : execSetConfig s = .next t) : Executes s .setConfig t := by
  rw [execSetConfig] at h
  split at h
  next hl =>
    obtain ⟨hl, hc⟩ := Bool.and_eq_true_iff.1 hl
    exact .of_next h (.configSet hl hc)
  next => exact .of_next h .configRefused

theorem runInit_executes {p : Env → HostPorts → Wk InitResult} {i : Instr} {s t : State} (hi : i ∈ [.init, .init2])
    (hp : ∀ e h n, Keeps (WorkOk n) (p e h)) (h : runInit p s = .next t) : Executes s i t := by
  rw [runInit] at h
  split at h
  next => exact .of_next h (.refused ((by decide : [.init, .init2] ⊆ refusing) hi) _)
  next hl =>
    split at h
    next hr => exact .of_next h (.initialized hi (by simpa using hl) _ fun n hs => (hp _ _ n).of_ok hr hs)
    next hr => exact .of_next h (.initFailed hi _ fun n hs => (hp _ _ n).of_error hr hs)

theorem beginDecode_staysOk (s : State) : StaysOk s.work (beginDecode s).work := fun _ hs => hs.setBc Cursor.none_ok

/-- Steps 5 to 13 of R410: a raise in the header, one after it, or a frame in OUT. -/
theorem decodeFrame_executes {s : State} (hl : legalIn 5 s.orch = true) :
    Executes s .decode (decodeFrame (beginDecode s)) := by
  rw [decodeFrame]
  split
  next v hv =>
    have hsv : StaysOk s.work v := fun n hs => (decodeStart_keeps _ _).of_ok hv (beginDecode_staysOk s n hs)
    rw [decodeBody]
    split
    next hw => exact .delivered hl (fun n hs => (decodeBlock_keeps _ _).of_ok hw (hsv n hs)) hw
    next hw => exact .frameRaised hl _ fun n hs => (decodeBlock_keeps _ _).of_error hw (hsv n hs)
  next hw =>
    exact .headerRaised hl _ fun n hs => (decodeStart_keeps _ _).of_error hw (beginDecode_staysOk s n hs)

theorem execDecode_executes {s t : State} (h : execDecode s = .next t) : Executes s .decode t := by
  rw [execDecode] at h
  split at h
  next => exact .of_next h .decodeRefused
  next hl =>
    replace hl : legalIn 5 s.orch = true := by simpa using hl
    split at h
    · exact .of_next h (.headerRaised hl _ (beginDecode_staysOk s))
    · split at h
      · exact .of_next h (.tagSkipped hl)
      · exact .of_next h (decodeFrame_executes hl)

theorem execPostSeekReset_executes {s t : State} (h : execPostSeekReset s = .next t) : Executes s .postSeekReset t := by
  rw [execPostSeekReset] at h
  split at h
  · exact .of_next h (.same _ s)
  · exact .of_next h (.worked fun _ hs => hs)

theorem execClose_executes {s t : State} (h : execClose s = .next t) : Executes s .close t := by
  rw [execClose] at h
  split at h
  next => exact .of_next h (.same _ s)
  next hl => exact .of_next h (.closed (by simpa using hl))

theorem exec_command {s t : State} : ∀ {i : Instr}, (encode i).port = .cmd → exec i s = .next t → Executes s i t
  | .openHandle, _, h => execOpen_executes h
  | .getConfig, _, h => .of_next h (.same _ s)
  | .setConfig, _, h => execSetConfig_executes h
  | .init, _, h => runInit_executes (by decide) (fun e p _ => initBody_keeps e p) h
  | .init2, _, h => runInit_executes (by decide) (fun e p _ => init2Body_keeps e p) h
  | .decode, _, h => execDecode_executes h
  | .postSeekReset, _, h => execPostSeekReset_executes h
  | .close, _, h => execClose_executes h
  | .cmdReserved8, _, h | .cmdReserved9, _, h | .cmdReserved10, _, h | .cmdReserved11, _, h | .cmdReserved12, _, h
  | .cmdReserved13, _, h | .cmdReserved14, _, h | .cmdReserved15, _, h => .of_next h (.refused (by decide) _)

theorem exec_executes {i : Instr} {s t : State} (h : exec i s = .next t) : Executes s i t := by
  cases hp : (encode i).port with
  | cmd => exact exec_command hp h
  | bitReader => exact exec_bitReader hp h
  | vlc => exact (exec_vlcResult hp h).executes i
  | element => exact exec_element hp h

end Sys2Proof.Machine
end

section
/-! PROOFS. The machine's invariant (10_state.md R22, R23, 20_memory.md R70): every outcome of an instruction keeps it, a fetch
hands on legal states only, and power-up meets it. -/

namespace Sys2Proof.Machine

/-! ## After an instruction -/

theorem Inv.workOk {s : State} (h : Inv s) : WorkOk s.par.nSeg s.work := ⟨h.engine, h.windows⟩

theorem inv_of_workOk {s : State} (hin : s.inMem.wf) (hout : s.outMem.wf) (hw : WorkOk s.par.nSeg s.work) : Inv s :=
  ⟨hin, hout, hw.1, hw.2⟩

/-- A state that differs in neither memory and keeps the working state's invariants stays legal. -/
theorem Inv.of_staysOk {s t : State} (h : Inv s) (hp : t.par = s.par) (hin : t.inMem = s.inMem)
    (hout : t.outMem = s.outMem) (hw : StaysOk s.work t.work) : Inv t :=
  inv_of_workOk (hin ▸ h.inMem) (hout ▸ h.outMem) (hp ▸ hw _ h.workOk)

/-- Frame abandonment drops the cursor and leaves the windows as the raise left them (60_exceptions.md R460). -/
theorem Inv.abandon {s : State} {w : Work} (h : Inv s) (c : Cause) (hw : StaysOk s.work w) : Inv (abandon c w s) :=
  h.of_staysOk rfl rfl rfl hw.returnCursor

theorem Executes.inv {i : Instr} {s t : State} (h : Executes s i t) (hs : Inv s) : Inv t := by
  cases h with
  | worked hw => exact hs.of_staysOk rfl rfl rfl hw
  | abandoned c hw => exact hs.abandon c hw
  | headerRaised _ c hw | frameRaised _ c hw | initialized _ _ c hw | initFailed _ c hw =>
    exact hs.of_staysOk rfl rfl rfl hw.returnCursor
  | refused | configSet | configRefused | decodeRefused => exact hs.of_staysOk rfl rfl rfl fun _ h => h
  | tagSkipped => exact hs.of_staysOk rfl rfl rfl (beginDecode_staysOk s)
  | delivered _ hw =>
    exact inv_of_workOk hs.inMem (SampleMemory.writeFrom_wf hs.outMem _ _) (hw.returnCursor _ hs.workOk)
  | opened => exact inv_of_workOk hs.inMem hs.outMem (EngOk.empty _ _)
  | closed => exact inv_of_workOk hs.inMem hs.outMem (hs.windows ▸ EngOk.closed _ _ _)

/-! ## From a fetch to the step -/

theorem Inv.setBc {s : State} (h : Inv s) {k : Cursor} (hk : k.ok = true) : Inv (s.setBc k) :=
  h.of_staysOk rfl rfl rfl fun _ hw => EngOk.setBc hw hk

theorem Inv.withPending {s : State} (h : Inv s) (r : List Issue) : Inv { s with pending := r } :=
  h.of_staysOk rfl rfl rfl fun _ hw => hw

/-- The host's stores to IN keep its canonical form, and a command begins without a cursor. -/
theorem Inv.presentCommand {s : State} (h : Inv s) (code : BitVec 4) (ports : HostPorts) (stores : List Host.Cell) :
    Inv (s.presentCommand code ports stores) :=
  inv_of_workOk (Memory.writeAll_wf h.inMem stores) h.outMem (EngOk.setBc h.workOk Cursor.none_ok)

/-- A fetch that hands on legal states only: to the instruction it runs, or as the end of the step. -/
def Fetched.Legal : Fetched → Prop
  | .idle => True
  | .run _ s => Inv s
  | .stop o => ∀ t, o = .next t → Inv t

theorem decoded_legal (a : Except DecodeError Instr) {s : State} (hs : Inv s) : (decoded a s).Legal := by
  cases a with
  | ok i => exact hs
  | error e => exact trivial

theorem fetchElement_legal {s : State} (hs : Inv s) : (fetchElement s).Legal := by
  rw [fetchElement]
  split
  · split
    · rintro t ⟨⟩
      exact hs.abandon _ fun _ h => h
    · exact decoded_legal _ (hs.setBc (Cursor.get_ok _ _ hs.engine.1))
  · rintro t ⟨⟩

theorem fetchIssue_legal (x : Issue) {s : State} (hs : Inv s) : (fetchIssue x s).Legal := by
  cases x with
  | command code ports stores => exact decoded_legal _ (hs.presentCommand code ports stores)
  | bitReader word side => exact decoded_legal _ hs
  | vlc word source => exact decoded_legal _ (hs.of_staysOk rfl rfl rfl fun _ h => h)
  | element => exact fetchElement_legal hs
  | create base len =>
    rintro t ⟨⟩
    exact hs.setBc (Cursor.create_ok base len)

theorem fetch_legal {s : State} (hs : Inv s) : (fetch s).Legal := by
  cases hq : s.pending with
  | nil => rw [fetch, hq]; exact trivial
  | cons x r => rw [fetch_cons hq]; exact fetchIssue_legal x (hs.withPending r)

/-- Settles O5: a fetch hands on legal states only, and every outcome of an instruction keeps the invariant. -/
theorem invariantKept : Obligations.InvariantKept := by
  intro s t hs h
  have hf := fetch_legal hs
  rw [step] at h
  split at h
  next => cases h; exact hs
  next i u hu => exact (exec_executes h).inv (by rwa [hu] at hf)
  next o ho =>
    rw [ho] at hf
    exact hf t h

/-- Settles O6: power-up lists nothing in either memory, and has no cursor and N_SEG empty windows. -/
theorem invariantAtReset : Obligations.InvariantAtReset :=
  inv_of_workOk ⟨.nil, by simp [State.reset]⟩ ⟨.nil, by simp [State.reset]⟩ (EngOk.empty _ _)

end Sys2Proof.Machine
end

section
/-! PROOFS. Which commands write the control registers (10_state.md R24 to R27), what a VLC operation leaves unchanged (R32), and
what stops without a cursor or without its window (R23, R37). -/

namespace Sys2Proof.Machine

/-! ## The writers of the control registers -/

/-- The commands that may write Config (10_state.md R24). -/
def cfgWriters : List Instr := [.openHandle, .setConfig, .close]

/-- The commands that may write RES0 to RES2 (10_state.md R27). -/
def resultWriters : List Instr :=
  [.openHandle, .setConfig, .init, .init2, .close, .cmdReserved8, .cmdReserved9, .cmdReserved10, .cmdReserved11,
    .cmdReserved12, .cmdReserved13, .cmdReserved14, .cmdReserved15]

/-- The commands that may write ORCH (10_state.md R21, 48_orchestrator.md R400). -/
def orchWriters : List Instr := [.openHandle, .init, .init2, .decode, .close]

theorem Executes.cfg_eq {i : Instr} {s t : State} (h : Executes s i t) (hi : i ∉ cfgWriters) : t.cfg = s.cfg := by
  cases h with
  | opened | configSet | configRefused | closed => exact absurd (by decide) hi
  | _ => rfl

theorem Executes.res_eq {i : Instr} {s t : State} (h : Executes s i t) (hi : i ∉ resultWriters) :
    t.res0 = s.res0 ∧ t.res1 = s.res1 ∧ t.res2 = s.res2 := by
  cases h with
  | opened | configSet | configRefused | closed => exact absurd (by decide) hi
  | refused hr => exact absurd ((by decide : refusing ⊆ resultWriters) hr) hi
  | initialized hr | initFailed hr => exact absurd ((by decide : [.init, .init2] ⊆ resultWriters) hr) hi
  | _ => exact ⟨rfl, rfl, rfl⟩

theorem Executes.orch_eq {i : Instr} {s t : State} (h : Executes s i t) (hi : i ∉ orchWriters) :
    t.orch = s.orch := by
  cases h with
  | opened | closed | tagSkipped | headerRaised | frameRaised | delivered => exact absurd (by decide) hi
  | initialized hr => exact absurd ((by decide : [.init, .init2] ⊆ orchWriters) hr) hi
  | _ => rfl

/-- Settles O9: each outcome of an instruction that writes one of these registers is an outcome of a command named for it. -/
theorem controlRegisterWriters : Obligations.ControlRegisterWriters :=
  fun _ _ _ h => ⟨(exec_executes h).cfg_eq, (exec_executes h).res_eq, (exec_executes h).orch_eq⟩

/-! ## The frame of a VLC operation -/

theorem decodeHcw_port {n : Nat} {i : Instr} (h : decodeHcw n = some i) : (encode i).port = .vlc := by
  unfold decodeHcw at h
  split at h <;> cases h <;> rfl

theorem decodeVlc_port {word : Nat} {i : Instr} (h : decodeVlc word = some i) : (encode i).port = .vlc := by
  unfold decodeVlc at h
  dsimp only at h
  split at h
  next => exact decodeHcw_port h
  all_goals cases h <;> rfl

/-- Settles O32: an operation of the VLC engine changes nothing, leaves another engine, or abandons the frame. -/
theorem vlcFrame : Obligations.VlcFrame := by
  rintro s t i ⟨word, hw⟩ h
  cases exec_vlcResult (decodeVlc_port hw) h with
  | same =>
    exact ⟨fun _ => rfl, fun _ => rfl, rfl, rfl, rfl, rfl, rfl, rfl, .inr ⟨rfl, rfl, rfl, rfl, fun _ _ => rfl⟩⟩
  | ran ok only =>
    exact ⟨fun _ => rfl, fun _ => rfl, rfl, rfl, rfl, rfl, rfl, rfl, .inr ⟨rfl, rfl, rfl, rfl, only.2⟩⟩
  | raised c ok =>
    exact ⟨fun _ => rfl, fun _ => rfl, rfl, rfl, rfl, rfl, rfl, rfl, .inl ⟨c, abandon_engine_abandonedWith c _ s⟩⟩

/-! ## A missing cursor or window -/

section
variable {s : State}

theorem cursorOp_of_dead (f : Cursor → Cursor) (hl : s.work.eng.bc.live = false) : cursorOp f s = .fault .noCursor := by
  simp [cursorOp, hl]

theorem cursorRead_of_dead (f : Cursor → Nat × Cursor) (hl : s.work.eng.bc.live = false) :
    cursorRead f s = .fault .noCursor := by
  simp [cursorRead, hl]

theorem withWindow_of_dead (f : Window → Host.Outcome State Fault Refusal) (w : Nat)
    (hl : s.work.eng.bc.live = false) : withWindow w f s = .fault .noCursor := by
  simp [withWindow, hl]

theorem withWindow_of_missing (f : Window → Host.Outcome State Fault Refusal) {w : Nat}
    (hl : s.work.eng.bc.live = true) (hw : s.work.eng.bw.length ≤ w) : withWindow w f s = .fault .noWindow := by
  simp [withWindow, hl, hw]

/-- W_CONCAT to a window that does not exist stops whether or not its second window does. -/
theorem wConcat_of_missing {w : Nat} (v : Nat) (hl : s.work.eng.bc.live = true) (hw : s.work.eng.bw.length ≤ w) :
    execWConcat w v s = .fault .noWindow := by
  rw [execWConcat, withWindow, if_pos hl]
  split
  · exact withWindow_of_missing _ hl hw
  · rfl

end

/-- Settles O15: without a cursor the shared forms of the Bit Reader, window and element operations fault before they read or
write; with one, the look-up of a missing window does. -/
theorem missingCursorOrWindow : Obligations.MissingCursorOrWindow := by
  intro s n b w v i
  refine ⟨fun hl => ?noCursor, fun hl hw => ?noWindow⟩ <;> revert i <;>
    simp only [List.forall_mem_cons, List.not_mem_nil, false_imp_iff, implies_true, and_true]
  case noCursor =>
    have op (f : Cursor → Cursor) := cursorOp_of_dead f hl
    have read (f : Cursor → Nat × Cursor) := cursorRead_of_dead f hl
    have window (f : Window → Host.Outcome State Fault Refusal) (x : Nat) := withWindow_of_dead f x hl
    have run (p : Env → Wk Unit) : runLive p s = .fault .noCursor := runLive_of_dead hl
    exact ⟨read _, read _, read _, op _, read (fun k => (k.alignCount, k.byteAlign)), read _, op _, op _, op _,
      window _ w, window _ w, window _ v, window _ w, window _ w, run _, run _, run _, run _, run _, run _, run _, run _, run _, run _⟩
  case noWindow =>
    have missing (f : Window → Host.Outcome State Fault Refusal) := withWindow_of_missing f hl hw
    exact ⟨missing _, missing _, wConcat_of_missing v hl hw, missing _, missing _, missing _⟩

end Sys2Proof.Machine
end

section
/-! PROOFS. What instructions leave of the two memories and of the host's ports (20_memory.md R70, R78, R82): DECODE is the one
writer of OUT, and a frame that fits writes no more than OUT_CAP samples from OUT_BASE on. -/

namespace Sys2Proof.Machine

/-! ## The values a program answers -/

/-- Every value a program answers meets Q, whatever state it ends in. -/
def Answers {ε σ α : Type} (Q : α → Prop) (p : EStateM ε σ α) : Prop := ∀ ⦃s t : σ⦄ ⦃a : α⦄, p s = .ok a t → Q a

theorem answers_pure {ε σ α : Type} {Q : α → Prop} {a : α} (h : Q a) : Answers Q (pure a : EStateM ε σ α) := by
  rintro s t b ⟨⟩
  exact h

theorem answers_bind {ε σ α β : Type} {Q : β → Prop} (x : EStateM ε σ α) {f : α → EStateM ε σ β}
    (hf : ∀ a, Answers Q (f a)) : Answers Q (x >>= f) := by
  intro s u b h
  obtain ⟨a, t, -, hb⟩ := bind_ok_inv h
  exact hf a hb

theorem answers_raise {α : Type} {Q : α → Prop} (c : Cause) : Answers Q (Wk.raise c) := by
  rintro s t a ⟨⟩

/-- A test that raises: what follows may rely on the test having failed. -/
theorem answers_raise_if {α : Type} {Q : α → Prop} {b : Prop} [Decidable b] (c : Cause) {p : Wk α}
    (hp : ¬ b → Answers Q p) : Answers Q (if b then Wk.raise c >>= fun _ : PUnit => p else p) := by
  split
  next => rintro s t a ⟨⟩
  next hb => exact hp hb

/-! ## The samples of a frame (20_memory.md R75, 48_orchestrator.md R410, R428) -/

theorem length_outputRow (mix : Bool) (ys : List (List Sample)) (n : Nat) :
    (outputRow mix ys n).length = if mix then 2 else ys.length := by
  cases mix <;> simp [outputRow]

theorem length_outputSamples (format : Nat) (mix : Bool) (ys : List (List Sample)) (count : Nat) :
    (outputSamples format mix ys count).length = count * if mix then 2 else ys.length := by
  simp [outputSamples, List.length_flatMap, length_outputRow]

/-- Step 9 of R410 stops a frame of more samples than OUT_CAP. -/
theorem decodeOutput_fits (e : Env) (outCap : Nat) :
    Answers (fun o => o.samples.length ≤ outCap) (decodeOutput e outCap) := by
  unfold decodeOutput
  refine answers_bind _ fun _ => answers_bind _ fun k => answers_bind _ fun sc => answers_bind _ fun d =>
    answers_bind _ fun f => ?_
  cases framePositions sc d.pce f.elems with
  | none => exact answers_raise _
  | some pos =>
    refine answers_raise_if _ fun _ => answers_raise_if _ fun hcap => answers_pure ?_
    simpa [length_outputSamples, Nat.mul_comm] using hcap

theorem decodeBlock_fits (e : Env) (h : HostPorts) :
    Answers (fun o => o.samples.length ≤ h.outCap) (decodeBlock e h) :=
  answers_bind _ fun _ => decodeOutput_fits e h.outCap

/-! ## What each outcome of an instruction leaves -/

theorem Executes.inputs_eq {i : Instr} {s t : State} (h : Executes s i t) :
    t.inMem = s.inMem ∧ t.par = s.par ∧ t.ports = s.ports ∧ t.cmd = s.cmd ∧ t.pending = s.pending := by
  cases h <;> exact ⟨rfl, rfl, rfl, rfl, rfl⟩

/-- The run of samples that DECODE writes, empty for every other outcome, fits the host's buffer. -/
theorem Executes.outMem_eq {i : Instr} {s t : State} (h : Executes s i t) :
    t.outMem = s.outMem ∨
      i = .decode ∧ ∃ l, l.length ≤ s.ports.outCap ∧ t.outMem = s.outMem.writeFrom s.ports.outBase l := by
  cases h with
  | delivered _ _ ho => exact .inr ⟨rfl, _, decodeBlock_fits _ _ ho, rfl⟩
  | _ => exact .inl rfl

/-- Settles O8: one outcome of one command, a frame delivered by DECODE, writes OUT, and its samples fit the host's buffer. -/
theorem memoryWriters : Obligations.MemoryWriters := by
  refine ⟨fun i s t h => ?inputs, fun i s t hi h a => ?others, fun s t hs h a ha => ?decode⟩
  case inputs =>
    obtain ⟨hin, hrest⟩ := (exec_executes h).inputs_eq
    exact ⟨fun _ => by rw [hin], hin, hrest⟩
  case others =>
    obtain ho | ⟨hd, -⟩ := (exec_executes h).outMem_eq
    · rw [ho]
    · exact absurd hd hi
  case decode =>
    obtain ho | ⟨-, l, hl, ho⟩ := (exec_executes h).outMem_eq
    · rw [ho]
    · rw [ho, SampleMemory.read_writeFrom hs, if_neg (by omega)]

end Sys2Proof.Machine
end

section
/-! PROOFS. The decoder and the encoder (30_encoding.md R100 to R105, R130): decoding undoes encoding, and each port's decoder
accepts exactly the words the port can carry. -/

namespace Sys2Proof.Machine

/-! ## Decoding undoes encoding -/

theorem brWord_div {code n : Nat} (hn : n < 64) : brWord code n / 64 = code := by
  unfold brWord
  omega

theorem brWord_mod {code n : Nat} (hn : n < 64) : brWord code n % 64 = n := by
  unfold brWord
  omega

theorem vlcWord_div {code cb : Nat} (hcb : cb < 32) : vlcWord code cb / 32 = code := by
  unfold vlcWord
  omega

theorem vlcWord_mod {code cb : Nat} (hcb : cb < 32) : vlcWord code cb % 32 = cb := by
  unfold vlcWord
  omega

/-- A Bit Reader operation with a count: the count comes back from bits 5 to 0 (R102). -/
theorem decodeWord_brWord {code n : Nat} {side : Side} {i : Instr} (hn : n < 64)
    (hi : ∀ word, word / 64 = code → word % 64 = n → decodeBitReader word side = some i) :
    decodeWord .bitReader (brWord code n) side = .ok i := by
  simp only [decodeWord, hi _ (brWord_div hn) (brWord_mod hn)]

theorem decodeWord_vlcWord {code cb : Nat} {i : Instr} (hcb : cb < 32)
    (hi : ∀ word, word / 32 = code → word % 32 = cb → decodeVlc word = some i) :
    decodeWord .vlc (vlcWord code cb) Side.none = .ok i := by
  simp only [decodeWord, hi _ (vlcWord_div hcb) (vlcWord_mod hcb)]

/-- Settles O1: a word without an operand is a number, which the decoder's tables hold; division by the width of the count, or
of cb, takes a word with one apart again. -/
theorem decodeUndoesEncode : Obligations.DecodeUndoesEncode := by
  intro i hw
  cases i with
  | peek n | get n | flush n | wPeek n w | wConsume n w | wLoad n w =>
    exact decodeWord_brWord (of_decide_eq_true hw) fun word hc hn => by simp only [decodeBitReader, encode, hc, hn]
  | resetTo b | seek b | wConcat w v | wReverse w =>
    exact decodeWord_brWord (by decide) fun word hc _ => by simp only [decodeBitReader, encode, hc]
  | esc k | sgn k =>
    have hk : k < 2 := of_decide_eq_true hw
    exact decodeWord_vlcWord (by omega) fun word hc hn => by simp only [decodeVlc, hc, hn, Nat.mod_eq_of_lt hk]
  | _ => rfl

/-! ## Every word of a port decodes -/

/-- An answer to a word of a table with n entries: a well-formed instruction for each word below n, none from n on. -/
def AcceptsBelow (n word : Nat) (answer : Option Instr) : Prop :=
  (word < n → ∃ i, answer = some i ∧ i.wellFormed = true) ∧ (n ≤ word → answer = none)

theorem decodeCmd_accepts (word : Nat) : AcceptsBelow 16 word (decodeCmd word) := by
  refine ⟨fun h => ?_, fun h => ?_⟩
  · interval_cases word <;> exact ⟨_, rfl, rfl⟩
  · obtain ⟨k, rfl⟩ := Nat.exists_eq_add_of_le' h
    rfl

theorem decodeElement_accepts (word : Nat) : AcceptsBelow 8 word (decodeElement word) := by
  refine ⟨fun h => ?_, fun h => ?_⟩
  · interval_cases word <;> exact ⟨_, rfl, rfl⟩
  · obtain ⟨k, rfl⟩ := Nat.exists_eq_add_of_le' h
    rfl

theorem decodeHcw_accepts (cb : Nat) : AcceptsBelow 32 cb (decodeHcw cb) := by
  refine ⟨fun h => ?_, fun h => ?_⟩
  · interval_cases cb <;> exact ⟨_, rfl, rfl⟩
  · obtain ⟨k, rfl⟩ := Nat.exists_eq_add_of_le' h
    rfl

theorem decodeBitReader_accepts (word : Nat) (side : Side) : AcceptsBelow 1024 word (decodeBitReader word side) := by
  unfold decodeBitReader
  refine ⟨fun h => ?_, fun h => ?_⟩
  · have hc : word / 64 < 16 := by omega
    have hn : word % 64 < 64 := Nat.mod_lt _ (by decide)
    generalize word / 64 = code at hc
    interval_cases code <;> exact ⟨_, rfl, by simp only [Instr.wellFormed, hn, decide_true]⟩
  · obtain ⟨k, hk⟩ := Nat.exists_eq_add_of_le' (show 16 ≤ word / 64 by omega)
    simp only [hk]

theorem decodeVlc_accepts (word : Nat) : AcceptsBelow 256 word (decodeVlc word) := by
  unfold decodeVlc
  refine ⟨fun h => ?_, fun h => ?_⟩
  · have hc : word / 32 < 8 := by omega
    have hcb : word % 32 < 32 := Nat.mod_lt _ (by decide)
    have hk : word % 32 % 2 < 2 := Nat.mod_lt _ (by decide)
    generalize word / 32 = code at hc
    interval_cases code
    · exact (decodeHcw_accepts _).1 hcb
    all_goals exact ⟨_, rfl, by simp only [Instr.wellFormed, hk, decide_true]⟩
  · obtain ⟨k, hk⟩ := Nat.exists_eq_add_of_le' (show 8 ≤ word / 32 by omega)
    simp only [hk]

/-- The answer of a port's table (R100). -/
def portAnswer (port : Port) (word : Nat) (side : Side) : Option Instr :=
  match port with
  | .cmd => decodeCmd word
  | .bitReader => decodeBitReader word side
  | .vlc => decodeVlc word
  | .element => decodeElement word

theorem decodeWord_eq (port : Port) (word : Nat) (side : Side) :
    decodeWord port word side = (portAnswer port word side).elim (.error (.wordTooWide port word)) .ok := by
  cases port <;> simp only [decodeWord, portAnswer] <;> split <;> simp only [*, Option.elim]

theorem portAnswer_accepts (port : Port) (word : Nat) (side : Side) :
    AcceptsBelow (portWords port) word (portAnswer port word side) := by
  cases port with
  | cmd => exact decodeCmd_accepts word
  | bitReader => exact decodeBitReader_accepts word side
  | vlc => exact decodeVlc_accepts word
  | element => exact decodeElement_accepts word

/-- Settles O2: the table of each port accepts exactly the words the port can carry. -/
theorem everyWordDecodes : Obligations.EveryWordDecodes := by
  intro port word side
  obtain ⟨hsome, hnone⟩ := portAnswer_accepts port word side
  rw [decodeWord_eq]
  refine ⟨fun h => ?_, fun h => ?_⟩
  · obtain ⟨i, hi, hw⟩ := hsome h
    exact ⟨i, by rw [hi, Option.elim], hw⟩
  · rw [hnone h, Option.elim]

/-- Settles O3: each word is closed, and the decoder runs on it. -/
theorem decodeWords : Obligations.DecodeWords := by
  unfold Obligations.DecodeWords
  decide

end Sys2Proof.Machine
end

section
/-! PROOFS. A complete book none of whose codes begins another never misses (30_encoding.md R125, 42_huffman_spectral.md R211):
by the Kraft inequality every string as long as the book's longest code begins with a code, so CODEWORD ends before it could
raise. -/

namespace Sys2Proof.Machine

/-! ## Sets of codes none of which begins another (30_encoding.md R125 (a)) -/

theorem isAntichain_codes {b : Book} (hp : b.prefixFree) : IsAntichain (· <+: ·) {c | c ∈ b.codes} := by
  have : Std.Symm fun x y : List Bool => ¬ x <+: y ∧ ¬ y <+: x := ⟨fun _ _ h => h.symm⟩
  exact Set.Pairwise.mono' (fun _ _ h => h.1) hp.set_pairwise

theorem nodup_codes {b : Book} (hp : b.prefixFree) : b.codes.Nodup :=
  List.Pairwise.imp (fun {x y} h (heq : x = y) => h.1 (heq ▸ List.prefix_rfl)) hp

/-- A sequence of nonempty codes, none of which begins another, is read back from its bits alone. -/
theorem uniquelyDecodable_of_isAntichain {S : Set (List Bool)} (hS : IsAntichain (· <+: ·) S) (hne : [] ∉ S) :
    InformationTheory.UniquelyDecodable S := by
  intro l
  induction l with
  | nil =>
    rintro (_ | ⟨w, r⟩) _ hr h
    · rfl
    · obtain ⟨rfl, -⟩ := List.append_eq_nil_iff.1 h.symm
      exact absurd (hr _ List.mem_cons_self) hne
  | cons v l ih =>
    rintro (_ | ⟨w, r⟩) hl hr h
    · obtain ⟨rfl, -⟩ := List.append_eq_nil_iff.1 h
      exact absurd (hl _ List.mem_cons_self) hne
    · obtain ⟨hv, hl'⟩ := List.forall_mem_cons.1 hl
      obtain ⟨hw, hr'⟩ := List.forall_mem_cons.1 hr
      rw [List.flatten_cons, List.flatten_cons] at h
      have hvw : v = w := by
        rcases List.prefix_or_prefix_of_prefix (h ▸ List.prefix_append v _) (List.prefix_append w _) with hp | hp
        · exact hS.eq hv hw hp
        · exact (hS.eq hw hv hp).symm
      subst hvw
      rw [ih r hl' hr' (List.append_cancel_left h)]

/-! ## The Kraft sum (30_encoding.md R125 (b)) -/

/-- The scaled sum of the model is the sum of the codes' shares of the code space. -/
theorem kraft_eq (k : Nat) : ∀ b : Book, (∀ en ∈ b, en.code.length ≤ k) →
    (b.kraft k : ℝ) = 2 ^ k * (b.codes.map fun c => (1 / 2 : ℝ) ^ c.length).sum := by
  intro b
  induction b with
  | nil => intro _; simp [Book.kraft, Book.codes]
  | cons en b ih =>
    intro h
    obtain ⟨hen, hb⟩ := List.forall_mem_cons.1 h
    have hpow : (2 : ℝ) ^ (k - en.code.length) = 2 ^ k * (1 / 2) ^ en.code.length := by
      rw [pow_sub₀ _ two_ne_zero hen, one_div, inv_pow]
    have hcons : (Book.kraft (en :: b) k : ℝ) = 2 ^ (k - en.code.length) + Book.kraft b k := by
      simp [Book.kraft]
    rw [hcons, hpow, ih hb]
    simp only [Book.codes, List.map_cons, List.sum_cons, mul_add]

theorem kraftSum_eq_one {b : Book} (hc : b.complete) : (b.codes.map fun c => (1 / 2 : ℝ) ^ c.length).sum = 1 := by
  have h := kraft_eq b.maxLen b fun _ => maxCodeLen_le
  rw [hc] at h
  push_cast at h
  exact (mul_eq_left₀ (pow_ne_zero _ two_ne_zero)).1 h.symm

/-- Otherwise the string could join the codes, whose Kraft sum is 1 already. -/
theorem exists_code_prefix {b : Book} (hw : b.walkable) (hne : ∀ en ∈ b, en.code ≠ []) {t : List Bool} (ht : t ≠ [])
    (hl : maxCodeLen b ≤ t.length) : ∃ en ∈ b, en.code <+: t := by
  obtain ⟨hp, hc⟩ := hw
  by_contra! hno
  have hnot : ∀ c ∈ b.codes, ¬ c <+: t := List.forall_mem_map.2 hno
  have hext : ∀ c ∈ b.codes, ¬ t <+: c := by
    intro c hcb hct
    obtain ⟨en, hen, rfl⟩ := List.mem_map.1 hcb
    have : t = en.code := hct.eq_of_length_le ((maxCodeLen_le hen).trans hl)
    exact hno en hen (this ▸ List.prefix_rfl)
  have hmem : t ∉ b.codes.toFinset := fun h => hnot t (List.mem_toFinset.1 h) List.prefix_rfl
  have hanti : IsAntichain (· <+: ·) (insert t {c | c ∈ b.codes}) :=
    (isAntichain_codes hp).insert (fun c hcb _ => hnot c hcb) (fun c hcb _ => hext c hcb)
  have hnil : [] ∉ insert t {c | c ∈ b.codes} := by
    rintro (h | h)
    · exact ht h.symm
    · obtain ⟨en, hen, hnil⟩ := List.mem_map.1 h
      exact hne en hen hnil
  have hud : InformationTheory.UniquelyDecodable (↑(insert t b.codes.toFinset) : Set (List Bool)) := by
    rw [Finset.coe_insert, List.coe_toFinset]
    exact uniquelyDecodable_of_isAntichain hanti hnil
  have hkraft := InformationTheory.kraft_mcmillan_inequality hud
  rw [Finset.sum_insert hmem, Fintype.card_bool, List.sum_toFinset _ (nodup_codes hp)] at hkraft
  have hone := kraftSum_eq_one hc
  have hpos : (0 : ℝ) < (1 / 2) ^ t.length := by positivity
  push_cast at hkraft
  linarith

/-! ## Programs that end in a value -/

/-- From every engine with P the program ends in a value, and leaves an engine with Q. -/
def Ends {α : Type} (P Q : Engine → Prop) (p : Vx α) : Prop := ∀ ⦃g⦄, P g → ∃ a h, p g = .ok a h ∧ Q h

theorem ends_pure {α : Type} (P : Engine → Prop) (a : α) : Ends P P (pure a : Vx α) :=
  fun g hg => ⟨a, g, rfl, hg⟩

theorem ends_bind {α β : Type} {P Q R : Engine → Prop} {x : Vx α} {f : α → Vx β} (hx : Ends P Q x)
    (hf : ∀ a, Ends Q R (f a)) : Ends P R (x >>= f) := by
  intro g hg
  obtain ⟨a, h, hxa, hh⟩ := hx hg
  rw [run_bind_ok hxa]
  exact hf a hh

/-- A read ends in a value, past the end of the buffer too, and writes no register (40_bitreader.md R141, R157). -/
theorem getN_ends (e : Env) (n : Nat) (r : VlcRegs) : Ends (·.regs = r) (·.regs = r) (Vx.getN e n) := by
  intro g hg
  cases hs : g.regs.source with
  | main =>
    have h : Vx.getN e n g = Vx.ofRd (Rd.get e n) g := by simp only [Vx.getN, hs]
    exact ⟨_, _, h.trans (vxOfRd_ok rfl), hg⟩
  | window w =>
    have h : Vx.getN e n g = .ok ((g.window w).peek n) (g.setWindow w ((g.window w).consume n)) := by
      simp only [Vx.getN, hs]
    exact ⟨_, _, h, hg⟩

theorem get1_ends (e : Env) (r : VlcRegs) : Ends (·.regs = r) (·.regs = r) (Vx.get1 e) :=
  ends_bind (getN_ends e 1 r) fun _ => ends_pure _ _

/-! ## The codeword decoder on a complete book -/

/-- CW_LEN is the length of a code of the book. -/
def CwLenOf (b : Book) (g : Engine) : Prop := ∃ en ∈ b, g.regs.cwLen = en.code.length

theorem findEntry_some {b : Book} {t : List Bool} {en : Entry} (h : findEntry b t = some en) : en ∈ b ∧ en.code = t :=
  ⟨List.mem_of_find?_eq_some h, by simpa using List.find?_some h⟩

/-- No code begins a string that is no code itself, and that extends one no code begins. -/
theorem no_code_prefix_concat {b : Book} {s : List Bool} {x : Bool} (hs : ∀ en ∈ b, ¬ en.code <+: s)
    (h : findEntry b (s ++ [x]) = none) : ∀ en ∈ b, ¬ en.code <+: s ++ [x] := by
  intro en hen hpre
  rcases List.prefix_concat_iff.1 hpre with heq | hpre
  · exact List.find?_eq_none.1 h en hen (by simpa using heq)
  · exact hs en hen hpre

/-- The walk from bits that no code begins: on a complete book there are fewer of them than maxlen, so fuel remains until a
code is read. -/
theorem codewordWalk_ends {e : Env} {b : Book} {miss : Cause} (hw : b.walkable) (hne : ∀ en ∈ b, en.code ≠ []) :
    ∀ (k : Nat) (s : List Bool), maxCodeLen b < s.length + k → (∀ en ∈ b, ¬ en.code <+: s) →
      Ends (fun _ => True) (CwLenOf b) (codewordWalk e b miss k s) := by
  intro k
  induction k with
  | zero =>
    intro s hk hs
    obtain ⟨en, hen, hpre⟩ := exists_code_prefix hw hne (List.ne_nil_of_length_pos (by omega)) (t := s) (by omega)
    exact absurd hpre (hs en hen)
  | succ k ih =>
    intro s hk hs g _
    obtain ⟨x, h, hx, -⟩ := get1_ends e g.regs rfl
    simp only [codewordWalk]
    rw [run_bind_ok hx]
    cases hf : findEntry b (s ++ [x]) with
    | some en =>
      obtain ⟨hen, hcode⟩ := findEntry_some hf
      exact ⟨_, _, rfl, en, hen, (congrArg List.length hcode).symm⟩
    | none =>
      have hs' := no_code_prefix_concat hs hf
      have hlen : ¬ maxCodeLen b ≤ (s ++ [x]).length := fun hl =>
        have ⟨en, hen, hpre⟩ := exists_code_prefix hw hne (by simp) hl
        hs' en hen hpre
      simp only [if_neg hlen]
      exact ih (s ++ [x]) (by simp; omega) hs' trivial

theorem codeword_ends {b : Book} (e : Env) (miss : Cause) (hw : b.walkable) (hne : ∀ en ∈ b, en.code ≠ []) :
    Ends (fun _ => True) (CwLenOf b) (codeword e b miss) :=
  codewordWalk_ends hw hne _ _ (by simp) fun en hen hpre => hne en hen (List.prefix_nil.1 hpre)

/-! ## What follows a codeword keeps CW_LEN -/

section
variable {b : Book}

theorem setRegs_ends {f : VlcRegs → VlcRegs} (hf : ∀ r, (f r).cwLen = r.cwLen) :
    Ends (CwLenOf b) (CwLenOf b) (Vx.setRegs f) := by
  rintro g ⟨en, hen, hg⟩
  exact ⟨_, _, rfl, en, hen, (hf g.regs).trans hg⟩

theorem setQ_cwLen (r : VlcRegs) (j : Nat) (v : Int) : (r.setQ j v).cwLen = r.cwLen := by
  unfold VlcRegs.setQ
  split <;> rfl

theorem regs_ends : Ends (CwLenOf b) (CwLenOf b) Vx.regs := fun g hg => ⟨_, g, rfl, hg⟩

theorem get1_cwLenOf (e : Env) : Ends (CwLenOf b) (CwLenOf b) (Vx.get1 e) := by
  intro g hg
  obtain ⟨x, h, hx, hr⟩ := get1_ends e g.regs rfl
  exact ⟨x, h, hx, by rwa [CwLenOf, hr]⟩

theorem sgnLane_ends (e : Env) (j : Nat) : Ends (CwLenOf b) (CwLenOf b) (sgnLane e j) := by
  refine ends_bind regs_ends fun r => ?_
  split
  · exact ends_pure _ _
  · refine ends_bind (get1_cwLenOf e) fun x => ?_
    split
    · exact setRegs_ends fun r => setQ_cwLen r j _
    · exact ends_pure _ _

theorem sgnFrom_ends (e : Env) (n : Nat) : ∀ j, Ends (CwLenOf b) (CwLenOf b) (sgnFrom e j n) := by
  induction n with
  | zero => exact fun _ => ends_pure _ _
  | succ n ih => exact fun j => ends_bind (sgnLane_ends e j) fun _ => ih (j + 1)

end

/-! ## The operations -/

theorem kind_spectral {cb : Nat} (h : 1 ≤ cb) (h10 : cb ≤ 10) :
    kind cb = .quadSigned cb ∨ kind cb = .quadUnsigned cb ∨ kind cb = .pairSigned cb ∨ kind cb = .pairUnsigned cb := by
  interval_cases cb <;> decide

/-- HCW 1 to 10: a codeword, with or without signs. -/
theorem hcw_ends (e : Env) {cb : Nat} (h : 1 ≤ cb) (h10 : cb ≤ 10) (hw : (spectralBook e.par cb).walkable)
    (hne : ∀ en ∈ spectralBook e.par cb, en.code ≠ []) :
    Ends (fun _ => True) (CwLenOf (spectralBook e.par cb)) (hcw e cb) := by
  have quad : Ends (fun _ => True) (CwLenOf (spectralBook e.par cb)) (quadCodeword e cb) :=
    ends_bind (codeword_ends e _ hw hne) fun _ => setRegs_ends fun _ => rfl
  have pair : Ends (fun _ => True) (CwLenOf (spectralBook e.par cb)) (pairCodeword e cb) :=
    ends_bind (codeword_ends e _ hw hne) fun _ => setRegs_ends fun _ => rfl
  rcases kind_spectral h h10 with hk | hk | hk | hk <;> rw [hcw, hk]
  · exact quad
  · exact ends_bind quad fun _ => sgnFrom_ends e 4 0
  · exact pair
  · exact ends_bind pair fun _ => sgnFrom_ends e 2 0

theorem sfdOp_ends (e : Env) (hw : e.par.sfcb.walkable) (hne : ∀ en ∈ e.par.sfcb, en.code ≠ []) :
    Ends (fun _ => True) (CwLenOf e.par.sfcb) (returning sfdOp e) :=
  ends_bind (ends_bind (ends_bind (codeword_ends e _ hw hne) fun _ => ends_pure _ _) fun _ => ends_pure _ _)
    fun _ => setRegs_ends fun _ => rfl

theorem runBits_ends {p : Env → Vx Unit} {s : State} {b : Book} (hr : s.sourceReady = true)
    (hp : Ends (fun _ => True) (CwLenOf b) (p s.env)) :
    ∃ g, runBits p s = .next (s.withEngine g) ∧ ∃ en ∈ b, g.regs.cwLen = en.code.length := by
  obtain ⟨_, g, hg, hlen⟩ := hp (g := s.work.eng) trivial
  exact ⟨g, runBits_ok hr hg, hlen⟩

/-- Settles O25: each operation is a codeword, which ends in a value on a complete book, and then signs or register writes,
which cannot raise and keep CW_LEN. -/
theorem completeBooksNeverMiss : Obligations.CompleteBooksNeverMiss := by
  intro s i book hr hi hw hne
  have spectral (cb : Nat) (h : 1 ≤ cb ∧ cb ≤ 10) (hb : book = spectralBook s.par cb) :
      ∃ g, runBits (fun e => hcw e cb) s = .next (s.withEngine g) ∧ ∃ en ∈ book, g.regs.cwLen = en.code.length := by
    subst hb
    exact runBits_ends hr (hcw_ends s.env h.1 h.2 hw hne)
  simp only [List.mem_cons, Prod.mk.injEq, List.not_mem_nil, or_false] at hi
  obtain ⟨rfl, hb⟩ | ⟨rfl, hb⟩ | ⟨rfl, hb⟩ | ⟨rfl, hb⟩ | ⟨rfl, hb⟩ | ⟨rfl, hb⟩ | ⟨rfl, hb⟩ | ⟨rfl, hb⟩ | ⟨rfl, hb⟩ |
    ⟨rfl, hb⟩ | ⟨rfl, rfl⟩ := hi
  case inr => exact runBits_ends hr (sfdOp_ends s.env hw hne)
  all_goals exact spectral _ (by decide) hb

end Sys2Proof.Machine
end

section
/-! PROOFS. The commands that ORCH refuses, and the reserved codes (30_encoding.md R130, 48_orchestrator.md R400, R402, R435). -/

namespace Sys2Proof.Machine

/-! ## Where the commands are legal (R400) -/

theorem legalIn_opened {o : Orch} {code : Nat} (hc : code ∈ [2, 3]) (h : o ≠ .opened) : legalIn code o = false := by
  fin_cases hc <;> simpa [legalIn] using h

theorem legalIn_decode {o : Orch} (hi : o ≠ .initialized) (hd : o ≠ .decoding) : legalIn 5 o = false := by
  simp [legalIn, hi, hd]

theorem legalIn_without_stream {o : Orch} {code : Nat} (hc : code ∈ [6, 7]) (h : o = .unopened ∨ o = .closed) :
    legalIn code o = false := by
  fin_cases hc <;> rcases h with rfl | rfl <;> rfl

/-! ## What a refused command answers (R435) -/

section
variable {s : State}

theorem execOpen_refused (h : s.orch ≠ .unopened) : execOpen s = .next (refuseRes .badState s) := by
  have : legalIn 0 s.orch = false := by simpa [legalIn] using h
  simp [execOpen, this]

theorem runInit_refused (p : Env → HostPorts → Wk InitResult) (h : s.orch ≠ .opened) :
    runInit p s = .next (refuseRes .badState s) := by
  simp [runInit, legalIn_opened (code := 3) (by decide) h]

theorem execSetConfig_refused (h : s.orch ≠ .opened) : execSetConfig s = .next { s with res0 := 0 } := by
  simp [execSetConfig, legalIn_opened (code := 2) (by decide) h]

theorem execDecode_refused (hi : s.orch ≠ .initialized) (hd : s.orch ≠ .decoding) :
    execDecode s = .next { s with fi := { s.fi with error := fiError s.par .badState } } := by
  simp [execDecode, legalIn_decode hi hd]

theorem execPostSeekReset_refused (h : s.orch = .unopened ∨ s.orch = .closed) : execPostSeekReset s = .next s := by
  simp [execPostSeekReset, legalIn_without_stream (code := 6) (by decide) h]

theorem execClose_refused (h : s.orch = .unopened ∨ s.orch = .closed) : execClose s = .next s := by
  simp [execClose, legalIn_without_stream (code := 7) (by decide) h]

end

/-- Settles O59: a reserved code has one outcome in every state, and each other command tests ORCH before anything else. -/
theorem refusedCommands : Obligations.RefusedCommands := by
  intro s
  simp only [List.forall_mem_cons, List.not_mem_nil, false_imp_iff, implies_true, and_true]
  refine ⟨rfl, ⟨rfl, rfl, rfl, rfl, rfl, rfl, rfl, rfl⟩, ⟨rfl, rfl, rfl⟩, execOpen_refused, fun h => ?_, execDecode_refused,
    fun h => ?_⟩
  · exact ⟨⟨runInit_refused _ h, runInit_refused _ h⟩, execSetConfig_refused h⟩
  · exact ⟨execPostSeekReset_refused h, execClose_refused h⟩

end Sys2Proof.Machine
end

section
/-! PROOFS. Reading and positioning with a cursor (40_bitreader.md R141 to R152): the rule of each operation, then the laws of
reads in parts, reads twice and reads from the start. -/

namespace Sys2Proof.Machine

/-! ## The cursor -/

/-- A failing read freezes a cursor whose flag is set already (R141). -/
theorem Cursor.fail_of_err {c : Cursor} (h : c.err = true) : c.fail = c := by rw [Cursor.fail, ← h]

theorem Cursor.canRead_of_err {c : Cursor} (n : Nat) (h : c.err = true) : c.canRead n = false := by
  simp [Cursor.canRead, h]

theorem Cursor.canRead_fail (c : Cursor) (n : Nat) : c.fail.canRead n = false := Cursor.canRead_of_err n rfl

theorem Cursor.peek_fail {c : Cursor} {n : Nat} (m : Memory) (h : c.canRead n = false) : c.peek m n = (0, c.fail) := by
  simp [Cursor.peek, h]

theorem Cursor.flush_fail {c : Cursor} {n : Nat} (h : c.canRead n = false) : c.flush n = c.fail := by
  simp [Cursor.flush, h]

/-- A read of n bits can be made in two parts. -/
theorem Cursor.canRead_split {c : Cursor} {n k : Nat} (h : c.canRead n = true) (hk : k ≤ n) :
    c.canRead k = true ∧ (c.fwd k).canRead (n - k) = true := by
  obtain ⟨herr, h32, hend⟩ := (Cursor.canRead_iff c n).1 h
  refine ⟨(Cursor.canRead_iff _ _).2 ⟨herr, by omega, by omega⟩, (Cursor.canRead_iff _ _).2 ⟨herr, by omega, ?_⟩⟩
  rwa [Cursor.fwd, Nat.add_assoc, Nat.add_sub_cancel' hk]

theorem Cursor.alignCount_of_err {c : Cursor} (h : c.err = true) : c.alignCount = 0 := by simp [Cursor.alignCount, h]

theorem Cursor.byteAlign_of_err {c : Cursor} (h : c.err = true) : c.byteAlign = c := by
  rw [Cursor.byteAlign, Cursor.alignCount_of_err h, Nat.add_zero]

theorem Cursor.alignCount_lt (c : Cursor) : c.alignCount < 8 := by
  unfold Cursor.alignCount
  split <;> omega

theorem Cursor.byteAlign_pos_mod {c : Cursor} (h : c.err = false) : c.byteAlign.pos % 8 = 0 := by
  simp only [Cursor.byteAlign, Cursor.alignCount, h, Bool.false_eq_true, if_false]
  omega

theorem Cursor.seek_eq {c : Cursor} {b : Nat} (h : b ≤ c.limit) : c.seek b = { c with pos := b } :=
  if_neg (Nat.not_lt.2 h)

theorem Cursor.seek_fail {c : Cursor} {b : Nat} (h : c.limit < b) : c.seek b = c.fail := if_pos h

/-- A read from the start of the slice (R149). -/
theorem Cursor.rewind_get_fst {c : Cursor} (m : Memory) (n : Nat) (h : c.err = false) :
    (c.rewind.get m n).1 = if n ≤ 32 ∧ n ≤ c.limit then bitsAt m c.base 0 n else 0 := by
  have hread : c.rewind.canRead n = true ↔ n ≤ 32 ∧ n ≤ c.limit := by
    simp [Cursor.canRead_iff, Cursor.rewind, Cursor.limit, h]
  rw [Cursor.get, apply_ite Prod.fst]
  exact if_congr hread rfl rfl

/-! ## The rule of each operation, with a cursor -/

section
variable {s : State} (hl : s.work.eng.bc.live = true)
include hl

theorem cursorOp_of_live (f : Cursor → Cursor) : cursorOp f s = .next (s.setBc (f s.work.eng.bc)) := if_pos hl

theorem cursorRead_of_live (f : Cursor → Nat × Cursor) :
    cursorRead f s = .next ((s.setBc (f s.work.eng.bc).2).setRet ((f s.work.eng.bc).1 : Nat)) := if_pos hl

theorem exec_peek_of_live (n : Nat) : exec (.peek n) s =
    .next ((s.setBc (s.work.eng.bc.peek s.inMem n).2).setRet ((s.work.eng.bc.peek s.inMem n).1 : Nat)) :=
  cursorRead_of_live hl _

theorem exec_get_of_live (n : Nat) : exec (.get n) s =
    .next ((s.setBc (s.work.eng.bc.get s.inMem n).2).setRet ((s.work.eng.bc.get s.inMem n).1 : Nat)) :=
  cursorRead_of_live hl _

theorem exec_flush_of_live (n : Nat) : exec (.flush n) s = .next (s.setBc (s.work.eng.bc.flush n)) :=
  cursorOp_of_live hl _

theorem exec_byteAlign_of_live :
    exec .byteAlign s = .next ((s.setBc s.work.eng.bc.byteAlign).setRet (s.work.eng.bc.alignCount : Nat)) :=
  cursorRead_of_live hl fun k => (k.alignCount, k.byteAlign)

theorem exec_rewind_of_live : exec .rewind s = .next (s.setBc s.work.eng.bc.rewind) := cursorOp_of_live hl _

theorem exec_seek_of_live (b : Nat) : exec (.seek b) s = .next (s.setBc (s.work.eng.bc.seek b)) := cursorOp_of_live hl _

/-! ### A read that succeeds -/

theorem exec_peek_of_canRead {n : Nat} (hr : s.work.eng.bc.canRead n = true) :
    exec (.peek n) s = .next (s.setRet (s.field 0 n : Nat)) := by
  rw [exec_peek_of_live hl, Cursor.peek_eq _ hr]
  rfl

theorem exec_get_of_canRead {n : Nat} (hr : s.work.eng.bc.canRead n = true) :
    exec (.get n) s = .next ((s.setBc (s.work.eng.bc.fwd n)).setRet (s.field 0 n : Nat)) := by
  rw [exec_get_of_live hl, Cursor.get_eq _ hr]
  rfl

theorem exec_flush_of_canRead {n : Nat} (hr : s.work.eng.bc.canRead n = true) :
    exec (.flush n) s = .next (s.setBc (s.work.eng.bc.fwd n)) := by
  rw [exec_flush_of_live hl, Cursor.flush_eq hr]
  rfl

/-! ### A read that fails -/

theorem exec_peek_fail {n : Nat} (hr : s.work.eng.bc.canRead n = false) :
    exec (.peek n) s = .next ((s.setBc s.work.eng.bc.fail).setRet 0) := by
  rw [exec_peek_of_live hl, Cursor.peek_fail _ hr]
  rfl

theorem exec_get_fail {n : Nat} (hr : s.work.eng.bc.canRead n = false) :
    exec (.get n) s = .next ((s.setBc s.work.eng.bc.fail).setRet 0) := by
  rw [exec_get_of_live hl, Cursor.get_fail _ hr]
  rfl

theorem exec_flush_fail {n : Nat} (hr : s.work.eng.bc.canRead n = false) :
    exec (.flush n) s = .next (s.setBc s.work.eng.bc.fail) := by
  rw [exec_flush_of_live hl, Cursor.flush_fail hr]

theorem exec_byteAlign_of_err (he : s.work.eng.bc.err = true) : exec .byteAlign s = .next (s.setRet 0) := by
  rw [exec_byteAlign_of_live hl, Cursor.alignCount_of_err he, Cursor.byteAlign_of_err he]
  rfl

/-! ### Moving to a position -/

theorem exec_seek_inside {b : Nat} (hb : b ≤ s.work.eng.bc.limit) :
    exec (.seek b) s = .next (s.setBc { s.work.eng.bc with pos := b }) := by
  rw [exec_seek_of_live hl, Cursor.seek_eq hb]

theorem exec_seek_outside {b : Nat} (hb : s.work.eng.bc.limit < b) :
    exec (.seek b) s = .next (s.setBc s.work.eng.bc.fail) := by
  rw [exec_seek_of_live hl, Cursor.seek_fail hb]

end

/-- PEEK leaves a state that the same PEEK leaves as it is. -/
theorem exec_peek_twice {s : State} (n : Nat) (hl : s.work.eng.bc.live = true) :
    ∃ t, exec (.peek n) s = .next t ∧ exec (.peek n) t = .next t ∧ t.work.eng.bc.pos = s.work.eng.bc.pos := by
  cases hr : s.work.eng.bc.canRead n with
  | true =>
    exact ⟨_, exec_peek_of_canRead hl hr, exec_peek_of_canRead (s := s.setRet (s.field 0 n : Nat)) hl hr, rfl⟩
  | false =>
    exact ⟨_, exec_peek_fail hl hr,
      exec_peek_fail (s := (s.setBc s.work.eng.bc.fail).setRet 0) hl (Cursor.canRead_fail _ n), rfl⟩

/-- REWIND then GET n is a GET n of the rewound cursor. -/
theorem exec_rewind_get {s : State} (n : Nat) (hl : s.work.eng.bc.live = true) :
    ∃ t u, exec .rewind s = .next t ∧ exec (.get n) t = .next u ∧
      u.work.eng.regs.ret = ((s.work.eng.bc.rewind.get s.inMem n).1 : Nat) ∧
      u.work.eng.bc = (s.work.eng.bc.rewind.get s.inMem n).2 :=
  ⟨_, _, exec_rewind_of_live hl, exec_get_of_live (s := s.setBc s.work.eng.bc.rewind) hl n, rfl, rfl⟩

theorem exec_resetTo (b : Nat) (s : State) : exec (.resetTo b) s = exec (.seek b) s := rfl

/-! ## The statements -/

/-- Settles O10: a read asks one question, whether its bits can be read, and BYTE_ALIGN one, whether the flag is set. -/
theorem readBits : Obligations.ReadBits := by
  intro s n hl
  have hread : s.work.eng.bc.canRead n = true ↔ s.work.eng.bc.err = false ∧ n ≤ 32 ∧
      s.work.eng.bc.pos + n ≤ 8 * s.work.eng.bc.len := Cursor.canRead_iff _ n
  refine ⟨fun h => ?readable, fun h => ?unreadable, exec_byteAlign_of_err hl, fun he => ?align⟩
  case readable =>
    have hr := hread.2 h
    refine ⟨exec_peek_of_canRead hl hr, exec_get_of_canRead hl hr, exec_flush_of_canRead hl hr, ?_⟩
    rintro rfl
    exact exec_get_of_canRead hl hr
  case unreadable =>
    have hr := Bool.eq_false_iff.2 (mt hread.1 h)
    refine ⟨exec_peek_fail hl hr, exec_get_fail hl hr, exec_flush_fail hl hr, ?_⟩
    rintro rfl
    exact exec_get_fail hl hr
  case align =>
    refine ⟨s.work.eng.bc.alignCount, Cursor.alignCount_lt _, Cursor.byteAlign_pos_mod he, exec_byteAlign_of_live hl,
      fun hp => ?_⟩
    exact (Cursor.ok_iff _).1 (Cursor.byteAlign_ok ((Cursor.ok_iff _).2 hp))

/-- Settles O11: the position operations act on the position alone, and a GET after REWIND reads from bit 0 unless the flag is
set. -/
theorem positionControl : Obligations.PositionControl := by
  intro s b n hl
  refine ⟨cursorRead_of_live hl fun k => (k.pos, k), exec_rewind_of_live hl, ?rewindGet, ?seek⟩
  case rewindGet =>
    obtain ⟨t, u, ht, hu, hret, hbc⟩ := exec_rewind_get n hl
    refine ⟨t, u, ht, hu, fun he h32 hlen => ?_, fun he => ?_⟩
    · have hr : s.work.eng.bc.rewind.canRead n = true :=
        (Cursor.canRead_iff _ n).2 ⟨he, h32, (Nat.zero_add n).trans_le hlen⟩
      rw [hret, hbc, Cursor.get_eq _ hr]
      exact ⟨rfl, he⟩
    · rw [hret, hbc, Cursor.get_fail _ (Cursor.canRead_of_err (c := s.work.eng.bc.rewind) n he)]
      exact ⟨rfl, rfl⟩
  case seek =>
    simp only [List.forall_mem_cons, List.not_mem_nil, false_imp_iff, implies_true, and_true, exec_resetTo, and_self]
    exact ⟨exec_seek_inside hl, exec_seek_outside hl⟩

/-- Settles O12: what can be read can be read in two parts, whose fields make the whole one; a PEEK keeps what the next PEEK
looks at; and REWIND makes the buffer's first bit the next one. -/
theorem splitReads : Obligations.SplitReads := by
  intro s n k hl
  refine ⟨fun hr hk => ?split, ?twice, fun he => ?rewindGet⟩
  case split =>
    have hn := ((s.canRead_iff n).1 hr).2
    obtain ⟨hfirst, hsecond⟩ := Cursor.canRead_split hn hk
    have hsum := bitsAt_add s.inMem s.work.eng.bc.base s.work.eng.bc.pos k (n - k)
    have hpos := Cursor.fwd_fwd s.work.eng.bc k (n - k)
    rw [Nat.add_sub_cancel' hk] at hsum hpos
    refine ⟨_, _, _, exec_get_of_canRead hl hfirst,
      exec_get_of_canRead (s := (s.setBc (s.work.eng.bc.fwd k)).setRet (s.field 0 k : Nat)) hl hsecond,
      exec_get_of_canRead hl hn, ?_, hpos, rfl⟩
    have hret := congrArg (Nat.cast (R := Int)) hsum.symm
    push_cast at hret
    exact hret
  case twice =>
    obtain ⟨t, ht, hagain, hpos⟩ := exec_peek_twice n hl
    exact ⟨t, t, ht, hagain, rfl, hpos⟩
  case rewindGet =>
    obtain ⟨t, u, ht, hu, hret, -⟩ := exec_rewind_get n hl
    refine ⟨t, u, ht, hu, ?_⟩
    rw [hret, Cursor.rewind_get_fst _ n he]
    rfl

end Sys2Proof.Machine
end

section
/-! PROOFS. The bit windows (40_bitreader.md R155 to R163): what each operation leaves of the windows it names, and the laws of
operations in a row. -/

namespace Sys2Proof.Machine

/-! ## One window -/

namespace Window

theorem load_eq {c : Cursor} {n : Nat} (m : Memory) (h : c.canRead n = true) :
    load m n c = ⟨bitList m c.base c.pos n, false⟩ := by
  rw [load, if_pos h, natToBits_bitsAt]

theorem load_fail {c : Cursor} {n : Nat} (m : Memory) (h : c.canRead n = false) : load m n c = ⟨[], false⟩ := by
  rw [load, if_neg (Bool.eq_false_iff.1 h)]

/-- Any padding that makes up n bits gives the bits W_PEEK sees (R157). -/
theorem peek_eq {x : Window} {n z : Nat} (h32 : n ≤ 32) (hz : n ≤ x.bits.length + z) :
    x.peek n = bitsToNat ((x.bits ++ List.replicate z false).take n) := by
  have hpad : min (n - x.bits.length) n = min (n - x.bits.length) z := by omega
  rw [peek, if_neg (Nat.not_lt.2 h32), List.take_append, List.take_append, List.take_replicate, List.take_replicate, hpad]

theorem peek_above {x : Window} {n : Nat} (h : 32 < n) : x.peek n = 0 := if_pos h

theorem consume_eq {x : Window} {n : Nat} (h : n ≤ x.bits.length) : x.consume n = ⟨x.bits.drop n, x.under⟩ :=
  if_neg (Nat.not_lt.2 h)

theorem consume_short {x : Window} {n : Nat} (h : x.bits.length < n) : x.consume n = ⟨[], true⟩ := if_pos h

theorem consume_consume {x : Window} {a b : Nat} (h : a + b ≤ x.bits.length) :
    (x.consume a).consume b = x.consume (a + b) := by
  have hb : b ≤ (x.bits.drop a).length := by rw [List.length_drop]; omega
  rw [consume_eq h, consume_eq (show a ≤ x.bits.length by omega), consume_eq hb, List.drop_drop]

theorem concat_eq {x y : Window} (h : x.bits.length + y.bits.length ≤ 64) : x.concat y = ⟨x.bits ++ y.bits, x.under⟩ :=
  if_neg (Nat.not_lt.2 h)

theorem concat_full {x y : Window} (h : 64 < x.bits.length + y.bits.length) : x.concat y = ⟨x.bits, true⟩ := if_pos h

/-- Within the capacity the grouping of two concatenations does not matter (R163). -/
theorem concat_concat {x y z : Window} (h : x.bits.length + y.bits.length + z.bits.length ≤ 64) :
    (x.concat y).concat z = ⟨x.bits ++ y.bits ++ z.bits, x.under⟩ ∧
      x.concat (y.concat z) = ⟨x.bits ++ y.bits ++ z.bits, x.under⟩ := by
  have hleft : (x.bits ++ y.bits).length + z.bits.length ≤ 64 := by rwa [List.length_append]
  have hright : x.bits.length + (y.bits ++ z.bits).length ≤ 64 := by rwa [List.length_append, ← Nat.add_assoc]
  constructor
  · rw [concat_eq (show x.bits.length + y.bits.length ≤ 64 by omega), concat_eq hleft]
  · rw [concat_eq (show y.bits.length + z.bits.length ≤ 64 by omega), concat_eq hright, List.append_assoc]

theorem reverse_reverse (x : Window) : x.reverse.reverse = x := by simp [reverse]

theorem reverse_length (x : Window) : x.reverse.bits.length = x.bits.length := List.length_reverse

theorem reverse_getD {x : Window} {i : Nat} (h : i < x.bits.length) :
    x.reverse.bits.getD i false = x.bits.getD (x.bits.length - 1 - i) false := by
  rw [List.getD_eq_getElem?_getD, List.getD_eq_getElem?_getD, reverse, List.getElem?_reverse h]

end Window

/-! ## The windows of a state -/

theorem State.setWindow_bw_same {s : State} {w : Nat} {x : Window} (y : Window) (hw : s.work.eng.bw[w]? = some x) :
    (s.setWindow w y).work.eng.bw[w]? = some y :=
  List.getElem?_set_self (List.getElem?_eq_some_iff.1 hw).1

theorem State.setWindow_bw_other (s : State) {w v : Nat} (y : Window) (h : v ≠ w) :
    (s.setWindow w y).work.eng.bw[v]? = s.work.eng.bw[v]? :=
  List.getElem?_set_ne h.symm

theorem State.setWindow_setWindow (s : State) (w : Nat) (x y : Window) :
    (s.setWindow w x).setWindow w y = s.setWindow w y := by
  simp [State.setWindow, Engine.setWindow]

theorem State.setWindow_self {s : State} {w : Nat} {x : Window} (hw : s.work.eng.bw[w]? = some x) :
    s.setWindow w x = s := by
  obtain ⟨hlt, rfl⟩ := List.getElem?_eq_some_iff.1 hw
  simp [State.setWindow, Engine.setWindow]

/-! ## The rule of each operation, on a window that exists -/

section
variable {s : State} {w : Nat} {x : Window} (hl : s.work.eng.bc.live = true) (hw : s.work.eng.bw[w]? = some x)
include hl hw

theorem withWindow_of_window (f : Window → Host.Outcome State Fault Refusal) : withWindow w f s = f x := by
  simp [withWindow, hl, hw]

theorem exec_wPeek_of_window (n : Nat) : exec (.wPeek n w) s = .next (s.setRet (x.peek n : Nat)) :=
  windowOp_of_window hl hw

theorem exec_wConsume_of_window (n : Nat) : exec (.wConsume n w) s = .next (s.setWindow w (x.consume n)) :=
  windowOp_of_window hl hw

theorem exec_wReverse_of_window : exec (.wReverse w) s = .next (s.setWindow w x.reverse) := windowOp_of_window hl hw

theorem exec_wConcat_of_windows {v : Nat} {y : Window} (hv : s.work.eng.bw[v]? = some y) :
    exec (.wConcat w v) s = .next (s.setWindow w (x.concat y)) :=
  (withWindow_of_window hl hv _).trans (windowOp_of_window hl hw)

theorem exec_wLoad_of_window (n : Nat) : exec (.wLoad n w) s = .next
    ((s.setWindow w (Window.load s.inMem n s.work.eng.bc)).setBc (s.work.eng.bc.get s.inMem n).2) :=
  windowOp_of_window hl hw

end

/-! ## The statements -/

/-- Settles O17: the window keeps what GET returns, and the cursor ends where GET ends. -/
theorem windowLoad : Obligations.WindowLoad := by
  intro s n w hl hw
  have hload := exec_wLoad_of_window hl (List.getElem?_eq_getElem hw) n
  refine ⟨fun hr => ?_, fun hr => ?_⟩
  · rw [hload, Window.load_eq _ hr, Cursor.get_eq _ hr]
  · rw [hload, Window.load_fail _ hr, Cursor.get_fail _ hr]
    rfl

/-- Settles O18: both operations look at how many bits the window holds, W_PEEK first at whether n is above 32. -/
theorem windowPeekConsume : Obligations.WindowPeekConsume := by
  intro s n w x hl hw
  refine ⟨fun h32 z hz => ?padded, fun h32 => ?above, fun _ hn => ?enough, fun _ hn => ?short⟩
  case padded => rw [exec_wPeek_of_window hl hw, Window.peek_eq h32 hz]
  case above => rw [exec_wPeek_of_window hl hw, Window.peek_above h32]; rfl
  case enough => rw [exec_wConsume_of_window hl hw, Window.consume_eq hn]
  case short => rw [exec_wConsume_of_window hl hw, Window.consume_short hn]

/-- Settles O19: one test of the total decides W_CONCAT, and W_REVERSE is the reversal of a list. -/
theorem windowConcatReverse : Obligations.WindowConcatReverse := by
  intro s w v x y hl hw hv
  refine ⟨fun hfit => ?fits, fun hfull => ?full, ?reverse⟩
  case fits => rw [exec_wConcat_of_windows hl hw hv, Window.concat_eq hfit]
  case full => rw [exec_wConcat_of_windows hl hw hv, Window.concat_full hfull]
  case reverse =>
    exact ⟨x.reverse, exec_wReverse_of_window hl hw, rfl, x.reverse_length, fun _ hi => Window.reverse_getD hi⟩

/-- Settles O20: each law is a law of one window, and the second operation finds the window as the first left it. -/
theorem windowLaws : Obligations.WindowLaws := by
  intro s w a b x hl hw
  have after (y : Window) := State.setWindow_bw_same y hw
  refine ⟨?reverse, fun h => ?consume, fun v y hv hlen h32 => ?peek, fun v u y z hvw huw hv hu hlen => ?assoc⟩
  case reverse =>
    refine ⟨_, exec_wReverse_of_window hl hw, ?_⟩
    rw [exec_wReverse_of_window (s := s.setWindow w x.reverse) hl (after _), Window.reverse_reverse,
      State.setWindow_setWindow, State.setWindow_self hw]
  case consume =>
    refine ⟨_, _, exec_wConsume_of_window hl hw a,
      exec_wConsume_of_window (s := s.setWindow w (x.consume a)) hl (after _) b, ?_⟩
    rw [exec_wConsume_of_window hl hw, Window.consume_consume h, State.setWindow_setWindow]
  case peek =>
    have hpeek : (x.concat y).peek a = bitsToNat ((x.bits ++ y.bits ++ List.replicate a false).take a) := by
      rw [Window.concat_eq hlen]
      exact Window.peek_eq h32 (Nat.le_add_left ..)
    exact ⟨_, _, exec_wConcat_of_windows hl hw hv,
      exec_wPeek_of_window (s := s.setWindow w (x.concat y)) hl (after _) a, congrArg Nat.cast hpeek,
      fun hvw => (s.setWindow_bw_other _ hvw).trans hv⟩
  case assoc =>
    obtain ⟨hleft, hright⟩ := Window.concat_concat hlen
    have hu₁ := (s.setWindow_bw_other (x.concat y) huw).trans hu
    have hw₁ := (s.setWindow_bw_other (y.concat z) hvw.symm).trans hw
    have hv₁ := State.setWindow_bw_same (y.concat z) hv
    have hw₂ := State.setWindow_bw_same ((x.concat y).concat z) (after (x.concat y))
    have hw₃ := State.setWindow_bw_same (x.concat (y.concat z)) hw₁
    refine ⟨_, _, _, _, exec_wConcat_of_windows hl hw hv,
      exec_wConcat_of_windows (s := s.setWindow w (x.concat y)) hl (after _) hu₁, exec_wConcat_of_windows hl hv hu,
      exec_wConcat_of_windows (s := s.setWindow v (y.concat z)) hl hw₁ hv₁, ?_, ?_⟩
    · rw [hw₂, hw₃, hleft, hright]
    · rw [hw₂, hleft]

end Sys2Proof.Machine
end

section
/-! PROOFS. What the Bit Reader and window operations leave of the state (40_bitreader.md R141 to R163): all but the cursor, the
returned value and the window they name, and the error flag once it is set. -/

namespace Sys2Proof.Machine

/-! ## What an operation makes of the cursor -/

/-- Cursor k is c moved, or with its error flag set: over the same slice of IN. -/
structure Cursor.Continues (c k : Cursor) : Prop where
  live : k.live = c.live
  base : k.base = c.base
  len : k.len = c.len
  err : c.err = true → k.err = true

namespace Cursor

theorem continues_self (c : Cursor) : c.Continues c := ⟨rfl, rfl, rfl, id⟩
theorem continues_move (c : Cursor) (p : Nat) : c.Continues { c with pos := p } := ⟨rfl, rfl, rfl, id⟩
theorem continues_fail (c : Cursor) : c.Continues c.fail := ⟨rfl, rfl, rfl, fun _ => rfl⟩

theorem continues_peek (m : Memory) (n : Nat) (c : Cursor) : c.Continues (c.peek m n).2 := by
  unfold peek
  split
  · exact c.continues_self
  · exact c.continues_fail

theorem continues_flush (n : Nat) (c : Cursor) : c.Continues (c.flush n) := by
  unfold flush
  split
  · exact c.continues_move _
  · exact c.continues_fail

theorem continues_get (m : Memory) (n : Nat) (c : Cursor) : c.Continues (c.get m n).2 :=
  c.get_snd m n ▸ c.continues_flush n

theorem continues_seek (b : Nat) (c : Cursor) : c.Continues (c.seek b) := by
  unfold seek
  split
  · exact c.continues_fail
  · exact c.continues_move b

end Cursor

/-! ## The operations by what they write -/

/-- The operations on the cursor (R142 to R151), with n for a count of bits and b for a position. -/
def cursorOps (n b : Nat) : List Instr :=
  [.peek n, .get n, .get1, .flush n, .byteAlign, .processedBits, .rewind, .resetTo b, .seek b]

/-- The operations that write window w from windows alone (R158 to R161). -/
def windowEdits (n w v : Nat) : List Instr := [.wConsume n w, .wConcat w v, .wReverse w]

/-- What the operation i can leave of the engine g. -/
inductive BitReaderResult (g : Engine) (n b w v : Nat) : Instr → Engine → Prop where
  | cursor {i : Instr} {k : Cursor} (r : Int) (hi : i ∈ cursorOps n b) (hk : g.bc.Continues k) :
      BitReaderResult g n b w v i ⟨k, g.bw, { g.regs with ret := r }⟩
  | peeked (r : Int) : BitReaderResult g n b w v (.wPeek n w) (g.setRegs { g.regs with ret := r })
  | edited {i : Instr} (x : Window) (hi : i ∈ windowEdits n w v) : BitReaderResult g n b w v i (g.setWindow w x)
  | loaded {k : Cursor} (x : Window) (hk : g.bc.Continues k) :
      BitReaderResult g n b w v (.wLoad n w) { g.setWindow w x with bc := k }
  | reserved {i : Instr} (hi : i ∈ [.brReserved14, .brReserved15]) : BitReaderResult g n b w v i g

section
variable {s t : State} {n b w v : Nat}

theorem cursorRead_next {f : Cursor → Nat × Cursor} (h : cursorRead f s = .next t) :
    t = (s.setBc (f s.work.eng.bc).2).setRet ((f s.work.eng.bc).1 : Nat) := by
  rw [cursorRead] at h
  split at h
  · exact (Host.Outcome.next.inj h).symm
  · cases h

theorem cursorOp_next {f : Cursor → Cursor} (h : cursorOp f s = .next t) : t = s.setBc (f s.work.eng.bc) := by
  rw [cursorOp] at h
  split at h
  · exact (Host.Outcome.next.inj h).symm
  · cases h

theorem windowOp_next {f : Window → State} (h : windowOp w f s = .next t) : ∃ x, t = f x := by
  obtain ⟨x, -, hx⟩ := withWindow_next h
  exact ⟨x, (Host.Outcome.next.inj hx).symm⟩

theorem exec_cursorOps {i : Instr} (hi : i ∈ cursorOps n b) (h : exec i s = .next t) :
    ∃ k r, s.work.eng.bc.Continues k ∧ t = (s.setBc k).setRet r := by
  have read {f : Cursor → Nat × Cursor} (hf : ∀ c : Cursor, c.Continues (f c).2) (h : cursorRead f s = .next t) :
      ∃ k r, s.work.eng.bc.Continues k ∧ t = (s.setBc k).setRet r := ⟨_, _, hf _, cursorRead_next h⟩
  have op {f : Cursor → Cursor} (hf : ∀ c : Cursor, c.Continues (f c)) (h : cursorOp f s = .next t) :
      ∃ k r, s.work.eng.bc.Continues k ∧ t = (s.setBc k).setRet r :=
    ⟨_, s.work.eng.regs.ret, hf _, cursorOp_next h⟩
  revert i
  simp only [cursorOps, List.forall_mem_cons, List.not_mem_nil, false_imp_iff, implies_true, and_true]
  exact ⟨read (Cursor.continues_peek _ n), read (Cursor.continues_get _ n), read (Cursor.continues_get _ 1),
    op (Cursor.continues_flush n), read (f := fun k => (k.alignCount, k.byteAlign)) (fun c => c.continues_move _),
    read Cursor.continues_self, op (fun c => c.continues_move 0), op (Cursor.continues_seek b), op (Cursor.continues_seek b)⟩

theorem exec_windowEdits {i : Instr} (hi : i ∈ windowEdits n w v) (h : exec i s = .next t) :
    ∃ x, t = s.setWindow w x := by
  have edit {f : Window → Window} (h : windowOp w (fun x => s.setWindow w (f x)) s = .next t) :
      ∃ x, t = s.setWindow w x := by
    obtain ⟨x, hx⟩ := windowOp_next h
    exact ⟨f x, hx⟩
  revert i
  simp only [windowEdits, List.forall_mem_cons, List.not_mem_nil, false_imp_iff, implies_true, and_true]
  refine ⟨edit, fun h => ?_, edit⟩
  obtain ⟨y, -, hy⟩ := withWindow_next h
  exact edit hy

theorem exec_bitReader_result {i : Instr}
    (hi : i ∈ cursorOps n b ++ .wPeek n w :: windowEdits n w v ++ [.wLoad n w, .brReserved14, .brReserved15])
    (h : exec i s = .next t) : ∃ g, t = s.withEngine g ∧ BitReaderResult s.work.eng n b w v i g := by
  simp only [List.mem_append, List.mem_cons, List.not_mem_nil, or_false] at hi
  obtain (hi | rfl | hi) | rfl | hi := hi
  · obtain ⟨k, r, hk, rfl⟩ := exec_cursorOps hi h
    exact ⟨_, rfl, .cursor r hi hk⟩
  · obtain ⟨x, rfl⟩ := windowOp_next h
    exact ⟨_, rfl, .peeked _⟩
  · obtain ⟨x, rfl⟩ := exec_windowEdits hi h
    exact ⟨_, rfl, .edited x hi⟩
  · obtain ⟨-, rfl⟩ := windowOp_next h
    exact ⟨_, rfl, .loaded _ (Cursor.continues_get _ n _)⟩
  · refine ⟨s.work.eng, ?_, .reserved (by simpa using hi)⟩
    obtain rfl | rfl := hi <;> exact (Host.Outcome.next.inj h).symm

end

/-! ## What the result leaves unchanged -/

namespace BitReaderResult

variable {g g' : Engine} {n b w v : Nat} {i : Instr} (h : BitReaderResult g n b w v i g')
include h

theorem continues : g.bc.Continues g'.bc := by
  cases h with
  | cursor _ _ hk | loaded _ hk => exact hk
  | peeked | edited | reserved => exact g.bc.continues_self

theorem regs_eq : { g'.regs with ret := g.regs.ret } = g.regs := by cases h <;> rfl

/-- The operations on windows alone leave the cursor. -/
theorem bc_eq (hi : i ∈ .wPeek n w :: windowEdits n w v) : g'.bc = g.bc := by
  cases h with
  | cursor _ hc =>
    have : (cursorOps n b).Disjoint (.wPeek n w :: windowEdits n w v) := by simp [cursorOps, windowEdits]
    exact absurd hi (this hc)
  | loaded => simp [windowEdits] at hi
  | peeked | edited | reserved => rfl

/-- Only the edits of a window and W_LOAD write a window. -/
theorem bw_eq (hi : i ∉ windowEdits n w v ++ [.wLoad n w]) : g'.bw = g.bw := by
  cases h with
  | edited _ he => exact absurd (List.mem_append_left _ he) hi
  | loaded => exact absurd (List.mem_append_right _ (List.mem_singleton_self _)) hi
  | cursor | peeked | reserved => rfl

/-- No window but the one named first is written. -/
theorem bw_other {x : Nat} (hx : x ≠ w) : g'.bw[x]? = g.bw[x]? := by
  cases h with
  | edited | loaded => exact List.getElem?_set_ne hx.symm
  | cursor | peeked | reserved => rfl

end BitReaderResult

/-! ## Reads with the error flag set (R141) -/

section
variable {s t : State}

theorem exec_read_of_err {n : Nat} {i : Instr} (hi : i ∈ [.peek n, .get n, .get1, .byteAlign])
    (he : s.work.eng.bc.err = true) (h : exec i s = .next t) : t = s.setRet 0 := by
  have frozen {f : Cursor → Nat × Cursor} (hf : f s.work.eng.bc = (0, s.work.eng.bc)) (h : cursorRead f s = .next t) :
      t = s.setRet 0 := by
    rw [cursorRead_next h, hf]
    rfl
  have hfail := Cursor.fail_of_err he
  have hread := Cursor.canRead_of_err (c := s.work.eng.bc) (h := he)
  have hget (k : Nat) : s.work.eng.bc.get s.inMem k = (0, s.work.eng.bc) := by rw [Cursor.get_fail _ (hread k), hfail]
  revert i
  simp only [List.forall_mem_cons, List.not_mem_nil, false_imp_iff, implies_true, and_true]
  refine ⟨frozen ?_, frozen (hget n), frozen (hget 1), frozen (f := fun k => (k.alignCount, k.byteAlign)) ?_⟩
  · rw [Cursor.peek_fail _ (hread n), hfail]
  · rw [Cursor.alignCount_of_err he, Cursor.byteAlign_of_err he]

theorem exec_flush_of_err {n : Nat} (he : s.work.eng.bc.err = true) (h : exec (.flush n) s = .next t) : t = s := by
  rw [cursorOp_next h, Cursor.flush_fail (Cursor.canRead_of_err n he), Cursor.fail_of_err he]
  rfl

end

/-! ## The statements -/

/-- Settles O14: the cursor an operation leaves keeps a set flag, and a set flag makes every read fail. -/
theorem errorFlagIsSticky : Obligations.ErrorFlagIsSticky := by
  intro s t n b w v i hi he h
  obtain ⟨g, rfl, hg⟩ := exec_bitReader_result hi h
  refine ⟨hg.continues.err he, fun hr => ?ret, fun hr => ?bc⟩
  case ret => rw [exec_read_of_err hr he h]; rfl
  case bc =>
    have hcases : i = .flush n ∨ i ∈ [.peek n, .get n, .get1, .byteAlign] := by
      simp only [List.mem_cons] at hr ⊢
      tauto
    obtain rfl | hr := hcases
    · rw [exec_flush_of_err he h]
    · rw [exec_read_of_err hr he h]; rfl

/-- Settles O16: an operation changes the engine alone, and of it what its form writes. -/
theorem bitReaderFrame : Obligations.BitReaderFrame := by
  intro s t n b w v i hi h
  obtain ⟨g, rfl, hg⟩ := exec_bitReader_result hi h
  have hbc := hg.continues
  exact ⟨fun _ => rfl, fun _ => rfl, rfl, rfl, rfl, rfl, rfl, rfl, rfl, rfl, rfl, rfl, hg.regs_eq, hbc.live, hbc.base, hbc.len,
    hg.bc_eq, hg.bw_eq, fun _ => hg.bw_other⟩

end Sys2Proof.Machine
end

section
/-! PROOFS. HCW (42_huffman_spectral.md R211 to R220, R227): which codebook an operation decodes, what its kind reads when the
code of an entry is next, and what it answers when no code is. -/

namespace Sys2Proof.Machine

/-! ## The operations and their codebooks (30_encoding.md R104) -/

/-- Instruction i is HCW cb, of kind k, and reads a table. -/
abbrev IsHcw (i : Instr) (cb : Nat) (k : Kind) : Prop :=
  decodeHcw cb = some i ∧ carriesTable cb = true ∧ kind cb = k

/-- An HCW that reads a table runs its codebook's program over the selected source. -/
theorem exec_hcw {i : Instr} {cb : Nat} (hi : decodeHcw cb = some i) (ht : carriesTable cb = true) (s : State) :
    exec i s = runBits (fun e => hcw e cb) s := by
  unfold decodeHcw at hi
  split at hi <;> cases hi
  case h_1 | h_13 | h_14 | h_15 | h_16 => exact absurd ht (by decide)
  all_goals rfl

theorem exec_hcw_ok {i : Instr} {cb : Nat} {k : Kind} {s : State} {g : Engine} (hi : IsHcw i cb k)
    (hr : s.sourceReady = true) (h : hcw s.env cb s.work.eng = .ok () g) : exec i s = .next (s.withEngine g) :=
  (exec_hcw hi.1 hi.2.1 s).trans (runBits_ok hr h)

/-- The book an HCW with a table reads: its own, or HCB[11] for a virtual codebook (R210). -/
theorem kind_of_carriesTable {cb : Nat} (ht : carriesTable cb = true) :
    kind cb = .quadSigned (min cb 11) ∨ kind cb = .quadUnsigned (min cb 11) ∨ kind cb = .pairSigned (min cb 11) ∨
      kind cb = .pairUnsigned (min cb 11) ∨ kind cb = .pairEscape (min cb 11) ∨
      kind cb = .pairEscapeLimited (min cb 11) (cb - 16) := by
  by_cases h : cb < 16
  · interval_cases cb <;> revert ht <;> decide
  · rw [Nat.min_eq_right (by omega)]
    simp only [kind]
    repeat rw [if_neg (by omega)]
    simp

/-! ## Raising (60_exceptions.md R460) -/

@[simp] theorem Engine.afterBits_bc_err (n : Nat) (g : Engine) : (g.afterBits n).bc.err = g.bc.err := by
  unfold Engine.afterBits
  split <;> rfl

/-- While BC.err is 0 a raise keeps its cause, and from the port it abandons the frame. -/
theorem runBits_abandons {p : Env → Vx Unit} {s : State} {c : Cause} {n : Nat} (hr : s.sourceReady = true)
    (herr : s.work.eng.bc.err = false)
    (h : p s.env s.work.eng =
      .error (adjust (s.work.eng.afterBits n).bc.err c) (s.work.eng.afterBits n)) :
    ∃ t, runBits p s = .next t ∧ abandonedWith c s.work.frm.hdrBytes s.work.ds s t := by
  rw [Engine.afterBits_bc_err, herr] at h
  exact ⟨_, runBits_error hr h, abandon_engine_abandonedWith c _ s⟩

/-! ## Codebooks 1 to 10 -/

/-- Settles O21: the kind of a signed book is its codeword alone. -/
theorem signedCodeword : Obligations.SignedCodeword := by
  intro s i cb en rest hr hp he hne hb
  refine ⟨fun hi _ => ?quad, fun hi _ => ?pair⟩
  case quad =>
    have hi : IsHcw i cb (.quadSigned cb) := (by decide : ∀ x ∈ _, IsHcw x.1 x.2 (.quadSigned x.2)) _ hi
    refine exec_hcw_ok hi hr ?_
    rw [hcw, hi.2.2]
    exact quadCodeword_eq hp he hne hb
  case pair =>
    have hi : IsHcw i cb (.pairSigned cb) := (by decide : ∀ x ∈ _, IsHcw x.1 x.2 (.pairSigned x.2)) _ hi
    refine exec_hcw_ok hi hr ?_
    rw [hcw, hi.2.2]
    exact pairCodeword_eq hp he hne hb

/-- Settles O22: the kind of an unsigned book is its codeword, then SGN over the tuple. -/
theorem unsignedCodeword : Obligations.UnsignedCodeword := by
  intro s i cb en signs rest hr hp he hne hs hb
  refine ⟨fun hi hl => ?quad, fun hi hl => ?pair⟩
  case quad =>
    have hi : IsHcw i cb (.quadUnsigned cb) := (by decide : ∀ x ∈ _, IsHcw x.1 x.2 (.quadUnsigned x.2)) _ hi
    refine exec_hcw_ok hi hr ?_
    rw [hcw, hi.2.2]
    exact quadSigned_eq hp he hne hl hs hb
  case pair =>
    have hi : IsHcw i cb (.pairUnsigned cb) := (by decide : ∀ x ∈ _, IsHcw x.1 x.2 (.pairUnsigned x.2)) _ hi
    refine exec_hcw_ok hi hr ?_
    rw [hcw, hi.2.2]
    exact pairSigned_eq hp he hne hl hs hb

/-! ## Codebook 11 and the virtual codebooks (R216, R217, R220) -/

/-- LAVCHK looks at the pair in Q. -/
theorem lavCheck_eq (e : Env) (k : Nat) (g : Engine) :
    lavCheck e k g = .ok () (g.setRegs { g.regs with
      q0 := if lavLimit e.par k < |g.regs.q0| ∨ lavLimit e.par k < |g.regs.q1| then 0 else g.regs.q0
      q1 := if lavLimit e.par k < |g.regs.q0| ∨ lavLimit e.par k < |g.regs.q1| then 0 else g.regs.q1 }) := by
  rw [lavCheck, setRegs_run]
  by_cases h : lavLimit e.par k < |g.regs.q0| ∨ lavLimit e.par k < |g.regs.q1|
  · have hx : lavExceeded (lavLimit e.par k) g.regs = true := by simpa [lavExceeded] using h
    simp only [hx, h, if_true]
  · have hx : lavExceeded (lavLimit e.par k) g.regs = false := by simpa [lavExceeded] using h
    simp only [hx, h, if_false, Bool.false_eq_true]

/-- Settles O23: both kinds begin with the escape codeword on HCB[11], and a virtual codebook adds LAVCHK. -/
theorem exec_escapeCodeword : Obligations.EscapeCodeword := by
  intro s en a b v w na nb signs ea eb rest hr h32 hp he hne hl hs hab hv hw hb
  have hesc := escapeCodeword_eq (e := s.env) (g := s.work.eng) h32 hp he hne hl hs hab hv hw hb
  refine ⟨exec_hcw_ok (by decide : IsHcw .hcw11 11 (.pairEscape 11)) hr hesc, fun i k hi => ?_⟩
  have hi : IsHcw i (16 + k) (.pairEscapeLimited 11 k) :=
    (by decide : ∀ x ∈ _, IsHcw x.1 (16 + x.2) (.pairEscapeLimited 11 x.2)) (i, k) hi
  refine exec_hcw_ok hi hr ?_
  rw [hcw, hi.2.2]
  exact (run_bind_ok hesc).trans (lavCheck_eq _ _ _)

/-! ## A table miss (R211) -/

/-- Whatever the kind, a miss of the codeword ends the operation. -/
theorem hcw_miss {e : Env} {cb : Nat} {c : Cause} {g h : Engine} (ht : carriesTable cb = true)
    (hm : codeword e (spectralBook e.par (min cb 11)) .huffCodeword g = .error c h) : hcw e cb g = .error c h := by
  have quad : quadCodeword e (min cb 11) g = .error c h := run_bind_error hm
  have pair : pairCodeword e (min cb 11) g = .error c h := run_bind_error hm
  rcases kind_of_carriesTable ht with hk | hk | hk | hk | hk | hk <;> rw [hcw, hk]
  · exact quad
  · exact run_bind_error quad
  · exact pair
  · exact run_bind_error pair
  · exact run_bind_error pair
  · exact run_bind_error (run_bind_error pair)

/-- Every HCW that reads a table, with the book it reads and the cause of a miss. -/
def hcwMisses (p : Params) : List (Instr × Book × Cause) :=
  ((List.range 32).filter carriesTable).filterMap fun cb =>
    (decodeHcw cb).map fun i => (i, spectralBook p (min cb 11), .huffCodeword)

theorem mem_hcwMisses {p : Params} {i : Instr} {b : Book} {c : Cause} (h : (i, b, c) ∈ hcwMisses p) :
    ∃ cb, decodeHcw cb = some i ∧ carriesTable cb = true ∧ b = spectralBook p (min cb 11) ∧ c = .huffCodeword := by
  obtain ⟨cb, hcb, heq⟩ := List.mem_filterMap.1 h
  obtain ⟨j, hj, heq⟩ := Option.map_eq_some_iff.1 heq
  cases heq
  exact ⟨cb, hj, (List.mem_filter.1 hcb).2, rfl, rfl⟩

/-- Settles O26: the codeword comes first in every HCW with a table and in SFD, and its miss is the operation's. -/
theorem tableMissRaises : Obligations.TableMissRaises := by
  intro s i book c bits rest hr hi hne hlen hno herr hb
  have hmiss (miss : Cause) := codeword_miss (e := s.env) (miss := miss) hlen hne hb hno
  obtain hi | hi := List.mem_append.1 (show (i, book, c) ∈ hcwMisses s.par ++ [(.sfd, s.par.sfcb, .huffSf)] from hi)
  · obtain ⟨cb, hd, ht, rfl, rfl⟩ := mem_hcwMisses hi
    rw [exec_hcw hd ht]
    exact runBits_abandons hr herr (hcw_miss ht (hmiss _))
  · cases List.mem_singleton.1 hi
    exact runBits_abandons (p := returning sfdOp) hr herr
      (run_bind_error (run_bind_error (run_bind_error (hmiss .huffSf))))

/-! ## Codebooks without a table (R227) -/

/-- Settles O24: the kinds without a table read nothing and write nothing, and the reserved one raises at once. -/
theorem codewordWithoutTable : Obligations.CodewordWithoutTable := by
  intro s
  refine ⟨?_, fun herr => ?_⟩
  · simp only [List.forall_mem_cons, List.not_mem_nil, false_imp_iff, implies_true, and_true]
    exact ⟨rfl, rfl, rfl, rfl⟩
  · have hraise : hcw s.env 12 s.work.eng = .error .reservedValue s.work.eng := by
      show EStateM.Result.error (adjust s.work.eng.bc.err .reservedValue) s.work.eng = _
      rw [herr]
      rfl
    exact ⟨_, runWork_error (p := fun e => Wk.ofVx (hcw e 12)) (ofVx_error hraise), abandon_engine_abandonedWith _ _ s⟩

end Sys2Proof.Machine
end

section
/-! PROOFS. SGN and ESC on their own (30_encoding.md R103, 42_huffman_spectral.md R218, R219). -/

namespace Sys2Proof.Machine

/-! ## Signs -/

theorem lanesFrom_zero (r : VlcRegs) (d : Nat) : lanesFrom r 0 d = r.lanes d := by
  simp only [lanesFrom, VlcRegs.lanes, Nat.zero_add]

theorem setLanes_lanesFrom (r : VlcRegs) (n : Nat) : ∀ j, setLanes r j (lanesFrom r j n) = r := by
  induction n with
  | zero => exact fun _ => rfl
  | succ n ih => exact fun j => by rw [lanesFrom_succ, setLanes, setQ_self, ih]

theorem applySigns_nil (l : List Int) : applySigns l [] = l := by
  induction l with
  | nil => rfl
  | cons v r ih => simp [applySigns, ih]

theorem signCount_of_all_zero {l : List Int} (h : l.all (fun v => v == 0) = true) : signCount l = 0 := by
  simpa [signCount] using h

/-- SGN over d lanes: an all-zero tuple has no sign, so that nothing is read or written. -/
theorem execSgn_eq {s : State} {p d : Nat} {signs rest : List Bool} (hd : sgnSize p = d) (h4 : d ≤ 4)
    (hr : s.sourceReady = true) (hb : s.work.eng.sourceBits s.inMem = signs ++ rest)
    (hs : signs.length = signCount (s.work.eng.regs.lanes d)) :
    execSgn p s = .next (s.withEngine ((s.work.eng.afterBits signs.length).setRegs
      (setLanes s.work.eng.regs 0 (applySigns (s.work.eng.regs.lanes d) signs)))) := by
  subst hd
  rw [execSgn]
  split
  next hz =>
    rw [signCount_of_all_zero hz] at hs
    rw [List.length_eq_zero_iff.1 hs, applySigns_nil, ← lanesFrom_zero, setLanes_lanesFrom, List.length_nil,
      Engine.afterBits_zero]
    rfl
  next =>
    rw [← lanesFrom_zero] at hs ⊢
    exact runBits_ok hr (sgnFrom_eq _ 0 _ signs rest (by omega) hs hb)

/-- Settles O29: SGN writes the lanes of its tuple, four for selector 0 and two for selector 1. -/
theorem signBits : Obligations.SignBits := by
  intro s signs rest hr hb
  refine ⟨fun hs => ?_, fun hs => ?_⟩
  · rw [← setLanes_quad _ _ (applySigns_length _ _)]
    exact execSgn_eq rfl (by omega) hr hb hs
  · rw [← setLanes_pair _ _ (applySigns_length _ _)]
    exact execSgn_eq rfl (by omega) hr hb hs

/-! ## Escapes -/

/-- One more 1 after N has reached ESC_MAX_N raises. -/
theorem escPrefix_too_long {e : Env} : ∀ (k f n : Nat) (g : Engine) (r : List Bool), k < f → n + k = e.par.escMaxN →
    g.sourceBits e.mem = List.replicate (k + 1) true ++ r →
    escPrefix e f n g = .error (adjust (g.afterBits (k + 1)).bc.err .huffCodeword) (g.afterBits (k + 1)) := by
  intro k
  induction k with
  | zero =>
    intro f n g r hf hn hg
    obtain ⟨f, rfl⟩ : ∃ j, f = j + 1 := ⟨f - 1, by omega⟩
    rw [escPrefix, run_bind_ok (get1_eq (show g.sourceBits e.mem = true :: r from hg)), if_pos rfl, if_pos (by omega)]
    rfl
  | succ k ih =>
    intro f n g r hf hn hg
    obtain ⟨f, rfl⟩ : ∃ j, f = j + 1 := ⟨f - 1, by omega⟩
    have hg1 : g.sourceBits e.mem = true :: (List.replicate (k + 1) true ++ r) := hg
    rw [escPrefix, run_bind_ok (get1_eq hg1), if_pos rfl, if_neg (by omega),
      ih f (n + 1) (g.afterBits 1) r (by omega) (by omega) (sourceBits_after (l := [true]) hg1), Engine.afterBits_add,
      Nat.add_comm 1]

theorem escOp_too_long {e : Env} {g : Engine} {i : Nat} {r : List Bool} (h : |g.regs.q i| = 16)
    (h4 : 4 ≤ e.par.escMaxN) (hg : g.sourceBits e.mem = List.replicate (e.par.escMaxN - 3) true ++ r) :
    escOp e i g = .error (adjust (g.afterBits (e.par.escMaxN - 3)).bc.err .huffCodeword)
      (g.afterBits (e.par.escMaxN - 3)) := by
  obtain ⟨k, hk⟩ : ∃ k, e.par.escMaxN - 3 = k + 1 := ⟨e.par.escMaxN - 4, by omega⟩
  rw [hk] at hg ⊢
  have he : isEscape (g.regs.q i) = true := by simpa [isEscape] using h
  rw [escOp, run_bind_ok (regs_run g), if_pos he]
  exact run_bind_error (escPrefix_too_long k _ 4 g r (by omega) (by omega) hg)

/-- ESC on an escape runs its program over the selected source. -/
theorem exec_esc {s : State} {i : Nat} (hi : i < 2) (h : |s.work.eng.regs.q i| = 16) :
    exec (.esc i) s = runBits (fun e => escOp e i) s := by
  show execEsc i s = _
  rw [execEsc, Nat.mod_eq_of_lt hi, if_pos (by simpa [isEscape] using h)]

theorem exec_esc_none {s : State} {i : Nat} (hi : i < 2) (h : |s.work.eng.regs.q i| ≠ 16) :
    exec (.esc i) s = .next s := by
  show execEsc i s = _
  rw [execEsc, Nat.mod_eq_of_lt hi, if_neg (by simpa [isEscape] using h)]

/-- Settles O28: the magnitude decides whether ESC reads, and the ones it reads whether it ends or raises. -/
theorem escapeSequence : Obligations.EscapeSequence := by
  intro s i hi
  refine ⟨exec_esc_none hi, fun n off rest h hr h4 hn h32 ho hb => ?read, fun rest h hr h4 herr hb => ?tooLong⟩
  case read =>
    have hlen : (escapeBits n off).length = 2 * n - 3 := by
      rw [escapeBits_length h4]
      omega
    rw [exec_esc hi h, ← hlen]
    exact runBits_ok hr (escOp_eq h h4 hn h32 ho hb)
  case tooLong =>
    rw [exec_esc hi h]
    exact runBits_abandons hr herr (escOp_too_long h h4 hb)

end Sys2Proof.Machine
end

section
/-! PROOFS. The operations that read a scale-factor difference (43_scalefactor_rvlc.md R251, R255, R263, R264): what each returns,
by the codeword its source or its run holds next. -/

namespace Sys2Proof.Machine

/-! ## Returning a number -/

theorem returning_ok {p : Env → Vx Int} {e : Env} {g h : Engine} {v : Int} (hp : p e g = .ok v h) :
    returning p e g = .ok () (h.setRegs { h.regs with ret := v }) := run_bind_ok hp

/-- An operation over a run, from the port: it needs the cursor, and leaves all but the engine. -/
theorem runLive_returning_ok {p : Env → Vx Int} {s : State} {g : Engine} {v : Int} (hl : s.work.eng.bc.live = true)
    (hp : p s.env s.work.eng = .ok v g) :
    runLive (fun e => Wk.ofVx (returning p e)) s = .next (s.withEngine (g.setRegs { g.regs with ret := v })) :=
  (runLive_of_live hl).trans (runWork_ok (ofVx_ok (returning_ok hp)))

/-! ## SFD and NPCM (R251, R255) -/

theorem sfdOp_eq {e : Env} {g : Engine} {en : Entry} {k : Int} {rest : List Bool} (hp : e.par.sfcb.prefixFree)
    (he : en ∈ e.par.sfcb) (hne : en.code ≠ []) (hk : en.value = [k]) (hg : g.sourceBits e.mem = en.code ++ rest) :
    sfdOp e g = .ok (k - 60) ((g.afterBits en.code.length).setRegs { g.regs with cwLen := en.code.length }) := by
  have hindex : codewordIndex e e.par.sfcb .huffSf g =
      .ok k ((g.afterBits en.code.length).setRegs { g.regs with cwLen := en.code.length }) := by
    rw [codewordIndex, run_bind_ok (codeword_eq hp he hne hg), hk]
    rfl
  exact run_bind_ok hindex

theorem npcmOp_eq {e : Env} {g : Engine} {bits rest : List Bool} (h9 : bits.length = 9)
    (hg : g.sourceBits e.mem = bits ++ rest) :
    npcmOp e g = .ok ((bitsToNat bits : Int) - 256) (g.afterBits 9) := by
  have hread := getN_eq hg (List.ne_nil_of_length_pos (by omega)) (by omega)
  rw [h9] at hread
  exact run_bind_ok hread

/-- Settles O27: SFD is a codeword of its book and NPCM a read of nine bits, each with an offset. -/
theorem scaleFactorDifferences : Obligations.ScaleFactorDifferences := by
  intro s rest hr
  refine ⟨fun en k hp he hne hk hb => ?sfd, fun bits h9 hb => ?npcm⟩
  case sfd => exact runBits_ok hr (returning_ok (p := sfdOp) (sfdOp_eq hp he hne hk hb))
  case npcm =>
    have h := runBits_ok hr (returning_ok (p := npcmOp) (npcmOp_eq (e := s.env) h9 hb))
    rwa [Engine.afterBits_regs] at h

/-! ## One codeword of each run (R263, R264) -/

section
variable {e : Env} {g : Engine} {en : Entry} {v : Int} {rest : List Bool}

theorem rvlcEscdOp_eq (hp : e.par.rvlcEsc.prefixFree) (he : en ∈ e.par.rvlcEsc) (hne : en.code ≠ []) (hv : en.value = [v])
    (hr : Run.bits e.mem g.bc g.regs.escRun = en.code ++ rest) :
    rvlcEscdOp e g = .ok v (g.setRegs { g.regs with
      escRun := { g.regs.escRun with pos := g.regs.escRun.pos + en.code.length }
      cwLen := en.code.length }) := by
  rw [rvlcEscdOp, runCodeword_eq hp he hne hr, hv]
  rfl

theorem rvlcEscdOp_miss (hb : e.par.rvlcEsc ≠ [])
    (hno : ∀ x ∈ e.par.rvlcEsc, ¬ x.code <+: Run.bits e.mem g.bc g.regs.escRun) :
    rvlcEscdOp e g = .ok 99 (g.setRegs { g.regs with
      escRun := { g.regs.escRun with
        pos := g.regs.escRun.pos + min (Run.bits e.mem g.bc g.regs.escRun).length (maxCodeLen e.par.rvlcEsc) } }) := by
  rw [rvlcEscdOp, runCodeword_miss hb hno]
  rfl

theorem rvlcIndex_eq (hp : e.par.rvlcSf.prefixFree) (he : en ∈ e.par.rvlcSf) (hne : en.code ≠ []) (hv : en.value = [v])
    (hr : Run.bits e.mem g.bc g.regs.sfRun = en.code ++ rest) :
    rvlcIndex e g = .ok v (g.setRegs { g.regs with
      sfRun := { g.regs.sfRun with pos := g.regs.sfRun.pos + en.code.length }
      cwLen := en.code.length }) := by
  rw [rvlcIndex, runCodeword_eq hp he hne hr, hv]
  rfl

theorem rvlcIndex_miss (hb : e.par.rvlcSf ≠ []) (hno : ∀ x ∈ e.par.rvlcSf, ¬ x.code <+: Run.bits e.mem g.bc g.regs.sfRun) :
    rvlcIndex e g = .ok 99 (g.setRegs { g.regs with
      sfRun := { g.regs.sfRun with
        pos := g.regs.sfRun.pos + min (Run.bits e.mem g.bc g.regs.sfRun).length (maxCodeLen e.par.rvlcSf) } }) := by
  rw [rvlcIndex, runCodeword_miss hb hno]
  rfl

end

/-- Settles O30: the escape run holds a code of the book, or none. -/
theorem rvlcEscape : Obligations.RvlcEscape := fun _ hl =>
  ⟨fun _ _ _ hp he hne hv hr => runLive_returning_ok hl (rvlcEscdOp_eq hp he hne hv hr),
    fun hb hno => runLive_returning_ok hl (rvlcEscdOp_miss hb hno)⟩

/-! ## The difference with its escape (R263) -/

section
variable {e : Env} {g h : Engine} {k : Int} (hi : rvlcIndex e g = .ok k h)
include hi

/-- The sentinel, or an index that is no escape, is the answer as it stands. -/
theorem rvlcSfdOp_plain (hk : k = 99 ∨ k ≠ e.par.rvlcEscVal ∧ k ≠ - e.par.rvlcEscVal) : rvlcSfdOp e g = .ok k h := by
  rw [rvlcSfdOp, run_bind_ok hi]
  obtain rfl | h99 := eq_or_ne k 99
  · rw [if_pos rfl, run_pure]
  · obtain ⟨hpos, hneg⟩ := hk.resolve_left h99
    rw [if_neg h99, if_neg hpos, if_neg hneg, run_pure]

/-- An escape index is extended away from zero, unless the escape run answers the sentinel. -/
theorem rvlcSfdOp_escaped {x : Int} {h' : Engine} (h0 : 0 < e.par.rvlcEscVal) (h99 : k ≠ 99)
    (hk : k = e.par.rvlcEscVal ∨ k = - e.par.rvlcEscVal) (hx : rvlcEscdOp e h = .ok x h') :
    rvlcSfdOp e g = .ok (if x = 99 then 99 else if k = e.par.rvlcEscVal then k + x else k - x) h' := by
  rw [rvlcSfdOp, run_bind_ok hi, if_neg h99]
  rcases hk with hpos | hneg
  · rw [if_pos hpos, if_pos hpos, run_bind_ok hx, run_pure]
  · have hpos : k ≠ e.par.rvlcEscVal := by omega
    rw [if_neg hpos, if_pos hneg, if_neg hpos, run_bind_ok hx, run_pure]

end

/-- Settles O31: the index decides whether the escape run is read, and a miss of either run is the sentinel 99. -/
theorem rvlcDifference : Obligations.RvlcDifference := by
  intro s hl h0
  refine ⟨fun en k rest hp he hne hv h99 hr => ?_, fun hb hno => ?miss⟩
  case miss =>
    exact ⟨_, runLive_returning_ok hl (rvlcSfdOp_plain (rvlcIndex_miss hb hno) (.inl rfl)), rfl, rfl, rfl, rfl⟩
  have hi := rvlcIndex_eq (e := s.env) (g := s.work.eng) hp he hne hv hr
  refine ⟨fun hpos hneg => ?plain, fun ex x more hk hp' he' hne' hv' hx99 hr' => ?escaped, fun hk hb hno => ?escapeMiss⟩
  case plain => exact runLive_returning_ok hl (rvlcSfdOp_plain hi (.inr ⟨hpos, hneg⟩))
  case escaped =>
    have hx := rvlcSfdOp_escaped hi h0 h99 hk (rvlcEscdOp_eq hp' he' hne' hv' hr')
    rw [if_neg hx99] at hx
    exact runLive_returning_ok hl hx
  case escapeMiss =>
    exact ⟨_, runLive_returning_ok hl (rvlcSfdOp_escaped hi h0 h99 hk (rvlcEscdOp_miss hb hno)), rfl, rfl, rfl⟩

end Sys2Proof.Machine
end

section
/-! PROOFS. SCALE_FACTOR_DATA (43_scalefactor_rvlc.md R252 to R256): what a value it stores can be, whatever bits come. -/

namespace Sys2Proof.Machine

/-! ## What the value of a program can be -/

/-- Whenever the program ends without raising, its value satisfies R. -/
def Yields {α : Type} (R : α → Prop) (p : Vx α) : Prop := ∀ ⦃g a h⦄, p g = .ok a h → R a

theorem yields_any {α : Type} (p : Vx α) : Yields (fun _ => True) p := fun _ _ _ _ => trivial

theorem yields_pure {α : Type} {R : α → Prop} {a : α} (ha : R a) : Yields R (pure a) := by
  intro g b h hb
  cases hb
  exact ha

theorem yields_raise {α : Type} {R : α → Prop} (c : Cause) : Yields R (Vx.raise c) := by
  intro g a h ha
  cases ha

theorem yields_bind {α β : Type} {Q : α → Prop} {R : β → Prop} {x : Vx α} {f : α → Vx β} (hx : Yields Q x)
    (hf : ∀ a, Q a → Yields R (f a)) : Yields R (x >>= f) := by
  intro g b h hb
  obtain ⟨a, g', ha, hb⟩ := bind_ok_inv hb
  exact hf a (hx ha) hb

/-! ## One band (R252, R256) -/

/-- What a band of codebook cb can store: a checked scale factor under a table, 0 under codebook 0. -/
def StoredFor (cb : Nat) (v : Int) : Prop := (carriesTable cb = true → 0 ≤ v ∧ v ≤ 255) ∧ (cb = 0 → v = 0)

theorem storedFor_zero : StoredFor 0 0 := ⟨fun h => absurd h (by decide), fun _ => rfl⟩

theorem sfInRange_iff (v : Int) : sfInRange v = true ↔ 0 ≤ v ∧ v ≤ 255 := by simp [sfInRange]

theorem sfBand_of_carriesTable {cb : Nat} (ht : carriesTable cb = true) (e : Env) : sfBand e cb = sfSpectral e := by
  rcases kind_of_carriesTable ht with hk | hk | hk | hk | hk | hk <;> rw [sfBand, hk]

/-- The range check comes last before the store. -/
theorem sfSpectral_yields (e : Env) : Yields (fun v => 0 ≤ v ∧ v ≤ 255) (sfSpectral e) := by
  refine yields_bind (yields_any _) fun d _ => yields_bind (yields_any _) fun r _ => yields_bind (yields_any _) fun _ _ => ?_
  split
  next hin => exact yields_pure ((sfInRange_iff _).1 hin)
  next => exact yields_raise _

theorem sfBand_yields (e : Env) (cb : Nat) : Yields (StoredFor cb) (sfBand e cb) := by
  intro g v h hv
  refine ⟨fun ht => ?table, fun hz => ?zero⟩
  case table =>
    rw [sfBand_of_carriesTable ht] at hv
    exact sfSpectral_yields e hv
  case zero =>
    subst hz
    exact yields_pure (R := (· = 0)) rfl hv

/-! ## Bands and groups, in order -/

section
variable {f : Nat → Vx Int} {R : Nat → Int → Prop} (hf : ∀ cb, Yields (R cb) (f cb))
include hf

theorem mapBands_yields : ∀ cbs, Yields (List.Forall₂ R cbs) (mapBands f cbs)
  | [] => yields_pure .nil
  | cb :: cbs => yields_bind (hf cb) fun _ hv => yields_bind (mapBands_yields cbs) fun _ hvs => yields_pure (.cons hv hvs)

theorem mapGroups_yields : ∀ cbs, Yields (List.Forall₂ (List.Forall₂ R) cbs) (mapGroups f cbs)
  | [] => yields_pure .nil
  | g :: cbs => yields_bind (mapBands_yields hf g) fun _ hv =>
      yields_bind (mapGroups_yields cbs) fun _ hvs => yields_pure (.cons hv hvs)

end

theorem scaleFactorData_yields (e : Env) (gain : Nat) (cbs : List (List Nat)) :
    Yields (List.Forall₂ (List.Forall₂ StoredFor) cbs) (scaleFactorData e gain cbs) :=
  yields_bind (yields_any _) fun _ _ => yields_bind (mapGroups_yields (sfBand_yields e) cbs) fun _ hv =>
    yields_bind (yields_any _) fun _ _ => yields_pure hv

/-- Related lists are related at every index, past their end too when the default values are. -/
theorem forall₂_getD {α β : Type} {R : α → β → Prop} {a : α} {b : β} (hd : R a b) {l : List α} {m : List β}
    (h : List.Forall₂ R l m) (i : Nat) : R (l.getD i a) (m.getD i b) := by
  induction h generalizing i with
  | nil => exact hd
  | cons hx _ ih =>
    cases i with
    | zero => exact hx
    | succ i => exact ih i

/-- Settles O33: the stored values stand band for band beside their codebooks, each as its codebook allows. -/
theorem scaleFactorRange : Obligations.ScaleFactorRange := by
  intro e gain cbs g g' sf hsf
  have hrel := scaleFactorData_yields e gain cbs hsf
  refine ⟨hrel.length_eq.symm, fun k _ => ?_⟩
  have hgroup := forall₂_getD .nil hrel k
  exact ⟨hgroup.length_eq.symm, fun b _ => forall₂_getD storedFor_zero hgroup b⟩

end Sys2Proof.Machine
end

section
/-! PROOFS. The SBR header, Reset and the frequency tables (46_sbr.md R354, R355, R366). -/

namespace Sys2Proof.Machine

/-! ## Reset detection (R354) -/

/-- Reset told by the equality of the seven fields. -/
theorem sbrFieldsDiffer_eq_decide (g h : SbrHeader) :
    sbrFieldsDiffer g h = decide (¬ (g.ampRes = h.ampRes ∧ g.startFreq = h.startFreq ∧ g.stopFreq = h.stopFreq ∧
      g.xoverBand = h.xoverBand ∧ g.freqScale = h.freqScale ∧ g.alterScale = h.alterScale ∧
      g.noiseBands = h.noiseBands)) := by
  rw [Bool.eq_iff_iff]
  simp only [sbrFieldsDiffer, Bool.or_eq_true, bne_iff_ne, decide_eq_true_eq, not_and_or, or_assoc]

@[simp] theorem sbrReset_none (h : SbrHeader) : sbrReset none h = true := rfl

@[simp] theorem sbrReset_some (g h : SbrHeader) : sbrReset (some g) h = sbrFieldsDiffer g h := rfl

@[simp] theorem sbrDetect_none (b : SbrState) : sbrDetect b none = { b with reset := false } := rfl

@[simp] theorem sbrDetect_some (b : SbrState) (h : SbrHeader) :
    sbrDetect b (some h) = { b with hdr := some h, hdrPrev := some h, reset := sbrReset b.hdrPrev h } := rfl

/-! ## The required properties of the tables (R355) -/

theorem increasing_iff_pairwise (l : List Nat) : increasing l = true ↔ l.Pairwise (· < ·) := by
  rw [← List.isChain_iff_pairwise]
  induction l with
  | nil => simp [increasing]
  | cons a r ih =>
    cases r with
    | nil => simp [increasing]
    | cons b r => simp [increasing, ih]

/-- The test of the tables is the list of the properties R355 requires of them. -/
theorem sbrTablesLegal_iff (p : Params) (h : SbrHeader) (t : SbrTables) : sbrTablesLegal p h t = true ↔
    (∀ l ∈ [t.fMaster, t.fHigh, t.fLow, t.fNoise, t.fLim], l.Pairwise (· < ·) ∧ l.length ≤ p.sbrMaxBands) ∧
    h.xoverBand < t.fMaster.length - 1 ∧ t.fHigh.length + h.xoverBand = t.fMaster.length ∧
    t.kx = t.fHigh.headD 0 ∧ t.kx + t.m = t.fHigh.getLastD 0 ∧ t.kx + t.m ≤ 64 ∧ 0 < t.m := by
  simp only [sbrTablesLegal, Bool.and_eq_true, decide_eq_true_eq, increasing_iff_pairwise, List.all_eq_true,
    List.forall_mem_cons]
  tauto

/-- N_high and the crossover band make up N_master (R355). -/
theorem sbrTablesLegal_bandCount {p : Params} {h : SbrHeader} {t : SbrTables} (ht : sbrTablesLegal p h t = true) :
    t.fHigh.length - 1 + h.xoverBand = t.fMaster.length - 1 := by
  obtain ⟨-, hx, hcount, -⟩ := (sbrTablesLegal_iff p h t).1 ht
  omega

/-! ## What the tables depend on (R355, R366) -/

theorem sbrBuildTables_eq_filter (p : Params) (h : SbrHeader) (rate : Nat) :
    sbrBuildTables p h rate = (sbrFreqTables h rate).filter (sbrTablesLegal p h) := by
  unfold sbrBuildTables
  cases sbrFreqTables h rate with
  | none => rfl
  | some t => exact Option.filter_some.symm

/-- The master table is the answer of the configuration's function, which sees neither amp_res nor the crossover band. -/
theorem map_fMaster_sbrFreqTables (h : SbrHeader) (rate : Nat) :
    (sbrFreqTables h rate).map SbrTables.fMaster = Config.sbrMaster { h with ampRes := 0, xoverBand := 0 } rate := by
  unfold sbrFreqTables
  cases Config.sbrMaster { h with ampRes := 0, xoverBand := 0 } rate <;> rfl

/-- Over one master table, other crossover bands leave other numbers of bands. -/
theorem fHigh_length_ne_of_xoverBand_ne {p : Params} {g h : SbrHeader} {t u : SbrTables} (hx : g.xoverBand ≠ h.xoverBand)
    (hm : u.fMaster = t.fMaster) (ht : sbrTablesLegal p h t = true) (hu : sbrTablesLegal p g u = true) :
    u.fHigh.length - 1 ≠ t.fHigh.length - 1 := by
  have hcountT := sbrTablesLegal_bandCount ht
  have hcountU := sbrTablesLegal_bandCount hu
  rw [hm] at hcountU
  omega

/-- Settles O45: Reset compares the seven fields, legal tables share N_master between N_high and the crossover band, and the
configuration's functions are not given what the tables do not depend on. -/
theorem sbrHeaderAndTables : Obligations.SbrHeaderAndTables := by
  intro p b g h rate x a
  refine ⟨sbrDetect_none b, ?first, ?detect, sbrBuildTables_eq_filter p h rate, fun t ht => ?legal, ?master,
    fun t u hx hm ht hu => fHigh_length_ne_of_xoverBand_ne hx hm ht hu, rfl⟩
  case first => rw [sbrDetect_some, sbrReset_none]
  case detect => rw [sbrDetect_some, sbrReset_some, sbrFieldsDiffer_eq_decide]
  case legal =>
    obtain ⟨htables, -, -, hkx, hlast, hmax, hpos⟩ := (sbrTablesLegal_iff p h t).1 ht
    exact ⟨htables, sbrTablesLegal_bandCount ht, hkx, hlast, hpos, hmax⟩
  case master => simp only [map_fMaster_sbrFreqTables]

end Sys2Proof.Machine
end

section
/-! PROOFS. The handle API (48_orchestrator.md R400 to R403, R409, R433): how ORCH moves, what OPEN, SET_CONFIG, POST_SEEK_RESET
and CLOSE leave where they are accepted, and the output conversion (R428). -/

namespace Sys2Proof.Machine

/-! ## The order of the commands (R400) -/

/-- Where ORCH may move from a to b in one step. -/
def OrchMoves (a b : Orch) : Prop :=
  b = a ∨ (a = .unopened ∧ b = .opened) ∨ (a = .opened ∧ b = .initialized) ∨ (a = .initialized ∧ b = .decoding) ∨
    ((a = .opened ∨ a = .initialized ∨ a = .decoding) ∧ b = .closed)

theorem legalIn_open_iff (o : Orch) : legalIn 0 o = true ↔ o = .unopened := by cases o <;> decide
theorem legalIn_init_iff (o : Orch) : legalIn 3 o = true ↔ o = .opened := by cases o <;> decide
theorem legalIn_setConfig_iff (o : Orch) : legalIn 2 o = true ↔ o = .opened := by cases o <;> decide
theorem legalIn_decode_iff (o : Orch) : legalIn 5 o = true ↔ o = .initialized ∨ o = .decoding := by cases o <;> decide

/-- POST_SEEK_RESET and CLOSE need an open handle. -/
theorem legalIn_stream_iff {code : Nat} (hc : code ∈ [6, 7]) (o : Orch) :
    legalIn code o = true ↔ o = .opened ∨ o = .initialized ∨ o = .decoding := by
  fin_cases hc <;> cases o <;> decide

/-- DECODE moves to Decoding, or stays there. -/
theorem orchMoves_decoding {o : Orch} (hl : legalIn 5 o = true) : OrchMoves o .decoding := by
  obtain rfl | rfl := (legalIn_decode_iff o).1 hl
  · exact .inr (.inr (.inr (.inl ⟨rfl, rfl⟩)))
  · exact .inl rfl

theorem Executes.orch_moves {i : Instr} {s t : State} (h : Executes s i t) : OrchMoves s.orch t.orch := by
  cases h with
  | opened hl => exact .inr (.inl ⟨(legalIn_open_iff _).1 hl, rfl⟩)
  | initialized _ hl => exact .inr (.inr (.inl ⟨(legalIn_init_iff _).1 hl, rfl⟩))
  | tagSkipped hl | headerRaised hl | frameRaised hl | delivered hl => exact orchMoves_decoding hl
  | closed hl => exact .inr (.inr (.inr (.inr ⟨(legalIn_stream_iff (by decide) _).1 hl, rfl⟩)))
  | _ => exact .inl rfl

/-- A fetch that leaves ORCH as s has it: in the state an instruction runs in, or at the end of the step. -/
def Fetched.SameOrch (s : State) : Fetched → Prop
  | .idle => True
  | .run _ u => u.orch = s.orch
  | .stop o => ∀ t, o = .next t → t.orch = s.orch

theorem decoded_sameOrch (a : Except DecodeError Instr) {s u : State} (h : u.orch = s.orch) :
    (decoded a u).SameOrch s := by
  cases a with
  | ok i => exact h
  | error e => exact trivial

theorem fetchElement_sameOrch (s : State) : (fetchElement s).SameOrch s := by
  rw [fetchElement]
  split
  · split
    · rintro t ⟨⟩
      rfl
    · exact decoded_sameOrch _ rfl
  · rintro t ⟨⟩

theorem fetch_sameOrch (s : State) : (fetch s).SameOrch s := by
  cases hq : s.pending with
  | nil => rw [fetch, hq]; exact trivial
  | cons x r =>
    rw [fetch_cons hq]
    cases x with
    | command | bitReader | vlc => exact decoded_sameOrch _ rfl
    | element => exact fetchElement_sameOrch _
    | create base len =>
      rintro t ⟨⟩
      rfl

/-- Settles O7: a fetch leaves ORCH, and every outcome of an instruction moves it along the order. -/
theorem commandOrder : Obligations.CommandOrder := by
  intro s t h
  have hf := fetch_sameOrch s
  rw [step] at h
  split at h
  next => cases h; exact .inl rfl
  next i u hu =>
    rw [hu] at hf
    have hm := (exec_executes h).orch_moves
    rwa [show u.orch = s.orch from hf] at hm
  next o ho =>
    rw [ho] at hf
    exact .inl (hf t h)

/-! ## The accepted commands -/

/-- Settles O46: OPEN tests ORCH, then the allocation. -/
theorem openResets : Obligations.OpenResets := by
  intro s ho
  have hl : legalIn 0 s.orch = true := (legalIn_open_iff _).2 ho
  refine ⟨fun ha => ⟨openState s, ?_, ?_⟩, fun ha => ?_⟩
  · show execOpen s = _
    simp [execOpen, hl, ha]
  · and_intros <;> rfl
  · show execOpen s = _
    simp [execOpen, hl, ha, refuseRes]

/-- The object types a capability set decodes (R403). -/
theorem decodable_iff (c : Cap) (ot : Nat) : decodable c ot = true ↔
    (ot = 1 ∧ c.main = true) ∨ ot = 2 ∨ (ot = 4 ∧ c.ltp = true) ∨ (ot = 17 ∧ c.er = true) ∨
      (ot = 19 ∧ c.ltp = true ∧ c.er = true) ∨ (ot = 23 ∧ c.ld = true) := by
  unfold decodable
  split <;> simp_all

theorem configLegal_iff (c : Cap) (g : CfgRegs) : configLegal c g = true ↔
    decodable c g.defObjectType.toNat = true ∧ g.defSampleRate ≠ 0 ∧ 1 ≤ g.outputFormat.toNat ∧
      g.outputFormat.toNat ≤ 5 := by
  simp [configLegal, and_assoc]

/-- Settles O47: SET_CONFIG in Opened writes all of Config or only RES0, by its validation. -/
theorem setConfigAllOrNothing : Obligations.SetConfigAllOrNothing := by
  refine ⟨decodable_iff, fun s ho => ?_⟩
  have hl : legalIn 2 s.orch = true := (legalIn_setConfig_iff _).2 ho
  rw [← configLegal_iff]
  constructor <;> intro hc <;> show execSetConfig s = _
  · simp [execSetConfig, hl, hc, setConfigState, defaultsFrom]
  · simp [execSetConfig, hc]

/-- -1 is the one word whose signed value is -1. -/
theorem eq_neg_one_iff_toInt (x : Word32) : x = -1 ↔ x.toInt = -1 := by
  rw [← BitVec.toInt_inj]
  rfl

/-- Settles O57: POST_SEEK_RESET writes two fields of DS where the handle is open. -/
theorem postSeekReset : Obligations.PostSeekReset := by
  refine fun s => ⟨fun ho => ?_, execPostSeekReset_refused⟩
  have hl : legalIn 6 s.orch = true := (legalIn_stream_iff (by decide) _).2 ho
  show execPostSeekReset s = _
  rw [execPostSeekReset, hl]
  simp only [eq_neg_one_iff_toInt]
  rfl

/-- Settles O58: CLOSE drops the block's registers and none of the host's. -/
theorem closeMovesToClosed : Obligations.CloseMovesToClosed := by
  refine fun s => ⟨fun ho => ⟨closeState s, ?_, rfl, rfl, rfl, rfl, rfl, rfl⟩, execClose_refused⟩
  have hl : legalIn 7 s.orch = true := (legalIn_stream_iff (by decide) _).2 ho
  show execClose s = _
  simp [execClose, hl]

/-! ## The output conversion (R428) -/

theorem clampInt_mono (lo hi : Int) {v w : Int} (h : v ≤ w) : clampInt lo hi v ≤ clampInt lo hi w :=
  max_le_max le_rfl (min_le_min le_rfl h)

theorem clampInt_mem {lo hi : Int} (h : lo ≤ hi) (v : Int) : lo ≤ clampInt lo hi v ∧ clampInt lo hi v ≤ hi :=
  ⟨le_max_left _ _, max_le h (min_le_left _ _)⟩

theorem clampInt_zero {lo hi : Int} (hl : lo ≤ 0) (hh : 0 ≤ hi) : clampInt lo hi 0 = 0 := by
  rw [clampInt, min_eq_right hh, max_eq_right hl]

/-- The range of an integer format holds 0. -/
theorem intRange_zero (f : Nat) : (intRange f).1 ≤ 0 ∧ 0 ≤ (intRange f).2 := by
  unfold intRange
  split
  · decide
  · split <;> decide

theorem outConvert_int {f : Nat} (h1 : 1 ≤ f) (h3 : f ≤ 3) (x : Sample) :
    outConvert f x = ((clampInt (intRange f).1 (intRange f).2
      (⌊Config.outScale f x⌋ - ⌊Config.outScale f 0⌋) : Int) : Rat) := if_pos ⟨h1, h3⟩

theorem outConvert_four (x : Sample) : outConvert 4 x = x := rfl

theorem outConvert_five (x : Sample) : outConvert 5 x = Config.outScale 5 x - Config.outScale 5 0 := rfl

theorem outConvert_int_mem {f : Nat} (h1 : 1 ≤ f) (h3 : f ≤ 3) (x : Sample) :
    ∃ k : Int, outConvert f x = k ∧ (intRange f).1 ≤ k ∧ k ≤ (intRange f).2 :=
  ⟨_, outConvert_int h1 h3 x, clampInt_mem ((intRange_zero f).1.trans (intRange_zero f).2) _⟩

theorem outConvert_zero {f : Nat} (h1 : 1 ≤ f) (h5 : f ≤ 5) : outConvert f 0 = 0 := by
  obtain h3 | rfl | rfl : f ≤ 3 ∨ f = 4 ∨ f = 5 := by omega
  · rw [outConvert_int h1 h3, sub_self, clampInt_zero (intRange_zero f).1 (intRange_zero f).2, Int.cast_zero]
  · rfl
  · rw [outConvert_five, sub_self]

theorem outConvert_mono {f : Nat} (h1 : 1 ≤ f) (h5 : f ≤ 5) {x y : Sample} (h : x ≤ y) :
    outConvert f x ≤ outConvert f y := by
  have hs : Config.outScale f x ≤ Config.outScale f y := (Config.outScale f).monotone h
  obtain h3 | rfl | rfl : f ≤ 3 ∨ f = 4 ∨ f = 5 := by omega
  · rw [outConvert_int h1 h3, outConvert_int h1 h3, Int.cast_le]
    exact clampInt_mono _ _ (sub_le_sub_right (Int.floor_le_floor hs) _)
  · exact h
  · exact sub_le_sub_right hs _

/-- Settles O60: the scaling is monotone, and so are the floor, the shift to 0 and the saturation after it. -/
theorem outputConversion : Obligations.OutputConversion := by
  intro f x y h1 h5
  refine ⟨outConvert_zero h1 h5, outConvert_mono h1 h5, ?_, ?_, ?_, ?_⟩ <;> rintro rfl
  · exact outConvert_int_mem h1 (by decide) x
  · exact outConvert_int_mem h1 (by decide) x
  · exact outConvert_int_mem h1 (by decide) x
  · exact outConvert_four x

end Sys2Proof.Machine
end

section
/-! PROOFS. The elements that carry no samples, and what every element can do (48_orchestrator.md R412, R416 to R422, R425,
60_exceptions.md R460). -/

namespace Sys2Proof.Machine

/-! ## Any element -/

/-- The program of an element (48_orchestrator.md R412). -/
def elementProgram : Instr → Env → Wk Unit
  | .sce => sceBody
  | .cpe => cpeBody
  | .cce => fun _ => cceBody
  | .lfe => lfeBody
  | .dse => fun e => Wk.ofRd (dseBody e)
  | .pce => pceBody
  | .fil => fun e => Wk.ofRd (filBody e)
  | _ => fun _ => endBody

theorem exec_elementProgram {i : Instr} (hi : i ∈ [.sce, .cpe, .cce, .lfe, .dse, .pce, .fil, .endMarker]) {s : State}
    (hl : s.work.eng.bc.live = true) : exec i s = runWork (elementProgram i) s := by
  rw [← runLive_of_live hl]
  fin_cases hi <;> rfl

/-- An element that ends, at the port. -/
theorem exec_element_ok {i : Instr} (hi : i ∈ [.sce, .cpe, .cce, .lfe, .dse, .pce, .fil, .endMarker]) {s : State} {w : Work}
    (hl : s.work.eng.bc.live = true) (h : elementProgram i s.env s.work = .ok () w) :
    exec i s = .next { s with work := w } := (exec_elementProgram hi hl).trans (runWork_ok h)

/-- An element that raises, at the port: the frame is abandoned (log 9). -/
theorem exec_element_abandons {i : Instr} (hi : i ∈ [.sce, .cpe, .cce, .lfe, .dse, .pce, .fil, .endMarker]) {s : State}
    {w : Work} {c : Cause} (hl : s.work.eng.bc.live = true) (h : elementProgram i s.env s.work = .error c w) :
    ∃ t, exec i s = .next t ∧ abandonedWith c s.work.frm.hdrBytes w.ds s t :=
  ⟨_, (exec_elementProgram hi hl).trans (runWork_error h), abandon_abandonedWith c w s⟩

/-- Settles O44: a program over the working state ends in its effect there, or in the abandonment of the frame. -/
theorem elementOutcome : Obligations.ElementOutcome := by
  intro s i hi hl
  rw [exec_elementProgram hi hl]
  obtain ⟨w, -, h⟩ | ⟨c, w, -, h⟩ := runWork_cases (elementProgram i) s
  · exact ⟨_, h, fun _ => rfl, fun _ => rfl, rfl, rfl, rfl, rfl, rfl, rfl, .inl ⟨rfl, rfl⟩⟩
  · exact ⟨_, h, fun _ => rfl, fun _ => rfl, rfl, rfl, rfl, rfl, rfl, rfl,
      .inr ⟨c, w.ds, abandon_abandonedWith c w s⟩⟩

/-- Settles O36: END writes one flag of the frame. -/
theorem endMarker : Obligations.EndMarker := fun _ hl => exec_element_ok (by decide) hl rfl

/-! ## Refused elements (R416 to R419) -/

theorem adjust_of_no_err {err : Bool} (h : err = false) (c : Cause) : adjust err c = c := by simp [adjust, h]

/-- A channel element beyond a capacity raises before it reads anything (R416). -/
theorem beginElement_refused {e : Env} {w : Work} (id : BitVec 3) {n : Nat} (p : Bool) (he : w.eng.bc.err = false)
    (h : e.par.maxChannels < w.ds.channelsSeen + n ∨ e.par.maxElements < w.ds.elementsSeen + 1) :
    beginElement e id n p w = .error .channelConfig w := by
  unfold beginElement
  rw [run_bind_ok (show Wk.ds w = .ok w.ds w from rfl), if_pos h,
    run_bind_error (show Wk.raise .channelConfig w = .error (adjust w.eng.bc.err .channelConfig) w from rfl),
    adjust_of_no_err he]

/-- Each channel element begins with the test of its n channels. -/
theorem channelElement_refused {i : Instr} {n : Nat} (hi : (i, n) ∈ [(Instr.sce, 1), (.lfe, 1), (.cpe, 2)]) {e : Env}
    {w : Work} (he : w.eng.bc.err = false)
    (h : e.par.maxChannels < w.ds.channelsSeen + n ∨ e.par.maxElements < w.ds.elementsSeen + 1) :
    elementProgram i e w = .error .channelConfig w := by
  simp only [List.mem_cons, List.not_mem_nil, or_false, Prod.mk.injEq] at hi
  obtain ⟨rfl, rfl⟩ | ⟨rfl, rfl⟩ | ⟨rfl, rfl⟩ := hi <;>
    exact (run_bind_ok (show Wk.ds w = .ok w.ds w from rfl)).trans (run_bind_error (beginElement_refused _ _ he h))

/-- Settles O37: both tests come first, so the raise leaves what the element found. -/
theorem refusedElements : Obligations.RefusedElements := by
  intro s hl he
  refine ⟨exec_element_abandons (by decide) hl ?_, fun i n hi hn => ?_⟩
  · exact congrArg (EStateM.Result.error · s.work) (adjust_of_no_err he _)
  · refine exec_element_abandons ?_ hl (channelElement_refused hi he hn)
    simp only [List.mem_cons, List.not_mem_nil, or_false, Prod.mk.injEq] at hi ⊢
    tauto

/-! ## Reads that fail, and skipping -/

theorem rdGet_fail {e : Env} {k : Cursor} {n : Nat} (h : k.canRead n = false) : Rd.get e n k = .ok 0 k.fail := by
  show EStateM.Result.ok (k.get e.mem n).1 (k.get e.mem n).2 = _
  rw [Cursor.get_fail _ h]

/-- With BC.err set a read answers 0 and changes nothing (40_bitreader.md R141). -/
theorem rdGet_of_err {e : Env} {k : Cursor} (n : Nat) (h : k.err = true) : Rd.get e n k = .ok 0 k := by
  rw [rdGet_fail (Cursor.canRead_of_err n h), Cursor.fail_of_err h]

theorem rdBit_of_err {e : Env} {k : Cursor} (h : k.err = true) : Rd.bit e k = .ok false k := by
  rw [Rd.bit, run_bind_ok (rdGet_of_err 1 h)]
  rfl

theorem rdBit_run {e : Env} {k : Cursor} (h : k.canRead 1 = true) :
    Rd.bit e k = .ok (bitsAt e.mem k.base k.pos 1 == 1) (k.fwd 1) := by
  rw [Rd.bit, run_bind_ok (rdGet_run h)]
  rfl

theorem rdFlushMany_of_err {k : Cursor} (h : k.err = true) (n : Nat) : Rd.flushMany 8 n k = .ok () k := by
  induction n with
  | zero => rfl
  | succ n ih =>
    have hf : Rd.flush 8 k = .ok () k := by
      rw [Rd.flush, Cursor.flush_fail (Cursor.canRead_of_err 8 h), Cursor.fail_of_err h]
    rw [Rd.flushMany, run_bind_ok hf, ih]

/-- Where a skip of n bytes from bit start on leaves the cursor: after them, or, the error flag set, after the last whole byte. -/
def Cursor.skipBytes (k : Cursor) (start n : Nat) : Cursor :=
  if start + 8 * n ≤ k.limit then { k with pos := start + 8 * n }
  else { k with pos := start + 8 * ((k.limit - start) / 8), err := true }

theorem Cursor.skipBytes_fwd (n : Nat) {k : Cursor} (h8 : k.pos + 8 ≤ k.limit) :
    (k.fwd 8).skipBytes (k.fwd 8).pos n = k.skipBytes k.pos (n + 1) := by
  have hl : (k.fwd 8).limit = k.limit := rfl
  rw [Cursor.skipBytes, Cursor.skipBytes, hl, show (k.fwd 8).pos = k.pos + 8 from rfl, show k.pos + 8 + 8 * n = k.pos + 8 * (n + 1) by omega,
    show k.pos + 8 + 8 * ((k.limit - (k.pos + 8)) / 8) = k.pos + 8 * ((k.limit - k.pos) / 8) by omega]
  rfl

theorem rdFlushMany_run (n : Nat) {k : Cursor} (he : k.err = false) (hp : k.pos ≤ k.limit) :
    Rd.flushMany 8 n k = .ok () (k.skipBytes k.pos n) := by
  induction n generalizing k with
  | zero => rw [Cursor.skipBytes, if_pos (by simpa using hp)]; rfl
  | succ n ih =>
    by_cases h8 : k.pos + 8 ≤ k.limit
    · have hc : k.canRead 8 = true := (Cursor.canRead_iff _ _).2 ⟨he, by omega, h8⟩
      have hf : Rd.flush 8 k = .ok () (k.fwd 8) := by rw [Rd.flush, Cursor.flush_eq hc]; rfl
      rw [Rd.flushMany, run_bind_ok hf, ih (k := k.fwd 8) he h8, Cursor.skipBytes_fwd n h8]
    · have hc : k.canRead 8 = false := by
        rw [← Bool.not_eq_true, Cursor.canRead_iff]
        exact fun h => h8 h.2.2
      have hf : Rd.flush 8 k = .ok () k.fail := by rw [Rd.flush, Cursor.flush_fail hc]
      rw [Rd.flushMany, run_bind_ok hf, rdFlushMany_of_err rfl, Cursor.skipBytes, if_neg (by omega),
        show k.pos + 8 * ((k.limit - k.pos) / 8) = k.pos by omega]
      rfl

/-- A program over the cursor on its own, at the port. -/
theorem exec_cursorElement {i : Instr} {p : Env → Rd Unit} {s : State} {k : Cursor}
    (hi : i ∈ [.sce, .cpe, .cce, .lfe, .dse, .pce, .fil, .endMarker]) (hp : elementProgram i = fun e => Wk.ofRd (p e))
    (hl : s.work.eng.bc.live = true) (h : p s.env s.work.eng.bc = .ok () k) : exec i s = .next (s.setBc k) :=
  exec_element_ok hi hl ((congrFun (congrFun hp s.env) s.work).trans (wkOfRd_ok h))

/-! ## DSE (R420) -/

/-- The end of a DSE: the alignment it asks for, and its bytes. -/
def dseSkip (align : Bool) (count : Nat) : Rd Unit := do
  if align then Rd.byteAlign
  Rd.flushMany 8 count

/-- The first bit of the bytes of a DSE whose header ends at bit p. -/
def dseStart (align : Bool) (p : Nat) : Nat := if align then 8 * ((p + 7) / 8) else p

theorem dseBody_eq (e : Env) : dseBody e = (do
    let _tag ← Rd.get e 4
    let align ← Rd.bit e
    let count ← Rd.get e 8
    let more ← (if count = 255 then Rd.get e 8 else return 0)
    dseSkip align (count + more)) := rfl

theorem dseSkip_of_err {k : Cursor} (h : k.err = true) (align : Bool) (count : Nat) :
    dseSkip align count k = .ok () k := by
  have ha : Rd.byteAlign k = .ok () k := by rw [Rd.byteAlign, Cursor.byteAlign_of_err h]
  cases align with
  | false => exact rdFlushMany_of_err h count
  | true => exact (run_bind_ok ha).trans (rdFlushMany_of_err h count)

theorem dseSkip_run {k : Cursor} (he : k.err = false) (hp : k.pos ≤ k.limit) (align : Bool) (count : Nat) :
    dseSkip align count k = .ok () (k.skipBytes (dseStart align k.pos) count) := by
  cases align with
  | false => exact rdFlushMany_run count he hp
  | true =>
    have ha : k.byteAlign = { k with pos := 8 * ((k.pos + 7) / 8) } := by
      simp only [Cursor.byteAlign, Cursor.alignCount, he, Bool.false_eq_true, if_false]
      congr 1
      omega
    have hr : Rd.byteAlign k = .ok () { k with pos := 8 * ((k.pos + 7) / 8) } := by rw [Rd.byteAlign, ha]
    refine (run_bind_ok hr).trans ?_
    refine (rdFlushMany_run count (k := { k with pos := 8 * ((k.pos + 7) / 8) }) he ?_).trans rfl
    show 8 * ((k.pos + 7) / 8) ≤ k.limit
    rw [Cursor.limit] at hp ⊢
    omega

/-- A DSE whose tag, flag and count can be read: what is left to do then. -/
theorem dseBody_of_head {e : Env} {k : Cursor} (h : k.canRead 13 = true) :
    dseBody e k = (do
      let more ← (if bitsAt e.mem k.base (k.pos + 5) 8 = 255 then Rd.get e 8 else return 0)
      dseSkip (bitsAt e.mem k.base (k.pos + 4) 1 == 1) (bitsAt e.mem k.base (k.pos + 5) 8 + more)) (k.fwd 13) := by
  obtain ⟨he, -, hlim⟩ := (Cursor.canRead_iff _ _).1 h
  have h4 : k.canRead 4 = true := (Cursor.canRead_iff _ _).2 ⟨he, by omega, by omega⟩
  have h5 : (k.fwd 4).canRead 1 = true :=
    (Cursor.canRead_iff _ _).2 ⟨he, by omega, by show k.pos + 4 + 1 ≤ k.limit; omega⟩
  have h13 : (k.fwd 5).canRead 8 = true :=
    (Cursor.canRead_iff _ _).2 ⟨he, by omega, by show k.pos + 5 + 8 ≤ k.limit; omega⟩
  rw [dseBody_eq, run_bind_ok (rdGet_run h4)]
  refine (run_bind_ok (rdBit_run h5)).trans ?_
  exact run_bind_ok (rdGet_run h13)

/-- A DSE with a whole header. -/
theorem dseBody_run {e : Env} {k : Cursor} (h13 : k.canRead 13 = true)
    (h21 : bitsAt e.mem k.base (k.pos + 5) 8 = 255 → k.canRead 21 = true) :
    dseBody e k = .ok () (k.skipBytes
      (dseStart (bitsAt e.mem k.base (k.pos + 4) 1 == 1)
        (k.pos + if bitsAt e.mem k.base (k.pos + 5) 8 = 255 then 21 else 13))
      (if bitsAt e.mem k.base (k.pos + 5) 8 = 255 then 255 + bitsAt e.mem k.base (k.pos + 13) 8
        else bitsAt e.mem k.base (k.pos + 5) 8)) := by
  obtain ⟨he, -, hlim⟩ := (Cursor.canRead_iff _ _).1 h13
  rw [dseBody_of_head h13]
  split
  next hc =>
    obtain ⟨-, -, hlim⟩ := (Cursor.canRead_iff _ _).1 (h21 hc)
    have h8 : (k.fwd 13).canRead 8 = true :=
      (Cursor.canRead_iff _ _).2 ⟨he, by omega, by show k.pos + 13 + 8 ≤ k.limit; omega⟩
    rw [run_bind_ok (rdGet_run h8), hc]
    exact dseSkip_run (k := k.fwd 21) he hlim _ _
  next => exact dseSkip_run (k := k.fwd 13) he hlim _ _

/-- A DSE whose header the end of the buffer cuts: the error flag is set at the field that does not fit. -/
theorem dseBody_short {e : Env} {k : Cursor} (h13 : k.canRead 13 = false) :
    dseBody e k = .ok () (k.fwd (if k.canRead 5 then 5 else if k.canRead 4 then 4 else 0)).fail := by
  rw [dseBody_eq]
  by_cases h4 : k.canRead 4 = true
  · obtain ⟨he, -, hlim⟩ := (Cursor.canRead_iff _ _).1 h4
    refine (run_bind_ok (rdGet_run h4)).trans ?_
    by_cases h5 : k.canRead 5 = true
    · obtain ⟨-, -, hlim5⟩ := (Cursor.canRead_iff _ _).1 h5
      have h1 : (k.fwd 4).canRead 1 = true := (Cursor.canRead_iff _ _).2 ⟨he, by omega, hlim5⟩
      have h8 : (k.fwd 5).canRead 8 = false := by
        rw [← Bool.not_eq_true, Cursor.canRead_iff] at h13 ⊢
        exact fun h => h13 ⟨he, by omega, h.2.2⟩
      refine (run_bind_ok (rdBit_run h1)).trans ((run_bind_ok (rdGet_fail h8)).trans ?_)
      rw [if_pos h5]
      exact dseSkip_of_err (k := (k.fwd 5).fail) rfl _ _
    · have h1 : (k.fwd 4).canRead 1 = false := by
        rw [← Bool.not_eq_true]
        exact fun h => h5 ((Cursor.canRead_iff _ _).2 ⟨he, by omega, ((Cursor.canRead_iff _ _).1 h).2.2⟩)
      have hb : Rd.bit e (k.fwd 4) = .ok false (k.fwd 4).fail := by
        rw [Rd.bit, run_bind_ok (rdGet_fail h1)]
        rfl
      refine (run_bind_ok hb).trans ((run_bind_ok (rdGet_of_err 8 rfl)).trans ?_)
      rw [if_neg h5, if_pos h4]
      exact dseSkip_of_err (k := (k.fwd 4).fail) rfl false 0
  · have h5 : ¬ k.canRead 5 = true := fun h => h4 (Cursor.canRead_split h (by omega)).1
    refine (run_bind_ok (rdGet_fail (by simpa using h4))).trans ?_
    refine (run_bind_ok (rdBit_of_err rfl)).trans ((run_bind_ok (rdGet_of_err 8 rfl)).trans ?_)
    rw [if_neg h5, if_neg h4]
    exact dseSkip_of_err (k := k.fail) rfl false 0

/-- A DSE whose extended count the end of the buffer cuts. -/
theorem dseBody_short_escape {e : Env} {k : Cursor} (h13 : k.canRead 13 = true)
    (hc : bitsAt e.mem k.base (k.pos + 5) 8 = 255) (h21 : k.canRead 21 = false) :
    dseBody e k = .ok () (k.fwd 13).fail := by
  obtain ⟨he, -, -⟩ := (Cursor.canRead_iff _ _).1 h13
  have h8 : (k.fwd 13).canRead 8 = false := by
    rw [← Bool.not_eq_true, Cursor.canRead_iff] at h21 ⊢
    exact fun h => h21 ⟨he, by omega, h.2.2⟩
  rw [dseBody_of_head h13, if_pos hc]
  exact (run_bind_ok (rdGet_fail h8)).trans (dseSkip_of_err rfl _ _)

theorem dseBody_of_err {e : Env} {k : Cursor} (h : k.err = true) : dseBody e k = .ok () k :=
  (run_bind_ok (rdGet_of_err 4 h)).trans ((run_bind_ok (rdBit_of_err h)).trans ((run_bind_ok (rdGet_of_err 8 h)).trans
    (dseSkip_of_err h false 0)))

/-- Settles O34: the header as far as it can be read, then the alignment and the bytes, one FLUSH after another. -/
theorem dataStreamElement : Obligations.DataStreamElement := by
  intro s hl
  have run : ∀ {k : Cursor}, dseBody s.env s.work.eng.bc = .ok () k → exec .dse s = .next (s.setBc k) :=
    exec_cursorElement (by decide) rfl hl
  have hr : ∀ n, s.canRead n = s.work.eng.bc.canRead n := fun n => by rw [State.canRead, hl, Bool.true_and]
  simp only [hr]
  refine ⟨fun count start h13 h21 hcount hstart => ?whole, fun h0 hn => ?cut, fun he => run (dseBody_of_err he)⟩
  case whole =>
    have h := run (dseBody_run h13 h21)
    have hs : dseStart (bitsAt s.inMem s.work.eng.bc.base (s.work.eng.bc.pos + 4) 1 == 1)
        (s.work.eng.bc.pos + if s.field 5 8 = 255 then 21 else 13) = start := by
      rw [hstart]
      simp only [dseStart, beq_iff_eq]
      rfl
    rw [State.env_mem] at h
    change exec .dse s = .next (s.setBc (s.work.eng.bc.skipBytes (dseStart _ (_ + if s.field 5 8 = 255 then 21 else 13))
      (if s.field 5 8 = 255 then 255 + s.field 13 8 else s.field 5 8))) at h
    rw [hs, ← hcount] at h
    rw [h, Cursor.skipBytes, Cursor.limit]
    exact ⟨fun hle => by rw [if_pos hle], fun hlt => by rw [if_neg (by omega)]⟩
  case cut =>
    by_cases h13 : s.work.eng.bc.canRead 13 = true
    · by_cases hc : s.field 5 8 = 255
      · rw [if_pos ⟨h13, hc⟩] at hn
        rw [if_pos h13]
        exact run (dseBody_short_escape h13 hc hn)
      · rw [if_neg fun h => hc h.2, h13] at hn
        cases hn
    · rw [if_neg h13]
      exact run (dseBody_short (by simpa using h13))

/-! ## FIL (R422) -/

/-- A fill element after its count. -/
theorem filBody_of_count {e : Env} {k l : Cursor} {count : Nat} (h : fillCount e k = .ok count l) :
    filBody e k = .ok () (l.seek (l.pos + 8 * count)) := (run_bind_ok h).trans rfl

theorem fillCount_run {e : Env} {k : Cursor} (h4 : k.canRead 4 = true)
    (h12 : bitsAt e.mem k.base k.pos 4 = 15 → k.canRead 12 = true) :
    fillCount e k = .ok
      (if bitsAt e.mem k.base k.pos 4 = 15 then 15 + bitsAt e.mem k.base (k.pos + 4) 8 - 1
        else bitsAt e.mem k.base k.pos 4)
      (k.fwd (if bitsAt e.mem k.base k.pos 4 = 15 then 12 else 4)) := by
  refine (run_bind_ok (rdGet_run h4)).trans ?_
  split
  next hc =>
    have h8 : (k.fwd 4).canRead 8 = true := (Cursor.canRead_split (h12 hc) (by omega)).2
    exact (run_bind_ok (rdGet_run h8)).trans rfl
  next => rfl

theorem fillCount_short {e : Env} {k : Cursor} (h4 : k.canRead 4 = false) : fillCount e k = .ok 0 k.fail :=
  (run_bind_ok (rdGet_fail h4)).trans rfl

theorem fillCount_short_escape {e : Env} {k : Cursor} (h4 : k.canRead 4 = true)
    (hc : bitsAt e.mem k.base k.pos 4 = 15) (h12 : k.canRead 12 = false) :
    fillCount e k = .ok 14 (k.fwd 4).fail := by
  obtain ⟨he, -, -⟩ := (Cursor.canRead_iff _ _).1 h4
  have h8 : (k.fwd 4).canRead 8 = false := by
    rw [← Bool.not_eq_true, Cursor.canRead_iff] at h12 ⊢
    exact fun h => h12 ⟨he, by omega, h.2.2⟩
  refine (run_bind_ok (rdGet_run h4)).trans ?_
  rw [if_pos hc]
  exact (run_bind_ok (rdGet_fail h8)).trans rfl

theorem Cursor.seek_self_of_err {k : Cursor} (h : k.err = true) : k.seek k.pos = k := by
  unfold Cursor.seek
  split
  · exact Cursor.fail_of_err h
  · rfl

/-- Settles O35: the count as far as it can be read, then one SEEK. -/
theorem fillElement : Obligations.FillElement := by
  intro s hl
  have run : ∀ {k : Cursor}, filBody s.env s.work.eng.bc = .ok () k → exec .fil s = .next (s.setBc k) :=
    exec_cursorElement (by decide) rfl hl
  have hr : ∀ n, s.canRead n = s.work.eng.bc.canRead n := fun n => by rw [State.canRead, hl, Bool.true_and]
  simp only [hr]
  refine ⟨fun count start h4 h12 hcount hstart => ?whole, fun h0 h4 => ?cut, fun h4 hc h12 => ?escape, fun he => ?err⟩
  case whole =>
    have h := run (filBody_of_count (fillCount_run h4 h12))
    change exec .fil s = .next (s.setBc (Cursor.seek
      (s.work.eng.bc.pos + (if s.field 0 4 = 15 then 12 else 4) + 8 *
        (if s.field 0 4 = 15 then 15 + s.field 4 8 - 1 else s.field 0 4))
      (s.work.eng.bc.fwd (if s.field 0 4 = 15 then 12 else 4)))) at h
    rw [← hcount, ← hstart] at h
    refine ⟨fun hle => ?_, fun hlt => ?_⟩
    · rw [h, Cursor.seek_eq (c := s.work.eng.bc.fwd _) hle]
      rfl
    · rw [h, Cursor.seek_fail (c := s.work.eng.bc.fwd _) hlt, hstart]
      rfl
  case cut =>
    have hk := filBody_of_count (e := s.env) (fillCount_short h4)
    rw [Nat.mul_zero, Nat.add_zero, Cursor.seek_self_of_err rfl] at hk
    exact run hk
  case escape =>
    have hlim : (s.work.eng.bc.fwd 4).fail.limit < (s.work.eng.bc.fwd 4).fail.pos + 8 * 14 := by
      show s.work.eng.bc.limit < s.work.eng.bc.pos + 4 + 8 * 14
      obtain ⟨he, -, -⟩ := (Cursor.canRead_iff _ _).1 h4
      rw [← Bool.not_eq_true, Cursor.canRead_iff] at h12
      by_contra hn
      exact h12 ⟨he, by omega, by omega⟩
    have hk := filBody_of_count (e := s.env) (fillCount_short_escape h4 hc h12)
    rw [Cursor.seek_fail hlim] at hk
    exact run hk
  case err =>
    have hk : fillCount s.env s.work.eng.bc = .ok 0 s.work.eng.bc := (run_bind_ok (rdGet_of_err 4 he)).trans rfl
    have hb := filBody_of_count hk
    rw [Nat.mul_zero, Nat.add_zero, Cursor.seek_self_of_err he] at hb
    exact run hb

/-! ## PCE (R421) -/

/-- The fields of a PCE, without the tests after them (41_parsers.md R181). -/
def pceFields (e : Env) : Rd Pce := do
  let tag ← Rd.get e 4
  let objectType ← Rd.get e 2
  let sfIndex ← Rd.get e 4
  let numFront ← Rd.get e 4
  let numSide ← Rd.get e 4
  let numBack ← Rd.get e 4
  let numLfe ← Rd.get e 2
  let numAssoc ← Rd.get e 3
  let numCc ← Rd.get e 4
  let mono ← optional4 e
  let stereo ← optional4 e
  let matrix ← pceMatrix e
  let front ← pceElems e numFront
  let side ← pceElems e numSide
  let back ← pceElems e numBack
  let lfe ← Rd.many e 4 numLfe
  let assoc ← Rd.many e 4 numAssoc
  let cc ← pceElems e numCc
  Rd.byteAlign
  let commentBytes ← Rd.get e 8
  let comment ← Rd.many e 8 commentBytes
  return { tag := tag, objectType := objectType, sfIndex := sfIndex, front := front, side := side, back := back,
           lfe := lfe, assoc := assoc, cc := cc, monoMixdown := mono, stereoMixdown := stereo,
           matrixMixdown := matrix, comment := comment }

/-! No field reader looks at a parameter. -/

theorem pceElems_par (e : Env) (p : Params) (n : Nat) : pceElems { e with par := p } n = pceElems e n := by
  induction n with
  | zero => rfl
  | succ n ih => rw [pceElems, pceElems, ih]; rfl

theorem rdMany_par (e : Env) (p : Params) (width n : Nat) : Rd.many { e with par := p } width n = Rd.many e width n := by
  induction n with
  | zero => rfl
  | succ n ih => rw [Rd.many, Rd.many, ih]; rfl

theorem pceFields_par (e : Env) (p : Params) : pceFields { e with par := p } = pceFields e := by
  simp only [pceFields, pceElems_par, rdMany_par]
  rfl

/-- The tests after the fields of a PCE. -/
def pceTests (e : Env) (p : Pce) : Rd Pce := do
  if p.channels > e.par.maxChannels then Rd.raise .pce
  Rd.sample
  return p

theorem pceParse_eq (e : Env) : pceParse e = pceFields e >>= pceTests e := by
  simp only [pceParse, pceFields, pceTests, bind_assoc, pure_bind]

theorem pceTests_ok_inv {e : Env} {p q : Pce} {k l : Cursor} (h : pceTests e p k = .ok q l) : q = p ∧ l = k := by
  unfold pceTests at h
  split at h
  · cases h
  · obtain ⟨_, m, hs, hp⟩ := bind_ok_inv h
    cases hp
    rw [Rd.sample] at hs
    split at hs
    · cases hs
    · cases hs
      exact ⟨rfl, rfl⟩

/-- The fields of any PCE, whatever its channels: only the tests after them look at a parameter. -/
theorem pceFields_run {e : Env} {p : Pce} {bits r : List Bool} {k : Cursor} (h : isPce k.pos p bits)
    (hr : k.reads e.mem (bits ++ r)) : pceFields e k = .ok p (k.fwd bits.length) := by
  have hp := takes_pce (e := { e with par := { e.par with maxChannels := p.channels } }) h le_rfl k r rfl hr
  rw [pceParse_eq] at hp
  obtain ⟨q, l, hq, ht⟩ := bind_ok_inv hp
  obtain ⟨rfl, rfl⟩ := pceTests_ok_inv ht
  rwa [pceFields_par] at hq

theorem pceParse_run {e : Env} {p : Pce} {bits r : List Bool} {k : Cursor} (h : isPce k.pos p bits)
    (hr : k.reads e.mem (bits ++ r)) (hc : p.channels ≤ e.par.maxChannels) :
    pceParse e k = .ok p (k.fwd bits.length) := takes_pce h hc k r rfl hr

/-- A PCE of too many channels raises after its comment. -/
theorem pceParse_refused {e : Env} {p : Pce} {bits r : List Bool} {k : Cursor} (h : isPce k.pos p bits)
    (hr : k.reads e.mem (bits ++ r)) (hc : e.par.maxChannels < p.channels) :
    pceParse e k = .error .pce (k.fwd bits.length) := by
  rw [pceParse_eq, run_bind_ok (pceFields_run h hr), pceTests, if_pos hc]
  exact congrArg (EStateM.Result.error · _) (adjust_of_no_err hr.1 _)

theorem length_commentBits_le (p : Pce) : 8 ≤ p.commentBits.length := by
  rw [Pce.commentBits, List.length_append, natToBits_length]
  exact Nat.le_add_right _ _

theorem isPce_length_pos {pos : Nat} {p : Pce} {bits : List Bool} (h : isPce pos p bits) : 0 < bits.length := by
  obtain ⟨-, pad, -, -, hb⟩ := h
  rw [hb, List.length_append]
  exact (Nat.lt_of_lt_of_le (by decide) (length_commentBits_le p)).trans_le (Nat.le_add_left _ _)

/-- A state whose buffer goes on with some bits has a cursor that reads them. -/
theorem State.reads_of_restBits {s : State} {l : List Bool} (he : s.work.eng.bc.err = false) (h : s.restBits = l)
    (hl : 0 < l.length) : s.work.eng.bc.reads s.inMem l := by
  refine ⟨he, ?_, h⟩
  have hlen := congrArg List.length h
  rw [State.restBits, bitList_length, Cursor.bitsLeft] at hlen
  omega

/-- A PCE becomes the stored one as the first element of a stream whose configuration is 0 (R421). -/
theorem pceBody_run {e : Env} {w : Work} {p : Pce} {k : Cursor} (h : pceParse e w.eng.bc = .ok p k) :
    pceBody e w = .ok () { w with
      eng := { w.eng with bc := k }
      ds := { w.ds with pce := if w.ds.elementsSeen = 0 ∧ w.sc.channelConfig = 0 then some p else w.ds.pce } } := by
  rw [pceBody, run_bind_ok (wkOfRd_ok h)]
  show (if w.ds.elementsSeen = 0 ∧ w.sc.channelConfig = 0 then Wk.setDs fun d => { d with pce := some p } else return ())
    { w with eng := { w.eng with bc := k } } = _
  split <;> rfl

/-- Settles O38: the fields are read either way, and the test of the channels is the last thing of the parse. -/
theorem programConfigElement : Obligations.ProgramConfigElement := by
  intro s p bits rest hl he hp hb
  have hr : s.work.eng.bc.reads s.inMem (bits ++ rest) := State.reads_of_restBits he hb (by
    have := isPce_length_pos hp
    rw [List.length_append]
    omega)
  refine ⟨fun hc => ?_, fun hc => ?_⟩
  · exact exec_element_ok (by decide) hl (pceBody_run (pceParse_run (e := s.env) hp hr hc))
  · exact exec_element_abandons (w := (s.setBc (s.work.eng.bc.fwd bits.length)).work) (by decide) hl
      (run_bind_error (wkOfRd_error (pceParse_refused (e := s.env) hp hr hc)))

end Sys2Proof.Machine
end

section
/-! PROOFS. The ends of DECODE and of a failed INIT (48_orchestrator.md R406, R410, R411, 60_exceptions.md R460, R463): no program
of a frame writes the frame counter or the seek flag, so a frame is counted by its delivery alone. -/

namespace Sys2Proof.Machine

/-! ## INIT and INIT2 in Opened -/

section
variable {p : Env → HostPorts → Wk InitResult} {s : State} {w : Work} (ho : s.orch = .opened)
include ho

theorem runInit_ok {r : InitResult} (h : p s.env s.ports (freshWork s.work) = .ok r w) :
    runInit p s = .next (initState r w s) := by
  have hl : legalIn 3 s.orch = true := (legalIn_init_iff _).2 ho
  simp [runInit, hl, h]

theorem runInit_error {c : Cause} (h : p s.env s.ports (freshWork s.work) = .error c w) :
    runInit p s = .next { s with res0 := negError s.par c, work := failedInit s.work w } := by
  have hl : legalIn 3 s.orch = true := (legalIn_init_iff _).2 ho
  simp [runInit, hl, h]

/-- An INIT that does not reach Initialized raised, and everything but the windows is as before it. -/
theorem runInit_failed {t : State} (h : runInit p s = .next t) (ht : t.orch ≠ .initialized) :
    ∃ c w, t = { s with res0 := negError s.par c, work := failedInit s.work w } := by
  cases hp : p s.env s.ports (freshWork s.work) with
  | ok r w =>
    rw [runInit_ok ho hp] at h
    cases h
    exact absurd rfl ht
  | error c w =>
    rw [runInit_error ho hp] at h
    cases h
    exact ⟨c, w, rfl⟩

end

/-- Settles O53: the failing outcome of INIT and INIT2 keeps StreamConfig and DS of the state before it. -/
theorem failedInitRestores : Obligations.FailedInitRestores := by
  intro s t i hi ho h ht
  have hf : ∃ p, runInit p s = .next t := by
    simp only [List.mem_cons, List.not_mem_nil, or_false] at hi
    obtain rfl | rfl := hi <;> exact ⟨_, h⟩
  obtain ⟨p, hp⟩ := hf
  obtain ⟨c, w, rfl⟩ := runInit_failed ho hp ht
  exact ⟨⟨c, rfl⟩, ho, rfl, rfl, rfl, rfl, rfl, rfl, rfl⟩

/-! ## DECODE before any bit is read -/

section
variable {s : State} (ho : s.orch = .initialized ∨ s.orch = .decoding)
include ho

theorem execDecode_empty (h : s.ports.inLen = 0) :
    execDecode s = .next (abandon .inputTooSmall (beginDecode s).work (beginDecode s)) := by
  have hl : legalIn 5 s.orch = true := (legalIn_decode_iff _).2 ho
  simp [execDecode, hl, h]

theorem execDecode_tag (h0 : s.ports.inLen ≠ 0) (h : id3Test s.inMem s.ports.inBase s.ports.inLen = true) :
    execDecode s =
      .next { beginDecode s with fi := { FrameInfo.zero s.par.maxChannels with bytesConsumed := 128 } } := by
  have hl : legalIn 5 s.orch = true := (legalIn_decode_iff _).2 ho
  simp [execDecode, hl, h0, h]

theorem execDecode_frame (h0 : s.ports.inLen ≠ 0) (h : id3Test s.inMem s.ports.inBase s.ports.inLen = false) :
    execDecode s = .next (decodeFrame (beginDecode s)) := by
  have hl : legalIn 5 s.orch = true := (legalIn_decode_iff _).2 ho
  simp [execDecode, hl, h0, h]

end

/-- Settles O55: the tests before the cursor is made, in order. -/
theorem decodeBeforeTheBits : Obligations.DecodeBeforeTheBits := by
  refine fun s => ⟨execDecode_refused, fun ho h0 => ?empty, fun ho h128 hT hA hG => ?tag⟩
  case empty =>
    exact ⟨_, execDecode_empty ho h0, rfl, rfl, rfl, rfl, rfl, rfl, abandon_abandonedWith _ _ (beginDecode s)⟩
  case tag =>
    have hid : id3Test s.inMem s.ports.inBase s.ports.inLen = true := by simp [id3Test, h128, hT, hA, hG]
    exact ⟨_, execDecode_tag ho (by omega) hid, rfl, rfl, rfl, rfl, rfl, rfl, rfl, rfl, rfl, rfl, rfl, rfl⟩

/-! ## The frame counter and the seek flag (R433, R436) -/

/-- The frame counter is n and the seek flag b. -/
def Counted (n : Word32) (b : Bool) (w : Work) : Prop := w.ds.frame = n ∧ w.ds.postSeek = b

section
variable {α : Type} {n : Word32} {b : Bool} {e : Env}

theorem ofVx_counted (p : Vx α) : Keeps (Counted n b) (Wk.ofVx p) := by
  refine ⟨fun w h => ?_⟩
  unfold Wk.ofVx
  cases p w.eng <;> exact h

theorem ofRd_counted (p : Rd α) : Keeps (Counted n b) (Wk.ofRd p) := ofVx_counted _
theorem raise_counted (c : Cause) : Keeps (Counted n b) (Wk.raise c : Wk α) := ⟨fun _ h => h⟩
theorem frm_counted : Keeps (Counted n b) Wk.frm := ⟨fun _ h => h⟩
theorem ds_counted : Keeps (Counted n b) Wk.ds := ⟨fun _ h => h⟩
theorem sc_counted : Keeps (Counted n b) Wk.sc := ⟨fun _ h => h⟩
theorem chan_counted (c : Nat) : Keeps (Counted n b) (Wk.chan c) := ⟨fun _ h => h⟩
theorem setFrm_counted (f : Frame → Frame) : Keeps (Counted n b) (Wk.setFrm f) := ⟨fun _ h => h⟩
theorem setSc_counted (f : StreamCfg → StreamCfg) : Keeps (Counted n b) (Wk.setSc f) := ⟨fun _ h => h⟩
theorem setChan_counted (c : Nat) (f : Chan → Chan) : Keeps (Counted n b) (Wk.setChan c f) := ⟨fun _ h => h⟩

/-- A write of other fields of DS. -/
theorem setDs_counted {f : DecoderState → DecoderState} (hf : ∀ d, (f d).frame = d.frame ∧ (f d).postSeek = d.postSeek) :
    Keeps (Counted n b) (Wk.setDs f) := ⟨fun w h => ⟨(hf w.ds).1.trans h.1, (hf w.ds).2.trans h.2⟩⟩

theorem forEach_counted {f : Nat → Wk Unit} (hf : ∀ c, Keeps (Counted n b) (f c)) :
    ∀ l, Keeps (Counted n b) (Wk.forEach l f)
  | [] => keeps_pure _ _
  | c :: r => keeps_bind (hf c) fun _ => forEach_counted hf r

theorem bounded_counted {p : Env → Wk α} (start count : Nat) (hp : ∀ e, Keeps (Counted n b) (p e)) :
    Keeps (Counted n b) (Wk.bounded e start count p) := by
  refine ⟨fun w h => ?_⟩
  unfold Wk.bounded
  split
  · have hk := (hp { e with mem := Wk.payloadBytes e.mem w.eng.bc.base start count }).run
      { w with eng := { w.eng with bc := ⟨true, 0, count, min (w.eng.bc.pos - start) (8 * count), false⟩ } } h
    revert hk
    split <;> intro hk
    next hr => split <;> rwa [hr] at hk
    next hr => rwa [hr] at hk
  · exact (hp e).run w h

theorem chanIcs_counted (c : Nat) : Keeps (Counted n b) (chanIcs c) :=
  keeps_bind (chan_counted c) fun _ => keeps_pure _ _

theorem rememberLag_counted (c : Nat) (l : Option Ltp) : Keeps (Counted n b) (rememberLag c l) := by
  cases l with
  | none => exact keeps_pure _ _
  | some x =>
    unfold rememberLag
    apply setDs_counted
    exact fun _ => ⟨rfl, rfl⟩

theorem icsInfoOne_counted (c : Nat) : Keeps (Counted n b) (icsInfoOne e c) :=
  keeps_bind sc_counted fun _ => keeps_bind ds_counted fun _ => keeps_bind (ofRd_counted _) fun _ =>
    keeps_bind (rememberLag_counted _ _) fun _ => setChan_counted _ _

theorem icsInfoPair_counted (c d : Nat) : Keeps (Counted n b) (icsInfoPair e c d) :=
  keeps_bind sc_counted fun _ => keeps_bind ds_counted fun _ => keeps_bind (ofRd_counted _) fun _ =>
    keeps_bind (rememberLag_counted _ _) fun _ => keeps_bind (rememberLag_counted _ _) fun _ =>
      keeps_bind (setChan_counted _ _) fun _ => setChan_counted _ _

/-- The parse of a channel stream (44_noiseless.md R284). -/
theorem icsParse_counted (c : Nat) (common : Bool) : Keeps (Counted n b) (icsParse e c common) := by
  unfold icsParse scaleFactorPart rvlcPart
  with_reducible repeat' first
    | exact keeps_pure _ _ | apply keeps_bind | intro _ | apply sc_counted | apply ofRd_counted | apply ofVx_counted
    | apply raise_counted | apply icsInfoOne_counted | apply chanIcs_counted | apply setChan_counted | split

/-- The stages over one channel (48_orchestrator.md R424). -/
theorem stage_counted {p : Nat → Wk Unit}
    (hp : p ∈ [stageDequantPulse e, stageTns e, stageLtp e, stagePnsOne, stageFilterbank e]) (c : Nat) :
    Keeps (Counted n b) (p c) := by
  simp only [List.mem_cons, List.not_mem_nil, or_false] at hp
  obtain rfl | rfl | rfl | rfl | rfl := hp
  all_goals
    simp only [stageDequantPulse, stageDequant, stagePulsePre, stagePulsePost, stageTns, stageLtp, stagePnsOne,
      stageFilterbank, setSpec]
    with_reducible repeat' first
      | exact keeps_pure _ _ | apply keeps_bind | intro _ | apply sc_counted | apply ds_counted | apply chan_counted
      | apply chanIcs_counted | apply raise_counted | apply setChan_counted | apply setDs_counted | split
      | exact ⟨rfl, rfl⟩

/-- The joint stages of a pair (44_noiseless.md R300, R308, R312). -/
theorem pairStage_counted {p : Nat → Nat → Wk Unit} (hp : p ∈ [stagePnsPair, stageStereo]) (c d : Nat) :
    Keeps (Counted n b) (p c d) := by
  simp only [List.mem_cons, List.not_mem_nil, or_false] at hp
  obtain rfl | rfl := hp
  all_goals
    simp only [stagePnsPair, stageStereo, setSpec]
    with_reducible repeat' first
      | exact keeps_pure _ _ | apply keeps_bind | intro _ | apply sc_counted | apply ds_counted | apply chan_counted
      | apply chanIcs_counted | apply setChan_counted | apply setDs_counted | exact ⟨rfl, rfl⟩

theorem reconstructCore_counted (cs : List Nat) {pns stereo : Wk Unit} (hp : Keeps (Counted n b) pns)
    (hs : Keeps (Counted n b) stereo) : Keeps (Counted n b) (reconstructCore e cs pns stereo) := by
  have each : ∀ p ∈ [stageDequantPulse e, stageTns e, stageLtp e, stagePnsOne, stageFilterbank e],
      Keeps (Counted n b) (Wk.forEach cs p) := fun p hm => forEach_counted (stage_counted hm) cs
  have hd := each _ (by simp : stageDequantPulse e ∈ _)
  have ht := each _ (by simp : stageTns e ∈ _)
  have hl := each _ (by simp : stageLtp e ∈ _)
  have hf := each _ (by simp : stageFilterbank e ∈ _)
  unfold reconstructCore
  split
  · exact keeps_bind hd fun _ => keeps_bind ht fun _ => keeps_bind hl fun _ => keeps_bind hp fun _ =>
      keeps_bind hs fun _ => hf
  · exact keeps_bind hd fun _ => keeps_bind hp fun _ => keeps_bind hs fun _ => keeps_bind hl fun _ =>
      keeps_bind ht fun _ => hf

/-! The SBR attachment and the SBR stage (48_orchestrator.md R423, R424). -/

theorem setSbr_counted (i : Nat) (x : SbrState) : Keeps (Counted n b) (setSbr i x) := by
  apply setDs_counted
  exact fun _ => ⟨rfl, rfl⟩

theorem sbrSlot_counted (i : Nat) : Keeps (Counted n b) (sbrSlot e i) := by
  unfold sbrSlot
  with_reducible repeat' first
    | exact keeps_pure _ _ | apply keeps_bind | intro _ | apply ds_counted | apply setDs_counted | split
    | exact ⟨rfl, rfl⟩

theorem sbrParse_counted (i : Nat) (pair crc : Bool) (x : SbrState) : Keeps (Counted n b) (sbrParse e i pair crc x) := by
  unfold sbrParse
  with_reducible repeat' first
    | apply keeps_bind | intro _ | apply setSbr_counted | apply sc_counted | apply ofRd_counted | apply ofVx_counted
    | apply setFrm_counted

theorem attachSbr_counted (i : Nat) (pair : Bool) : Keeps (Counted n b) (attachSbr e i pair) := by
  unfold attachSbr sbrAttachTo setSbrData
  with_reducible repeat' first
    | exact keeps_pure _ _ | apply keeps_bind | intro _ | apply setFrm_counted | apply setSc_counted
    | apply ofRd_counted | apply sbrSlot_counted | apply bounded_counted | apply sbrParse_counted | split

theorem chanTimes_counted : ∀ l, Keeps (Counted n b) (chanTimes l)
  | [] => keeps_pure _ _
  | c :: r => keeps_bind (chan_counted c) fun _ => keeps_bind (chanTimes_counted r) fun _ => keeps_pure _ _

theorem setTime2_counted : ∀ (c : Nat) l, Keeps (Counted n b) (setTime2 c l)
  | _, [] => keeps_pure _ _
  | c, _ :: r => keeps_bind (setChan_counted c _) fun _ => setTime2_counted (c + 1) r

theorem stageSbr_counted (i c : Nat) (cs : List Nat) (pair : Bool) : Keeps (Counted n b) (stageSbr e i c cs pair) := by
  unfold stageSbr storeTime2 keepSbr
  with_reducible repeat' first
    | exact keeps_pure _ _ | apply keeps_bind | intro _ | apply frm_counted | apply sc_counted | apply ds_counted
    | apply chanTimes_counted | apply sbrSlot_counted | apply raise_counted | apply setTime2_counted
    | apply setSbr_counted | apply setFrm_counted | split | dsimp only

/-! The elements and the block (48_orchestrator.md R412). -/

theorem reconstructOne_counted (i c : Nat) : Keeps (Counted n b) (reconstructOne e i c) :=
  keeps_bind (reconstructCore_counted _ (stage_counted (e := e) (by simp) c) (keeps_pure _ _)) fun _ =>
    stageSbr_counted _ _ _ _

theorem reconstructPair_counted (i c : Nat) (common : Bool) : Keeps (Counted n b) (reconstructPair e i c common) := by
  refine keeps_bind (reconstructCore_counted _ (pairStage_counted (by simp) _ _) ?_) fun _ => stageSbr_counted _ _ _ _
  split
  · exact pairStage_counted (by simp) _ _
  · exact keeps_pure _ _

theorem beginElement_counted (id : BitVec 3) (k : Nat) (pair : Bool) : Keeps (Counted n b) (beginElement e id k pair) := by
  unfold beginElement
  with_reducible repeat' first
    | apply keeps_bind | intro _ | apply ds_counted | apply ofVx_counted | apply ofRd_counted | apply setFrm_counted
    | apply raise_counted | split

theorem endElement_counted (k : Nat) : Keeps (Counted n b) (endElement k) := by
  apply setDs_counted
  exact fun _ => ⟨rfl, rfl⟩

theorem cpeBody_counted : Keeps (Counted n b) (cpeBody e) := by
  unfold cpeBody commonWindow
  with_reducible repeat' first
    | apply keeps_bind | intro _ | apply ds_counted | apply beginElement_counted | apply ofRd_counted
    | apply setFrm_counted | apply icsInfoPair_counted | apply chanIcs_counted | apply setChan_counted
    | apply icsParse_counted | apply attachSbr_counted | apply reconstructPair_counted | apply endElement_counted | split

theorem pceBody_counted : Keeps (Counted n b) (pceBody e) := by
  unfold pceBody
  with_reducible repeat' first
    | exact keeps_pure _ _ | apply keeps_bind | intro _ | apply ofRd_counted | apply ds_counted | apply sc_counted
    | apply setDs_counted | split | exact ⟨rfl, rfl⟩

theorem elementBody_counted (id : Nat) : Keeps (Counted n b) (elementBody e id) := by
  unfold elementBody
  split
  · exact keeps_bind ds_counted fun _ => keeps_bind (beginElement_counted _ _ _) fun _ =>
      keeps_bind (icsParse_counted _ _) fun _ => keeps_bind (attachSbr_counted _ _) fun _ =>
        keeps_bind (reconstructOne_counted _ _) fun _ => keeps_bind frm_counted fun _ => endElement_counted _
  · exact cpeBody_counted
  · exact raise_counted _
  · exact keeps_bind ds_counted fun _ => keeps_bind (beginElement_counted _ _ _) fun _ =>
      keeps_bind (icsParse_counted _ _) fun _ => keeps_bind (reconstructOne_counted _ _) fun _ => endElement_counted _
  · exact ofRd_counted _
  · exact pceBody_counted
  · exact ofRd_counted _
  · exact setFrm_counted _

theorem rawLoop_counted : ∀ k, Keeps (Counted n b) (rawLoop e k)
  | 0 => ofRd_counted _
  | k + 1 => by
    unfold rawLoop
    refine keeps_bind frm_counted fun _ => ?_
    split
    · exact keeps_bind (ofRd_counted _) fun _ => keeps_bind (ofRd_counted _) fun _ =>
        keeps_bind (elementBody_counted _) fun _ => rawLoop_counted k
    · exact ofRd_counted _

theorem decodeOutput_counted (k : Nat) : Keeps (Counted n b) (decodeOutput e k) := by
  unfold decodeOutput
  with_reducible repeat' first
    | exact keeps_pure _ _ | apply keeps_bind | intro _ | apply ofRd_counted | apply sc_counted | apply ds_counted
    | apply frm_counted | apply raise_counted | split | dsimp only

/-- Steps 7 to 10 of R410. -/
theorem decodeBlock_counted (h : HostPorts) : Keeps (Counted n b) (decodeBlock e h) :=
  keeps_bind (keeps_bind (setFrm_counted _) fun _ => keeps_bind (ofRd_counted _) fun _ => rawLoop_counted _) fun _ =>
    decodeOutput_counted _

theorem createCursor_counted (base len : Nat) : Keeps (Counted n b) (createCursor base len) := ofRd_counted _

/-- Steps 5 and 6 of R410. -/
theorem decodeStart_counted (h : HostPorts) : Keeps (Counted n b) (decodeStart e h) := by
  unfold decodeStart decodeHeader decodeAdts decodeLatm commitAsc markHeader
  with_reducible repeat' first
    | exact keeps_pure _ _ | apply keeps_bind | intro _ | apply createCursor_counted | apply ofRd_counted
    | apply sc_counted | apply setFrm_counted | apply setSc_counted | apply setDs_counted | apply raise_counted | split | exact ⟨rfl, rfl⟩

end

/-! ## Delivered or abandoned -/

/-- Legal error codes fit a byte and are not 0 (60_exceptions.md R450). -/
theorem fiError_ne_zero {p : Params} (h : errCodesOk p = true) (c : Cause) : fiError p c ≠ 0 := by
  have hc : c ∈ allCauses := by cases c <;> decide
  obtain ⟨hall, -⟩ := Bool.and_eq_true_iff.1 h
  have hr := List.all_eq_true.1 hall c hc
  rw [Bool.and_eq_true, decide_eq_true_eq, decide_eq_true_eq] at hr
  obtain ⟨h1, h127⟩ := hr
  intro h0
  have := congrArg BitVec.toNat h0
  rw [fiError, BitVec.toNat_ofNat, Nat.mod_eq_of_lt (by omega)] at this
  exact absurd this (by simp; omega)

/-- What O56 says of the state after an accepted DECODE of state s. -/
def DeliversOrAbandons (s t : State) : Prop :=
  t.orch = .decoding ∧ t.cfg = s.cfg ∧ t.inMem = s.inMem ∧ t.res0 = s.res0 ∧ t.res1 = s.res1 ∧ t.res2 = s.res2 ∧
    ((t.fi.error = 0 ∧ t.work.ds.frame = s.work.ds.frame + 1 ∧ t.work.ds.postSeek = false) ∨
      (t.fi.error ≠ 0 ∧ (∃ c, t.fi.error = fiError s.par c) ∧ t.fi.samples = 0 ∧ t.fi.channels = 0 ∧
        t.outMem = s.outMem ∧ t.work.ds.frame = s.work.ds.frame ∧ t.work.ds.postSeek = s.work.ds.postSeek ∧
        t.work.ds.overlap = List.replicate s.par.maxChannels (List.replicate 1024 0) ∧
        t.work.ds.ltpHist = List.replicate s.par.maxChannels (List.replicate s.par.ltpHistLen 0)))

/-- An abandoned frame, from any working state that counts as the state before DECODE did. -/
theorem abandon_deliversOrAbandons {s : State} {v : Work} (hp : errCodesOk s.par = true) (c : Cause) (w : Work)
    (hv : Counted s.work.ds.frame s.work.ds.postSeek v) :
    DeliversOrAbandons s (abandon c w { beginDecode s with work := v }) :=
  ⟨rfl, rfl, rfl, rfl, rfl, rfl,
    .inr ⟨fiError_ne_zero hp c, ⟨c, rfl⟩, rfl, rfl, rfl, hv.1, hv.2, rfl, rfl⟩⟩

theorem decodeFrame_deliversOrAbandons {s : State} (hp : errCodesOk s.par = true) :
    DeliversOrAbandons s (decodeFrame (beginDecode s)) := by
  have h0 : Counted s.work.ds.frame s.work.ds.postSeek (beginDecode s).work := ⟨rfl, rfl⟩
  rw [decodeFrame]
  split
  next v hv =>
    have h1 := (decodeStart_counted _).of_ok hv h0
    rw [decodeBody]
    split
    next o w hw =>
      have h2 := (decodeBlock_counted _).of_ok hw h1
      exact ⟨rfl, rfl, rfl, rfl, rfl, rfl, .inl ⟨rfl, congrArg (· + 1) h2.1, rfl⟩⟩
    next c w hw => exact abandon_deliversOrAbandons hp c w h1
  next c w hw => exact abandon_deliversOrAbandons hp c w h0

/-- Settles O56: a frame is delivered or abandoned, and only its delivery writes the counter. -/
theorem decodeDeliversOrAbandons : Obligations.DecodeDeliversOrAbandons :=
  fun _ ho h0 hid hp => ⟨_, execDecode_frame ho h0 hid, decodeFrame_deliversOrAbandons hp⟩

end Sys2Proof.Machine
end

section
/-! PROOFS. INIT and INIT2 that succeed (48_orchestrator.md R404 to R408): INIT_COMMON once for every header, then each header's
parse on its own bits (41_parsers.md R171 to R188). -/

namespace Sys2Proof.Machine

/-! ## INIT_COMMON (R406 to R408) -/

/-- What the SBR presence policy writes after a signal, it writes again. -/
theorem applySignal_applySignal (c : Cap) (sig : SbrSignal) (sc : StreamCfg) :
    applySignal c sig (applySignal c sig sc) = applySignal c sig sc := by cases sig <;> rfl

theorem sbrPolicy_applySignal (c : Cap) (g : CfgRegs) (sig : SbrSignal) (sc : StreamCfg) :
    sbrPolicy c g sig (applySignal c sig sc) = sbrPolicy c g sig sc := by
  rw [sbrPolicy, applySignal_applySignal, sbrPolicy]

theorem accepts_applySignal {s : State} {sig : SbrSignal} {sc : StreamCfg} {pce : Option Pce} {n : Nat}
    (h : s.accepts sig sc pce n) : s.accepts sig (applySignal s.par.cap sig sc) pce n := by
  obtain ⟨hd, hr, hc, hn, ha⟩ := h
  have hsame : (applySignal s.par.cap sig sc).objectType = sc.objectType ∧
      (applySignal s.par.cap sig sc).sfIndex = sc.sfIndex ∧ (applySignal s.par.cap sig sc).sampleRate = sc.sampleRate ∧
      (applySignal s.par.cap sig sc).channelConfig = sc.channelConfig := by cases sig <;> exact ⟨rfl, rfl, rfl, rfl⟩
  obtain ⟨hot, hsf, hsr, hcc⟩ := hsame
  refine ⟨by rwa [hot], by rwa [hsf, hsr], ?_, hn, by rwa [applySignal_applySignal]⟩
  unfold channelCount at hc ⊢
  rwa [hcc]

/-- The tests of INIT_COMMON passed: the policy is written, the SBR slots are allocated, and the rate and the count are the
answer. -/
theorem initCommon_run {e : Env} {ok : Bool} {sig : SbrSignal} {w : Work} {n : Nat}
    (hd : decodable e.par.cap w.sc.objectType.toNat = true) (hr : ¬ (w.sc.sfIndex.toNat > 12 ∧ w.sc.sampleRate = 0))
    (hc : channelCount w.sc w.ds.pce = some n) (hn : ¬ n > e.par.maxChannels)
    (ha : ((sbrPolicy e.par.cap e.cfg sig w.sc).sbrPresent && e.par.cap.sbr && !ok) = false) :
    initCommon e ok sig w =
      .ok (reportedRate (sbrPolicy e.par.cap e.cfg sig w.sc),
          reportedChannels e.par.cap sig (sbrPolicy e.par.cap e.cfg sig w.sc) n)
        { w with
          sc := sbrPolicy e.par.cap e.cfg sig w.sc
          ds := allocateSbr e.par ok ((sbrPolicy e.par.cap e.cfg sig w.sc).sbrPresent && e.par.cap.sbr)
            (negotiatedElements e.par (sbrPolicy e.par.cap e.cfg sig w.sc) w.ds.pce) w.ds } := by
  unfold initCommon
  rw [run_bind_ok (show Wk.sc w = .ok w.sc w from rfl), run_bind_ok (show Wk.ds w = .ok w.ds w from rfl), hd, hc,
    if_neg (by decide), if_neg hr]
  dsimp only
  rw [if_neg hn]
  refine (run_bind_ok (show Wk.setSc _ w = .ok () { w with sc := sbrPolicy e.par.cap e.cfg sig w.sc } from rfl)).trans ?_
  refine (run_bind_ok (show Wk.sc _ = .ok (sbrPolicy e.par.cap e.cfg sig w.sc) _ from rfl)).trans ?_
  rw [ha]
  rfl

theorem initCommon_ok {s : State} {sig : SbrSignal} {w : Work} {n : Nat} (h : s.accepts sig w.sc w.ds.pce n) :
    ∃ present slots, initCommon s.env s.ports.allocOk sig w =
      .ok (reportedRate (sbrPolicy s.par.cap s.cfg sig w.sc),
          reportedChannels s.par.cap sig (sbrPolicy s.par.cap s.cfg sig w.sc) n)
        { w with
          sc := sbrPolicy s.par.cap s.cfg sig w.sc
          ds := allocateSbr s.par s.ports.allocOk present slots w.ds } := by
  obtain ⟨hd, hr, hc, hn, ha⟩ := h
  refine ⟨_, _, initCommon_run (e := s.env) hd ?rate hc (Nat.not_lt.2 hn) ?alloc⟩
  case rate =>
    rintro ⟨h12, h0⟩
    rcases hr with hr | hr
    · omega
    · exact hr h0
  case alloc =>
    by_contra hne
    simp only [Bool.not_eq_false, Bool.and_eq_true, Bool.not_eq_true'] at hne
    obtain ⟨⟨hp, hs⟩, hno⟩ := hne
    rw [ha hp hs] at hno
    cases hno

/-- The working state INIT and INIT2 parse from: no per-frame state, and a cursor at the start of the slice. -/
def initStart (s : State) : Work :=
  { freshWork s.work with eng := { s.work.eng with bc := Cursor.create s.ports.inBase s.ports.inLen } }

theorem createCursor_initStart (s : State) :
    createCursor s.ports.inBase s.ports.inLen (freshWork s.work) = .ok () (initStart s) := rfl

/-- What a parse leaves for INIT_COMMON: of DS it wrote the stored PCE at most. -/
def KeepsHistories (s : State) (w : Work) : Prop := w.ds = { s.work.ds with pce := w.ds.pce }

/-- An INIT or INIT2 whose parse leaves w, for a stream INIT_COMMON accepts. -/
theorem initState_initialised {s : State} {w : Work} {sig : SbrSignal} {n consumed : Nat} (present : Bool) (slots : Nat)
    (hk : KeepsHistories s w) :
    initialisedWith sig w.sc n consumed s (initState
      ⟨consumed, reportedRate (sbrPolicy s.par.cap s.cfg sig w.sc),
        reportedChannels s.par.cap sig (sbrPolicy s.par.cap s.cfg sig w.sc) n⟩
      { w with
        sc := sbrPolicy s.par.cap s.cfg sig w.sc
        ds := allocateSbr s.par s.ports.allocOk present slots w.ds } s) := by
  have hds : ∀ d : DecoderState, (allocateSbr s.par s.ports.allocOk present slots d).overlap = d.overlap ∧
      (allocateSbr s.par s.ports.allocOk present slots d).frame = d.frame ∧
      (allocateSbr s.par s.ports.allocOk present slots d).rng1 = d.rng1 ∧
      (allocateSbr s.par s.ports.allocOk present slots d).rng2 = d.rng2 := by
    intro d
    cases present <;> exact ⟨rfl, rfl, rfl, rfl⟩
  obtain ⟨ho, hf, h1, h2⟩ := hds w.ds
  rw [KeepsHistories] at hk
  refine ⟨rfl, rfl, rfl, rfl, rfl, rfl, rfl, rfl, rfl, rfl, ho.trans ?_, hf.trans ?_, h1.trans ?_, h2.trans ?_⟩ <;>
    rw [hk]

theorem allocateSbr_pce (p : Params) (ok present : Bool) (n : Nat) (d : DecoderState) :
    (allocateSbr p ok present n d).pce = d.pce := by cases present <;> rfl

/-- INIT, once its header's parse has left w. -/
theorem exec_init_ok {s : State} {w : Work} {sig : SbrSignal} {n consumed : Nat} (ho : s.orch = .opened)
    (hh : initHeader s.env s.ports.inBase s.ports.inLen (initStart s) = .ok (consumed, sig) w)
    (ha : s.accepts sig w.sc w.ds.pce n) (hk : KeepsHistories s w) :
    ∃ t, exec .init s = .next t ∧ initialisedWith sig w.sc n consumed s t ∧ t.work.ds.pce = w.ds.pce ∧
      t.work.frm = w.frm := by
  obtain ⟨present, slots, hc⟩ := initCommon_ok ha
  refine ⟨_, runInit_ok (p := initBody) ho ?_, initState_initialised present slots hk, allocateSbr_pce _ _ _ _ _, rfl⟩
  exact (run_bind_ok (createCursor_initStart s)).trans ((run_bind_ok hh).trans ((run_bind_ok hc).trans rfl))

/-- INIT, once its header's parse has raised. -/
theorem exec_init_error {s : State} {w : Work} {c : Cause} (ho : s.orch = .opened)
    (hh : initHeader s.env s.ports.inBase s.ports.inLen (initStart s) = .error c w) :
    exec .init s = .next { s with res0 := negError s.par c, work := failedInit s.work w } :=
  runInit_error (p := initBody) ho ((run_bind_ok (createCursor_initStart s)).trans (run_bind_error hh))

/-! ## Committing an AudioSpecificConfig (41_parsers.md R182) -/

/-- StreamConfig with the fields of an AudioSpecificConfig, without what it signals of SBR. -/
def Asc.fields (a : Asc) (sc : StreamCfg) : StreamCfg :=
  { sc with
    objectType := BitVec.ofNat 6 a.objectType
    sfIndex := BitVec.ofNat 4 a.sfIndex
    sampleRate := BitVec.ofNat 32 a.rate
    channelConfig := BitVec.ofNat 4 a.channelConfig
    frameLen := BitVec.ofNat 11 a.frameLen
    erFlags := BitVec.ofNat 3 a.erFlags }

theorem commitAsc_run (c : Cap) (a : Asc) (w : Work) : commitAsc c a w = .ok () { w with
    sc := applySignal c a.signal (a.fields w.sc)
    ds := { w.ds with pce := a.pce.or w.ds.pce } } := by
  unfold commitAsc
  cases a.pce <;> rfl

theorem initialisedWith_applySignal {s t : State} {sig : SbrSignal} {sc : StreamCfg} {n consumed : Nat} :
    initialisedWith sig (applySignal s.par.cap sig sc) n consumed s t ↔ initialisedWith sig sc n consumed s t := by
  unfold initialisedWith
  rw [sbrPolicy_applySignal]

/-- INIT2, once ASC_PARSE has answered a. -/
theorem exec_init2_ok {s : State} {k : Cursor} {a : Asc} {n : Nat} (ho : s.orch = .opened)
    (hp : ascParse s.env false (Cursor.create s.ports.inBase s.ports.inLen) = .ok a k)
    (ha : s.accepts a.signal (a.fields { s.work.sc with headerType := 0 }) (a.pce.or s.work.ds.pce) n) :
    ∃ t, exec .init2 s = .next t ∧
      initialisedWith a.signal (a.fields { s.work.sc with headerType := 0 }) n 0 s t := by
  set w : Work := { initStart s with
    eng := { s.work.eng with bc := k }
    sc := applySignal s.par.cap a.signal (a.fields { s.work.sc with headerType := 0 })
    ds := { s.work.ds with pce := a.pce.or s.work.ds.pce } } with hw
  obtain ⟨present, slots, hc⟩ := initCommon_ok (w := w) (accepts_applySignal ha)
  have hk : KeepsHistories s w := rfl
  refine ⟨_, runInit_ok (p := init2Body) ho ?_, initialisedWith_applySignal.1 (initState_initialised present slots hk)⟩
  refine (run_bind_ok (createCursor_initStart s)).trans ((run_bind_ok (wkOfRd_ok hp)).trans
    ((run_bind_ok (commitAsc_run _ _ _)).trans ?_))
  have hset : Wk.setSc (fun sc => { sc with headerType := 0 }) { initStart s with
      eng := { s.work.eng with bc := k }
      sc := applySignal s.par.cap a.signal (a.fields s.work.sc)
      ds := { s.work.ds with pce := a.pce.or s.work.ds.pce } } = .ok () w := by
    rw [hw]
    cases a.signal <;> rfl
  exact (run_bind_ok hset).trans ((run_bind_ok hc).trans rfl)

/-! ## The header tests (R404) -/

section
variable {s : State}

theorem initHeader_adif (h : adifTest s.inMem s.ports.inBase s.ports.inLen = true) :
    initHeader s.env s.ports.inBase s.ports.inLen (initStart s) = initAdif s.env (initStart s) := by
  unfold initHeader
  refine (run_bind_ok (show Wk.ofRd Rd.cursor (initStart s) = .ok _ (initStart s) from rfl)).trans ?_
  rw [State.env_mem, if_pos h]

variable (h0 : adifTest s.inMem s.ports.inBase s.ports.inLen = false)
include h0

theorem initHeader_adts (h : 12 ≤ 8 * s.ports.inLen) (hs : bitsAt s.inMem s.ports.inBase 0 12 = 0xFFF) :
    initHeader s.env s.ports.inBase s.ports.inLen (initStart s) = initAdts s.env (initStart s) := by
  unfold initHeader
  refine (run_bind_ok (show Wk.ofRd Rd.cursor (initStart s) = .ok (initStart s).eng.bc (initStart s) from rfl)).trans ?_
  rw [State.env_mem, h0, if_neg (by decide), if_pos ⟨h, hs⟩]

theorem initHeader_latm (h1 : bitsAt s.inMem s.ports.inBase 0 12 ≠ 0xFFF) (h : 11 ≤ 8 * s.ports.inLen)
    (hs : bitsAt s.inMem s.ports.inBase 0 11 = 0x2B7) :
    initHeader s.env s.ports.inBase s.ports.inLen (initStart s) = initLatm s.env (initStart s) := by
  unfold initHeader
  refine (run_bind_ok (show Wk.ofRd Rd.cursor (initStart s) = .ok (initStart s).eng.bc (initStart s) from rfl)).trans ?_
  rw [State.env_mem, h0, if_neg (by decide), if_neg (fun h => h1 h.2), if_pos ⟨h, hs⟩]

theorem initHeader_raw (h1 : 12 ≤ 8 * s.ports.inLen → bitsAt s.inMem s.ports.inBase 0 12 ≠ 0xFFF)
    (h2 : 11 ≤ 8 * s.ports.inLen → bitsAt s.inMem s.ports.inBase 0 11 ≠ 0x2B7) :
    initHeader s.env s.ports.inBase s.ports.inLen (initStart s) =
      .ok (0, .unknown) { initStart s with sc := { s.work.sc with headerType := 0 } } := by
  unfold initHeader
  refine (run_bind_ok (show Wk.ofRd Rd.cursor (initStart s) = .ok (initStart s).eng.bc (initStart s) from rfl)).trans ?_
  rw [State.env_mem, h0, if_neg (by decide), if_neg (fun h => h1 h.1 h.2), if_neg (fun h => h2 h.1 h.2)]
  rfl

end

/-- The ADIF pattern begins with another byte than the two others. -/
theorem adifTest_false {m : Memory} {base : Nat} (len : Nat) (h : bitsAt m base 0 8 ≠ 0x41) :
    adifTest m base len = false := by
  have hb : (m.read base == 0x41) = false := by
    rw [beq_eq_false_iff_ne]
    intro hr
    have hbits := bitsAt_byte m base 0
    rw [Nat.mul_zero, Nat.add_zero, hr] at hbits
    exact h hbits
  simp only [adifTest, hb, Bool.and_false, Bool.false_and]

/-- The first n of n + k bits, as numbers. -/
theorem bitsAt_prefix (m : Memory) (base b n k : Nat) : bitsAt m base b n = bitsAt m base b (n + k) / 2 ^ k := by
  rw [bitsAt_add, Nat.mul_comm, Nat.mul_add_div (Nat.two_pow_pos k), Nat.div_eq_of_lt (bitsAt_lt m base (b + n) k),
    Nat.add_zero]

/-! ## A stream without a header -/

/-- The SBR presence policy where nothing signals SBR (41_parsers.md R184, R407). -/
theorem sbrPolicy_unknown (c : Cap) (g : CfgRegs) (sc : StreamCfg) : sbrPolicy c g .unknown sc = { sc with
    sbrPresent := c.sbr && decide (sc.sampleRate.toNat ≤ 24000)
    psPresent := false
    upsample := c.sbr && decide (sc.sampleRate.toNat ≤ 24000) && !g.noImplicitSbrUpsample } := rfl

/-- The reported count where nothing signals SBR (R408). -/
theorem reportedChannels_unknown (c : Cap) (sc : StreamCfg) (n : Nat) (hp : sc.psPresent = false) :
    reportedChannels c .unknown sc n =
      if n = 1 ∧ (c.sbr && decide (sc.sampleRate.toNat ≤ 24000)) = true ∧ c.ps = true then 2 else n := by
  simp [reportedChannels, implicitSbr, hp]

/-- Settles O48: with none of the three headers, INIT_COMMON sees StreamConfig as it was. -/
theorem initRaw : Obligations.InitRaw := by
  rintro s n sbr up ho h0 h1 h2 hd hr hc hn hsbr hup ha
  have hacc : s.accepts .unknown { s.work.sc with headerType := 0 } s.work.ds.pce n :=
    ⟨hd, .inr hr, hc, hn, fun hp _ => ha (hsbr.trans hp)⟩
  obtain ⟨t, ht, hi, hpce, -⟩ := exec_init_ok ho (initHeader_raw h0 h1 h2) hacc rfl
  obtain ⟨horch, hres0, hres1, hres2, hsc, hcfg, hfi, hout, hin, -, hov, hfr, -, -⟩ := hi
  rw [sbrPolicy_unknown] at hres1 hres2 hsc
  rw [reportedChannels_unknown _ _ _ rfl] at hres2
  dsimp only at hres1 hres2 hsc
  rw [← hsbr] at hres2 hsc
  rw [← hup] at hsc
  refine ⟨t, ht, horch, hres0, ?_, hres2, hsc, hcfg, hfi, hout, hin, hov, hfr⟩
  rw [hres1, reportedRate]
  dsimp only
  rw [← hsbr, ← hup]

/-! ## Fields at known places of the slice -/

section
variable {e : Env} {base len n : Nat} (hn : n ≤ 8 * len)
include hn

theorem rdGet_slice (j : Nat) {m : Nat} (hm : m ≤ 32) (hj : j + m ≤ n) :
    Rd.get e m ((Cursor.create base len).fwd j) =
      .ok (bitsAt e.mem base j m) ((Cursor.create base len).fwd (j + m)) := by
  have hp : ((Cursor.create base len).fwd j).pos = j := Nat.zero_add j
  have hc : ((Cursor.create base len).fwd j).canRead m = true :=
    (Cursor.canRead_iff _ _).2 ⟨rfl, hm, by rw [hp]; exact hj.trans hn⟩
  rw [rdGet_run hc, hp]
  simp [Cursor.fwd, Cursor.create]

theorem rdBit_slice (j : Nat) (hj : j + 1 ≤ n) :
    Rd.bit e ((Cursor.create base len).fwd j) =
      .ok (bitsAt e.mem base j 1 == 1) ((Cursor.create base len).fwd (j + 1)) := by
  rw [Rd.bit, run_bind_ok (rdGet_slice hn j (by omega) hj)]
  rfl

end

/-! ## ADTS (R171 to R175) -/

/-- The header record of an ADTS header with no byte skipped, by the bits of the slice; its variable part begins at bit v. -/
def adtsRecord (m : Memory) (base v : Nat) (crc : Option (BitVec 16)) : Adts where
  skipped := 0
  id := bitsAt m base 12 1 == 1
  objectType := BitVec.ofNat 6 (bitsAt m base 16 2 + 1)
  sfIndex := BitVec.ofNat 4 (bitsAt m base 18 4)
  channelConfig := BitVec.ofNat 4 (bitsAt m base 23 3)
  protectionAbsent := bitsAt m base 15 1 == 1
  frameLength := BitVec.ofNat 13 (bitsAt m base (v + 2) 13)
  bufferFullness := BitVec.ofNat 11 (bitsAt m base (v + 15) 11)
  rawBlocks := BitVec.ofNat 2 (bitsAt m base (v + 26) 2)
  crc := crc

section
variable {e : Env} {base len : Nat}

/-- The sync word at the first bit. -/
theorem adtsSync_here {tries : Nat} (ht : 1 ≤ tries) (h12 : 12 ≤ 8 * len) (hs : bitsAt e.mem base 0 12 = 0xFFF) :
    adtsSync e tries 0 (Cursor.create base len) = .ok 0 ((Cursor.create base len).fwd 12) := by
  obtain ⟨t, rfl⟩ := Nat.exists_eq_add_of_le' ht
  have hc : (Cursor.create base len).canRead 12 = true :=
    (Cursor.canRead_iff _ _).2 ⟨rfl, by omega, by show 0 + 12 ≤ 8 * len; omega⟩
  have hp : Rd.peek e 12 (Cursor.create base len) = .ok 0xFFF (Cursor.create base len) := by
    rw [Rd.peek, Cursor.peek_eq _ hc]
    exact congrArg (EStateM.Result.ok · _) hs
  have hf : Rd.flush 12 (Cursor.create base len) = .ok () ((Cursor.create base len).fwd 12) := by
    rw [Rd.flush, Cursor.flush_eq hc]
    rfl
  rw [adtsSync, run_bind_ok hp]
  refine (run_bind_ok (show Rd.cursor _ = .ok (Cursor.create base len) _ from rfl)).trans ?_
  exact (run_bind_ok hf).trans rfl

/-- Where the variable part begins: two emphasis bits follow the fixed part of an MPEG-4 header in the old format. -/
def adtsVariableStart (e : Env) (base : Nat) : Nat :=
  28 + (if e.cfg.oldAdtsFormat = true ∧ bitsAt e.mem base 12 1 = 0 then 2 else 0)

theorem adtsFixed_here (hi : bitsAt e.mem base 18 4 ≤ 12) (hl : adtsVariableStart e base ≤ 8 * len) (a : Adts) :
    adtsFixed e a ((Cursor.create base len).fwd 12) = .ok { a with
      id := bitsAt e.mem base 12 1 == 1
      objectType := BitVec.ofNat 6 (bitsAt e.mem base 16 2 + 1)
      sfIndex := BitVec.ofNat 4 (bitsAt e.mem base 18 4)
      channelConfig := BitVec.ofNat 4 (bitsAt e.mem base 23 3)
      protectionAbsent := bitsAt e.mem base 15 1 == 1 } ((Cursor.create base len).fwd (adtsVariableStart e base)) := by
  have h28 : 28 ≤ 8 * len := (Nat.le_add_right _ _).trans hl
  have hid : ((!(bitsAt e.mem base 12 1 == 1)) = true) ↔ bitsAt e.mem base 12 1 = 0 := by
    have := bitsAt_lt e.mem base 12 1
    simp
    omega
  rw [adtsFixed, run_bind_ok (rdBit_slice h28 12 (by omega)), run_bind_ok (rdGet_slice h28 13 (by omega) (by omega)),
    run_bind_ok (rdBit_slice h28 15 (by omega)), run_bind_ok (rdGet_slice h28 16 (by omega) (by omega)),
    run_bind_ok (rdGet_slice h28 18 (by omega) (by omega)), run_bind_ok (rdGet_slice h28 22 (by omega) (by omega)),
    run_bind_ok (rdGet_slice h28 23 (by omega) (by omega)), run_bind_ok (rdGet_slice h28 26 (by omega) (by omega)),
    run_bind_ok (rdGet_slice h28 27 (by omega) (by omega))]
  simp only [Bool.and_eq_true, hid, if_neg (Nat.not_lt.2 hi)]
  by_cases hc : e.cfg.oldAdtsFormat = true ∧ bitsAt e.mem base 12 1 = 0
  · have hv : adtsVariableStart e base = 30 := by rw [adtsVariableStart, if_pos hc]
    rw [hv] at hl ⊢
    rw [if_pos hc, run_bind_ok (rdGet_slice hl 28 (by omega) (by omega))]
    rfl
  · have hv : adtsVariableStart e base = 28 := by rw [adtsVariableStart, if_neg hc]
    rw [if_neg hc, hv]
    rfl

theorem adtsVariable_here {v : Nat} (hl : v + 28 ≤ 8 * len) (a : Adts) :
    adtsVariable e a ((Cursor.create base len).fwd v) = .ok { a with
      frameLength := BitVec.ofNat 13 (bitsAt e.mem base (v + 2) 13)
      bufferFullness := BitVec.ofNat 11 (bitsAt e.mem base (v + 15) 11)
      rawBlocks := BitVec.ofNat 2 (bitsAt e.mem base (v + 26) 2) } ((Cursor.create base len).fwd (v + 28)) := by
  rw [adtsVariable, run_bind_ok (rdGet_slice hl v (by omega) (by omega)),
    run_bind_ok (rdGet_slice hl (v + 1) (by omega) (by omega)), run_bind_ok (rdGet_slice hl (v + 2) (by omega) (by omega)),
    run_bind_ok (rdGet_slice hl (v + 15) (by omega) (by omega)), run_bind_ok (rdGet_slice hl (v + 26) (by omega) (by omega))]
  rfl

theorem adtsCrc_here {v : Nat} {a : Adts} (hl : v + (if a.protectionAbsent then 0 else 16) ≤ 8 * len) :
    ∃ crc j, adtsCrc e a ((Cursor.create base len).fwd v) = .ok { a with crc := crc } ((Cursor.create base len).fwd j) := by
  unfold adtsCrc
  split
  next => exact ⟨a.crc, v, rfl⟩
  next hp =>
    rw [if_neg hp] at hl
    refine ⟨some (BitVec.ofNat 16 (bitsAt e.mem base v 16)), v + 16, ?_⟩
    rw [run_bind_ok (rdGet_slice hl v (by omega) (by omega))]
    rfl

/-- ADTS_HEADER at the first bit (R172 to R175). -/
theorem adtsHeader_here {v : Nat} (ht : 1 ≤ e.par.syncWindowBytes) (hs : bitsAt e.mem base 0 12 = 0xFFF)
    (hi : bitsAt e.mem base 18 4 ≤ 12) (hv : v = adtsVariableStart e base)
    (hl : v + 28 + (if bitsAt e.mem base 15 1 = 0 then 16 else 0) ≤ 8 * len) :
    ∃ crc k, adtsHeader e (Cursor.create base len) = .ok (adtsRecord e.mem base v crc) k := by
  have hv28 : 28 ≤ v := hv ▸ Nat.le_add_right _ _
  have hcrc : v + 28 + (if (bitsAt e.mem base 15 1 == 1) = true then 0 else 16) ≤ 8 * len := by
    have := bitsAt_lt e.mem base 15 1
    simp only [beq_iff_eq]
    split at hl <;> split <;> omega
  obtain ⟨crc, j, hc⟩ := adtsCrc_here (e := e) (base := base) (len := len) (v := v + 28)
    (a := adtsRecord e.mem base v none) hcrc
  refine ⟨crc, (Cursor.create base len).fwd j, ?_⟩
  rw [adtsHeader, run_bind_ok (adtsSync_here ht (by omega) hs), run_bind_ok (adtsFixed_here hi (by omega) _), ← hv,
    run_bind_ok (adtsVariable_here (by omega) _)]
  exact (run_bind_ok hc).trans rfl

end

/-- A slice that begins with the ADTS sync word does not begin with the ADIF pattern. -/
theorem adifTest_of_sync {m : Memory} {base : Nat} (len : Nat) (h : bitsAt m base 0 12 = 0xFFF) :
    adifTest m base len = false :=
  adifTest_false len (by rw [bitsAt_prefix m base 0 8 4, h]; decide)

/-- Settles O49: the sync word is at the first bit, so the header's fields are at fixed places. -/
theorem exec_initAdts : Obligations.InitAdts := by
  intro s v n sc ho ht f hs hi hv hl hsc ha
  have hlen : 12 ≤ 8 * s.ports.inLen := by
    have : 28 ≤ v := hv ▸ Nat.le_add_right _ _
    omega
  obtain ⟨crc, k, hp⟩ := adtsHeader_here (e := s.env) (base := s.ports.inBase) (len := s.ports.inLen) ht hs hi hv hl
  set a := adtsRecord s.inMem s.ports.inBase v crc with hrec
  have hidx : a.sfIndex.toNat = f 18 4 := Nat.mod_eq_of_lt (Nat.lt_of_le_of_lt hi (by decide))
  set w : Work := { initStart s with
    eng := { s.work.eng with bc := k }
    frm := { Frame.none with adts := some a }
    sc := sc } with hw
  have hfields : sc = { s.work.sc with
      headerType := 2
      objectType := a.objectType
      sfIndex := a.sfIndex
      sampleRate := BitVec.ofNat 32 (sampleRate s.par a.sfIndex.toNat)
      channelConfig := a.channelConfig } := by
    rw [hsc, hidx]
    rfl
  have hrun : initAdts s.env (initStart s) = .ok (0, .unknown) w := by
    refine (run_bind_ok (wkOfRd_ok (w := initStart s) hp)).trans ?_
    rw [hw, hfields]
    rfl
  obtain ⟨t, hex, hini, hpce, hfrm⟩ := exec_init_ok (w := w) ho
    ((initHeader_adts (adifTest_of_sync _ hs) hlen hs).trans hrun) ha rfl
  refine ⟨t, a, hex, hini, hpce, ?_, rfl, rfl, rfl, rfl, rfl⟩
  rw [hfrm]

end Sys2Proof.Machine
end

section
/-! PROOFS. INIT on a LATM frame and on an ADIF header, INIT2 on two bytes (48_orchestrator.md R404, R405, 41_parsers.md R179, R182,
R186 to R188). -/

namespace Sys2Proof.Machine

/-! ## LATM (R186 to R188) -/

/-- A slice that begins with the LATM sync word begins with neither other pattern. -/
theorem latm_sync_excludes {m : Memory} {base : Nat} (h : bitsAt m base 0 11 = 0x2B7) :
    bitsAt m base 0 8 ≠ 0x41 ∧ bitsAt m base 0 12 ≠ 0xFFF := by
  refine ⟨by rw [bitsAt_prefix m base 0 8 3, h]; decide, fun h12 => ?_⟩
  rw [bitsAt_prefix m base 0 11 1, h12] at h
  cases h

/-- StreamConfig as the LATM branch marks it, before any AudioSpecificConfig. -/
def latmCfg (sc : StreamCfg) : StreamCfg := { sc with latm := true, headerType := 0 }

section
variable {s : State} {k : Cursor}

theorem initLatm_error {c : Cause} (h : latmFrame s.env false (Cursor.create s.ports.inBase s.ports.inLen) = .error c k) :
    ∃ w, initLatm s.env (initStart s) = .error c w :=
  ⟨_, (run_bind_ok (show Wk.setSc _ (initStart s) = .ok () { initStart s with sc := latmCfg s.work.sc } from rfl)).trans
    (run_bind_error (wkOfRd_error h))⟩

theorem initLatm_same (h : latmFrame s.env false (Cursor.create s.ports.inBase s.ports.inLen) = .ok none k) :
    initLatm s.env (initStart s) = .ok (0, .unknown) { initStart s with
      eng := { s.work.eng with bc := k }
      sc := latmCfg s.work.sc } :=
  (run_bind_ok (wkOfRd_ok (w := { initStart s with sc := latmCfg s.work.sc }) h)).trans rfl

theorem initLatm_config {a : Asc}
    (h : latmFrame s.env false (Cursor.create s.ports.inBase s.ports.inLen) = .ok (some a) k) :
    initLatm s.env (initStart s) = .ok (0, a.signal) { initStart s with
      eng := { s.work.eng with bc := k }
      sc := applySignal s.par.cap a.signal (a.fields (latmCfg s.work.sc))
      ds := { s.work.ds with pce := a.pce.or s.work.ds.pce } } :=
  (run_bind_ok (wkOfRd_ok (w := { initStart s with sc := latmCfg s.work.sc }) h)).trans
    ((run_bind_ok (commitAsc_run _ a _)).trans rfl)

end

/-- INIT always answers a next state. -/
theorem runInit_total (p : Env → HostPorts → Wk InitResult) (s : State) : ∃ t, runInit p s = .next t := by
  unfold runInit
  split
  · exact ⟨_, rfl⟩
  · split <;> exact ⟨_, rfl⟩

/-- Settles O51: by what LATM_FRAME answers, the cause of the raise, or the stream it configures. -/
theorem exec_initLatm : Obligations.InitLatm := by
  intro s ho hlen hs
  obtain ⟨h8, h12⟩ := latm_sync_excludes hs
  have hh := initHeader_latm (adifTest_false _ h8) h12 hlen hs
  obtain ⟨t, ht⟩ := runInit_total initBody s
  refine ⟨t, ht, ?_⟩
  dsimp only
  cases hf : latmFrame s.env false (Cursor.create s.ports.inBase s.ports.inLen) with
  | error c k =>
    obtain ⟨w, hw⟩ := initLatm_error hf
    cases ht.symm.trans (exec_init_error ho (hh.trans hw))
    exact ⟨ho, rfl, rfl, rfl⟩
  | ok a k =>
    cases a with
    | none =>
      intro n ha
      obtain ⟨u, hu, hini, hpce, -⟩ := exec_init_ok ho (hh.trans (initLatm_same hf)) ha rfl
      cases ht.symm.trans hu
      exact ⟨hini, hpce⟩
    | some a =>
      rintro n asc pce rfl rfl ha
      obtain ⟨u, hu, hini, hpce, -⟩ := exec_init_ok ho (hh.trans (initLatm_config hf)) (accepts_applySignal ha) rfl
      cases ht.symm.trans hu
      exact ⟨initialisedWith_applySignal.1 hini, hpce⟩

/-! ## AudioSpecificConfig of two bytes (R182) -/

/-- The configuration those bytes name. -/
def twoByteAsc (e : Env) (base : Nat) : Asc where
  objectType := bitsAt e.mem base 0 5
  sfIndex := bitsAt e.mem base 5 4
  rate := sampleRate e.par (bitsAt e.mem base 5 4)
  channelConfig := bitsAt e.mem base 9 4
  frameLen := if bitsAt e.mem base 13 1 = 1 then 960 else 1024
  erFlags := 0
  pce := none
  signal := .unknown

/-- No object type in which SBR is signalled explicitly is decodable itself (R403). -/
theorem decodable_not_explicit {c : Cap} {ot : Nat} (h : decodable c ot = true) :
    ot ≠ 3 ∧ ot ≠ 5 ∧ ot ≠ 29 := by
  refine ⟨?_, ?_, ?_⟩ <;> rintro rfl <;> cases h

theorem ascParse_twoBytes {e : Env} {base : Nat} (hd : decodable e.par.cap (bitsAt e.mem base 0 5) = true)
    (hi : bitsAt e.mem base 5 4 ≤ 12) (hr : 0 < sampleRate e.par (bitsAt e.mem base 5 4))
    (hcc : 1 ≤ bitsAt e.mem base 9 4) (hdep : bitsAt e.mem base 14 1 = 0) (hext : bitsAt e.mem base 15 1 = 0) :
    ∃ k, ascParse e false (Cursor.create base 2) = .ok (twoByteAsc e base) k := by
  obtain ⟨h3, h5, h29⟩ := decodable_not_explicit hd
  have h16 : 16 ≤ 8 * 2 := le_rfl
  have rate : ascRate e ((Cursor.create base 2).fwd 5) =
      .ok (bitsAt e.mem base 5 4, sampleRate e.par (bitsAt e.mem base 5 4)) ((Cursor.create base 2).fwd 9) := by
    rw [ascRate, run_bind_ok (rdGet_slice h16 5 (by omega) (by omega)), if_neg (by omega), if_neg (by omega)]
    rfl
  have channels : ascChannels e false ((Cursor.create base 2).fwd 9) =
      .ok (bitsAt e.mem base 9 4) ((Cursor.create base 2).fwd 13) := by
    rw [ascChannels, run_bind_ok (rdGet_slice h16 9 (by omega) (by omega))]
    rfl
  have explicit : ascExplicit e (bitsAt e.mem base 0 5) = pure (bitsAt e.mem base 0 5, .unknown) := by
    rw [ascExplicit, if_neg (by omega)]
  have depends : (bitsAt e.mem base 14 1 == 1) = false := by rw [hdep]; rfl
  have ext : (bitsAt e.mem base 15 1 == 1) = false := by rw [hext]; rfl
  have frameLen : (if (bitsAt e.mem base 13 1 == 1) = true then 960 else 1024) = (twoByteAsc e base).frameLen := by
    simp only [beq_iff_eq, twoByteAsc]
  refine ⟨(Cursor.create base 2).fwd 16, ?_⟩
  rw [ascParse]
  refine (run_bind_ok (rdGet_slice (base := base) h16 0 (by omega) (by omega))).trans ?_
  rw [run_bind_ok rate, if_neg (by omega)]
  refine (run_bind_ok channels).trans ?_
  rw [explicit]
  refine (run_bind_ok (run_pure _ _)).trans ?_
  have hdec : ascDecodable e.par.cap (bitsAt e.mem base 0 5) = true := by rw [ascDecodable, if_neg h3, hd]
  simp only [hdec, Bool.not_true, Bool.false_eq_true, if_false]
  rw [run_bind_ok (rdBit_slice h16 13 (by omega)), run_bind_ok (rdBit_slice h16 14 (by omega)), depends]
  simp only [Bool.false_eq_true, if_false]
  rw [run_bind_ok (rdBit_slice h16 15 (by omega)), ext, if_neg (by omega), frameLen]
  rfl

theorem configChannels_eq_one {cc : Nat} : configChannels cc = 1 ↔ cc = 1 := by
  unfold configChannels
  split <;> simp_all

/-- Settles O52: sixteen bits of plain fields, and the stream INIT_COMMON makes of them. -/
theorem init2TwoBytes : Obligations.Init2TwoBytes := by
  rintro s ot i cc sbr up ho hlen rfl rfl rfl hdep hext hd hi hcc1 hcc7 hr0 hr31 hn hsbr hup ha
  obtain ⟨k, hp⟩ := ascParse_twoBytes (e := s.env) hd hi hr0 hcc1 hdep hext
  rw [← hlen] at hp
  set a := twoByteAsc s.env s.ports.inBase with haw
  set sc := a.fields { s.work.sc with headerType := 0 } with hsc
  have hot : sc.objectType.toNat = bitsAt s.inMem s.ports.inBase 0 5 :=
    Nat.mod_eq_of_lt ((bitsAt_lt _ _ _ _).trans (by decide))
  have hrate : sc.sampleRate.toNat = sampleRate s.par (bitsAt s.inMem s.ports.inBase 5 4) :=
    Nat.mod_eq_of_lt (hr31.trans (by decide))
  have hccn : sc.channelConfig.toNat = bitsAt s.inMem s.ports.inBase 9 4 := Nat.mod_eq_of_lt (bitsAt_lt _ _ _ _)
  have hcount : channelCount sc (a.pce.or s.work.ds.pce) = some (configChannels (bitsAt s.inMem s.ports.inBase 9 4)) := by
    have hne : sc.channelConfig ≠ 0 := by
      intro h0
      rw [h0] at hccn
      exact absurd hcc1 (by rw [← hccn]; decide)
    rw [channelCount, if_neg (by omega), if_neg hne, hccn]
  have hacc : s.accepts a.signal sc (a.pce.or s.work.ds.pce) (configChannels (bitsAt s.inMem s.ports.inBase 9 4)) := by
    refine ⟨by rwa [hot], .inl ?_, hcount, hn, fun hp _ => ha ?_⟩
    · exact (Nat.mod_le _ _).trans hi
    · rw [hsbr, ← hrate]
      exact hp
  obtain ⟨t, ht, hini⟩ := exec_init2_ok ho hp hacc
  obtain ⟨horch, hres0, hres1, hres2, htsc, hcfg, hfi, hout, -, -, -, -, -, -⟩ := hini
  rw [show a.signal = .unknown from rfl, sbrPolicy_unknown] at hres1 hres2 htsc
  rw [reportedChannels_unknown _ _ _ rfl] at hres2
  rw [reportedRate] at hres1
  dsimp only at hres1 hres2 htsc
  rw [hrate, ← hsbr] at hres1 hres2 htsc
  rw [← hup] at hres1 htsc
  simp only [configChannels_eq_one] at hres2
  refine ⟨t, ht, horch, hres0, hres1, hres2, ?_⟩
  rw [htsc]
  refine ⟨rfl, rfl, rfl, rfl, ?_, rfl, rfl, rfl, rfl, hcfg, hfi, hout⟩
  show BitVec.ofNat 11 (if bitsAt s.inMem s.ports.inBase 13 1 = 1 then 960 else 1024) = _
  split <;> rfl

/-! ## ADIF (R179) -/

theorem takes_bits {e : Env} {pos : Nat} {l : List Bool} (h : l.length ≤ 32) :
    Takes e.mem pos (Rd.get e l.length) l (bitsToNat l) := by
  have hl : natToBits l.length (bitsToNat l) = l :=
    bitsToNat_injective (natToBits_length _ _) (bitsToNat_natToBits _ _ (bitsToNat_lt l))
  exact takes_congr (takes_get h (bitsToNat_lt l)) hl

/-- n fields of any bits. -/
theorem takes_many_bits {e : Env} {width : Nat} (hw : width ≤ 32) :
    ∀ (n pos : Nat) (l : List Bool), l.length = n * width → ∃ v, Takes e.mem pos (Rd.many e width n) l v
  | 0, pos, l, hl => ⟨[], takes_congr (takes_pure _ _ _) (List.length_eq_zero_iff.1 (by simpa using hl)).symm⟩
  | n + 1, pos, l, hl => by
    rw [Nat.succ_mul] at hl
    have ht : (l.take width).length = width := by rw [List.length_take]; omega
    obtain ⟨v, hv⟩ := takes_many_bits (e := e) hw n (pos + (l.take width).length) (l.drop width) (by rw [List.length_drop]; omega)
    have hg : Takes e.mem pos (Rd.get e width) (l.take width) (bitsToNat (l.take width)) := by
      have := takes_bits (e := e) (pos := pos) (l := l.take width) (by omega)
      rwa [ht] at this
    refine ⟨_, takes_congr (takes_bind hg (takes_congr (takes_bind hv (takes_pure _ _ _)) (List.append_nil _)))
      (List.take_append_drop _ _)⟩

theorem takes_flush {m : Memory} {pos : Nat} {l : List Bool} (h : l.length ≤ 32) :
    Takes m pos (Rd.flush l.length) l () := by
  intro k r _ hr
  have hc := (Cursor.canRead_iff k l.length).2 ⟨hr.1, h, (Cursor.reads_split hr).1⟩
  rw [Rd.flush, Cursor.flush_eq hc]
  rfl

/-- The copyright field of an ADIF header, if it is there. -/
def adifMark (e : Env) : Rd (List Nat) := do
  let idPresent ← Rd.bit e
  Rd.many e 8 (if idPresent then 9 else 0)

theorem takes_adifMark {e : Env} {pos : Nat} {mark : List Bool}
    (h : mark = [false] ∨ ∃ id : List Bool, id.length = 72 ∧ mark = true :: id) :
    ∃ v, Takes e.mem pos (adifMark e) mark v := by
  obtain rfl | ⟨id, hid, rfl⟩ := h
  · exact ⟨[], takes_bind (takes_bit false) (takes_pure _ _ _)⟩
  · obtain ⟨v, hv⟩ := takes_many_bits (e := e) (width := 8) (by omega) 9 (pos + [true].length) id hid
    exact ⟨v, takes_bind (takes_bit true) hv⟩

/-- The PCEs of an ADIF header, which end at a byte boundary. -/
theorem takes_adifPces {e : Env} {type : Bool} :
    ∀ (l : List (Nat × Pce)) {start : Nat} {bits : List Bool}, isPceList type start l bits →
      (∀ y ∈ l, y.2.channels ≤ e.par.maxChannels) →
      ∃ fullness, Takes e.mem start (adifPces e type l.length) bits (fullness, l.map (·.2))
  | [], start, bits, h, _ => by
    rw [isPceList] at h
    exact ⟨[], takes_congr (takes_pure _ _ _) h.symm⟩
  | x :: r, start, bits, h, hc => by
    obtain ⟨full, own, more, hfull, hx, hown, hmore, rfl⟩ := h
    obtain ⟨f, hf⟩ := takes_adifPces r hmore fun y hy => hc y (List.mem_cons_of_mem _ hy)
    have hhead : Takes e.mem start (if type then (return []) else Rd.many e 20 1) full (if type then [] else [x.1]) := by
      rw [hfull]
      cases type with
      | true => exact takes_pure _ _ _
      | false => exact takes_congr (takes_many (n := 20) (by omega) [x.1] (by simpa using hx) start) (by simp)
    refine ⟨(if type then [] else [x.1]) ++ f, takes_congr (takes_bind hhead (takes_bind
      (takes_pce hown (hc x List.mem_cons_self)) (takes_bind hf (takes_pure _ _ _)))) (by simp)⟩

theorem length_flatMap_natToBits (n : Nat) (l : List Nat) : (l.flatMap (natToBits n)).length = l.length * n := by
  simp [List.length_flatMap, natToBits_length]

/-- A PCE ends at a byte boundary, its comment being whole bytes. -/
theorem isPce_aligned {start : Nat} {p : Pce} {bits : List Bool} (h : isPce start p bits) :
    (start + bits.length) % 8 = 0 := by
  obtain ⟨-, pad, -, hpad, hb⟩ := h
  have hcomment : p.commentBits.length = 8 + p.comment.length * 8 := by
    rw [Pce.commentBits, List.length_append, natToBits_length, length_flatMap_natToBits]
  rw [hb, List.length_append, List.length_append, hcomment]
  generalize p.headBits.length = n at hpad ⊢
  omega

theorem isPceList_aligned {type : Bool} : ∀ (l : List (Nat × Pce)) {start : Nat} {bits : List Bool},
    isPceList type start l bits → l ≠ [] → (start + bits.length) % 8 = 0
  | [], _, _, _, hne => absurd rfl hne
  | x :: r, start, bits, h, _ => by
    obtain ⟨full, own, more, -, -, hown, hmore, rfl⟩ := h
    rw [List.length_append, List.length_append, ← Nat.add_assoc, ← Nat.add_assoc]
    cases r with
    | cons y r => exact isPceList_aligned (y :: r) hmore (List.cons_ne_nil y r)
    | nil =>
      rw [isPceList] at hmore
      rw [hmore, List.length_nil, Nat.add_zero]
      exact isPce_aligned hown

theorem adifHeader_eq (e : Env) : adifHeader e = (do
    Rd.flush 32
    let copyrightId ← adifMark e
    let _original ← Rd.get e 1
    let _home ← Rd.get e 1
    let bitstreamType ← Rd.bit e
    let bitrate ← Rd.get e 23
    let n ← Rd.get e 4
    let r ← adifPces e bitstreamType (n + 1)
    Rd.byteAlign
    Rd.sample
    return { copyrightId := copyrightId, bitstreamType := bitstreamType, bitrate := bitrate, bufferFullness := r.1,
             pces := r.2 }) := by simp only [adifHeader, adifMark, bind_assoc]

theorem takes_flag {e : Env} {pos : Nat} (b : Bool) : Takes e.mem pos (Rd.get e 1) [b] (bitsToNat [b]) :=
  takes_bits (l := [b]) (by simp)

/-- An ADIF header at the start of a slice: it ends with its last PCE, where a byte ends. -/
theorem takes_adifHeader {e : Env} {mark bits : List Bool} {original home type : Bool} {rate : Nat} {x : Nat × Pce}
    {l : List (Nat × Pce)} (hm : mark = [false] ∨ ∃ id : List Bool, id.length = 72 ∧ mark = true :: id)
    (hr : rate < 2 ^ 23) (hl : l.length < 16) (hc : ∀ y ∈ x :: l, y.2.channels ≤ e.par.maxChannels)
    (hp : isPceList type (62 + mark.length) (x :: l) bits) :
    ∃ a : Adif, a.pces = (x :: l).map (·.2) ∧ Takes e.mem 0 (adifHeader e)
      (natToBits 32 0x41444946 ++ mark ++ [original, home, type] ++ natToBits 23 rate ++ natToBits 4 l.length ++ bits) a := by
  obtain ⟨v, hv⟩ := takes_adifMark (e := e) (pos := 32) hm
  obtain ⟨fullness, hf⟩ := takes_adifPces (e := e) (x :: l) hp hc
  have halign := isPceList_aligned (x :: l) hp (List.cons_ne_nil x l)
  refine ⟨⟨v, type, rate, fullness, (x :: l).map (·.2)⟩, rfl, ?_⟩
  have hsync : Takes e.mem 0 (Rd.flush 32) (natToBits 32 0x41444946) () :=
    takes_flush (l := natToBits 32 0x41444946) (by rw [natToBits_length])
  have hend : Takes e.mem (62 + mark.length + bits.length) Rd.byteAlign [] () := takes_align (by decide) halign
  have htail : Takes e.mem (62 + mark.length) (do
      let r ← adifPces e type (l.length + 1)
      Rd.byteAlign
      Rd.sample
      return ({ copyrightId := v, bitstreamType := type, bitrate := rate, bufferFullness := r.1, pces := r.2 } : Adif))
      bits ⟨v, type, rate, fullness, (x :: l).map (·.2)⟩ :=
    takes_congr (takes_bind hf (takes_bind hend (takes_bind (takes_sample _ _) (takes_pure _ _ _)))) (by simp)
  rw [adifHeader_eq]
  refine takes_congr (takes_bind hsync (takes_bind hv (takes_bind (takes_flag original) (takes_bind (takes_flag home)
    (takes_bind (takes_bit type) (takes_bind (takes_get (by omega) hr) (takes_bind (takes_get (n := 4) (by omega) hl)
    (l' := bits) ?tail))))))) (by simp)
  case tail =>
    have hpos : 0 + (natToBits 32 0x41444946).length + mark.length + [original].length + [home].length + [type].length +
        (natToBits 23 rate).length + (natToBits 4 l.length).length = 62 + mark.length := by
      simp only [natToBits_length, List.length_singleton]
      omega
    rwa [hpos]

/-- The pattern's four bytes are the sync word's. -/
theorem adifTest_of_sync_word {m : Memory} {base len : Nat} (hl : 4 ≤ len) (h : bitsAt m base 0 32 = 0x41444946) :
    adifTest m base len = true := by
  have hsplit := bitsAt_add m base 0 16 16
  have h0 : bitsAt m base 0 16 = 256 * (m.read base).toNat + (m.read (base + 1)).toNat := bitsAt_two_bytes m base 0
  have h2 : bitsAt m base 16 16 = 256 * (m.read (base + 2)).toNat + (m.read (base + 3)).toNat := bitsAt_two_bytes m base 2
  rw [h, Nat.zero_add, h0, h2] at hsplit
  have b0 := (m.read base).isLt
  have b1 := (m.read (base + 1)).isLt
  have b2 := (m.read (base + 2)).isLt
  have b3 := (m.read (base + 3)).isLt
  have e0 : m.read base = 0x41 := BitVec.eq_of_toNat_eq (by show _ = 0x41; omega)
  have e1 : m.read (base + 1) = 0x44 := BitVec.eq_of_toNat_eq (by show _ = 0x44; omega)
  have e2 : m.read (base + 2) = 0x49 := BitVec.eq_of_toNat_eq (by show _ = 0x49; omega)
  have e3 : m.read (base + 3) = 0x46 := BitVec.eq_of_toNat_eq (by show _ = 0x46; omega)
  simp [adifTest, hl, e0, e1, e2, e3]

theorem bytesUsed_of_aligned {k : Cursor} (h : k.pos % 8 = 0) : k.bytesUsed = k.pos / 8 := by
  rw [Cursor.bytesUsed]
  omega

/-- Settles O50: the header's fields one after another, and the stream INIT_COMMON makes of the first PCE. -/
theorem exec_initAdif : Obligations.InitAdif := by
  intro s mark original home type rate n x l bits rest sc ho hm hr hl hc hp hb hsc ha
  obtain ⟨a, hpces, hh⟩ := takes_adifHeader (e := s.env) (original := original) (home := home) hm hr hl hc hp
  set k := Cursor.create s.ports.inBase s.ports.inLen with hk
  set header := natToBits 32 0x41444946 ++ mark ++ [original, home, type] ++ natToBits 23 rate ++ natToBits 4 l.length ++
    bits with hheader
  have hlength : header.length = 62 + mark.length + bits.length := by
    simp only [hheader, List.length_append, natToBits_length, List.length_cons, List.length_nil]
    omega
  have halign : header.length % 8 = 0 := hlength ▸ isPceList_aligned (x :: l) hp (List.cons_ne_nil x l)
  have hreads : k.reads s.inMem (header ++ rest) := ⟨rfl, Nat.zero_le _, hb⟩
  have hrun : adifHeader s.env k = .ok a (k.fwd header.length) := hh k rest rfl hreads
  have hsync : k.reads s.inMem (natToBits 32 0x41444946 ++
      (mark ++ [original, home, type] ++ natToBits 23 rate ++ natToBits 4 l.length ++ bits ++ rest)) := by
    simpa only [hheader, List.append_assoc] using hreads
  obtain ⟨h32, hword, -⟩ := Cursor.reads_split hsync
  rw [natToBits_length] at h32 hword
  have hadif : adifTest s.inMem s.ports.inBase s.ports.inLen = true := by
    refine adifTest_of_sync_word ?_ ?_
    · have : 0 + 32 ≤ 8 * s.ports.inLen := h32
      omega
    · rw [bitsAt_eq, show bitList s.inMem s.ports.inBase 0 32 = _ from hword]
      exact bitsToNat_natToBits 32 _ (by decide)
  set w : Work := { initStart s with
    eng := { s.work.eng with bc := k.fwd header.length }
    frm := { Frame.none with adif := some a }
    ds := { s.work.ds with pce := some x.2 }
    sc := sc } with hw
  have hhead : a.pces.headD default = x.2 := by rw [hpces]; rfl
  have hcount : (k.fwd header.length).bytesUsed = (62 + mark.length + bits.length) / 8 := by
    have hpos : (k.fwd header.length).pos = header.length := Nat.zero_add _
    rw [bytesUsed_of_aligned (by rw [hpos, halign]), hpos, hlength]
  have hinit : initAdif s.env (initStart s) = .ok ((62 + mark.length + bits.length) / 8, .unknown) w := by
    refine (run_bind_ok (wkOfRd_ok (w := initStart s) hrun)).trans ?_
    rw [← hcount, hw, hsc, hhead]
    rfl
  obtain ⟨t, hex, hini, hpce, hfrm⟩ := exec_init_ok (w := w) ho ((initHeader_adif hadif).trans hinit) ha rfl
  refine ⟨t, hex, hini, hpce, ?_⟩
  rw [hfrm]
  exact congrArg some hpces

end Sys2Proof.Machine
end

section
/-! PROOFS. SCE and LFE on a silent channel stream, plain and upsampled (48_orchestrator.md R416, R419, R424, 46_sbr.md R352, R364). -/

namespace Sys2Proof.Machine

/-! ## A single channel element around its channel stream -/

/-- The working state once a channel element has its EL and its record; the tag's bits are still to be counted. -/
def Work.begun (w : Work) (id : BitVec 3) (tag : Nat) (paired : Bool) : Work :=
  { w with
    eng := { w.eng with regs := { w.eng.regs with source := .main } }
    frm := { w.frm with
      el := some ⟨id, BitVec.ofNat 4 tag, w.ds.channelsSeen, paired, false, false⟩
      elems := w.frm.elems ++ [(⟨id, BitVec.ofNat 4 tag, false⟩ : ElemRec)] } }

/-- The working state with a channel element of k channels counted (log 25). -/
def Work.counted (w : Work) (k : Nat) : Work :=
  { w with ds := { w.ds with
    firstElementDone := true
    channelsSeen := w.ds.channelsSeen + k
    elementsSeen := w.ds.elementsSeen + 1 } }

/-- The working state with this attached SBR data. -/
def Work.withSbr (w : Work) (u : Option SbrPayload) : Work := { w with frm := { w.frm with sbr := u } }

/-- No SBR fill element stands at the cursor. -/
def Work.noFill (e : Env) (w : Work) : Prop :=
  e.par.cap.sbr = true → w.eng.bc.canRead 3 = true → bitsAt e.mem w.eng.bc.base w.eng.bc.pos 3 ≠ 6

theorem attachSbr_noFill {e : Env} {w : Work} {x : Element} (n : Nat) (p : Bool) (hn : w.noFill e) (he : w.eng.bc.err = false)
    (hx : w.frm.el = some x) (hd : x.sbrData = false) : attachSbr e n p w = .ok () (w.withSbr none) := by
  rw [attachSbr_none n p (fun h _ => hn h) he]
  have : w.frm.el.map (fun x => { x with sbrData := false }) = w.frm.el := by rw [hx, ← hd]; rfl
  rw [this]
  rfl

theorem singleElement_mem {i : Instr} {id : BitVec 3} (h : (i, id) ∈ [(Instr.sce, (0 : BitVec 3)), (.lfe, 3)]) :
    i ∈ [Instr.sce, .cpe, .cce, .lfe, .dse, .pce, .fil, .endMarker] := by
  simp only [List.mem_cons, Prod.mk.injEq, List.not_mem_nil, or_false] at h
  obtain ⟨rfl, -⟩ | ⟨rfl, -⟩ := h <;> decide

/-- An SCE or an LFE is its channel stream, the SBR data that follows an SCE, here none, and the reconstruction. -/
theorem singleElement_ok {e : Env} {w v : Work} {i : Instr} {id : BitVec 3} {tag : Nat} {x : Element}
    (hi : (i, id) ∈ [(Instr.sce, (0 : BitVec 3)), (.lfe, 3)])
    (hb : beginElement e id 1 false w = .ok () ((w.begun id tag false).at 4))
    (hp : icsParse e w.ds.channelsSeen false ((w.begun id tag false).at 4) = .ok () v)
    (he : v.eng.bc.err = false) (hx : v.frm.el = some x) (hd : x.sbrData = false) (hn : i = .sce → v.noFill e) :
    ∃ b, ∀ u, reconstructOne e w.ds.elementsSeen w.ds.channelsSeen (v.withSbr b) = .ok () u → lastPs u.frm = false →
      elementProgram i e w = .ok () (u.counted 1) := by
  have hds : Wk.ds w = .ok w.ds w := rfl
  simp only [List.mem_cons, Prod.mk.injEq, List.not_mem_nil, or_false] at hi
  obtain ⟨rfl, rfl⟩ | ⟨rfl, rfl⟩ := hi
  · refine ⟨none, fun u hr hps => ?_⟩
    have hend : (Wk.frm >>= fun f => endElement (if lastPs f then 2 else 1)) u = .ok () (u.counted 1) := by
      rw [run_bind_ok (show Wk.frm u = .ok u.frm u from rfl), hps]
      rfl
    exact (run_bind_ok hds).trans ((run_bind_ok hb).trans ((run_bind_ok hp).trans
      ((run_bind_ok (attachSbr_noFill _ _ (hn rfl) he hx hd)).trans ((run_bind_ok hr).trans hend))))
  · refine ⟨v.frm.sbr, fun u hr _ => ?_⟩
    exact (run_bind_ok hds).trans ((run_bind_ok hb).trans ((run_bind_ok hp).trans ((run_bind_ok hr).trans rfl)))

/-! ## The silent channel stream -/

/-- Whether the 22 bits from j bits on are a silent channel stream, as State.silentStream says of a state. -/
def Work.silentStream (e : Env) (w : Work) (j : Nat) : Prop :=
  let f := fun k n => bitsAt e.mem w.eng.bc.base (w.eng.bc.pos + (j + k)) n
  f 8 1 = 0 ∧ f 9 2 = 0 ∧ f 12 6 = 0 ∧ f 18 1 = 0 ∧ f 19 1 = 0 ∧ f 20 1 = 0 ∧ f 21 1 = 0

/-- The channel of a silent stream after the parse. -/
def silentParsed (e : Env) (w : Work) (j : Nat) (ch : Chan) : Chan :=
  { ch with
    qspec := List.replicate w.sc.frameLen.toNat 0
    ics := some (silentIcs e w.sc (bitsAt e.mem w.eng.bc.base (w.eng.bc.pos + j) 8)
      (bitsAt e.mem w.eng.bc.base (w.eng.bc.pos + (j + 11)) 1 == 1)) }

theorem icsParse_silentStream {e : Env} {w : Work} {n : Nat} (j c : Nat) (hf : PlainFlags e.par w.sc) (h : w.hasBits n)
    (hj : j + 22 ≤ n) (hs : w.silentStream e j) :
    ∃ r, icsParse e c false (w.at j) =
      .ok () (({ w with eng := { w.eng with regs := r } }.at (j + 22)).putChan c (silentParsed e w j)) := by
  obtain ⟨h0, h1, h2, h3, h4, h5, h6⟩ := hs
  exact icsParse_silent j c hf h hj h0 h1 h2 h3 h4 h5 h6

theorem silentChan_putChan {e : Env} {w v : Work} (j c : Nat) (h : v.sc = w.sc) :
    SilentChan e (v.putChan c (silentParsed e w j)) c (bitsAt e.mem w.eng.bc.base (w.eng.bc.pos + j) 8)
      (bitsAt e.mem w.eng.bc.base (w.eng.bc.pos + (j + 11)) 1 == 1) := by
  refine ⟨?_, ?_⟩ <;> simp only [Work.putChan] <;> rw [getD_setPad, silentParsed, h]

/-- DS after the filterbank of a silent channel c, with the LTP histories l. -/
def silentDs (fl c : Nat) (shape : Bool) (l : List (List Int)) (d : DecoderState) : DecoderState :=
  { d with
    overlap := setPad [] d.overlap c (List.replicate fl 0 ++ (d.overlap.getD c []).drop fl)
    windowShapePrev := setPad false d.windowShapePrev c shape
    ltpHist := l }

/-- A channel after the filterbank of a silent stream: its TIME is the overlap buffer. -/
def silentFiltered (fl : Nat) (overlap : List Sample) (ch : Chan) : Chan :=
  { ch with
    spec := List.replicate fl 0
    time := (List.range fl).map (fun n => overlap.getD n 0) }

/-- RECONSTRUCT up to the SBR stage of a silent channel, just parsed into the state v. -/
theorem reconstructCore_parsed {e : Env} {v : Work} {c gain : Nat} {shape : Bool} {f : Chan → Chan}
    (h : SilentChan e (v.putChan c f) c gain shape) :
    ∃ l, reconstructCore e [c] (stagePnsOne c) (return ()) (v.putChan c f) =
      .ok () (Work.putChan { v with ds := silentDs v.sc.frameLen.toNat c shape l v.ds } c
        (fun ch => silentFiltered v.sc.frameLen.toNat (v.ds.overlap.getD c []) (f ch))) := by
  obtain ⟨l, hl⟩ := reconstructCore_silent h
  exact ⟨l, hl.trans (congrArg (EStateM.Result.ok ()) (putChan_putChan
    (w := { v with ds := silentDs v.sc.frameLen.toNat c shape l v.ds }) c f
    (silentFiltered v.sc.frameLen.toNat (v.ds.overlap.getD c []))))⟩

/-- What a silent SCE or LFE leaves before the SBR stage: r the VLC registers, l the LTP histories, b the attached SBR data. -/
def Work.silentElement (e : Env) (w : Work) (id : BitVec 3) (r : VlcRegs) (l : List (List Int)) (b : Option SbrPayload) :
    Work :=
  let c := w.ds.channelsSeen
  let fl := w.sc.frameLen.toNat
  let v := w.begun id (bitsAt e.mem w.eng.bc.base w.eng.bc.pos 4) false
  Work.putChan { ({ v with eng := { v.eng with regs := r } }.at 26).withSbr b with
    ds := silentDs fl c (bitsAt e.mem w.eng.bc.base (w.eng.bc.pos + 15) 1 == 1) l w.ds } c
    (fun ch => silentFiltered fl (w.ds.overlap.getD c []) (silentParsed e v 4 ch))

/-- A silent SCE or LFE within the capacities comes to its SBR stage. -/
theorem silentElement_reaches {e : Env} {w : Work} {i : Instr} {id : BitVec 3}
    (hi : (i, id) ∈ [(Instr.sce, (0 : BitVec 3)), (.lfe, 3)]) (hb : w.hasBits 26) (hs : w.silentStream e 4)
    (hc : w.ds.channelsSeen + 1 ≤ e.par.maxChannels) (hm : w.ds.elementsSeen + 1 ≤ e.par.maxElements)
    (hf : PlainFlags e.par w.sc) (hn : i = .sce → (w.at 26).noFill e) :
    ∃ r l b, ∀ u, stageSbr e w.ds.elementsSeen w.ds.channelsSeen [w.ds.channelsSeen] false (w.silentElement e id r l b) = .ok () u →
      lastPs u.frm = false → elementProgram i e w = .ok () (u.counted 1) := by
  have hb4 : w.hasBits 4 := ⟨hb.1, Nat.le_trans (by omega) hb.2⟩
  set v := w.begun id (bitsAt e.mem w.eng.bc.base w.eng.bc.pos 4) false with hv
  obtain ⟨r, hp⟩ := icsParse_silentStream (w := v) 4 w.ds.channelsSeen hf hb (by omega) hs
  obtain ⟨b, hel⟩ := singleElement_ok hi (beginElement_run id 1 false hb4 hc hm) hp hb.1 rfl rfl hn
  have hsil := silentChan_putChan (e := e) (w := v) (v := ({ v with eng := { v.eng with regs := r } }.at 26).withSbr b)
    4 w.ds.channelsSeen rfl
  obtain ⟨l, hr⟩ := reconstructCore_parsed hsil
  exact ⟨r, l, b, fun u hu hps => hel u ((run_bind_ok hr).trans hu) hps⟩

theorem silentElement_silentChannel (e : Env) (w : Work) (id : BitVec 3) (r : VlcRegs) (l : List (List Int))
    (b : Option SbrPayload) :
    silentChannel w.sc.frameLen.toNat w.ds.channelsSeen (bitsAt e.mem w.eng.bc.base (w.eng.bc.pos + 15) 1 == 1) w.ds
      (w.silentElement e id r l b) := by
  refine ⟨?_, ?_, getD_setPad _ _ _ _ _, getD_setPad _ _ _ _ _⟩ <;>
  · simp only [Work.silentElement, Work.putChan]
    rw [getD_setPad]
    rfl

theorem lastPs_concat {f : Frame} {l : List ElemRec} {x : ElemRec} (h : f.elems = l ++ [x]) (hx : x.ps = false) :
    lastPs f = false := by
  simp [lastPs, h, hx]

/-- A readable cursor is live and without an error; n bits are left when its slice is that long. -/
theorem State.hasBits_of_canRead {s : State} {n : Nat} (h : s.canRead 0 = true)
    (hb : s.work.eng.bc.pos + n ≤ 8 * s.work.eng.bc.len) : s.work.eng.bc.live = true ∧ s.work.hasBits n := by
  obtain ⟨hl, hr⟩ := Bool.and_eq_true_iff.1 h
  exact ⟨hl, ((Cursor.canRead_iff _ _).1 hr).1, hb⟩

theorem noFill_of_field {s : State} {n : Nat} (h : s.par.cap.sbr = true → s.field n 3 ≠ 6) : (s.work.at n).noFill s.env :=
  fun hs _ => h hs

/-- Settles O39: the silent element comes to its SBR stage, which does nothing without upsampling. -/
theorem silentSingleElement : Obligations.SilentSingleElement := by
  unfold Obligations.SilentSingleElement
  intro s i id hi hr hb hs hc hm hf1 hf2 hf0 hu hn
  obtain ⟨hl, hb⟩ := State.hasBits_of_canRead hr hb
  obtain ⟨r, l, b, h⟩ := silentElement_reaches (e := s.env) hi hb hs hc hm ⟨hf0, hf1, hf2⟩ (fun h => noFill_of_field (hn h))
  have hel := h _ (stageSbr_none _ _ _ _ hu rfl) (lastPs_concat rfl rfl)
  exact ⟨_, exec_element_ok (singleElement_mem hi) hl hel, rfl, rfl, rfl,
    silentElement_silentChannel s.env s.work id r l b, rfl, rfl, rfl, rfl, rfl, rfl, rfl, rfl, rfl, rfl⟩

/-- Settles O41: the SBR stage of the silent element is plain upsampling of its TIME. -/
theorem upsampledElement : Obligations.UpsampledElement := by
  unfold Obligations.UpsampledElement
  intro s i id b hi hr hb hs hc hm hf1 hf2 hf0 hu hslot hn fl time up
  obtain ⟨hl, hb⟩ := State.hasBits_of_canRead hr hb
  obtain ⟨r, l, u, h⟩ := silentElement_reaches (e := s.env) hi hb hs hc hm ⟨hf0, hf1, hf2⟩ (fun h => noFill_of_field (hn h))
  obtain ⟨htime, hq, hov, hsh⟩ := silentElement_silentChannel s.env s.work id r l u
  have hup := stageSbr_up (e := s.env) (w := s.work.silentElement s.env id r l u) (n := s.work.ds.elementsSeen) hc hu rfl hslot rfl
  rw [htime] at hup
  refine ⟨_, exec_element_ok (singleElement_mem hi) hl (h _ hup (lastPs_concat rfl rfl)), rfl, rfl, rfl,
    ⟨?_, ?_, hov, hsh⟩, ?_, rfl, ?_, rfl, rfl, rfl, rfl, rfl, rfl⟩
  · exact (congrArg Chan.time (getD_setPad _ _ _ _ _)).trans htime
  · exact (congrArg Chan.qspec (getD_setPad _ _ _ _ _)).trans hq
  · exact congrArg Chan.time2 (getD_setPad _ _ _ _ _)
  · intro hb ht
    show (sbrPlain _ _ _ (b.chan s.par 0) time).1 = _
    rw [hb, ht]
    exact sbrPlain_zero _ _ _

end Sys2Proof.Machine
end

section
/-! PROOFS. DECODE of a raw frame of one silent SCE (48_orchestrator.md R410, R412, R426 to R428). -/

namespace Sys2Proof.Machine

/-! ## The loop of RAW_DATA_BLOCK (R412) -/

section
variable {e : Env} {w u : Work}

/-- One iteration: the selector read, and the element it selects. -/
theorem rawLoop_element {id : Nat} (k : Nat) (hin : w.frm.inBlock = true) (hb : w.hasBits 3)
    (hid : bitsAt e.mem w.eng.bc.base w.eng.bc.pos 3 = id) (hel : elementBody e id (w.at 3) = .ok () u) :
    rawLoop e (k + 1) w = rawLoop e k u := by
  have hs : Wk.ofRd Rd.sample w = .ok () w := wkOfRd_ok (by simp [Rd.sample, hb.1])
  have hg : Wk.ofRd (Rd.get e 3) w = .ok id (w.at 3) := by
    rw [← hid]
    exact readAt 0 hb (by omega) (by omega)
  rw [rawLoop, run_bind_ok (show Wk.frm w = .ok w.frm w from rfl), if_pos hin, run_bind_ok hs, run_bind_ok hg, run_bind_ok hel]

/-- END has left the loop. -/
theorem rawLoop_left (hin : w.frm.inBlock = false) (he : w.eng.bc.err = false) : ∀ k, rawLoop e k w = .ok () w
  | 0 => wkOfRd_ok (by simp [Rd.sample, he])
  | k + 1 => by
    rw [rawLoop, run_bind_ok (show Wk.frm w = .ok w.frm w from rfl), if_neg (by simp [hin])]
    exact rawLoop_left hin he 0

/-! ## The output stage (R426, R427) -/

theorem decodeOutput_ok {cap : Nat} {pos : List (BitVec 4)} (ha : w.eng.bc.pos % 8 = 0)
    (hp : framePositions w.sc w.ds.pce w.frm.elems = some pos) (hm : mixesDown e.cfg w.ds.channelsSeen = false)
    (hc : w.ds.channelsSeen ≠ 0) (hcap : w.ds.channelsSeen * samplesPerChannel w.sc ≤ cap) :
    decodeOutput e cap w = .ok
      { consumed := w.eng.bc.pos / 8
        channels := w.ds.channelsSeen
        count := samplesPerChannel w.sc
        positions := pos
        samples := outputSamples e.cfg.outputFormat.toNat false
          ((List.range w.ds.channelsSeen).map (fun i => (w.frm.chans.getD i Wk.noChan).signal)) (samplesPerChannel w.sc) } w := by
  have hal : Wk.ofRd Rd.byteAlign w = .ok () w := by
    have h : w.eng.bc.byteAlign = w.eng.bc := by simp [Cursor.byteAlign, Cursor.alignCount, ha]
    rw [wkOfRd_ok (show Rd.byteAlign w.eng.bc = .ok () w.eng.bc from congrArg (EStateM.Result.ok ()) h)]
  unfold decodeOutput
  rw [run_bind_ok hal]
  refine (run_bind_ok (show Wk.ofRd Rd.cursor w = .ok w.eng.bc w from rfl)).trans ?_
  rw [run_bind_ok (show Wk.sc w = .ok w.sc w from rfl), run_bind_ok (show Wk.ds w = .ok w.ds w from rfl),
    run_bind_ok (show Wk.frm w = .ok w.frm w from rfl), hp]
  dsimp only
  rw [hm]
  simp only [Bool.false_eq_true, if_false]
  rw [if_neg hc, if_neg (by omega)]
  rfl

/-- The samples of a single output channel. -/
theorem outputSamples_single (format count : Nat) (y : List Sample) :
    outputSamples format false [y] count = (List.range count).map (fun n => outConvert format (y.getD n 0)) := by
  exact List.map_eq_flatMap.symm

end

/-! ## The frame -/

/-- A field of zeros is two fields of zeros. -/
theorem bitsAt_split_zero {m : Memory} {base b n k : Nat} (h : bitsAt m base b (n + k) = 0) :
    bitsAt m base b n = 0 ∧ bitsAt m base (b + n) k = 0 := by
  rw [bitsAt_add, Nat.add_eq_zero_iff, Nat.mul_eq_zero] at h
  exact ⟨h.1.resolve_right (Nat.two_pow_pos k).ne', h.2⟩

/-- The 32 bits of the frame, as the obligation gives them: the selector of SCE, a silent stream, the selector of END. -/
def SilentFrame (m : Memory) (base : Nat) : Prop :=
  bitsAt m base 0 3 = 0 ∧ bitsAt m base 15 3 = 0 ∧ bitsAt m base 19 10 = 0 ∧ bitsAt m base 29 3 = 7

theorem SilentFrame.silentStream {e : Env} {w : Work} (h : SilentFrame e.mem w.eng.bc.base) (hp : w.eng.bc.pos = 3) :
    w.silentStream e 4 := by
  obtain ⟨-, h15, h19, -⟩ := h
  obtain ⟨a0, a1⟩ := bitsAt_split_zero (n := 1) (k := 2) h15
  obtain ⟨b0, h25⟩ := bitsAt_split_zero (n := 6) (k := 4) h19
  obtain ⟨b1, h26⟩ := bitsAt_split_zero (n := 1) (k := 3) h25
  obtain ⟨b2, h27⟩ := bitsAt_split_zero (n := 1) (k := 2) h26
  obtain ⟨b3, -⟩ := bitsAt_split_zero (n := 1) (k := 1) h27
  unfold Work.silentStream
  rw [hp]
  exact ⟨a0, a1, b0, b1, b2, b3, (bitsAt_split_zero (n := 1) (k := 1) h27).2⟩

/-- The working state after the frame, begun in w with its loop entered. -/
def silentFrameEnd (e : Env) (w : Work) (r : VlcRegs) (l : List (List Int)) (b : Option SbrPayload) : Work :=
  let u := (((w.at 3).silentElement e 0 r l b).counted 1).at 3
  { u with frm := { u.frm with inBlock := false } }

/-- RAW_DATA_BLOCK on the frame (R412). -/
theorem rawDataBlock_silentFrame {e : Env} {w : Work} (hb : w.hasBits 32) (hp : w.eng.bc.pos = 0)
    (hs : SilentFrame e.mem w.eng.bc.base) (hc : w.ds.channelsSeen + 1 ≤ e.par.maxChannels)
    (hm : w.ds.elementsSeen + 1 ≤ e.par.maxElements) (hf : PlainFlags e.par w.sc) (hu : w.sc.upsample = false) :
    ∃ r l b, rawDataBlock e w =
      .ok () (silentFrameEnd e { w with frm := { w.frm with inBlock := true } } r l b) := by
  set v : Work := { w with frm := { w.frm with inBlock := true } } with hv
  obtain ⟨he, hlen⟩ := hb
  rw [hp] at hlen
  have hpos : ∀ k, w.eng.bc.pos + k = k := fun k => by omega
  have h3 : (v.at 3).eng.bc.pos = 3 := hpos 3
  have hfill : ((v.at 3).at 26).noFill e := by
    intro _ _ h6
    rw [show ((v.at 3).at 26).eng.bc.pos = 29 by simp only [Work.at, hv, hp]] at h6
    exact absurd (hs.2.2.2.symm.trans h6) (by decide)
  obtain ⟨r, l, b, h⟩ := silentElement_reaches (e := e) (w := v.at 3) (i := .sce) (id := 0) (by simp)
    ⟨he, by rw [h3]; exact Nat.le_trans (by decide) hlen⟩ (SilentFrame.silentStream hs h3) hc hm hf fun _ => hfill
  have hsce := h _ (stageSbr_none _ _ _ _ hu rfl) (lastPs_concat rfl rfl)
  set u := ((v.at 3).silentElement e 0 r l b).counted 1 with hu'
  have h29 : u.eng.bc.pos = 29 := by
    show w.eng.bc.pos + 3 + 26 = 29
    rw [hp]
  refine ⟨r, l, b, ?_⟩
  unfold rawDataBlock
  rw [run_bind_ok (show Wk.setFrm _ w = .ok () v from rfl)]
  refine (run_bind_ok (show Wk.ofRd Rd.cursor v = .ok v.eng.bc v from rfl)).trans ?_
  refine (rawLoop_element (w := v) (u := u) (id := 0) (v.eng.bc.bitsLeft + 1) rfl ⟨he, ?_⟩ ?_ hsce).trans ?_
  · show w.eng.bc.pos + 3 ≤ 8 * w.eng.bc.len
    omega
  · exact hp ▸ hs.1
  refine (rawLoop_element (w := u) (u := silentFrameEnd e v r l b) (id := 7) v.eng.bc.bitsLeft rfl ⟨he, ?_⟩ ?_ rfl).trans ?_
  · rw [h29]; exact Nat.le_trans (by decide) hlen
  · rw [h29]; exact hs.2.2.2
  exact rawLoop_left (w := silentFrameEnd e v r l b) rfl he _

/-- The state of the loop's start: step 2 of R410 done, the cursor made. -/
def frameStart (s : State) : Work :=
  { (beginDecode s).work with eng := { s.work.eng with bc := Cursor.create s.ports.inBase s.ports.inLen } }

/-- A stream without a header has nothing before its frame (step 6 of R410). -/
theorem decodeStart_raw {s : State} (hh : s.work.sc.headerType = 0) (hl : s.work.sc.latm = false) :
    decodeStart (beginDecode s).env (beginDecode s).ports (beginDecode s).work = .ok () (frameStart s) := by
  unfold decodeStart decodeHeader
  refine (run_bind_ok (show createCursor _ _ (beginDecode s).work = .ok () (frameStart s) from rfl)).trans ?_
  rw [run_bind_ok (show Wk.sc (frameStart s) = .ok s.work.sc (frameStart s) from rfl), hh, hl]
  rfl

theorem id3Test_of_zero_bits {m : Memory} {base : Nat} (len : Nat) (h : bitsAt m base 0 3 = 0) : id3Test m base len = false := by
  have hb : bitsAt m base 0 8 = (m.read base).toNat := bitsAt_byte m base 0
  rw [bitsAt_prefix m base 0 3 5, hb] at h
  have hne : m.read base ≠ 84#8 := by
    intro h54
    rw [h54] at h
    exact absurd h (by decide)
  simp [id3Test, hne]

theorem silentElement_time2 (e : Env) (w : Work) (id : BitVec 3) (r : VlcRegs) (l : List (List Int)) (b : Option SbrPayload) :
    ((w.silentElement e id r l b).frm.chans.getD w.ds.channelsSeen Wk.noChan).time2 =
      (w.frm.chans.getD w.ds.channelsSeen Wk.noChan).time2 := by
  simp only [Work.silentElement, Work.putChan]
  rw [getD_setPad]
  rfl

theorem Chan.signal_eq_time {c : Chan} (h : c.time2 = []) : c.signal = c.time := by
  rw [Chan.signal, h]
  rfl

theorem getD_map_range {α : Type} {f : Nat → α} {i n : Nat} (h : i < n) (d : α) : ((List.range n).map f).getD i d = f i := by
  simp [List.getD_eq_getElem?_getD, h]

/-- DECODE's block on the frame: what it delivers. -/
theorem decodeBlock_silentFrame {s : State} (h4 : 4 ≤ s.ports.inLen) (hcc : s.work.sc.channelConfig = 1)
    (hu : s.work.sc.upsample = false) (hf : PlainFlags s.par s.work.sc) (hc : 1 ≤ s.par.maxChannels) (hm : 1 ≤ s.par.maxElements)
    (hcap : s.work.sc.frameLen.toNat ≤ s.ports.outCap) (hs : SilentFrame s.inMem s.ports.inBase) :
    ∃ r l b, decodeBlock s.env s.ports (frameStart s) = .ok
      { consumed := 4
        channels := 1
        count := s.work.sc.frameLen.toNat
        positions := [1]
        samples := (List.range s.work.sc.frameLen.toNat).map (fun n =>
          outConvert s.cfg.outputFormat.toNat ((s.work.ds.overlap.getD 0 []).getD n 0)) }
      (silentFrameEnd s.env { frameStart s with frm := { Frame.none with inBlock := true } } r l b) := by
  have hb : (frameStart s).hasBits 32 := ⟨rfl, by show 0 + 32 ≤ 8 * s.ports.inLen; omega⟩
  obtain ⟨r, l, b, h⟩ := rawDataBlock_silentFrame (e := s.env) hb rfl hs hc hm hf hu
  refine ⟨r, l, b, ?_⟩
  set v : Work := { frameStart s with frm := { Frame.none with inBlock := true } } with hv
  have hspc : samplesPerChannel s.work.sc = s.work.sc.frameLen.toNat := by rw [samplesPerChannel, hu]; rfl
  have hpos : framePositions s.work.sc s.work.ds.pce (silentFrameEnd s.env v r l b).frm.elems = some [1] := by
    unfold framePositions
    rw [hcc]
    rfl
  have hmix : mixesDown s.env.cfg 1 = false := by simp [mixesDown]
  have hsig : ((silentFrameEnd s.env v r l b).frm.chans.getD 0 Wk.noChan).signal =
      (List.range s.work.sc.frameLen.toNat).map (fun n => (s.work.ds.overlap.getD 0 []).getD n 0) :=
    (Chan.signal_eq_time (silentElement_time2 s.env (v.at 3) 0 r l b)).trans
      (silentElement_silentChannel s.env (v.at 3) 0 r l b).1
  have h32 : (silentFrameEnd s.env v r l b).eng.bc.pos = 32 := rfl
  have hone : (silentFrameEnd s.env v r l b).ds.channelsSeen = 1 := rfl
  have hfl : samplesPerChannel (silentFrameEnd s.env v r l b).sc = s.work.sc.frameLen.toNat := hspc
  have hout := decodeOutput_ok (e := s.env) (w := silentFrameEnd s.env v r l b) (cap := s.ports.outCap)
    (by rw [h32]) hpos (hone ▸ hmix) (by rw [hone]; decide) (by rw [hone, hfl]; omega)
  rw [h32, hone, hfl, List.range_one, List.map_singleton, hsig, outputSamples_single] at hout
  rw [List.map_congr_left fun n hn => congrArg (outConvert _) (getD_map_range (List.mem_range.1 hn) _)] at hout
  exact (run_bind_ok h).trans hout

theorem decodeBody_ok {s : State} {u : Work} {o : FrameOut} (hb : decodeBlock s.env s.ports s.work = .ok o u) :
    decodeBody s = deliver o u s := by
  rw [decodeBody, hb]

theorem decodeFrame_ok {s : State} {w u : Work} {o : FrameOut} (h : decodeStart s.env s.ports s.work = .ok () w)
    (hb : decodeBlock s.env s.ports w = .ok o u) : decodeFrame s = deliver o u { s with work := w } := by
  rw [decodeFrame, h]
  exact decodeBody_ok (s := { s with work := w }) hb

theorem padPositions_single (n : Nat) (h : 1 ≤ n) (x : BitVec 4) : padPositions n [x] = x :: List.replicate (n - 1) 0 := by
  obtain ⟨k, rfl⟩ := Nat.exists_eq_add_of_le' h
  rw [padPositions, slice, List.range_succ_eq_map, List.map_cons, List.map_map, Nat.add_sub_cancel,
    ← List.length_range (n := k), ← List.map_const', List.length_range]
  exact congrArg (x :: ·) (List.map_congr_left fun i _ => by simp)

/-- Settles O54: the header step reads nothing, the loop reads the SCE and END, and the channel's TIME is delivered. -/
theorem silentMonoFrame : Obligations.SilentMonoFrame := by
  unfold Obligations.SilentMonoFrame
  intro s fl ho h4 hh hl hcc hu hf1 hf2 hf0 hc hm hfl hcap h0 h15 h19 h29
  subst hfl
  obtain ⟨r, l, b, hblock⟩ := decodeBlock_silentFrame h4 hcc hu ⟨hf0, hf1, hf2⟩ hc hm hcap ⟨h0, h15, h19, h29⟩
  have hframe := (execDecode_frame ho (by omega) (id3Test_of_zero_bits s.ports.inLen h0)).trans
    (congrArg Host.Outcome.next (decodeFrame_ok (decodeStart_raw hh hl) hblock))
  obtain ⟨-, -, hov, hsh⟩ := silentElement_silentChannel s.env
    (Work.at { frameStart s with frm := { Frame.none with inBlock := true } } 3) 0 r l b
  refine ⟨_, hframe, rfl, rfl, rfl, rfl, ?samples, rfl, padPositions_single _ hc 1, ?rate, rfl, hh, ?sbr, rfl, hov, hsh, rfl, rfl,
    rfl, rfl, rfl, rfl, rfl, rfl, rfl⟩
  case samples => exact congrArg (BitVec.ofNat 32) (Nat.one_mul _)
  case rate =>
    show BitVec.ofNat 32 (reportedRate s.work.sc) = _
    rw [reportedRate, hu]
    simp
  case sbr =>
    show (if s.work.sc.upsample then (3 : BitVec 2) else 0) = 0
    rw [hu]
    rfl

end Sys2Proof.Machine
end

section
/-! PROOFS. RECONSTRUCT of channel streams without pulse, TNS, LTP and noise (48_orchestrator.md R424), and the CPE on two silent
channel streams (R417). -/

namespace Sys2Proof.Machine

/-! ## Channels of the working state -/

/-- Channel c. -/
def Work.chanAt (w : Work) (c : Nat) : Chan := w.frm.chans.getD c Wk.noChan

@[simp] theorem Work.chanAt_putChan (w : Work) (c : Nat) (f : Chan → Chan) : (w.putChan c f).chanAt c = f (w.chanAt c) :=
  getD_setPad _ _ _ _ _

theorem Work.chanAt_putChan_ne (w : Work) {c d : Nat} (f : Chan → Chan) (h : d ≠ c) : (w.putChan c f).chanAt d = w.chanAt d :=
  getD_setPad_ne _ _ _ _ _ h

/-- A channel stream without pulse, TNS, LTP and noise. -/
structure PlainIcs (a : Ics) : Prop where
  pulse : a.pulse = none
  tns : a.tns = none
  ltp : a.ltp = none
  noise : a.noiseUsed = false

/-- Channel c carries the channel stream a, which has no tool. -/
structure Work.Carries (w : Work) (c : Nat) (a : Ics) : Prop where
  ics : (w.chanAt c).ics = some a
  plain : PlainIcs a

/-- Channel c with another spectrum. -/
def Work.putSpec (w : Work) (c : Nat) (x : List Sample) : Work := w.putChan c (fun ch => { ch with spec := x })

/-- The spectrum DEQUANT gives channel c, whose stream is a. -/
def Work.dequantised (w : Work) (c : Nat) (a : Ics) : List Sample := dequant a w.sc.frameLen.toNat (w.chanAt c).qspec

/-- The values DEQUANT uses of channel c are in range. -/
def Work.inRange (w : Work) (c : Nat) (a : Ics) : Prop :=
  (dequantInputs a w.sc.frameLen.toNat (w.chanAt c).qspec).all quantInRange = true

/-- Channel c through the filterbank with the window of info, as stageFilterbank leaves it. -/
def Work.filtered (e : Env) (w : Work) (c : Nat) (info : IcsInfo) : Work :=
  let fl := w.sc.frameLen.toNat
  let r := filterbank e.par (w.sc.objectType == 23) info (w.ds.windowShapePrev.getD c false) fl (w.ds.overlap.getD c [])
    (w.chanAt c).spec
  Work.putChan { w with ds := { w.ds with
    overlap := setPad [] w.ds.overlap c r.2
    windowShapePrev := setPad false w.ds.windowShapePrev c info.windowShape
    ltpHist :=
      if ltpCapable w.sc.objectType.toNat then setPad [] w.ds.ltpHist c (ltpUpdate e.par fl (w.ds.ltpHist.getD c []) r.1 r.2)
      else w.ds.ltpHist } } c (fun ch => { ch with time := r.1 })

/-! ## The stages -/

section
variable {e : Env} {w : Work} {c d : Nat} {a b : Ics}

theorem Work.Carries.putSpec_same (h : w.Carries c a) (x : List Sample) : (w.putSpec c x).Carries c a :=
  ⟨(congrArg Chan.ics (w.chanAt_putChan c _)).trans h.ics, h.plain⟩

theorem Work.Carries.putSpec (h : w.Carries d a) (c : Nat) (x : List Sample) : (w.putSpec c x).Carries d a := by
  by_cases hcd : d = c
  · exact hcd ▸ h.putSpec_same x
  · exact ⟨(congrArg Chan.ics (w.chanAt_putChan_ne _ hcd)).trans h.ics, h.plain⟩

theorem chanIcs_of_ics (h : (w.chanAt c).ics = some a) : chanIcs c w = .ok a w := by
  unfold chanIcs
  rw [run_bind_ok (chan_run c w), show (w.frm.chans.getD c Wk.noChan).ics = some a from h]
  rfl

theorem chanIcs_run (h : w.Carries c a) : chanIcs c w = .ok a w := chanIcs_of_ics h.ics

theorem stageDequantPulse_plain (h : w.Carries c a) (hr : w.inRange c a) :
    stageDequantPulse e c w = .ok () (w.putSpec c (w.dequantised c a)) := by
  have hd : stageDequant c w = .ok () (w.putSpec c (w.dequantised c a)) := by
    unfold stageDequant
    rw [run_bind_ok (chanIcs_run h), run_bind_ok (chan_run c w), run_bind_ok (show Wk.sc w = .ok w.sc w from rfl),
      if_neg (by rw [← Work.chanAt, show List.all _ _ = true from hr]; decide)]
    rfl
  unfold stageDequantPulse
  cases e.par.pulseStage with
  | preDequant =>
    have hp : stagePulsePre c w = .ok () w := by
      unfold stagePulsePre
      rw [run_bind_ok (chanIcs_run h), run_bind_ok (chan_run c w), run_bind_ok (show Wk.sc w = .ok w.sc w from rfl), h.plain.pulse]
      rfl
    exact (run_bind_ok hp).trans hd
  | postDequant =>
    refine (run_bind_ok hd).trans ?_
    have hv := h.putSpec_same (w.dequantised c a)
    generalize w.putSpec c (w.dequantised c a) = v at hv
    unfold stagePulsePost
    rw [run_bind_ok (chanIcs_run hv), run_bind_ok (chan_run c v), run_bind_ok (show Wk.sc v = .ok v.sc v from rfl), hv.plain.pulse]
    rfl

theorem stageTns_plain (h : w.Carries c a) : stageTns e c w = .ok () w := by
  unfold stageTns
  rw [run_bind_ok (chanIcs_run h), run_bind_ok (chan_run c w), run_bind_ok (show Wk.sc w = .ok w.sc w from rfl), h.plain.tns]
  rfl

theorem stageLtp_plain (h : w.Carries c a) : stageLtp e c w = .ok () w := by
  unfold stageLtp
  rw [run_bind_ok (chanIcs_run h), run_bind_ok (chan_run c w), run_bind_ok (show Wk.sc w = .ok w.sc w from rfl),
    run_bind_ok (show Wk.ds w = .ok w.ds w from rfl), h.plain.ltp]
  rfl

/-- PNS_APPLY without a noise band. -/
theorem pnsApply_plain (ha : a.noiseUsed = false) (hb : b.noiseUsed = false) (fl : Nat) (n : NoiseState) :
    pnsApply a b fl n = n := by
  refine List.foldl_fixed' (fun x => ?_) _
  simp [noiseBandPair, isNoiseBand, ha, hb]

/-- A channel's own spectrum written back. -/
theorem setSpec_self (h : w.Carries c a) : setSpec c (w.frm.chans.getD c Wk.noChan).spec w = .ok () w := by
  have hlen : c < w.frm.chans.length := by
    by_contra hn
    have := h.ics
    rw [Work.chanAt, List.getD_eq_default _ _ (Nat.le_of_not_lt hn)] at this
    exact absurd this (by simp [Wk.noChan])
  have hp : w.putChan c (fun ch => ch) = w := by rw [Work.putChan, setPad_self _ _ _ hlen]
  exact congrArg (EStateM.Result.ok ()) hp

theorem stagePnsOne_plain (h : w.Carries c a) : stagePnsOne c w = .ok () w := by
  unfold stagePnsOne
  rw [run_bind_ok (chanIcs_run h), run_bind_ok (chan_run c w), run_bind_ok (show Wk.sc w = .ok w.sc w from rfl),
    run_bind_ok (show Wk.ds w = .ok w.ds w from rfl), pnsApply_plain h.plain.noise rfl, run_bind_ok (setSpec_self h)]
  rfl

theorem stagePnsPair_plain (h : w.Carries c a) (h' : w.Carries d b) : stagePnsPair c d w = .ok () w := by
  unfold stagePnsPair
  rw [run_bind_ok (chanIcs_run h), run_bind_ok (chanIcs_run h'), run_bind_ok (chan_run c w), run_bind_ok (chan_run d w),
    run_bind_ok (show Wk.sc w = .ok w.sc w from rfl), run_bind_ok (show Wk.ds w = .ok w.ds w from rfl),
    pnsApply_plain h.plain.noise h'.plain.noise, run_bind_ok (setSpec_self h), run_bind_ok (setSpec_self h')]
  rfl

theorem stageFilterbank_run (h : w.Carries c a) : stageFilterbank e c w = .ok () (w.filtered e c a.info) := by
  unfold stageFilterbank
  rw [run_bind_ok (chanIcs_run h), run_bind_ok (chan_run c w), run_bind_ok (show Wk.sc w = .ok w.sc w from rfl),
    run_bind_ok (show Wk.ds w = .ok w.ds w from rfl)]
  rfl

end

/-! ## The stages in their order -/

/-- RECONSTRUCT up to the SBR stage, in either order, where TNS and LTP do nothing before and after the joint stages. -/
theorem reconstructCore_stages {e : Env} {cs : List Nat} {pns stereo : Wk Unit} {w v u t : Work}
    (hd : Wk.forEach cs (stageDequantPulse e) w = .ok () v) (hp : pns v = .ok () v) (hs : stereo v = .ok () u)
    (hn : ∀ x ∈ [v, u], Wk.forEach cs (stageTns e) x = .ok () x ∧ Wk.forEach cs (stageLtp e) x = .ok () x)
    (hf : Wk.forEach cs (stageFilterbank e) u = .ok () t) : reconstructCore e cs pns stereo w = .ok () t := by
  obtain ⟨tv, lv⟩ := hn v (by simp)
  obtain ⟨tu, lu⟩ := hn u (by simp)
  unfold reconstructCore
  cases e.par.stageOrder with
  | source => exact (run_bind_ok hd).trans ((run_bind_ok tv).trans ((run_bind_ok lv).trans ((run_bind_ok hp).trans
      ((run_bind_ok hs).trans hf))))
  | standard => exact (run_bind_ok hd).trans ((run_bind_ok hp).trans ((run_bind_ok hs).trans ((run_bind_ok lu).trans
      ((run_bind_ok tu).trans hf))))

theorem forEach_one {f : Nat → Wk Unit} {c : Nat} {w v : Work} (h : f c w = .ok () v) : Wk.forEach [c] f w = .ok () v :=
  (run_bind_ok h).trans rfl

theorem forEach_two {f : Nat → Wk Unit} {c d : Nat} {w v u : Work} (h : f c w = .ok () v) (h' : f d v = .ok () u) :
    Wk.forEach [c, d] f w = .ok () u :=
  (run_bind_ok h).trans (forEach_one h')

section
variable {e : Env} {w : Work} {c d : Nat} {a b : Ics}

theorem reconstructCore_one (h : w.Carries c a) (hr : w.inRange c a) :
    reconstructCore e [c] (stagePnsOne c) (return ()) w = .ok () ((w.putSpec c (w.dequantised c a)).filtered e c a.info) := by
  have hv := h.putSpec_same (w.dequantised c a)
  refine reconstructCore_stages (forEach_one (stageDequantPulse_plain h hr)) (stagePnsOne_plain hv)
    (u := w.putSpec c (w.dequantised c a)) rfl (fun x hx => ?_) (forEach_one (stageFilterbank_run hv))
  obtain rfl : x = w.putSpec c (w.dequantised c a) := by simpa using hx
  exact ⟨forEach_one (stageTns_plain hv), forEach_one (stageLtp_plain hv)⟩

/-- A pair: its two spectra dequantised. -/
def Work.dequantisedPair (w : Work) (c d : Nat) (a b : Ics) : Work :=
  (w.putSpec c (w.dequantised c a)).putSpec d (w.dequantised d b)

theorem Work.Carries.filtered_other (h : w.Carries d b) (hcd : c ≠ d) (info : IcsInfo) : (w.filtered e c info).Carries d b :=
  ⟨(congrArg Chan.ics (Work.chanAt_putChan_ne _ _ hcd.symm)).trans h.ics, h.plain⟩

theorem Work.Carries.dequantisedPair {x : Ics} {k : Nat} (h : w.Carries k x) : (w.dequantisedPair c d a b).Carries k x :=
  (h.putSpec c _).putSpec d _

/-- A pair: what its stereo stage leaves, through the filterbank. -/
theorem reconstructCore_pair {stereo : Wk Unit} {u : Work} (hcd : c ≠ d) (ha : w.Carries c a) (hb : w.Carries d b)
    (hra : w.inRange c a) (hrb : w.inRange d b) (hs : stereo (w.dequantisedPair c d a b) = .ok () u)
    (hua : u.Carries c a) (hub : u.Carries d b) :
    reconstructCore e [c, d] (stagePnsPair c d) stereo w = .ok () ((u.filtered e c a.info).filtered e d b.info) := by
  have hother : (w.putSpec c (w.dequantised c a)).chanAt d = w.chanAt d := w.chanAt_putChan_ne _ hcd.symm
  have hdeq : Wk.forEach [c, d] (stageDequantPulse e) w = .ok () (w.dequantisedPair c d a b) := by
    have hr : (w.putSpec c (w.dequantised c a)).inRange d b :=
      (congrArg (fun ch : Chan => (dequantInputs b w.sc.frameLen.toNat ch.qspec).all quantInRange) hother).trans hrb
    have hx : (w.putSpec c (w.dequantised c a)).dequantised d b = w.dequantised d b :=
      congrArg (fun ch : Chan => dequant b w.sc.frameLen.toNat ch.qspec) hother
    exact forEach_two (stageDequantPulse_plain ha hra) ((stageDequantPulse_plain (hb.putSpec c _) hr).trans (by rw [hx]; rfl))
  refine reconstructCore_stages hdeq (stagePnsPair_plain ha.dequantisedPair hb.dequantisedPair) hs (fun x hx => ?_)
    (forEach_two (stageFilterbank_run hua) (stageFilterbank_run (hub.filtered_other hcd _)))
  have hx : x.Carries c a ∧ x.Carries d b := by
    obtain rfl | rfl : x = w.dequantisedPair c d a b ∨ x = u := by simpa using hx
    · exact ⟨ha.dequantisedPair, hb.dequantisedPair⟩
    · exact ⟨hua, hub⟩
  exact ⟨forEach_two (stageTns_plain hx.1) (stageTns_plain hx.2), forEach_two (stageLtp_plain hx.1) (stageLtp_plain hx.2)⟩

end

/-! ## What the filterbank of a channel leaves -/

/-- The filterbank of channel c of w with the window of info. -/
def Work.filterOutput (e : Env) (w : Work) (c : Nat) (info : IcsInfo) : List Sample × List Sample :=
  filterbank e.par (w.sc.objectType == 23) info (w.ds.windowShapePrev.getD c false) w.sc.frameLen.toNat (w.ds.overlap.getD c [])
    (w.chanAt c).spec

/-- State t holds channel c of w filtered, its spectra as w has them. -/
structure Filtered (e : Env) (c : Nat) (info : IcsInfo) (w t : Work) : Prop where
  spec : (t.chanAt c).spec = (w.chanAt c).spec
  qspec : (t.chanAt c).qspec = (w.chanAt c).qspec
  time : (t.chanAt c).time = (w.filterOutput e c info).1
  overlap : t.ds.overlap.getD c [] = (w.filterOutput e c info).2
  shape : t.ds.windowShapePrev.getD c false = info.windowShape

section
variable {e : Env} {w t : Work} {c d : Nat} {i j : IcsInfo}

theorem filtered_self : Filtered e c i w (w.filtered e c i) := by
  refine ⟨?_, ?_, ?_, getD_setPad _ _ _ _ _, getD_setPad _ _ _ _ _⟩ <;>
  · rw [Work.filtered, Work.chanAt_putChan]
    rfl

theorem Filtered.other (h : Filtered e c i w t) (hcd : c ≠ d) : Filtered e c i w (t.filtered e d j) := by
  have hch : (t.filtered e d j).chanAt c = t.chanAt c := Work.chanAt_putChan_ne _ _ hcd
  exact ⟨hch ▸ h.spec, hch ▸ h.qspec, hch ▸ h.time, (getD_setPad_ne _ _ _ _ _ hcd).trans h.overlap,
    (getD_setPad_ne _ _ _ _ _ hcd).trans h.shape⟩

theorem filtered_after_other (hcd : c ≠ d) : Filtered e d j w ((w.filtered e c i).filtered e d j) := by
  have hch : (w.filtered e c i).chanAt d = w.chanAt d := Work.chanAt_putChan_ne _ _ hcd.symm
  have hout : (w.filtered e c i).filterOutput e d j = w.filterOutput e d j := by
    have ho : (w.filtered e c i).ds.overlap.getD d [] = w.ds.overlap.getD d [] := getD_setPad_ne _ _ _ _ _ hcd.symm
    have hs : (w.filtered e c i).ds.windowShapePrev.getD d false = w.ds.windowShapePrev.getD d false :=
      getD_setPad_ne _ _ _ _ _ hcd.symm
    rw [Work.filterOutput, hch, ho, hs]
    rfl
  obtain ⟨hspec, hq, htime, hover, hshape⟩ := filtered_self (e := e) (w := w.filtered e c i) (c := d) (i := j)
  exact ⟨hspec.trans (by rw [hch]), hq.trans (by rw [hch]), htime.trans (by rw [hout]), hover.trans (by rw [hout]), hshape⟩

end

/-! ## The program of a pair -/

/-- EL with the common_window flag. -/
def Work.withCommon (w : Work) (common : Bool) : Work :=
  { w with frm := { w.frm with el := w.frm.el.map (fun x => { x with commonWindow := common }) } }

/-- A CPE is its header, its two channel streams, the SBR data that follows, here none, and the reconstruction. -/
theorem pairElement_ok {e : Env} {w v1 v2 v3 u : Work} {tag : Nat} {common : Bool} {x : Element}
    (hb : beginElement e 1 2 true w = .ok () ((w.begun 1 tag true).at 4))
    (hc : Wk.ofRd (Rd.bit e) ((w.begun 1 tag true).at 4) = .ok common ((w.begun 1 tag true).at 5))
    (hw : (if common then commonWindow e w.ds.channelsSeen (w.ds.channelsSeen + 1) else return ())
      (((w.begun 1 tag true).at 5).withCommon common) = .ok () v1)
    (hp : icsParse e w.ds.channelsSeen common v1 = .ok () v2) (hq : icsParse e (w.ds.channelsSeen + 1) common v2 = .ok () v3)
    (he : v3.eng.bc.err = false) (hx : v3.frm.el = some x) (hd : x.sbrData = false) (hn : v3.noFill e)
    (hr : reconstructPair e w.ds.elementsSeen w.ds.channelsSeen common (v3.withSbr none) = .ok () u) :
    elementProgram .cpe e w = .ok () (u.counted 2) := by
  have hset : Wk.setFrm (fun f => { f with el := f.el.map (fun x => { x with commonWindow := common }) })
    ((w.begun 1 tag true).at 5) = .ok () (((w.begun 1 tag true).at 5).withCommon common) := rfl
  have htail : (do
      icsParse e w.ds.channelsSeen common
      icsParse e (w.ds.channelsSeen + 1) common
      attachSbr e w.ds.elementsSeen true
      reconstructPair e w.ds.elementsSeen w.ds.channelsSeen common
      endElement 2 : Wk Unit) v1 = .ok () (u.counted 2) :=
    (run_bind_ok hp).trans ((run_bind_ok hq).trans
      ((run_bind_ok (attachSbr_noFill w.ds.elementsSeen true hn he hx hd)).trans ((run_bind_ok hr).trans rfl)))
  show cpeBody e w = _
  unfold cpeBody
  refine (run_bind_ok (show Wk.ds w = .ok w.ds w from rfl)).trans ((run_bind_ok hb).trans ((run_bind_ok hc).trans
    ((run_bind_ok hset).trans ?_)))
  cases common with
  | false =>
    cases hw
    exact htail
  | true => exact (run_bind_ok hw).trans htail

/-! ## Two silent channel streams -/

theorem silentIcs_plain (e : Env) (sc : StreamCfg) (gain : Nat) (shape : Bool) : PlainIcs (silentIcs e sc gain shape) :=
  ⟨rfl, rfl, rfl, rfl⟩

/-- What a silent channel keeps of the filterbank (45_filterbank.md R330). -/
theorem Filtered.silentChannel {e : Env} {w t : Work} {c : Nat} {shape : Bool}
    (h : Filtered e c (silentInfo e w.sc shape) w t) (hs : (w.chanAt c).spec = List.replicate w.sc.frameLen.toNat 0)
    (hq : (w.chanAt c).qspec = List.replicate w.sc.frameLen.toNat 0) : silentChannel w.sc.frameLen.toNat c shape w.ds t := by
  have hout : w.filterOutput e c (silentInfo e w.sc shape) =
      ((List.range w.sc.frameLen.toNat).map (fun n => (w.ds.overlap.getD c []).getD n 0),
        List.replicate w.sc.frameLen.toNat 0 ++ (w.ds.overlap.getD c []).drop w.sc.frameLen.toNat) := by
    rw [Work.filterOutput, hs]
    exact filterbank_silent e.par _ e w.sc shape _ _ _
  exact ⟨h.time.trans (by rw [hout]), h.qspec.trans hq, h.overlap.trans (by rw [hout]), h.shape⟩

section
variable {w : Work} {c d : Nat} {a b : Ics}

theorem dequantisedPair_first (hcd : c ≠ d) :
    (w.dequantisedPair c d a b).chanAt c = { w.chanAt c with spec := w.dequantised c a } :=
  (Work.chanAt_putChan_ne _ _ hcd).trans (Work.chanAt_putChan _ _ _)

theorem dequantisedPair_second (hcd : c ≠ d) :
    (w.dequantisedPair c d a b).chanAt d = { w.chanAt d with spec := w.dequantised d b } := by
  rw [Work.dequantisedPair, Work.putSpec, Work.chanAt_putChan, Work.putSpec, Work.chanAt_putChan_ne _ _ hcd.symm]

end

/-- State u differs from w in channels and in the histories of the filterbank alone. -/
structure Reconstructed (w u : Work) : Prop where
  eng : u.eng = w.eng
  sc : u.sc = w.sc
  frm : u.frm = { w.frm with chans := u.frm.chans }
  ds : u.ds = { w.ds with
    overlap := u.ds.overlap
    windowShapePrev := u.ds.windowShapePrev
    ltpHist := u.ds.ltpHist }

theorem Reconstructed.counts {w u : Work} (h : Reconstructed w u) : u.ds.channelsSeen = w.ds.channelsSeen ∧
    u.ds.elementsSeen = w.ds.elementsSeen ∧ u.ds.rng1 = w.ds.rng1 ∧ u.ds.rng2 = w.ds.rng2 :=
  ⟨(congrArg DecoderState.channelsSeen h.ds).trans rfl, (congrArg DecoderState.elementsSeen h.ds).trans rfl,
    (congrArg DecoderState.rng1 h.ds).trans rfl, (congrArg DecoderState.rng2 h.ds).trans rfl⟩

/-- RECONSTRUCT of a pair of silent channels without a common window. -/
theorem reconstructPair_silent {e : Env} {w : Work} {c : Nat} (n : Nat) {sc : StreamCfg} {ga gb : Nat} {sa sb : Bool}
    (hsc : w.sc = sc) (ha : (w.chanAt c).ics = some (silentIcs e sc ga sa))
    (hb : (w.chanAt (c + 1)).ics = some (silentIcs e sc gb sb))
    (hqa : (w.chanAt c).qspec = List.replicate sc.frameLen.toNat 0)
    (hqb : (w.chanAt (c + 1)).qspec = List.replicate sc.frameLen.toNat 0)
    (hu : sc.upsample = false) (hd : (w.frm.el.map (·.sbrData)).getD false = false) :
    ∃ u, reconstructPair e n c false w = .ok () u ∧ Reconstructed w u ∧
      silentChannel sc.frameLen.toNat c sa w.ds u ∧ silentChannel sc.frameLen.toNat (c + 1) sb w.ds u := by
  subst hsc
  have hcd : c ≠ c + 1 := (Nat.succ_ne_self c).symm
  have ca : w.Carries c (silentIcs e w.sc ga sa) := ⟨ha, silentIcs_plain _ _ _ _⟩
  have cb : w.Carries (c + 1) (silentIcs e w.sc gb sb) := ⟨hb, silentIcs_plain _ _ _ _⟩
  have hr := reconstructCore_pair (e := e) (stereo := return ()) hcd ca cb rfl rfl rfl ca.dequantisedPair cb.dequantisedPair
  refine ⟨_, (run_bind_ok hr).trans (stageSbr_none _ _ _ _ hu hd), ⟨rfl, rfl, rfl, rfl⟩, ?_, ?_⟩
  · have h1 := dequantisedPair_first (w := w) (a := silentIcs e w.sc ga sa) (b := silentIcs e w.sc gb sb) hcd
    exact (filtered_self.other hcd).silentChannel (w := w.dequantisedPair c (c + 1) _ _) (by rw [h1]; rfl) (by rw [h1]; exact hqa)
  · have h2 := dequantisedPair_second (w := w) (a := silentIcs e w.sc ga sa) (b := silentIcs e w.sc gb sb) hcd
    exact (filtered_after_other hcd).silentChannel (w := w.dequantisedPair c (c + 1) _ _) (by rw [h2]; rfl) (by rw [h2]; exact hqb)

/-- State t is w with n bits read and channel c's stream put in by f. -/
structure Puts (n c : Nat) (f : Chan → Chan) (w t : Work) : Prop where
  bc : t.eng.bc = { w.eng.bc with pos := w.eng.bc.pos + n }
  bw : t.eng.bw = w.eng.bw
  sc : t.sc = w.sc
  ds : t.ds = w.ds
  frm : t.frm = { w.frm with chans := t.frm.chans }
  chan : t.chanAt c = f (w.chanAt c)
  other : ∀ d, d ≠ c → t.chanAt d = w.chanAt d

theorem icsParse_puts {e : Env} {w : Work} (c : Nat) (hf : PlainFlags e.par w.sc) (h : w.hasBits 22) (hs : w.silentStream e 0) :
    ∃ t, icsParse e c false w = .ok () t ∧ Puts 22 c (silentParsed e w 0) w t := by
  obtain ⟨r, hr⟩ := icsParse_silentStream 0 c hf h (by omega) hs
  exact ⟨_, hr, rfl, rfl, rfl, rfl, rfl, Work.chanAt_putChan _ _ _, fun d hd => Work.chanAt_putChan_ne _ _ hd⟩

section
variable {e : Env} {w t : Work} {n : Nat} (hb : t.eng.bc = { w.eng.bc with pos := w.eng.bc.pos + n })
include hb

theorem silentStream_forward (j : Nat) (hs : w.silentStream e (n + j)) : t.silentStream e j := by
  simp only [Work.silentStream, hb, Nat.add_assoc] at hs ⊢
  exact hs

theorem silentParsed_forward (hsc : t.sc = w.sc) (j : Nat) : silentParsed e t j = silentParsed e w (n + j) := by
  funext ch
  simp only [silentParsed, hb, hsc, Nat.add_assoc]

theorem noFill_forward (hn : (w.at n).noFill e) : t.noFill e := by
  unfold Work.noFill at hn ⊢
  rw [hb]
  exact hn

theorem hasBits_forward (m : Nat) (h : w.hasBits (n + m)) : t.hasBits m := by
  unfold Work.hasBits at h ⊢
  rw [hb]
  exact ⟨h.1, by dsimp only; omega⟩

end

/-- The parse of the pair: both channels silent, 49 bits read. -/
theorem silentPair_parses {e : Env} {w : Work} (c : Nat) (hf : PlainFlags e.par w.sc) (hb : w.hasBits 44)
    (hs : w.silentStream e 0) (hs' : w.silentStream e 22) :
    ∃ v t, icsParse e c false w = .ok () v ∧ icsParse e (c + 1) false v = .ok () t ∧
      Puts 22 c (silentParsed e w 0) w v ∧ Puts 22 (c + 1) (silentParsed e w 22) v t := by
  obtain ⟨v, hv, pv⟩ := icsParse_puts c hf ⟨hb.1, by have := hb.2; omega⟩ hs
  obtain ⟨t, ht, pt⟩ := icsParse_puts (c + 1) (pv.sc ▸ hf) (hasBits_forward pv.bc 22 hb) (silentStream_forward pv.bc 0 hs')
  exact ⟨v, t, hv, ht, pv, silentParsed_forward (e := e) pv.bc pv.sc 0 ▸ pt⟩

/-- The working state at the first channel stream of a CPE without a common window. -/
def Work.pairBegun (e : Env) (w : Work) : Work :=
  Work.withCommon ((w.begun 1 (bitsAt e.mem w.eng.bc.base w.eng.bc.pos 4) true).at 5) false

/-- A CPE without a common window on two silent streams, up to what RECONSTRUCT makes of the parsed state t. -/
theorem silentPair_program {e : Env} {w : Work} (hb : w.hasBits 49)
    (h4 : bitsAt e.mem w.eng.bc.base (w.eng.bc.pos + 4) 1 = 0) (hs : w.silentStream e 5) (hs' : w.silentStream e 27)
    (hc : w.ds.channelsSeen + 2 ≤ e.par.maxChannels) (hm : w.ds.elementsSeen + 1 ≤ e.par.maxElements)
    (hf : PlainFlags e.par w.sc) (hn : (w.at 49).noFill e) :
    ∃ v t, Puts 22 w.ds.channelsSeen (silentParsed e w 5) (w.pairBegun e) v ∧
      Puts 22 (w.ds.channelsSeen + 1) (silentParsed e w 27) v t ∧
      ∀ u, reconstructPair e w.ds.elementsSeen w.ds.channelsSeen false (t.withSbr none) = .ok () u →
        elementProgram .cpe e w = .ok () (u.counted 2) := by
  obtain ⟨he, hlen⟩ := hb
  have hbegin := beginElement_run (e := e) (w := w) 1 2 true ⟨he, by omega⟩ hc hm
  have hbit : Wk.ofRd (Rd.bit e) ((w.begun 1 (bitsAt e.mem w.eng.bc.base w.eng.bc.pos 4) true).at 4) =
      .ok false ((w.begun 1 (bitsAt e.mem w.eng.bc.base w.eng.bc.pos 4) true).at 5) :=
    bitFieldAt (e := e) (v := 0) 4 (show Work.hasBits _ 49 from ⟨he, hlen⟩) (by decide) h4
  have hbc : (w.pairBegun e).eng.bc = { w.eng.bc with pos := w.eng.bc.pos + 5 } := rfl
  obtain ⟨v, t, hp, hq, pv, pt⟩ := silentPair_parses (e := e) (w := w.pairBegun e) w.ds.channelsSeen hf
    (hasBits_forward hbc 44 ⟨he, hlen⟩) (silentStream_forward hbc 0 hs) (silentStream_forward hbc 22 hs')
  rw [silentParsed_forward (e := e) hbc rfl 0] at pv
  rw [silentParsed_forward (e := e) hbc rfl 22] at pt
  have htbc : t.eng.bc = { w.eng.bc with pos := w.eng.bc.pos + 49 } := by rw [pt.bc, pv.bc, hbc]
  have hel : t.frm.el = (w.pairBegun e).frm.el := by rw [pt.frm, pv.frm]
  exact ⟨v, t, pv, pt, fun u hr => pairElement_ok hbegin hbit rfl hp hq (by rw [htbc]; exact he) hel rfl
    (noFill_forward htbc hn) hr⟩

/-- Settles O40: both streams parse to silent channels, and the stages pass their overlap buffers out. -/
theorem silentPairElement : Obligations.SilentPairElement := by
  unfold Obligations.SilentPairElement
  intro s hr hlen h4 hs5 hs27 hc hm hf1 hf2 hf0 hu hn
  obtain ⟨hl, hb⟩ := State.hasBits_of_canRead hr hlen
  obtain ⟨v, t, pv, pt, hel⟩ := silentPair_program (e := s.env) hb h4 hs5 hs27 hc hm ⟨hf0, hf1, hf2⟩ (noFill_of_field hn)
  have hcd : s.work.ds.channelsSeen ≠ s.work.ds.channelsSeen + 1 := (Nat.succ_ne_self _).symm
  have hsc : t.sc = s.work.sc := by rw [pt.sc, pv.sc]; rfl
  have hds : t.ds = s.work.ds := by rw [pt.ds, pv.ds]; rfl
  have hfirst := (pt.other _ hcd).trans pv.chan
  have htel : t.frm.el = (s.work.pairBegun s.env).frm.el := by rw [pt.frm, pv.frm]
  obtain ⟨u, hrec, hu, hone, htwo⟩ := reconstructPair_silent (e := s.env) (w := t.withSbr none) (c := s.work.ds.channelsSeen)
    s.work.ds.elementsSeen hsc (congrArg Chan.ics hfirst) (congrArg Chan.ics pt.chan) (congrArg Chan.qspec hfirst)
    (congrArg Chan.qspec pt.chan) hu (by rw [show (t.withSbr none).frm.el = _ from htel]; rfl)
  have hbc : t.eng.bc = { s.work.eng.bc with pos := s.work.eng.bc.pos + 49 } := by rw [pt.bc, pv.bc]; rfl
  have hbw : t.eng.bw = s.work.eng.bw := by rw [pt.bw, pv.bw]; rfl
  obtain ⟨hch, hels, hr1, hr2⟩ := hu.counts
  refine ⟨u.counted 2, exec_element_ok (by decide) hl (hel u hrec), (congrArg Engine.bc hu.eng).trans hbc,
    (congrArg Engine.bw hu.eng).trans hbw, hu.sc.trans hsc, hds ▸ hone, hds ▸ htwo, (congrArg Frame.el hu.frm).trans htel, rfl,
    congrArg (· + 2) (hch.trans (congrArg _ hds)), congrArg (· + 1) (hels.trans (congrArg _ hds)), hr1.trans (congrArg _ hds),
    hr2.trans (congrArg _ hds)⟩

end Sys2Proof.Machine
end

section
/-! PROOFS. The parse of a channel stream of one band, on known bits (44_noiseless.md R281 to R284, 43_scalefactor_rvlc.md R252 to R254,
42_huffman_spectral.md R225). -/

namespace Sys2Proof.Machine

/-! ## Engine programs on known bits -/

/-- The engine reads from the cursor, with l the bits from it to the end of its slice. -/
def Engine.reads (m : Memory) (g : Engine) (l : List Bool) : Prop := g.regs.source = .main ∧ g.bc.reads m l

/-- The engine n bits further on, with other registers. -/
def Engine.moved (g : Engine) (n : Nat) (r : VlcRegs) : Engine := { g with bc := g.bc.fwd n, regs := r }

section
variable {m : Memory} {g : Engine} {l rest : List Bool}

theorem Engine.reads.sourceBits (h : g.reads m l) : g.sourceBits m = l := by
  obtain ⟨hs, he, -, hl⟩ := h
  simp [Engine.sourceBits, hs, he, hl]

theorem Engine.afterBits_main (hs : g.regs.source = .main) (n : Nat) (r : VlcRegs) :
    (g.afterBits n).setRegs r = g.moved n r := by
  rw [Engine.afterBits, hs]
  rfl

theorem Engine.reads.moved (h : g.reads m (l ++ rest)) {r : VlcRegs} (hr : r.source = .main) :
    (g.moved l.length r).reads m rest := ⟨hr, (Cursor.reads_split h.2).2.2⟩

theorem Engine.moved_moved (n k : Nat) (r r' : VlcRegs) : (g.moved n r).moved k r' = g.moved (n + k) r' := by
  simp [Engine.moved, Cursor.fwd_fwd]

/-- Engine program p takes the bits l from the cursor and answers a. -/
def VxTakes {α : Type} (m : Memory) (p : Vx α) (l : List Bool) (a : α) : Prop :=
  ∀ (g : Engine) (rest : List Bool), g.reads m (l ++ rest) → ∃ r : VlcRegs, r.source = .main ∧ p g = .ok a (g.moved l.length r)

theorem vxTakes_sample : VxTakes m (Vx.ofRd Rd.sample) [] () := by
  intro g rest h
  exact ⟨g.regs, h.1, vxOfRd_ok (takes_sample m g.bc.pos g.bc rest rfl h.2)⟩

theorem vxTakes_bind {α β : Type} {p : Vx α} {f : α → Vx β} {l l' : List Bool} {a : α} {b : β}
    (hp : VxTakes m p l a) (hf : VxTakes m (f a) l' b) : VxTakes m (p >>= f) (l ++ l') b := by
  intro g rest h
  rw [List.append_assoc] at h
  obtain ⟨r, hr, hp⟩ := hp g _ h
  obtain ⟨r', hr', hf⟩ := hf _ rest (h.moved hr)
  exact ⟨r', hr', by rw [run_bind_ok hp, hf, Engine.moved_moved, List.length_append]⟩

/-- A program that reads nothing more. -/
theorem vxTakes_then {α β : Type} {p : Vx α} {f : α → Vx β} {a : α} {b : β} (hp : VxTakes m p l a)
    (hf : VxTakes m (f a) [] b) : VxTakes m (p >>= f) l b := by
  have h := vxTakes_bind hp hf
  rwa [List.append_nil] at h

theorem vxTakes_pure {α : Type} (a : α) : VxTakes m (pure a : Vx α) [] a := fun g _ h => ⟨g.regs, h.1, rfl⟩

/-! ## The scale factor of one band (R252 to R254) -/

variable {e : Env} {f : Entry} {k : Int}

section
variable (hp : e.par.sfcb.prefixFree) (hf : f ∈ e.par.sfcb) (hne : f.code ≠ []) (hk : f.value = [k])
include hp hf hne hk

theorem sfdOp_takes (hg : g.reads e.mem (f.code ++ rest)) :
    sfdOp e g = .ok (k - 60) (g.moved f.code.length { g.regs with cwLen := f.code.length }) :=
  (sfdOp_eq hp hf hne hk hg.sourceBits).trans (by rw [Engine.afterBits_main hg.1])

theorem sfSpectral_takes {cb : Nat} (ht : carriesTable cb = true) (hg : g.reads e.mem (f.code ++ rest))
    (h0 : 0 ≤ g.regs.sfacc + (k - 60)) (h255 : g.regs.sfacc + (k - 60) ≤ 255) :
    ∃ r : VlcRegs, r.source = .main ∧
      sfBand e cb g = .ok (g.regs.sfacc + (k - 60)) (g.moved f.code.length r) := by
  refine ⟨{ g.regs with cwLen := f.code.length, sfacc := g.regs.sfacc + (k - 60) }, hg.1, ?_⟩
  rw [sfBand_of_carriesTable ht]
  unfold sfSpectral
  rw [run_bind_ok (sfdOp_takes hp hf hne hk hg), run_bind_ok (regs_run _), run_bind_ok (setRegs_run _ _)]
  refine Eq.trans (congrFun (if_pos ?_) _) rfl
  exact (sfInRange_iff _).2 ⟨h0, h255⟩

theorem sfIntensity_takes {cb : Nat} (hi : kind cb = .intensity) (hg : g.reads e.mem (f.code ++ rest))
    (ho : sfOtherFails e.par (g.regs.isPos + (k - 60)) = false) :
    ∃ r : VlcRegs, r.source = .main ∧
      sfBand e cb g = .ok (g.regs.isPos + (k - 60)) (g.moved f.code.length r) := by
  refine ⟨{ g.regs with cwLen := f.code.length, isPos := g.regs.isPos + (k - 60) }, hg.1, ?_⟩
  rw [sfBand, hi]
  dsimp only
  unfold sfIntensity
  rw [run_bind_ok (sfdOp_takes hp hf hne hk hg), run_bind_ok (regs_run _), run_bind_ok (setRegs_run _ _)]
  refine Eq.trans (congrFun (if_neg ?_) _) rfl
  exact ne_true_of_eq_false ho

end

/-- SCALE_FACTOR_DATA of one band, by what its band stores from the start values. -/
theorem scaleFactorData_takes {gain cb : Nat} {v : Int} {code : List Bool}
    (hb : ∀ (g : Engine) (rest : List Bool), g.reads e.mem (code ++ rest) → g.regs.sfacc = (gain : Int) → g.regs.isPos = 0 →
      ∃ r : VlcRegs, r.source = .main ∧ sfBand e cb g = .ok v (g.moved code.length r)) :
    VxTakes e.mem (scaleFactorData e gain [[cb]]) code [[v]] := by
  intro g rest hg
  obtain ⟨r, hr, h⟩ := hb (g.setRegs (sfStart gain g.regs)) rest hg rfl rfl
  have hband : mapBands (sfBand e) [cb] (g.setRegs (sfStart gain g.regs)) = .ok [v] (g.moved code.length r) :=
    (run_bind_ok h).trans rfl
  have hmap : mapGroups (sfBand e) [[cb]] (g.setRegs (sfStart gain g.regs)) = .ok [[v]] (g.moved code.length r) :=
    (run_bind_ok hband).trans rfl
  have hsample := takes_sample e.mem _ _ rest rfl (hg.moved (r := r) hr).2
  exact ⟨r, hr, (run_bind_ok (setRegs_run _ _)).trans ((run_bind_ok hmap).trans ((run_bind_ok (vxOfRd_ok hsample)).trans rfl))⟩

section
variable (hp : e.par.sfcb.prefixFree) (hf : f ∈ e.par.sfcb) (hne : f.code ≠ []) (hk : f.value = [k]) {cb : Nat}
include hp hf hne hk

/-- A spectral band: the gain plus the codeword's difference. -/
theorem scaleFactorData_spectral {gain : Nat} (ht : carriesTable cb = true) (h0 : 0 ≤ (gain : Int) + (k - 60))
    (h255 : (gain : Int) + (k - 60) ≤ 255) :
    VxTakes e.mem (scaleFactorData e gain [[cb]]) f.code [[(gain : Int) + (k - 60)]] := by
  refine scaleFactorData_takes fun g rest hg hs _ => ?_
  have h := sfSpectral_takes hp hf hne hk ht hg
  rw [hs] at h
  exact h h0 h255

/-- An intensity band: the codeword's difference. -/
theorem scaleFactorData_intensity (gain : Nat) (hi : kind cb = .intensity) (ho : sfOtherFails e.par (k - 60) = false) :
    VxTakes e.mem (scaleFactorData e gain [[cb]]) f.code [[k - 60]] := by
  refine scaleFactorData_takes fun g rest hg _ hz => ?_
  have h := sfIntensity_takes hp hf hne hk hi hg
  rw [hz, zero_add] at h
  exact h ho

end

end

/-! ## The spectral data of one band of a quad (R225) -/

section
variable {e : Env} {fl cb : Nat} {q : Entry} {info : IcsInfo}

/-- The one band of info is the lines 0 to 3 of group 0. -/
structure QuadInfo (info : IcsInfo) : Prop where
  sequence : info.windowSequence = 0
  maxSfb : info.maxSfb = 1
  groups : info.groupLens = [1]
  swb0 : info.swbOffset.getD 0 0 = 0
  swb1 : info.swbOffset.getD 1 0 = 4
  sect : info.sectSfbOffset = [[0, 4]]

theorem oneBandInfo_quad {p : Params} {sc : StreamCfg} (h : quadBand p sc) (shape : Bool) : QuadInfo (oneBandInfo p sc shape) := by
  obtain ⟨-, h0, h4, -, -⟩ := h
  exact ⟨rfl, rfl, rfl, h0, h4, by simp only [oneBandInfo, h0, h4]⟩

/-- The QSPEC a quad makes. -/
def quadLines (fl : Nat) (v : List Int) : List Int := v ++ List.replicate (fl - 4) 0

theorem splice_quad {α : Type} (d : α) {v : List α} (hv : v.length = 4) (h4 : 4 ≤ fl) :
    splice (List.replicate fl d) 0 v = v ++ List.replicate (fl - 4) d := by
  rw [splice, List.take_zero, List.nil_append, List.drop_replicate, hv, List.length_replicate, Nat.zero_add,
    List.take_of_length_le (by rw [List.length_append, List.length_replicate, hv]; omega)]

theorem lanes_setQuad (r : VlcRegs) {v : List Int} (hv : v.length = 4) : (r.setQuad v).lanes 4 = v := by
  match v, hv with
  | [_, _, _, _], _ => rfl

/-- One codeword of a signed quad fills the band. -/
theorem spectralSection_quad (hcb : cb ∈ [1, 2]) (h4 : 4 ≤ fl) (hp : (spectralBook e.par cb).prefixFree)
    (hq : q ∈ spectralBook e.par cb) (hne : q.code ≠ []) (hv : q.value.length = 4) :
    VxTakes e.mem (spectralSection e fl cb 4 (fl + 1) 0 (List.replicate fl 0)) q.code (quadLines fl q.value) := by
  intro g rest hg
  have hsize : tupleSize cb = 4 := by fin_cases hcb <;> rfl
  have hkind : hcw e cb = quadCodeword e cb := by fin_cases hcb <;> rfl
  obtain ⟨r, hr, hl, hquad⟩ : ∃ r : VlcRegs, r.source = .main ∧ r.lanes 4 = q.value ∧
      hcw e cb g = .ok () (g.moved q.code.length r) := by
    refine ⟨{ g.regs with cwLen := q.code.length }.setQuad q.value, hg.1, lanes_setQuad _ hv, ?_⟩
    rw [hkind, quadCodeword_eq hp hq hne hg.sourceBits, Engine.afterBits_main hg.1]
  obtain ⟨k, rfl⟩ : ∃ k, fl = k + 1 := ⟨fl - 1, by omega⟩
  refine ⟨r, hr, ?_⟩
  rw [spectralSection, if_pos (by decide), hsize, if_neg (by omega), run_bind_ok hquad, run_bind_ok (regs_run _),
    spectralSection, if_neg (by decide)]
  show EStateM.Result.ok (splice _ 0 (r.lanes 4)) _ = _
  rw [hl, splice_quad 0 hv h4]
  rfl

theorem spectralData_one {code : List Bool} {v : List Int} (hi : QuadInfo info)
    (h : VxTakes e.mem (spectralGroup e fl 0 [0, 4] [⟨cb, 0, 1⟩] (List.replicate fl 0)) code v) :
    VxTakes e.mem (spectralData e fl info [[⟨cb, 0, 1⟩]]) code v := by
  have hg : groupTriples info [[⟨cb, 0, 1⟩]] = [([⟨cb, 0, 1⟩], [0, 4], 1)] := by
    rw [groupTriples, hi.groups, hi.sect]
    rfl
  have hgroups : VxTakes e.mem (spectralGroups e fl 0 (groupTriples info [[⟨cb, 0, 1⟩]]) (List.replicate fl 0)) code v := by
    rw [hg]
    exact vxTakes_then (f := fun q => spectralGroups e fl _ [] q) h (vxTakes_pure v)
  exact vxTakes_then (f := fun q => Vx.ofRd Rd.sample >>= fun _ => pure q) hgroups
    (vxTakes_then (f := fun _ => pure v) vxTakes_sample (vxTakes_pure v))

/-- The spectral data of a band of a signed quad. -/
theorem spectralData_quad (hi : QuadInfo info) (hcb : cb ∈ [1, 2]) (h4 : 4 ≤ fl) (hp : (spectralBook e.par cb).prefixFree)
    (hq : q ∈ spectralBook e.par cb) (hne : q.code ≠ []) (hv : q.value.length = 4) :
    VxTakes e.mem (spectralData e fl info [[⟨cb, 0, 1⟩]]) q.code (quadLines fl q.value) := by
  refine spectralData_one hi ?_
  have hskip : skipsSection cb = false := by fin_cases hcb <;> rfl
  have h := vxTakes_then (spectralSection_quad hcb h4 hp hq hne hv) (vxTakes_pure (quadLines fl q.value))
  simpa [spectralGroup, hskip] using h

/-- An intensity band has no spectral data (R227). -/
theorem spectralData_intensity (hi : QuadInfo info) (hk : kind cb = .intensity) :
    VxTakes e.mem (spectralData e fl info [[⟨cb, 0, 1⟩]]) [] (List.replicate fl 0) := by
  refine spectralData_one hi ?_
  have hskip : skipsSection cb = true := by
    rw [skipsSection, hk]
    rfl
  have h := vxTakes_pure (m := e.mem) (List.replicate fl (0 : Int))
  simpa [spectralGroup, hskip] using h

end

/-! ## The fields of the channel stream (R281, R282) -/

section
variable {e : Env} {pos : Nat}

/-- A program over the cursor that reads nothing more. -/
theorem takes_then {α β : Type} {m : Memory} {p : Rd α} {f : α → Rd β} {l : List Bool} {a : α} {b : β} (hp : Takes m pos p l a)
    (hf : Takes m (pos + l.length) (f a) [] b) : Takes m pos (p >>= f) l b :=
  takes_congr (takes_bind hp hf) (List.append_nil l)

/-- A look at the cursor reads nothing. -/
theorem takes_cursor_bind {β : Type} {m : Memory} {f : Cursor → Rd β} {l : List Bool} {b : β}
    (h : ∀ k, Takes m pos (f k) l b) : Takes m pos (Rd.cursor >>= f) l b :=
  fun k r hk hr => (run_bind_ok (show Rd.cursor k = .ok k k from rfl)).trans (h k k r hk hr)

theorem takes_optionalPart_none {α : Type} (p : Rd α) : Takes e.mem pos (optionalPart e p) [false] none :=
  takes_then (takes_bit false) (takes_pure _ _ _)

/-- ICS_INFO of one long band (R281). -/
theorem takes_icsInfo_oneBand {sc : StreamCfg} (hq : quadBand e.par sc) (shared shape : Bool) (a b : Nat) :
    Takes e.mem pos (icsInfo e sc shared a b) (oneBandInfoBits shape) (oneBandInfo e.par sc shape, none, none) := by
  have hpred : ∀ pos n, Takes e.mem pos (predictorData e sc.objectType.toNat sc.frameLen.toNat shared n a b) [false] (none, none) :=
    fun pos n => takes_then (takes_bit false) (takes_pure _ _ _)
  have hbody : ∀ pos, Takes e.mem pos (icsInfoBody e sc.objectType.toNat sc.frameLen.toNat false shared a b)
      (natToBits 6 1 ++ [false]) (1, [1], none, none) := fun pos =>
    takes_bind (takes_get (by decide) (by decide)) (takes_then (hpred _ _) (takes_pure _ _ _))
  have hswb : ¬ (1 : Nat) > (swbTable e.par (tableIndex e.par sc) sc.frameLen.toNat false).1 := Nat.not_lt.2 hq.1
  have hbits : oneBandInfoBits shape = [false] ++ (natToBits 2 0 ++ ([shape] ++ (natToBits 6 1 ++ [false]))) := by
    simp [oneBandInfoBits]
  rw [hbits]
  unfold icsInfo
  refine takes_bind (takes_bit false) (takes_bind (takes_get (by decide) (by decide)) (takes_bind (takes_bit shape) ?_))
  simp only [ne_eq, not_true_eq_false, and_false, if_false]
  refine takes_then (hbody _) ?_
  simp only [show ((0 : Nat) == 2) = false from rfl, hswb, if_false]
  exact takes_pure _ _ _

/-- One section over the one band (R282). -/
theorem takes_sectionData_oneBand {sc : StreamCfg} {info : IcsInfo} {cb : Nat} (hi : QuadInfo info) (he : sc.erFlags = 0)
    (hm : 1 ≤ e.par.maxSfbLong) (hcb : cb < 16) (h12 : cb ≠ 12) :
    Takes e.mem pos (sectionData e sc info) (natToBits 4 cb ++ natToBits 5 1) [[⟨cb, 0, 1⟩]] := by
  have hflag : sc.erFlag 0 = false := by simp [StreamCfg.erFlag, he]
  have hlen : ∀ pos k, Takes e.mem pos (sectionLength e 5 (k + 1) 0) (natToBits 5 1) 1 := fun pos k =>
    takes_then (takes_get (by decide) (by decide)) (takes_pure _ _ _)
  have himp : implicitLength 4 cb = false := rfl
  have hgroup : ∀ pos, Takes e.mem pos (sectionGroup e 4 5 e.par.maxSfbLong 1 1 0) (natToBits 4 cb ++ natToBits 5 1)
      [⟨cb, 0, 1⟩] := by
    intro pos
    rw [sectionGroup, if_pos (by decide)]
    refine takes_bind (l := []) (takes_sample _ _) (takes_bind (takes_get (v := cb) (by decide) hcb) ?_)
    rw [if_neg h12]
    refine takes_cursor_bind fun k => ?_
    rw [himp]
    simp only [Bool.false_eq_true, if_false]
    refine takes_then (hlen _ _) ?_
    rw [if_neg (by decide), if_neg (by omega)]
    exact takes_then (takes_pure _ _ []) (takes_pure _ _ _)
  unfold sectionData
  simp only [hflag, Bool.false_and, Bool.false_eq_true, if_false, hi.sequence, hi.maxSfb, hi.groups]
  exact takes_then (hgroup _) (takes_then (takes_pure _ _ []) (takes_pure _ _ _))

/-- The M/S mask of one band (48_orchestrator.md R417). -/
theorem takes_msMask_oneBand {info : IcsInfo} (hi : QuadInfo info) (used : Bool) :
    Takes e.mem pos (msMask e info) [false, true, used] (1, [[used]]) := by
  have hrow : ∀ pos, Takes e.mem pos (Rd.manyBits e 1) [used] [used] := fun pos =>
    takes_then (takes_bit used) (takes_then (takes_pure _ _ []) (takes_pure _ _ _))
  have hrows : ∀ pos, Takes e.mem pos (msRows e 1 1) [used] [[used]] := fun pos =>
    takes_then (hrow _) (takes_then (takes_pure _ _ []) (takes_pure _ _ _))
  unfold msMask
  rw [hi.maxSfb, hi.groups]
  exact takes_bind (l := [false, true]) (takes_get (n := 2) (v := 1) (by decide) (by decide))
    (takes_then (hrows _) (takes_pure _ _ _))

end

/-! ## The channel stream (R284) -/

/-- The working state n bits further on, with other VLC registers. -/
def Work.moved (w : Work) (n : Nat) (r : VlcRegs) : Work := { w with eng := w.eng.moved n r }

theorem Work.moved_moved (w : Work) (n k : Nat) (r r' : VlcRegs) : (w.moved n r).moved k r' = w.moved (n + k) r' := by
  rw [Work.moved, Work.moved, Work.moved, ← Engine.moved_moved]

section
variable {α : Type} {e : Env} {w : Work} {l rest : List Bool} {a : α} (h : w.eng.reads e.mem (l ++ rest))
include h

theorem wkOfVx_takes {p : Vx α} (hp : VxTakes e.mem p l a) : ∃ r : VlcRegs, r.source = .main ∧
    Wk.ofVx p w = .ok a (w.moved l.length r) ∧ (w.moved l.length r).eng.reads e.mem rest := by
  obtain ⟨r, hr, hp⟩ := hp w.eng rest h
  exact ⟨r, hr, ofVx_ok hp, h.moved hr⟩

theorem wkOfRd_takes {p : Rd α} (hp : ∀ pos, Takes e.mem pos p l a) : Wk.ofRd p w = .ok a (w.moved l.length w.eng.regs) ∧
    (w.moved l.length w.eng.regs).eng.reads e.mem rest :=
  ⟨wkOfRd_ok (hp _ w.eng.bc rest rfl h.2), h.moved h.1⟩

end

/-- The channel stream a one-band stream of codebook cb makes of its ics_info. -/
def oneBandIcs (a : Ics) (gain cb : Nat) (sf : Int) : Ics :=
  { a with
    globalGain := gain
    sections := [[⟨cb, 0, 1⟩]]
    sfbCb := [[cb]]
    scaleFactors := [[sf]]
    noiseUsed := sectionsNoise [[⟨cb, 0, 1⟩]]
    isUsed := sectionsIntensity [[⟨cb, 0, 1⟩]]
    pulse := none
    tns := none
    rvlc := none }

theorem Puts.trans {n m c : Nat} {f g : Chan → Chan} {w v t : Work} (h : Puts n c f w v) (h' : Puts m c g v t) :
    Puts (n + m) c (fun ch => g (f ch)) w t where
  bc := by rw [h'.bc, h.bc, Nat.add_assoc]
  bw := h'.bw.trans h.bw
  sc := h'.sc.trans h.sc
  ds := h'.ds.trans h.ds
  frm := by rw [h'.frm, h.frm]
  chan := h'.chan.trans (congrArg g h.chan)
  other := fun d hd => (h'.other d hd).trans (h.other d hd)

theorem puts_moved (w : Work) (c n : Nat) (r : VlcRegs) : Puts n c (fun ch => ch) w (w.moved n r) :=
  ⟨rfl, rfl, rfl, rfl, rfl, rfl, fun _ _ => rfl⟩

theorem puts_putChan (w : Work) (c n : Nat) (r : VlcRegs) (f : Chan → Chan) : Puts n c f w ((w.moved n r).putChan c f) :=
  ⟨rfl, rfl, rfl, rfl, rfl, Work.chanAt_putChan _ _ _, fun _ hd => Work.chanAt_putChan_ne _ _ hd⟩

/-- A channel with its stream and its quantised lines. -/
def Chan.parsed (a : Ics) (q : List Int) (ch : Chan) : Chan := { ch with qspec := q, ics := some a }

/-- The codewords of a one-band stream of codebook cb: sf the stored scale factor, q the quantised lines. -/
structure OneBandCode (e : Env) (fl gain cb : Nat) (sfCode code : List Bool) (sf : Int) (q : List Int) : Prop where
  bits : cb < 16
  legal : cb ≠ 12
  scale : VxTakes e.mem (scaleFactorData e gain [[cb]]) sfCode [[sf]]
  spectral : ∀ info, QuadInfo info → VxTakes e.mem (spectralData e fl info [[⟨cb, 0, 1⟩]]) code q

/-- ICS_PARSE of a one-band stream, once its gain is read and its ics_info a stands in the channel: sf its scale factor, q its
quantised lines. -/
theorem icsParse_oneBand {e : Env} {w w0 w1 : Work} {c gain cb : Nat} {common : Bool} {a : Ics} {sf : Int} {q : List Int}
    {sfCode code rest : List Bool} (hgain : Wk.ofRd (Rd.get e 8) w = .ok gain w0)
    (hinfo : (if common then pure () else icsInfoOne e c : Wk Unit) w0 = .ok () w1)
    (hics : (w1.chanAt c).ics = some a) (hi : QuadInfo a.info) (he : w.sc.erFlags = 0)
    (hm : 1 ≤ e.par.maxSfbLong) (hd : OneBandCode e w.sc.frameLen.toNat gain cb sfCode code sf q)
    (hread : w1.eng.reads e.mem (oneBandDataBits cb sfCode code ++ rest)) :
    ∃ t, icsParse e c common w = .ok () t ∧ t.eng.reads e.mem rest ∧
      Puts (oneBandDataBits cb sfCode code).length c (Chan.parsed (oneBandIcs a gain cb sf) q) w1 t := by
  have hflag : ∀ i, w.sc.erFlag i = false := fun i => by simp [StreamCfg.erFlag, he]
  have hend := fun r => hread.moved (r := r)
  have hbits : oneBandDataBits cb sfCode code ++ rest =
      (natToBits 4 cb ++ natToBits 5 1) ++ (sfCode ++ ([false] ++ ([false] ++ ([false] ++ (code ++ rest))))) := by
    simp [oneBandDataBits]
  rw [hbits] at hread
  obtain ⟨h1, hread⟩ := wkOfRd_takes hread fun _ => takes_sectionData_oneBand hi he hm hd.bits hd.legal
  obtain ⟨r2, -, h2, hread⟩ := wkOfVx_takes hread hd.scale
  obtain ⟨h3, hread⟩ := wkOfRd_takes hread fun _ => takes_optionalPart_none (pulseData e a.info.numSwb)
  obtain ⟨h4, hread⟩ := wkOfRd_takes hread fun _ => takes_optionalPart_none (tnsData e a.info)
  obtain ⟨h5, hread⟩ := wkOfRd_takes hread fun _ => takes_bit false
  obtain ⟨r6, hr6, h6, -⟩ := wkOfVx_takes hread (hd.spectral a.info hi)
  refine ⟨_, ?_, hend r6 hr6, puts_putChan w1 c _ r6 _⟩
  unfold icsParse
  rw [run_bind_ok (show Wk.sc w = .ok w.sc w from rfl), run_bind_ok hgain]
  have hics' : chanIcs c w1 = .ok a w1 := chanIcs_of_ics hics
  have hearly : scaleFactorPart e w.sc gain (a.info.windowSequence == eightShort) (sectionsNoise [[⟨cb, 0, 1⟩]]) [[cb]]
      (w1.moved (natToBits 4 cb ++ natToBits 5 1).length w1.eng.regs) = .ok ([[sf]], none)
      ((w1.moved (natToBits 4 cb ++ natToBits 5 1).length w1.eng.regs).moved sfCode.length r2) := by
    rw [scaleFactorPart, hflag, if_neg (by decide), run_bind_ok h2]
    rfl
  have hlen : (natToBits 4 cb ++ natToBits 5 1).length + sfCode.length + [false].length + [false].length + [false].length +
      code.length = (oneBandDataBits cb sfCode code).length := by
    simp [oneBandDataBits]
    omega
  cases common
  case' false => refine (run_bind_ok (show icsInfoOne e c w0 = .ok () w1 from hinfo)).trans ?_
  case' true => cases hinfo
  all_goals
    refine (run_bind_ok hics').trans ((run_bind_ok h1).trans ((run_bind_ok hearly).trans ((run_bind_ok h3).trans
      ((run_bind_ok h4).trans ((run_bind_ok h5).trans ?_)))))
    refine (run_bind_ok (show rvlcPart e gain _ ([[sf]], none) _ = .ok [[sf]] _ from rfl)).trans ?_
    rw [hflag, if_neg (by decide)]
    refine (run_bind_ok h6).trans ?_
    simp only [Work.moved_moved]
    rw [hlen]
    rfl

theorem oneBandInfoBits_length (shape : Bool) : (oneBandInfoBits shape).length = 11 := by
  simp [oneBandInfoBits, natToBits_length]

/-- ICS_INFO of a one-band stream for one channel. -/
theorem icsInfoOne_oneBand {e : Env} {w : Work} (c : Nat) {shape : Bool} {rest : List Bool} (hq : quadBand e.par w.sc)
    (h : w.eng.reads e.mem (oneBandInfoBits shape ++ rest)) :
    ∃ t, icsInfoOne e c w = .ok () t ∧ t.eng.reads e.mem rest ∧
      Puts 11 c (fun ch => { ch with ics := some (Ics.start (oneBandInfo e.par w.sc shape) none) }) w t := by
  obtain ⟨hi, hr⟩ := wkOfRd_takes h fun _ => takes_icsInfo_oneBand (sc := w.sc) hq false shape (w.ds.ltpLagPrev.getD c 0) 0
  rw [oneBandInfoBits_length] at hi hr
  refine ⟨(w.moved 11 w.eng.regs).putChan c (fun ch =>
    { ch with ics := some (Ics.start (oneBandInfo e.par w.sc shape) none) }), ?_, hr, puts_putChan w c 11 w.eng.regs _⟩
  unfold icsInfoOne
  rw [run_bind_ok (show Wk.sc w = .ok w.sc w from rfl), run_bind_ok (show Wk.ds w = .ok w.ds w from rfl), run_bind_ok hi]
  rfl

section
variable {e : Env} {w : Work} {c gain cb : Nat} {sf : Int} {q : List Int} {sfCode code rest : List Bool}
  (hgain : gain < 256) (he : w.sc.erFlags = 0) (hm : 1 ≤ e.par.maxSfbLong)
  (hd : OneBandCode e w.sc.frameLen.toNat gain cb sfCode code sf q)
include hgain he hm hd

/-- ICS_PARSE of a one-band stream with its own ics_info. -/
theorem icsParse_own {shape : Bool} (hq : quadBand e.par w.sc)
    (h : w.eng.reads e.mem (natToBits 8 gain ++ (oneBandInfoBits shape ++ (oneBandDataBits cb sfCode code ++ rest)))) :
    ∃ t, icsParse e c false w = .ok () t ∧ t.eng.reads e.mem rest ∧
      Puts (19 + (oneBandDataBits cb sfCode code).length) c
        (Chan.parsed (oneBandIcs (Ics.start (oneBandInfo e.par w.sc shape) none) gain cb sf) q) w t := by
  obtain ⟨hg, h0⟩ := wkOfRd_takes h fun _ => takes_get (by decide) hgain
  have h8 := puts_moved w c (natToBits 8 gain).length w.eng.regs
  rw [natToBits_length] at hg h0 h8
  obtain ⟨v, hinfo, hv, pv⟩ := icsInfoOne_oneBand (w := w.moved 8 w.eng.regs) c hq h0
  obtain ⟨t, ht, hr, pt⟩ := icsParse_oneBand (common := false) hg hinfo (congrArg Chan.ics pv.chan)
    (oneBandInfo_quad hq shape) he hm hd hv
  exact ⟨t, ht, hr, (h8.trans pv).trans pt⟩

/-- ICS_PARSE of a one-band stream under the pair's ics_info. -/
theorem icsParse_shared {a : Ics} (hics : (w.chanAt c).ics = some a) (hi : QuadInfo a.info)
    (h : w.eng.reads e.mem (natToBits 8 gain ++ (oneBandDataBits cb sfCode code ++ rest))) :
    ∃ t, icsParse e c true w = .ok () t ∧ t.eng.reads e.mem rest ∧
      Puts (8 + (oneBandDataBits cb sfCode code).length) c (Chan.parsed (oneBandIcs a gain cb sf) q) w t := by
  obtain ⟨hg, h0⟩ := wkOfRd_takes h fun _ => takes_get (by decide) hgain
  have h8 := puts_moved w c (natToBits 8 gain).length w.eng.regs
  rw [natToBits_length] at hg h0 h8
  obtain ⟨t, ht, hr, pt⟩ := icsParse_oneBand (common := true) hg rfl hics hi he hm hd h0
  exact ⟨t, ht, hr, h8.trans pt⟩

end

end Sys2Proof.Machine
end

section
/-! PROOFS. SCE and LFE with one band of spectral data (48_orchestrator.md R416, R419, R424). -/

namespace Sys2Proof.Machine

/-! ## The codewords of a band -/

section
variable {e : Env} {fl gain cb : Nat} {f q : Entry} {k : Int} (hp : e.par.sfcb.prefixFree) (hf : f ∈ e.par.sfcb)
  (hne : f.code ≠ []) (hk : f.value = [k])
include hp hf hne hk

/-- A band of a signed quad. -/
theorem oneBandCode_quad (hcb : cb ∈ [1, 2]) (h4 : 4 ≤ fl) (h0 : 0 ≤ (gain : Int) + (k - 60)) (h255 : (gain : Int) + (k - 60) ≤ 255)
    (hb : (spectralBook e.par cb).prefixFree) (hq : q ∈ spectralBook e.par cb) (hqne : q.code ≠ []) (hv : q.value.length = 4) :
    OneBandCode e fl gain cb f.code q.code ((gain : Int) + (k - 60)) (quadLines fl q.value) where
  bits := by fin_cases hcb <;> decide
  legal := by fin_cases hcb <;> decide
  scale := scaleFactorData_spectral hp hf hne hk (by fin_cases hcb <;> rfl) h0 h255
  spectral := fun _ hi => spectralData_quad hi hcb h4 hb hq hqne hv

/-- An intensity band. -/
theorem oneBandCode_intensity (fl gain : Nat) (hcb : cb ∈ [14, 15]) (ho : sfOtherFails e.par (k - 60) = false) :
    OneBandCode e fl gain cb f.code [] (k - 60) (List.replicate fl 0) where
  bits := by fin_cases hcb <;> decide
  legal := by fin_cases hcb <;> decide
  scale := scaleFactorData_intensity hp hf hne hk gain (by fin_cases hcb <;> rfl) ho
  spectral := fun _ hi => spectralData_intensity hi (by fin_cases hcb <;> rfl)

end

/-! ## The one block of the band (44_noiseless.md R283, R289) -/

theorem blocks_quad {info : IcsInfo} (hi : QuadInfo info) (fl : Nat) : blocks info fl = [⟨0, 0, 0, 0, 4⟩] := by
  have h0 := hi.swb0
  have h1 := hi.swb1
  rw [List.getD_eq_getElem?_getD] at h0 h1
  simp [blocks, bandList, bandBlocks, hi.groups, hi.maxSfb, hi.sect, windowsBefore, bandWidth, grid, h0, h1]

theorem slice_quad {α : Type} (d : α) {v : List α} (hv : v.length = 4) (r : List α) : slice d (v ++ r) 0 4 = v := by
  match v, hv with
  | [_, _, _, _], _ => rfl

section
variable {a : Ics} {fl gain cb : Nat} {sf : Int} {v : List Int} (hi : QuadInfo a.info)
include hi

theorem dequant_oneBand (q : List Int) : dequant (oneBandIcs a gain cb sf) fl q =
    if carriesTable cb then splice (List.replicate fl 0) 0 ((slice 0 q 0 4).map (fun q => deq q sf)) else List.replicate fl 0 := by
  rw [dequant, blocks_quad (show QuadInfo (oneBandIcs a gain cb sf).info from hi)]
  rfl

theorem dequantInputs_oneBand (q : List Int) : dequantInputs (oneBandIcs a gain cb sf) fl q =
    if carriesTable cb then slice 0 q 0 4 else [] := by
  rw [dequantInputs, blocks_quad (show QuadInfo (oneBandIcs a gain cb sf).info from hi), List.flatMap_singleton]
  rfl

theorem dequant_quad (ht : carriesTable cb = true) (h4 : 4 ≤ fl) (hv : v.length = 4) :
    dequant (oneBandIcs a gain cb sf) fl (quadLines fl v) = quadSpectrum fl (v.map (fun q => deq q sf)) := by
  rw [dequant_oneBand hi, if_pos ht, quadLines, slice_quad 0 hv, splice_quad 0 (by rw [List.length_map, hv]) h4]
  rfl

theorem dequantInputs_quad (ht : carriesTable cb = true) (hv : v.length = 4) (hr : ∀ x ∈ v, |x| ≤ 8191) :
    (dequantInputs (oneBandIcs a gain cb sf) fl (quadLines fl v)).all quantInRange = true := by
  rw [dequantInputs_oneBand hi, if_pos ht, quadLines, slice_quad 0 hv, List.all_eq_true]
  exact fun x hx => decide_eq_true (hr x hx)

theorem dequant_tableless (ht : carriesTable cb = false) (q : List Int) :
    dequant (oneBandIcs a gain cb sf) fl q = List.replicate fl 0 := by
  rw [dequant_oneBand hi, if_neg (ne_true_of_eq_false ht)]

theorem dequantInputs_tableless (ht : carriesTable cb = false) (q : List Int) :
    (dequantInputs (oneBandIcs a gain cb sf) fl q).all quantInRange = true := by
  rw [dequantInputs_oneBand hi, if_neg (ne_true_of_eq_false ht)]
  rfl

end

theorem oneBandIcs_plain {a : Ics} {gain cb : Nat} {sf : Int} (hl : a.ltp = none) (h13 : cb ≠ 13) :
    PlainIcs (oneBandIcs a gain cb sf) where
  pulse := rfl
  tns := rfl
  ltp := hl
  noise := by simp [oneBandIcs, sectionsNoise, h13]

/-! ## The element -/

section
variable {e : Env} {w : Work} {l rest : List Bool}

theorem reads_bitsAt {m : Memory} {k : Cursor} (h : k.reads m (l ++ rest)) : bitsAt m k.base k.pos l.length = bitsToNat l := by
  rw [bitsAt_eq, (Cursor.reads_split h).2.1]

theorem reads_hasBits (h : w.eng.bc.reads e.mem (l ++ rest)) : w.hasBits l.length := ⟨h.1, (Cursor.reads_split h).1⟩

/-- A channel element begins: its tag is read. -/
theorem beginElement_takes {tag : Nat} (id : BitVec 3) (k : Nat) (p : Bool) (ht : tag < 16)
    (h : w.eng.bc.reads e.mem (natToBits 4 tag ++ rest)) (h1 : w.ds.channelsSeen + k ≤ e.par.maxChannels)
    (h2 : w.ds.elementsSeen + 1 ≤ e.par.maxElements) :
    beginElement e id k p w = .ok () ((w.begun id tag p).at 4) ∧ ((w.begun id tag p).at 4).eng.reads e.mem rest := by
  have hb := reads_hasBits h
  have hv := reads_bitsAt h
  have hr := (Cursor.reads_split h).2.2
  rw [natToBits_length] at hb hv hr
  rw [bitsToNat_natToBits 4 tag ht] at hv
  exact ⟨(beginElement_run id k p hb h1 h2).trans (by rw [hv]; rfl), rfl, hr⟩

/-- No SBR fill element among the bits ahead: its selector and nothing else begins with the bits 110. -/
theorem noFill_of_reads (h : w.eng.bc.reads e.mem rest) (hn : e.par.cap.sbr = true → ¬ [true, true, false] <+: rest) :
    w.noFill e := by
  intro hs hc h6
  obtain ⟨-, hp, hl⟩ := h
  have hlen : 3 ≤ w.eng.bc.bitsLeft := by
    have := ((Cursor.canRead_iff _ _).1 hc).2.2
    rw [Cursor.bitsLeft]
    omega
  have hsplit : w.eng.bc.bitsLeft = 3 + (w.eng.bc.bitsLeft - 3) := by omega
  rw [hsplit, bitList_add] at hl
  have hhead : bitList e.mem w.eng.bc.base w.eng.bc.pos 3 = [true, true, false] := by
    rw [bitsAt_eq] at h6
    exact bitsToNat_injective (by rw [bitList_length]; rfl) (h6.trans rfl)
  exact hn hs (hl ▸ hhead ▸ List.prefix_append _ _)

end

/-- RECONSTRUCT of one channel that carries a stream a without a tool and without SBR data. -/
theorem reconstructOne_plain {e : Env} {w : Work} {c : Nat} {a : Ics} {x : List Sample} (n : Nat) (ha : w.Carries c a)
    (hr : w.inRange c a) (hx : w.dequantised c a = x) (hu : w.sc.upsample = false)
    (hd : (w.frm.el.map (·.sbrData)).getD false = false) :
    ∃ u, reconstructOne e n c w = .ok () u ∧ Reconstructed w u ∧ Filtered e c a.info (w.putSpec c x) u := by
  subst hx
  exact ⟨_, (run_bind_ok (reconstructCore_one ha hr)).trans (stageSbr_none _ _ _ _ hu hd), ⟨rfl, rfl, rfl, rfl⟩, filtered_self⟩

/-- What the filterbank leaves of a one-band channel, in the terms of the statements. -/
theorem Filtered.filteredChannel {e : Env} {w u : Work} {c : Nat} {shape : Bool} {sc : StreamCfg} {d : DecoderState} {x : List Sample}
    (h : Filtered e c (oneBandInfo e.par sc shape) w u) (hsc : w.sc = sc) (hds : w.ds = d) (hx : (w.chanAt c).spec = x) :
    filteredChannel e.par sc c shape x d u := by
  subst hsc hds hx
  exact ⟨h.spec, h.time, h.overlap, h.shape⟩

theorem oneBandDataBits_length (cb : Nat) (f q : List Bool) : (oneBandDataBits cb f q).length = 12 + f.length + q.length := by
  simp only [oneBandDataBits, List.length_append, natToBits_length, List.length_cons, List.length_nil]
  omega

/-- Settles O42: the parse stores the codeword's values and the scale factor, and the stages have one block to dequantise. -/
theorem spectralSingleElement : Obligations.SpectralSingleElement := by
  unfold Obligations.SpectralSingleElement
  intro s i id tag gain cb shape f q k rest hi hcb htag hgain hl herr hbits hfill hquad hp hf hne hk h0 h255 hbp hq hqne hqv hqr
    hc hm he hu
  have hreads := State.reads_of_restBits herr hbits (by simp [natToBits_length])
  simp only [List.append_assoc] at hreads
  obtain ⟨hbegin, hr0⟩ := beginElement_takes (e := s.env) id 1 false htag hreads hc hm
  have ⟨_, _, _, h4, hmax⟩ := hquad
  have hcode : OneBandCode s.env s.work.sc.frameLen.toNat gain cb f.code q.code ((gain : Int) + (k - 60)) _ :=
    oneBandCode_quad hp hf hne hk hcb h4 h0 h255 hbp hq hqne hqv
  obtain ⟨t, hparse, hrt, pt⟩ := icsParse_own (w := (s.work.begun id tag false).at 4) (c := s.work.ds.channelsSeen) hgain he hmax hcode
    hquad hr0
  have hel : t.frm.el = _ := congrArg Frame.el pt.frm
  obtain ⟨b, hprog⟩ := singleElement_ok hi hbegin hparse hrt.2.1 hel rfl (fun hi => noFill_of_reads hrt.2 (hfill hi))
  have hsc : t.sc = s.work.sc := pt.sc
  have hds : t.ds = s.work.ds := pt.ds
  have hinfo := oneBandInfo_quad hquad shape
  have ht : carriesTable cb = true := by fin_cases hcb <;> rfl
  have hqs : ((t.withSbr b).chanAt s.work.ds.channelsSeen).qspec = quadLines s.work.sc.frameLen.toNat q.value :=
    congrArg Chan.qspec pt.chan
  have hcarries : (t.withSbr b).Carries s.work.ds.channelsSeen _ :=
    ⟨congrArg Chan.ics pt.chan, oneBandIcs_plain rfl (by fin_cases hcb <;> decide)⟩
  obtain ⟨u, hrec, hu', hfil⟩ := reconstructOne_plain (e := s.env) (w := t.withSbr b)
    (x := quadSpectrum s.work.sc.frameLen.toNat (q.value.map (fun v => deq v (gain + (k - 60))))) s.work.ds.elementsSeen hcarries
    (by rw [Work.inRange, hqs, show (t.withSbr b).sc = _ from hsc]; exact dequantInputs_quad hinfo ht hqv hqr)
    (by rw [Work.dequantised, hqs, show (t.withSbr b).sc = _ from hsc]; exact dequant_quad hinfo ht h4 hqv)
    (by rw [show (t.withSbr b).sc = _ from hsc]; exact hu) (by rw [show (t.withSbr b).frm.el = _ from hel]; rfl)
  have helems : u.frm.elems = s.work.frm.elems ++ [⟨id, BitVec.ofNat 4 tag, false⟩] :=
    (congrArg Frame.elems hu'.frm).trans (congrArg Frame.elems pt.frm)
  obtain ⟨hch, hels, hr1, hr2⟩ := hu'.counts
  refine ⟨_, exec_element_ok (singleElement_mem hi) hl (hprog u hrec (lastPs_concat helems rfl)), ?bc, ?qspec, ?filtered,
    (congrArg Frame.el hu'.frm).trans hel, congrArg (· + 1) (hch.trans (congrArg _ hds)), congrArg (· + 1) (hels.trans (congrArg _ hds)),
    hr1.trans (congrArg _ hds), hr2.trans (congrArg _ hds), hu'.sc.trans hsc⟩
  case bc =>
    refine (congrArg Engine.bc hu'.eng).trans (pt.bc.trans ?_)
    rw [oneBandDataBits_length]
    show ({ s.work.eng.bc with pos := s.work.eng.bc.pos + 4 + (19 + (12 + f.code.length + q.code.length)) } : Cursor) = _
    rw [show s.work.eng.bc.pos + 4 + (19 + (12 + f.code.length + q.code.length)) =
      s.work.eng.bc.pos + 35 + f.code.length + q.code.length by omega]
  case qspec =>
    exact hfil.qspec.trans ((congrArg Chan.qspec (Work.chanAt_putChan _ _ _)).trans hqs)
  case filtered =>
    exact hfil.filteredChannel hsc hds (congrArg Chan.spec (Work.chanAt_putChan _ _ _))

end Sys2Proof.Machine
end

section
/-! PROOFS. CPE with a common window: M/S and intensity stereo on one band (48_orchestrator.md R417, R424, 44_noiseless.md R308, R312). -/

namespace Sys2Proof.Machine

/-! ## The shared ics_info and the M/S mask (R417) -/

/-- The first channel's stream once the mask of its one band is read. -/
def Ics.masked (a : Ics) (used : Bool) : Ics := { a with msMaskPresent := 1, msUsed := [[used]] }

/-- State t is w but for its engine and its channels. -/
structure ChansOnly (w t : Work) : Prop where
  sc : t.sc = w.sc
  ds : t.ds = w.ds
  frm : t.frm = { w.frm with chans := t.frm.chans }

theorem ChansOnly.trans {w v t : Work} (h : ChansOnly w v) (h' : ChansOnly v t) : ChansOnly w t :=
  ⟨h'.sc.trans h.sc, h'.ds.trans h.ds, by rw [h'.frm, h.frm]⟩

theorem Puts.chansOnly {n c : Nat} {f : Chan → Chan} {w t : Work} (h : Puts n c f w t) : ChansOnly w t := ⟨h.sc, h.ds, h.frm⟩

theorem icsInfoPair_oneBand {e : Env} {w : Work} {c d : Nat} {shape : Bool} {rest : List Bool} (hcd : c ≠ d)
    (hq : quadBand e.par w.sc) (h : w.eng.reads e.mem (oneBandInfoBits shape ++ rest)) :
    ∃ v, icsInfoPair e c d w = .ok () v ∧ v.eng.reads e.mem rest ∧ ChansOnly w v ∧
      (v.chanAt c).ics = some (Ics.start (oneBandInfo e.par w.sc shape) none) ∧
      (v.chanAt d).ics = some (Ics.start (oneBandInfo e.par w.sc shape) none) := by
  obtain ⟨hi, hr⟩ := wkOfRd_takes h fun _ =>
    takes_icsInfo_oneBand (sc := w.sc) hq true shape (w.ds.ltpLagPrev.getD c 0) (w.ds.ltpLagPrev.getD d 0)
  set start : Chan → Chan := fun ch => { ch with ics := some (Ics.start (oneBandInfo e.par w.sc shape) none) } with hstart
  refine ⟨((w.moved (oneBandInfoBits shape).length w.eng.regs).putChan c start).putChan d start, ?_, hr, ⟨rfl, rfl, rfl⟩, ?_, ?_⟩
  · unfold icsInfoPair
    rw [run_bind_ok (show Wk.sc w = .ok w.sc w from rfl), run_bind_ok (show Wk.ds w = .ok w.ds w from rfl), run_bind_ok hi]
    rfl
  · rw [Work.chanAt_putChan_ne _ _ hcd, Work.chanAt_putChan]
  · rw [Work.chanAt_putChan]

theorem commonWindow_oneBand {e : Env} {w : Work} {c d : Nat} {shape used : Bool} {rest : List Bool} (hcd : c ≠ d)
    (hq : quadBand e.par w.sc) (h : w.eng.reads e.mem (oneBandInfoBits shape ++ ([false, true, used] ++ rest))) :
    ∃ v, commonWindow e c d w = .ok () v ∧ v.eng.reads e.mem rest ∧ ChansOnly w v ∧
      (v.chanAt c).ics = some ((Ics.start (oneBandInfo e.par w.sc shape) none).masked used) ∧
      (v.chanAt d).ics = some (Ics.start (oneBandInfo e.par w.sc shape) none) := by
  obtain ⟨v, hv, hr, hrec, hc, hd⟩ := icsInfoPair_oneBand hcd hq h
  obtain ⟨hm, hr⟩ := wkOfRd_takes hr fun _ => takes_msMask_oneBand (oneBandInfo_quad hq shape) used
  set mask : Chan → Chan := fun ch => { ch with ics := ch.ics.map (Ics.masked · used) } with hmask
  have pt := puts_putChan v c [false, true, used].length v.eng.regs mask
  refine ⟨_, (run_bind_ok hv).trans ((run_bind_ok (chanIcs_of_ics hc)).trans ((run_bind_ok hm).trans rfl)), hr,
    hrec.trans pt.chansOnly, ?_, ?_⟩
  · exact (congrArg Chan.ics pt.chan).trans (congrArg (Option.map (Ics.masked · used)) hc)
  · exact (congrArg Chan.ics (pt.other d hcd.symm)).trans hd

/-! ## The stereo stage on one block (R308, R312) -/

section
variable {a b : Ics} {fl : Nat} {x y : List Sample}

theorem msApply_quad (hi : QuadInfo a.info) (s : List Sample × List Sample) : msApply a b fl s =
    if msFlag a 0 0 && !noMsCodebook (bandCb a 0 0) && !noMsCodebook (bandCb b 0 0) then msBlock s ⟨0, 0, 0, 0, 4⟩ else s := by
  rw [msApply, blocks_quad hi]
  rfl

theorem isApply_quad (hi : QuadInfo b.info) (first second : List Sample) : isApply a b fl first second =
    if bandCb b 0 0 = 14 ∨ bandCb b 0 0 = 15 then
      isBlock (isSign a b 0 0 * Config.isScale (bandSf b 0 0)) first second ⟨0, 0, 0, 0, 4⟩
    else second := by
  rw [isApply, blocks_quad hi]
  rfl

theorem splice_quadSpectrum (hx : x.length = 4) (hy : y.length = 4) : splice (quadSpectrum fl x) 0 y = quadSpectrum fl y := by
  rw [quadSpectrum, splice, List.take_zero, List.nil_append, hy, Nat.zero_add, List.drop_left' hx,
    List.take_of_length_le (by simp [hx, hy])]
  rfl

theorem slice_quadSpectrum (hx : x.length = 4) : slice 0 (quadSpectrum fl x) 0 4 = x := slice_quad 0 hx _

theorem msBlock_quad (hx : x.length = 4) (hy : y.length = 4) : msBlock (quadSpectrum fl x, quadSpectrum fl y) ⟨0, 0, 0, 0, 4⟩ =
    (quadSpectrum fl (List.zipWith (· + ·) x y), quadSpectrum fl (List.zipWith (· - ·) x y)) := by
  have hz : ∀ f : Sample → Sample → Sample, (List.zipWith f x y).length = 4 := fun f => by simp [hx, hy]
  simp only [msBlock, slice_quadSpectrum hx, slice_quadSpectrum hy, splice_quadSpectrum hx (hz _), splice_quadSpectrum hy (hz _)]

theorem isBlock_quad (scale : Sample) (hx : x.length = 4) (h4 : 4 ≤ fl) :
    isBlock scale (quadSpectrum fl x) (List.replicate fl 0) ⟨0, 0, 0, 0, 4⟩ = quadSpectrum fl (x.map (fun v => scale * v)) := by
  rw [isBlock, slice_quadSpectrum hx]
  exact splice_quad 0 (by rw [List.length_map, hx]) h4

end

/-- RECONSTRUCT of a common-window pair without a tool and without SBR data, by the spectra its stereo stage makes. -/
theorem reconstructPair_common {e : Env} {w : Work} {c : Nat} {a b : Ics} {l m r : List Sample} (n : Nat) (ha : w.Carries c a)
    (hb : w.Carries (c + 1) b) (hra : w.inRange c a) (hrb : w.inRange (c + 1) b)
    (hm : msApply a b w.sc.frameLen.toNat (w.dequantised c a, w.dequantised (c + 1) b) = (l, m))
    (hr : isApply a b w.sc.frameLen.toNat l m = r) (hu : w.sc.upsample = false)
    (hd : (w.frm.el.map (·.sbrData)).getD false = false) :
    ∃ v u, reconstructPair e n c true w = .ok () u ∧ Reconstructed w u ∧ v.sc = w.sc ∧ v.ds = w.ds ∧
      (v.chanAt c).spec = l ∧ (v.chanAt (c + 1)).spec = r ∧ Filtered e c a.info v u ∧ Filtered e (c + 1) b.info v u := by
  have hcd : c ≠ c + 1 := (Nat.succ_ne_self c).symm
  set p := w.dequantisedPair c (c + 1) a b with hp
  have hpa : p.Carries c a := ha.dequantisedPair
  have hpb : p.Carries (c + 1) b := hb.dequantisedPair
  have hspec : ((p.frm.chans.getD c Wk.noChan).spec, (p.frm.chans.getD (c + 1) Wk.noChan).spec) =
      (w.dequantised c a, w.dequantised (c + 1) b) :=
    Prod.ext (congrArg Chan.spec (dequantisedPair_first hcd)) (congrArg Chan.spec (dequantisedPair_second hcd))
  have hst : stageStereo c (c + 1) p = .ok () ((p.putSpec c l).putSpec (c + 1) r) := by
    unfold stageStereo
    rw [run_bind_ok (chanIcs_run hpa), run_bind_ok (chanIcs_run hpb), run_bind_ok (chan_run c p), run_bind_ok (chan_run (c + 1) p),
      run_bind_ok (show Wk.sc p = .ok w.sc p from rfl), hspec, hm]
    dsimp only
    rw [hr]
    rfl
  have hcore := reconstructCore_pair (e := e) hcd ha hb hra hrb hst ((hpa.putSpec c l).putSpec (c + 1) r)
    ((hpb.putSpec c l).putSpec (c + 1) r)
  refine ⟨(p.putSpec c l).putSpec (c + 1) r, _, (run_bind_ok hcore).trans (stageSbr_none _ _ _ _ hu hd), ⟨rfl, rfl, rfl, rfl⟩,
    rfl, rfl, ?_, ?_, filtered_self.other hcd, filtered_after_other hcd⟩
  · exact congrArg Chan.spec ((Work.chanAt_putChan_ne _ _ hcd).trans (Work.chanAt_putChan _ _ _))
  · exact congrArg Chan.spec (Work.chanAt_putChan _ _ _)

section
variable {t : Work} {c : Nat} {a : Ics} {sc : StreamCfg} {q : List Int} (hsc : t.sc = sc) (hq : (t.chanAt c).qspec = q)
include hsc hq

theorem inRange_of (h : (dequantInputs a sc.frameLen.toNat q).all quantInRange = true) : (t.withSbr none).inRange c a := by
  subst hsc hq
  exact h

theorem dequantised_of : (t.withSbr none).dequantised c a = dequant a sc.frameLen.toNat q := by
  subst hsc hq
  rfl

end

/-! ## The element -/

/-- The stream of the first channel: gain, codebook and scale factor under the masked ics_info. -/
def firstIcs (p : Params) (sc : StreamCfg) (shape used : Bool) (gain cb : Nat) (sf : Int) : Ics :=
  oneBandIcs ((Ics.start (oneBandInfo p sc shape) none).masked used) gain cb sf

/-- The stream of the second channel. -/
def secondIcs (p : Params) (sc : StreamCfg) (shape : Bool) (gain cb : Nat) (sf : Int) : Ics :=
  oneBandIcs (Ics.start (oneBandInfo p sc shape) none) gain cb sf

section
variable {e : Env} {w : Work} {tag gainA gainB cbA cbB : Nat} {shape used : Bool} {sfA sfB : Int} {qA qB : List Int}
  {fA fB codeA codeB rest : List Bool}

/-- The parse of a common-window pair: both channels carry their streams. -/
theorem commonPair_parses {c d : Nat} (hcd : c ≠ d) (hq : quadBand e.par w.sc) (hgA : gainA < 256) (hgB : gainB < 256)
    (he : w.sc.erFlags = 0) (hdA : OneBandCode e w.sc.frameLen.toNat gainA cbA fA codeA sfA qA)
    (hdB : OneBandCode e w.sc.frameLen.toNat gainB cbB fB codeB sfB qB)
    (h : w.eng.reads e.mem (oneBandInfoBits shape ++ ([false, true, used] ++ (natToBits 8 gainA ++ (oneBandDataBits cbA fA codeA ++
      (natToBits 8 gainB ++ (oneBandDataBits cbB fB codeB ++ rest))))))) :
    ∃ v1 v2 v3, commonWindow e c d w = .ok () v1 ∧ icsParse e c true v1 = .ok () v2 ∧ icsParse e d true v2 = .ok () v3 ∧
      v3.eng.reads e.mem rest ∧ ChansOnly w v3 ∧
      (v3.chanAt c).ics = some (firstIcs e.par w.sc shape used gainA cbA sfA) ∧ (v3.chanAt c).qspec = qA ∧
      (v3.chanAt d).ics = some (secondIcs e.par w.sc shape gainB cbB sfB) ∧ (v3.chanAt d).qspec = qB := by
  have hi := oneBandInfo_quad hq shape
  have ⟨_, _, _, _, hmax⟩ := hq
  obtain ⟨v1, h1, r1, c1, hc1, hd1⟩ := commonWindow_oneBand hcd hq h
  obtain ⟨v2, h2, r2, p2⟩ := icsParse_shared hgA (c1.sc ▸ he) hmax (c1.sc ▸ hdA) hc1 hi r1
  have hsc2 : v2.sc = w.sc := p2.sc.trans c1.sc
  obtain ⟨v3, h3, r3, p3⟩ := icsParse_shared hgB (hsc2 ▸ he) hmax (hsc2 ▸ hdB) ((congrArg Chan.ics (p2.other d hcd.symm)).trans hd1)
    hi r2
  have hfirst := (p3.other c hcd).trans p2.chan
  exact ⟨v1, v2, v3, h1, h2, h3, r3, (c1.trans p2.chansOnly).trans p3.chansOnly, congrArg Chan.ics hfirst,
    congrArg Chan.qspec hfirst, congrArg Chan.ics p3.chan, congrArg Chan.qspec p3.chan⟩

/-- A CPE with a common window over one band, by the spectra l and r its stereo stage makes. -/
theorem commonPair_program {l m r : List Sample} (htag : tag < 16) (hq : quadBand e.par w.sc) (hgA : gainA < 256) (hgB : gainB < 256)
    (he : w.sc.erFlags = 0) (hdA : OneBandCode e w.sc.frameLen.toNat gainA cbA fA codeA sfA qA)
    (hdB : OneBandCode e w.sc.frameLen.toNat gainB cbB fB codeB sfB qB)
    (h : w.eng.bc.reads e.mem (natToBits 4 tag ++ ([true] ++ (oneBandInfoBits shape ++ ([false, true, used] ++ (natToBits 8 gainA ++
      (oneBandDataBits cbA fA codeA ++ (natToBits 8 gainB ++ (oneBandDataBits cbB fB codeB ++ rest)))))))))
    (hn : e.par.cap.sbr = true → ¬ [true, true, false] <+: rest)
    (hc : w.ds.channelsSeen + 2 ≤ e.par.maxChannels) (hm : w.ds.elementsSeen + 1 ≤ e.par.maxElements) (hu : w.sc.upsample = false)
    (hA : cbA ≠ 13) (hB : cbB ≠ 13)
    (hrA : (dequantInputs (firstIcs e.par w.sc shape used gainA cbA sfA) w.sc.frameLen.toNat qA).all quantInRange = true)
    (hrB : (dequantInputs (secondIcs e.par w.sc shape gainB cbB sfB) w.sc.frameLen.toNat qB).all quantInRange = true)
    (hms : msApply (firstIcs e.par w.sc shape used gainA cbA sfA) (secondIcs e.par w.sc shape gainB cbB sfB) w.sc.frameLen.toNat
      (dequant (firstIcs e.par w.sc shape used gainA cbA sfA) w.sc.frameLen.toNat qA,
        dequant (secondIcs e.par w.sc shape gainB cbB sfB) w.sc.frameLen.toNat qB) = (l, m))
    (his : isApply (firstIcs e.par w.sc shape used gainA cbA sfA) (secondIcs e.par w.sc shape gainB cbB sfB) w.sc.frameLen.toNat l m = r) :
    ∃ t u, elementProgram .cpe e w = .ok () (u.counted 2) ∧ Reconstructed t u ∧ t.sc = w.sc ∧ t.ds = w.ds ∧
      t.frm.el = some ⟨1, BitVec.ofNat 4 tag, w.ds.channelsSeen, true, true, false⟩ ∧
      filteredChannel e.par w.sc w.ds.channelsSeen shape l w.ds u ∧
      filteredChannel e.par w.sc (w.ds.channelsSeen + 1) shape r w.ds u := by
  have hcd : w.ds.channelsSeen ≠ w.ds.channelsSeen + 1 := (Nat.succ_ne_self _).symm
  obtain ⟨hbegin, hr0⟩ := beginElement_takes (e := e) 1 2 true htag h hc hm
  obtain ⟨hbit, hr1⟩ := wkOfRd_takes hr0 fun _ => takes_bit true
  obtain ⟨v1, v2, t, h1, h2, h3, r3, ht, hca, hqa, hcb, hqb⟩ := commonPair_parses (w := ((w.begun 1 tag true).at 5).withCommon true)
    hcd hq hgA hgB he hdA hdB hr1
  have hel : t.frm.el = some ⟨1, BitVec.ofNat 4 tag, w.ds.channelsSeen, true, true, false⟩ := congrArg Frame.el ht.frm
  have hsc : t.sc = w.sc := ht.sc
  have hds : t.ds = w.ds := ht.ds
  obtain ⟨v, u, hrec, hu', hvsc, hvds, hvl, hvr, hfa, hfb⟩ := reconstructPair_common (e := e) (w := t.withSbr none)
    (c := w.ds.channelsSeen) (l := l) (m := m) (r := r) w.ds.elementsSeen ⟨hca, oneBandIcs_plain rfl hA⟩
    ⟨hcb, oneBandIcs_plain rfl hB⟩ (inRange_of hsc hqa hrA) (inRange_of hsc hqb hrB)
    (by rw [dequantised_of hsc hqa, dequantised_of hsc hqb, show (t.withSbr none).sc = w.sc from hsc]; exact hms)
    (by rw [show (t.withSbr none).sc = w.sc from hsc]; exact his) (by rw [show (t.withSbr none).sc = w.sc from hsc]; exact hu)
    (by rw [show (t.withSbr none).frm.el = _ from hel]; rfl)
  refine ⟨t.withSbr none, u, pairElement_ok hbegin hbit h1 h2 h3 r3.2.1 hel rfl (noFill_of_reads r3.2 hn) hrec, hu', hsc, hds, hel,
    ?_, ?_⟩
  · exact hfa.filteredChannel (hvsc.trans hsc) (hvds.trans hds) hvl
  · exact hfb.filteredChannel (hvsc.trans hsc) (hvds.trans hds) hvr

end

/-! ## The two kinds of a second channel -/

section
variable {p : Params} {sc : StreamCfg} {shape used : Bool} {gainA gainB cbA cbB fl : Nat} {sfA sfB : Int} {x y : List Sample}

theorem msFlag_firstIcs : msFlag (firstIcs p sc shape used gainA cbA sfA) 0 0 = used := by
  cases used <;> rfl

/-- Two coded channels: sum and difference when flagged (R308). -/
theorem msApply_coded (hq : quadBand p sc) (hA : cbA ∈ [1, 2]) (hB : cbB ∈ [1, 2]) (hx : x.length = 4) (hy : y.length = 4) :
    msApply (firstIcs p sc shape used gainA cbA sfA) (secondIcs p sc shape gainB cbB sfB) fl (quadSpectrum fl x, quadSpectrum fl y) =
      (quadSpectrum fl (if used then List.zipWith (· + ·) x y else x),
        quadSpectrum fl (if used then List.zipWith (· - ·) x y else y)) := by
  have hcA : noMsCodebook (bandCb (firstIcs p sc shape used gainA cbA sfA) 0 0) = false := by fin_cases hA <;> rfl
  have hcB : noMsCodebook (bandCb (secondIcs p sc shape gainB cbB sfB) 0 0) = false := by fin_cases hB <;> rfl
  rw [msApply_quad (oneBandInfo_quad hq shape), msFlag_firstIcs, hcA, hcB, msBlock_quad hx hy]
  cases used <;> rfl

theorem isApply_coded (hq : quadBand p sc) (hB : cbB ∈ [1, 2]) (first second : List Sample) :
    isApply (firstIcs p sc shape used gainA cbA sfA) (secondIcs p sc shape gainB cbB sfB) fl first second = second := by
  rw [isApply_quad (oneBandInfo_quad hq shape), if_neg]
  show ¬(cbB = 14 ∨ cbB = 15)
  fin_cases hB <;> decide

/-- An intensity channel has no M/S band (R308). -/
theorem msApply_intensity (hq : quadBand p sc) (hB : cbB ∈ [14, 15]) (s : List Sample × List Sample) :
    msApply (firstIcs p sc shape used gainA cbA sfA) (secondIcs p sc shape gainB cbB sfB) fl s = s := by
  have hcB : noMsCodebook (bandCb (secondIcs p sc shape gainB cbB sfB) 0 0) = true := by fin_cases hB <;> rfl
  rw [msApply_quad (oneBandInfo_quad hq shape), hcB, Bool.not_true, Bool.and_false]
  rfl

/-- An intensity channel is the first one scaled, with the sign of its codebook and of the flag (R312). -/
theorem isApply_intensity (hq : quadBand p sc) (hB : cbB ∈ [14, 15]) (hx : x.length = 4) (h4 : 4 ≤ fl) :
    isApply (firstIcs p sc shape used gainA cbA sfA) (secondIcs p sc shape gainB cbB sfB) fl (quadSpectrum fl x)
      (List.replicate fl 0) = quadSpectrum fl (x.map (fun v =>
        (if cbB = 15 then 1 else -1) * (if used then -1 else 1) * Config.isScale sfB * v)) := by
  have hsign : isSign (firstIcs p sc shape used gainA cbA sfA) (secondIcs p sc shape gainB cbB sfB) 0 0 =
      (if cbB = 15 then 1 else -1) * (if used then -1 else 1) := by
    show (if (1 == 1 && used) = true then -(if cbB = 15 then (1 : Sample) else -1) else if cbB = 15 then 1 else -1) = _
    cases used <;> simp
  rw [isApply_quad (oneBandInfo_quad hq shape), if_pos, isBlock_quad _ hx h4, hsign]
  · rfl
  · show cbB = 14 ∨ cbB = 15
    fin_cases hB <;> decide

end

/-- Settles O43: the parse gives one block for each channel, and the stereo stage has the one flagged band. -/
theorem commonWindowPair : Obligations.CommonWindowPair := by
  unfold Obligations.CommonWindowPair
  intro s tag gainA gainB cbA cbB shape used fa fb qa qb ka kb rest htag hgA hgB hcbA hcbB hl herr hbits hfill hquad hp hfa hfane
    hfav hfb hfbne hfbv hA0 hA255 hB255 hBall hbookA hqa hqane hqal hqar hbookB hc hm he hu fl a b sign left right
  have hreads := State.reads_of_restBits herr hbits (by simp [natToBits_length])
  simp only [List.append_assoc] at hreads
  have ⟨_, _, _, h4, _⟩ := hquad
  have hi := oneBandInfo_quad hquad shape
  have htA : carriesTable cbA = true := by fin_cases hcbA <;> rfl
  have hA13 : cbA ≠ 13 := by fin_cases hcbA <;> decide
  have hB13 : cbB ≠ 13 := by fin_cases hcbB <;> decide
  have hal : a.length = 4 := by rw [List.length_map, hqal]
  have hdA : OneBandCode s.env fl gainA cbA fa.code qa.code ((gainA : Int) + (ka - 60)) (quadLines fl qa.value) :=
    oneBandCode_quad hp hfa hfane hfav hcbA h4 hA0 hA255 hbookA hqa hqane hqal
  have hdeqA : dequant (firstIcs s.env.par s.work.sc shape used gainA cbA ((gainA : Int) + (ka - 60))) fl (quadLines fl qa.value) =
      quadSpectrum fl a := dequant_quad hi htA h4 hqal
  have hrA := dequantInputs_quad (a := (Ics.start (oneBandInfo s.par s.work.sc shape) none).masked used) (gain := gainA) (cb := cbA)
    (sf := (gainA : Int) + (ka - 60)) (fl := fl) hi htA hqal hqar
  have hpair : ∃ t u, elementProgram .cpe s.env s.work = .ok () (u.counted 2) ∧ Reconstructed t u ∧ t.sc = s.work.sc ∧
      t.ds = s.work.ds ∧ t.frm.el = some ⟨1, BitVec.ofNat 4 tag, s.work.ds.channelsSeen, true, true, false⟩ ∧
      filteredChannel s.par s.work.sc s.work.ds.channelsSeen shape (quadSpectrum fl left) s.work.ds u ∧
      filteredChannel s.par s.work.sc (s.work.ds.channelsSeen + 1) shape (quadSpectrum fl right) s.work.ds u := by
    by_cases h2 : cbB ≤ 2
    · have hB : cbB ∈ [1, 2] := by
        simp only [List.mem_cons, List.not_mem_nil, or_false] at hcbB ⊢
        omega
      obtain ⟨hbook, hqb, hqbne, hqbl, hqbr⟩ := hbookB h2
      have htB : carriesTable cbB = true := by fin_cases hB <;> rfl
      have hbl : b.length = 4 := by rw [List.length_map, hqbl]
      have hleft : left = if used then List.zipWith (· + ·) a b else a := by simp [left, h2]
      have hright : right = if used then List.zipWith (· - ·) a b else b := by simp [right, h2]
      rw [if_pos h2] at hreads
      rw [hleft, hright]
      refine commonPair_program htag hquad hgA hgB he hdA (oneBandCode_quad hp hfb hfbne hfbv hB h4 (hB255 h2).1 (hB255 h2).2 hbook
        hqb hqbne hqbl) hreads hfill hc hm hu hA13 hB13 hrA (dequantInputs_quad hi htB hqbl hqbr) ?_ (isApply_coded hquad hB _ _)
      exact (congrArg (msApply _ _ _) (Prod.ext hdeqA (dequant_quad hi htB h4 hqbl))).trans (msApply_coded hquad hcbA hB hal hbl)
    · have hB : cbB ∈ [14, 15] := by
        simp only [List.mem_cons, List.not_mem_nil, or_false] at hcbB ⊢
        omega
      have htB : carriesTable cbB = false := by fin_cases hB <;> rfl
      have hleft : left = a := by simp [left, h2]
      have hright : right = a.map (fun v => sign * Config.isScale (kb - 60) * v) := by simp [right, h2]
      have hother : sfOtherFails s.par (kb - 60) = false := by
        cases hall : s.par.sfRangeCheckAll with
        | false => rw [sfOtherFails, hall, Bool.false_and]
        | true => rw [sfOtherFails, (sfInRange_iff _).2 (hBall (Nat.lt_of_not_le h2) hall), Bool.not_true, Bool.and_false]
      rw [if_neg h2] at hreads
      rw [hleft, hright]
      refine commonPair_program htag hquad hgA hgB he hdA (oneBandCode_intensity hp hfb hfbne hfbv fl gainB hB hother) hreads hfill hc hm
        hu hA13 hB13 hrA (dequantInputs_tableless hi htB _) ?_ (isApply_intensity hquad hB hal h4)
      exact (congrArg (msApply _ _ _) (Prod.ext hdeqA (dequant_tableless hi htB _))).trans (msApply_intensity hquad hB _)
  obtain ⟨t, u, hprog, hu', hsc, hds, hel, hone, htwo⟩ := hpair
  obtain ⟨hch, hels, hr1, hr2⟩ := hu'.counts
  exact ⟨_, exec_element_ok (by decide) hl hprog, hone, htwo, (congrArg Frame.el hu'.frm).trans hel,
    congrArg (· + 2) (hch.trans (congrArg _ hds)), congrArg (· + 1) (hels.trans (congrArg _ hds)), hr1.trans (congrArg _ hds),
    hr2.trans (congrArg _ hds), hu'.sc.trans hsc⟩

end Sys2Proof.Machine
end
